-- ==== Sys2Proof/Word.lean ====
section
/-!
DEFINITION. The words of the machine: a word is 32 bits, a halfword 16, a byte 8 (spec/00_scope.md rules R5, R7).
-/
namespace Sys2Proof

/-- A register value, an address or an ARM instruction: a vector of 32 bits, on which `+` and `-` wrap modulo 2^32 (R7). -/
abbrev Word := BitVec 32

/-- A Thumb instruction or a halfword of memory: 16 bits. -/
abbrev Half := BitVec 16

/-- A byte of memory: 8 bits. -/
abbrev Byte := BitVec 8

end Sys2Proof
end

