-- ==== Sys2Proof/Syntax.lean ====
section
/-!
DEFINITION. The syntax of the ARM and Thumb instructions of the ARM9EJ-S (spec/30_encoding.md rules R100 to R128):
one constructor of `Instr` for each row of spec/opcode_table.json, and the small types its fields are made of.
A constructor of the Thumb table begins with `thumb`. Field names are those of the encoding: `rn`, `rd`, `rs`,
`rm` are four-bit register numbers (15 is the PC), `sb` is the S bit, `wb` the W bit, `u` the U bit.
-/
namespace Sys2Proof

/-- A register number of an ARM-state encoding; 15 names the PC. -/
abbrev Reg := BitVec 4

/-- A register number of a Thumb encoding that reaches r0 to r7 only (R24). -/
abbrev LowReg := BitVec 3

/-- The fifteen conditions (R9). The sixteenth value of the field, 1111, is not a condition. -/
inductive Cond where
  | eq | ne | cs | cc | mi | pl | vs | vc | hi | ls | ge | lt | gt | le | al
deriving DecidableEq, Repr

/-- The shift of a register operand: bits [6:5] of formats A_DPS, A_DPR and A_LSR (R116). With an amount of zero
in A_DPS and A_LSR, `ror` means RRX (R106). -/
inductive Shift where
  | lsl | lsr | asr | ror
deriving DecidableEq, Repr

/-- The indexing of a load or store, from its P and W bits (R108, R110). P = 0 with W = 1 is not one of these:
in addressing mode 2 it selects the T instructions, which have constructors of their own. -/
inductive Index where
  /-- P = 1, W = 0: the address is base plus or minus offset, the base is kept. -/
  | offset
  /-- P = 1, W = 1: the address is base plus or minus offset, the base takes it. -/
  | pre
  /-- P = 0, W = 0: the address is the base, which then takes base plus or minus offset. -/
  | post
deriving DecidableEq, Repr

/-- The instructions: one constructor for each row of spec/opcode_table.json, in the order of its rows. -/
inductive Instr where
  /-- AND, format A_DPI (R182). -/
  | andImm (cond : Cond) (sb : Bool) (rn rd : Reg) (rot : BitVec 4) (imm8 : BitVec 8)
  /-- AND, format A_DPS (R182). -/
  | andShift (cond : Cond) (sb : Bool) (rn rd : Reg) (amount : BitVec 5) (shift : Shift) (rm : Reg)
  /-- AND, format A_DPR (R182). -/
  | andRegShift (cond : Cond) (sb : Bool) (rn rd rs : Reg) (shift : Shift) (rm : Reg)
  /-- EOR, format A_DPI (R183). -/
  | eorImm (cond : Cond) (sb : Bool) (rn rd : Reg) (rot : BitVec 4) (imm8 : BitVec 8)
  /-- EOR, format A_DPS (R183). -/
  | eorShift (cond : Cond) (sb : Bool) (rn rd : Reg) (amount : BitVec 5) (shift : Shift) (rm : Reg)
  /-- EOR, format A_DPR (R183). -/
  | eorRegShift (cond : Cond) (sb : Bool) (rn rd rs : Reg) (shift : Shift) (rm : Reg)
  /-- SUB, format A_DPI (R152). -/
  | subImm (cond : Cond) (sb : Bool) (rn rd : Reg) (rot : BitVec 4) (imm8 : BitVec 8)
  /-- SUB, format A_DPS (R152). -/
  | subShift (cond : Cond) (sb : Bool) (rn rd : Reg) (amount : BitVec 5) (shift : Shift) (rm : Reg)
  /-- SUB, format A_DPR (R152). -/
  | subRegShift (cond : Cond) (sb : Bool) (rn rd rs : Reg) (shift : Shift) (rm : Reg)
  /-- RSB, format A_DPI (R154). -/
  | rsbImm (cond : Cond) (sb : Bool) (rn rd : Reg) (rot : BitVec 4) (imm8 : BitVec 8)
  /-- RSB, format A_DPS (R154). -/
  | rsbShift (cond : Cond) (sb : Bool) (rn rd : Reg) (amount : BitVec 5) (shift : Shift) (rm : Reg)
  /-- RSB, format A_DPR (R154). -/
  | rsbRegShift (cond : Cond) (sb : Bool) (rn rd rs : Reg) (shift : Shift) (rm : Reg)
  /-- ADD, format A_DPI (R150). -/
  | addImm (cond : Cond) (sb : Bool) (rn rd : Reg) (rot : BitVec 4) (imm8 : BitVec 8)
  /-- ADD, format A_DPS (R150). -/
  | addShift (cond : Cond) (sb : Bool) (rn rd : Reg) (amount : BitVec 5) (shift : Shift) (rm : Reg)
  /-- ADD, format A_DPR (R150). -/
  | addRegShift (cond : Cond) (sb : Bool) (rn rd rs : Reg) (shift : Shift) (rm : Reg)
  /-- ADC, format A_DPI (R151). -/
  | adcImm (cond : Cond) (sb : Bool) (rn rd : Reg) (rot : BitVec 4) (imm8 : BitVec 8)
  /-- ADC, format A_DPS (R151). -/
  | adcShift (cond : Cond) (sb : Bool) (rn rd : Reg) (amount : BitVec 5) (shift : Shift) (rm : Reg)
  /-- ADC, format A_DPR (R151). -/
  | adcRegShift (cond : Cond) (sb : Bool) (rn rd rs : Reg) (shift : Shift) (rm : Reg)
  /-- SBC, format A_DPI (R153). -/
  | sbcImm (cond : Cond) (sb : Bool) (rn rd : Reg) (rot : BitVec 4) (imm8 : BitVec 8)
  /-- SBC, format A_DPS (R153). -/
  | sbcShift (cond : Cond) (sb : Bool) (rn rd : Reg) (amount : BitVec 5) (shift : Shift) (rm : Reg)
  /-- SBC, format A_DPR (R153). -/
  | sbcRegShift (cond : Cond) (sb : Bool) (rn rd rs : Reg) (shift : Shift) (rm : Reg)
  /-- RSC, format A_DPI (R155). -/
  | rscImm (cond : Cond) (sb : Bool) (rn rd : Reg) (rot : BitVec 4) (imm8 : BitVec 8)
  /-- RSC, format A_DPS (R155). -/
  | rscShift (cond : Cond) (sb : Bool) (rn rd : Reg) (amount : BitVec 5) (shift : Shift) (rm : Reg)
  /-- RSC, format A_DPR (R155). -/
  | rscRegShift (cond : Cond) (sb : Bool) (rn rd rs : Reg) (shift : Shift) (rm : Reg)
  /-- TST, format A_DPI (R180). -/
  | tstImm (cond : Cond) (rn : Reg) (rot : BitVec 4) (imm8 : BitVec 8)
  /-- TST, format A_DPS (R180). -/
  | tstShift (cond : Cond) (rn : Reg) (amount : BitVec 5) (shift : Shift) (rm : Reg)
  /-- TST, format A_DPR (R180). -/
  | tstRegShift (cond : Cond) (rn rs : Reg) (shift : Shift) (rm : Reg)
  /-- TEQ, format A_DPI (R181). -/
  | teqImm (cond : Cond) (rn : Reg) (rot : BitVec 4) (imm8 : BitVec 8)
  /-- TEQ, format A_DPS (R181). -/
  | teqShift (cond : Cond) (rn : Reg) (amount : BitVec 5) (shift : Shift) (rm : Reg)
  /-- TEQ, format A_DPR (R181). -/
  | teqRegShift (cond : Cond) (rn rs : Reg) (shift : Shift) (rm : Reg)
  /-- CMP, format A_DPI (R162). -/
  | cmpImm (cond : Cond) (rn : Reg) (rot : BitVec 4) (imm8 : BitVec 8)
  /-- CMP, format A_DPS (R162). -/
  | cmpShift (cond : Cond) (rn : Reg) (amount : BitVec 5) (shift : Shift) (rm : Reg)
  /-- CMP, format A_DPR (R162). -/
  | cmpRegShift (cond : Cond) (rn rs : Reg) (shift : Shift) (rm : Reg)
  /-- CMN, format A_DPI (R163). -/
  | cmnImm (cond : Cond) (rn : Reg) (rot : BitVec 4) (imm8 : BitVec 8)
  /-- CMN, format A_DPS (R163). -/
  | cmnShift (cond : Cond) (rn : Reg) (amount : BitVec 5) (shift : Shift) (rm : Reg)
  /-- CMN, format A_DPR (R163). -/
  | cmnRegShift (cond : Cond) (rn rs : Reg) (shift : Shift) (rm : Reg)
  /-- ORR, format A_DPI (R184). -/
  | orrImm (cond : Cond) (sb : Bool) (rn rd : Reg) (rot : BitVec 4) (imm8 : BitVec 8)
  /-- ORR, format A_DPS (R184). -/
  | orrShift (cond : Cond) (sb : Bool) (rn rd : Reg) (amount : BitVec 5) (shift : Shift) (rm : Reg)
  /-- ORR, format A_DPR (R184). -/
  | orrRegShift (cond : Cond) (sb : Bool) (rn rd rs : Reg) (shift : Shift) (rm : Reg)
  /-- MOV, format A_DPI (R141). -/
  | movImm (cond : Cond) (sb : Bool) (rd : Reg) (rot : BitVec 4) (imm8 : BitVec 8)
  /-- MOV, format A_DPS (R141). -/
  | movShift (cond : Cond) (sb : Bool) (rd : Reg) (amount : BitVec 5) (shift : Shift) (rm : Reg)
  /-- MOV, format A_DPR (R141). -/
  | movRegShift (cond : Cond) (sb : Bool) (rd rs : Reg) (shift : Shift) (rm : Reg)
  /-- BIC, format A_DPI (R185). -/
  | bicImm (cond : Cond) (sb : Bool) (rn rd : Reg) (rot : BitVec 4) (imm8 : BitVec 8)
  /-- BIC, format A_DPS (R185). -/
  | bicShift (cond : Cond) (sb : Bool) (rn rd : Reg) (amount : BitVec 5) (shift : Shift) (rm : Reg)
  /-- BIC, format A_DPR (R185). -/
  | bicRegShift (cond : Cond) (sb : Bool) (rn rd rs : Reg) (shift : Shift) (rm : Reg)
  /-- MVN, format A_DPI (R142). -/
  | mvnImm (cond : Cond) (sb : Bool) (rd : Reg) (rot : BitVec 4) (imm8 : BitVec 8)
  /-- MVN, format A_DPS (R142). -/
  | mvnShift (cond : Cond) (sb : Bool) (rd : Reg) (amount : BitVec 5) (shift : Shift) (rm : Reg)
  /-- MVN, format A_DPR (R142). -/
  | mvnRegShift (cond : Cond) (sb : Bool) (rd rs : Reg) (shift : Shift) (rm : Reg)
  /-- MUL, format A_MUL (R156). -/
  | mul (cond : Cond) (sb : Bool) (rd rs rm : Reg)
  /-- MLA, format A_MUL (R157). -/
  | mla (cond : Cond) (sb : Bool) (rd rn rs rm : Reg)
  /-- UMULL, format A_MULL (R158). -/
  | umull (cond : Cond) (sb : Bool) (rdHi rdLo rs rm : Reg)
  /-- UMLAL, format A_MULL (R159). -/
  | umlal (cond : Cond) (sb : Bool) (rdHi rdLo rs rm : Reg)
  /-- SMULL, format A_MULL (R160). -/
  | smull (cond : Cond) (sb : Bool) (rdHi rdLo rs rm : Reg)
  /-- SMLAL, format A_MULL (R161). -/
  | smlal (cond : Cond) (sb : Bool) (rdHi rdLo rs rm : Reg)
  /-- SWP, format A_SWP (R220). -/
  | swp (cond : Cond) (rn rd rm : Reg)
  /-- SWPB, format A_SWP (R221). -/
  | swpb (cond : Cond) (rn rd rm : Reg)
  /-- SMLAxy, format A_SMUL (R169). -/
  | smlaXY (cond : Cond) (rd rn rs : Reg) (y x : Bool) (rm : Reg)
  /-- SMLAWy, format A_SMUL (R171). -/
  | smlaWY (cond : Cond) (rd rn rs : Reg) (y : Bool) (rm : Reg)
  /-- SMULWy, format A_SMUL (R170). -/
  | smulWY (cond : Cond) (rd rs : Reg) (y : Bool) (rm : Reg)
  /-- SMLALxy, format A_SMUL (R172). -/
  | smlalXY (cond : Cond) (rdHi rdLo rs : Reg) (y x : Bool) (rm : Reg)
  /-- SMULxy, format A_SMUL (R168). -/
  | smulXY (cond : Cond) (rd rs : Reg) (y x : Bool) (rm : Reg)
  /-- MRS, format A_MRS (R143). -/
  | mrs (cond : Cond) (r : Bool) (rd : Reg)
  /-- MSR, format A_MSRR (R144). -/
  | msrReg (cond : Cond) (r : Bool) (mask : BitVec 4) (rm : Reg)
  /-- MSR, format A_MSRI (R144). -/
  | msrImm (cond : Cond) (r : Bool) (mask rot : BitVec 4) (imm8 : BitVec 8)
  /-- BX, format A_BX (R192). -/
  | bx (cond : Cond) (rm : Reg)
  /-- BXJ, format A_BX (R195). -/
  | bxj (cond : Cond) (rm : Reg)
  /-- BLX, format A_BX (R194). -/
  | blxReg (cond : Cond) (rm : Reg)
  /-- CLZ, format A_CLZ (R173). -/
  | clz (cond : Cond) (rd rm : Reg)
  /-- QADD, format A_SAT (R164). -/
  | qadd (cond : Cond) (rn rd rm : Reg)
  /-- QSUB, format A_SAT (R166). -/
  | qsub (cond : Cond) (rn rd rm : Reg)
  /-- QDADD, format A_SAT (R165). -/
  | qdadd (cond : Cond) (rn rd rm : Reg)
  /-- QDSUB, format A_SAT (R167). -/
  | qdsub (cond : Cond) (rn rd rm : Reg)
  /-- BKPT, format A_BKPT (R250). -/
  | bkpt (imm16 : BitVec 16)
  /-- LDR, format A_LSI (R200). -/
  | ldrImm (cond : Cond) (idx : Index) (u : Bool) (rn rd : Reg) (off12 : BitVec 12)
  /-- LDR, format A_LSR (R200). -/
  | ldrReg (cond : Cond) (idx : Index) (u : Bool) (rn rd : Reg) (amount : BitVec 5) (shift : Shift) (rm : Reg)
  /-- LDRB, format A_LSI (R202). -/
  | ldrbImm (cond : Cond) (idx : Index) (u : Bool) (rn rd : Reg) (off12 : BitVec 12)
  /-- LDRB, format A_LSR (R202). -/
  | ldrbReg (cond : Cond) (idx : Index) (u : Bool) (rn rd : Reg) (amount : BitVec 5) (shift : Shift) (rm : Reg)
  /-- STR, format A_LSI (R211). -/
  | strImm (cond : Cond) (idx : Index) (u : Bool) (rn rd : Reg) (off12 : BitVec 12)
  /-- STR, format A_LSR (R211). -/
  | strReg (cond : Cond) (idx : Index) (u : Bool) (rn rd : Reg) (amount : BitVec 5) (shift : Shift) (rm : Reg)
  /-- STRB, format A_LSI (R213). -/
  | strbImm (cond : Cond) (idx : Index) (u : Bool) (rn rd : Reg) (off12 : BitVec 12)
  /-- STRB, format A_LSR (R213). -/
  | strbReg (cond : Cond) (idx : Index) (u : Bool) (rn rd : Reg) (amount : BitVec 5) (shift : Shift) (rm : Reg)
  /-- LDRT, format A_LSI (R201). -/
  | ldrtImm (cond : Cond) (u : Bool) (rn rd : Reg) (off12 : BitVec 12)
  /-- LDRT, format A_LSR (R201). -/
  | ldrtReg (cond : Cond) (u : Bool) (rn rd : Reg) (amount : BitVec 5) (shift : Shift) (rm : Reg)
  /-- LDRBT, format A_LSI (R203). -/
  | ldrbtImm (cond : Cond) (u : Bool) (rn rd : Reg) (off12 : BitVec 12)
  /-- LDRBT, format A_LSR (R203). -/
  | ldrbtReg (cond : Cond) (u : Bool) (rn rd : Reg) (amount : BitVec 5) (shift : Shift) (rm : Reg)
  /-- STRT, format A_LSI (R212). -/
  | strtImm (cond : Cond) (u : Bool) (rn rd : Reg) (off12 : BitVec 12)
  /-- STRT, format A_LSR (R212). -/
  | strtReg (cond : Cond) (u : Bool) (rn rd : Reg) (amount : BitVec 5) (shift : Shift) (rm : Reg)
  /-- STRBT, format A_LSI (R214). -/
  | strbtImm (cond : Cond) (u : Bool) (rn rd : Reg) (off12 : BitVec 12)
  /-- STRBT, format A_LSR (R214). -/
  | strbtReg (cond : Cond) (u : Bool) (rn rd : Reg) (amount : BitVec 5) (shift : Shift) (rm : Reg)
  /-- PLD, format A_LSI (R219). -/
  | pldImm (u : Bool) (rn : Reg) (off12 : BitVec 12)
  /-- PLD, format A_LSR (R219). -/
  | pldReg (u : Bool) (rn : Reg) (amount : BitVec 5) (shift : Shift) (rm : Reg)
  /-- STRH, format A_XLSI (R215). -/
  | strhImm (cond : Cond) (idx : Index) (u : Bool) (rn rd : Reg) (off8 : BitVec 8)
  /-- STRH, format A_XLSR (R215). -/
  | strhReg (cond : Cond) (idx : Index) (u : Bool) (rn rd rm : Reg)
  /-- LDRH, format A_XLSI (R205). -/
  | ldrhImm (cond : Cond) (idx : Index) (u : Bool) (rn rd : Reg) (off8 : BitVec 8)
  /-- LDRH, format A_XLSR (R205). -/
  | ldrhReg (cond : Cond) (idx : Index) (u : Bool) (rn rd rm : Reg)
  /-- LDRSB, format A_XLSI (R204). -/
  | ldrsbImm (cond : Cond) (idx : Index) (u : Bool) (rn rd : Reg) (off8 : BitVec 8)
  /-- LDRSB, format A_XLSR (R204). -/
  | ldrsbReg (cond : Cond) (idx : Index) (u : Bool) (rn rd rm : Reg)
  /-- LDRSH, format A_XLSI (R206). -/
  | ldrshImm (cond : Cond) (idx : Index) (u : Bool) (rn rd : Reg) (off8 : BitVec 8)
  /-- LDRSH, format A_XLSR (R206). -/
  | ldrshReg (cond : Cond) (idx : Index) (u : Bool) (rn rd rm : Reg)
  /-- LDRD, format A_XLSI (R210). -/
  | ldrdImm (cond : Cond) (idx : Index) (u : Bool) (rn rd : Reg) (off8 : BitVec 8)
  /-- LDRD, format A_XLSR (R210). -/
  | ldrdReg (cond : Cond) (idx : Index) (u : Bool) (rn rd rm : Reg)
  /-- STRD, format A_XLSI (R218). -/
  | strdImm (cond : Cond) (idx : Index) (u : Bool) (rn rd : Reg) (off8 : BitVec 8)
  /-- STRD, format A_XLSR (R218). -/
  | strdReg (cond : Cond) (idx : Index) (u : Bool) (rn rd rm : Reg)
  /-- LDM, format A_LSM (R207). -/
  | ldm (cond : Cond) (p u wb : Bool) (rn : Reg) (list : BitVec 16)
  /-- LDM, format A_LSM (R208). -/
  | ldmUser (cond : Cond) (p u : Bool) (rn : Reg) (list : BitVec 15)
  /-- LDM, format A_LSM (R209). -/
  | ldmRestore (cond : Cond) (p u wb : Bool) (rn : Reg) (list : BitVec 15)
  /-- STM, format A_LSM (R216). -/
  | stm (cond : Cond) (p u wb : Bool) (rn : Reg) (list : BitVec 16)
  /-- STM, format A_LSM (R217). -/
  | stmUser (cond : Cond) (p u : Bool) (rn : Reg) (list : BitVec 16)
  /-- B, format A_B (R190). -/
  | b (cond : Cond) (imm24 : BitVec 24)
  /-- BL, format A_B (R191). -/
  | bl (cond : Cond) (imm24 : BitVec 24)
  /-- BLX, format A_BLX1 (R193). -/
  | blxImm (h : Bool) (imm24 : BitVec 24)
  /-- CDP, format A_CDP (R241). -/
  | cdp (cond : Cond) (op1 crn crd cp : BitVec 4) (op2 : BitVec 3) (crm : BitVec 4)
  /-- MCR, format A_MCR (R243). -/
  | mcr (cond : Cond) (op1 : BitVec 3) (crn : BitVec 4) (rd : Reg) (cp : BitVec 4) (op2 : BitVec 3) (crm : BitVec 4)
  /-- MRC, format A_MCR (R242). -/
  | mrc (cond : Cond) (op1 : BitVec 3) (crn : BitVec 4) (rd : Reg) (cp : BitVec 4) (op2 : BitVec 3) (crm : BitVec 4)
  /-- MCRR, format A_MCRR (R245). -/
  | mcrr (cond : Cond) (rn rd : Reg) (cp op crm : BitVec 4)
  /-- MRRC, format A_MCRR (R244). -/
  | mrrc (cond : Cond) (rn rd : Reg) (cp op crm : BitVec 4)
  /-- LDC, format A_LDC (R246). -/
  | ldc (cond : Cond) (p u n wb : Bool) (rn : Reg) (crd cp : BitVec 4) (off8 : BitVec 8)
  /-- STC, format A_LDC (R247). -/
  | stc (cond : Cond) (p u n wb : Bool) (rn : Reg) (crd cp : BitVec 4) (off8 : BitVec 8)
  /-- CDP2, format A_CDP (R248). -/
  | cdp2 (op1 crn crd cp : BitVec 4) (op2 : BitVec 3) (crm : BitVec 4)
  /-- MCR2, format A_MCR (R248). -/
  | mcr2 (op1 : BitVec 3) (crn : BitVec 4) (rd : Reg) (cp : BitVec 4) (op2 : BitVec 3) (crm : BitVec 4)
  /-- MRC2, format A_MCR (R248). -/
  | mrc2 (op1 : BitVec 3) (crn : BitVec 4) (rd : Reg) (cp : BitVec 4) (op2 : BitVec 3) (crm : BitVec 4)
  /-- LDC2, format A_LDC (R248). -/
  | ldc2 (p u n wb : Bool) (rn : Reg) (crd cp : BitVec 4) (off8 : BitVec 8)
  /-- STC2, format A_LDC (R248). -/
  | stc2 (p u n wb : Bool) (rn : Reg) (crd cp : BitVec 4) (off8 : BitVec 8)
  /-- SWI, format A_SWI (R249). -/
  | swi (cond : Cond) (imm24 : BitVec 24)
  /-- UNDEFINED, format A_UND (R126). -/
  | undefSpace (cond : Cond) (payload : BitVec 20) (payloadLow : BitVec 4)
  /-- UNDEFINED, format A_UND (R126). -/
  | undefImm (cond : Cond) (bit22 : Bool) (payload : BitVec 20)
  /-- LSL, format T1 (R287). -/
  | thumbLslImm (imm5 : BitVec 5) (rm rd : LowReg)
  /-- LSR, format T1 (R289). -/
  | thumbLsrImm (imm5 : BitVec 5) (rm rd : LowReg)
  /-- ASR, format T1 (R291). -/
  | thumbAsrImm (imm5 : BitVec 5) (rm rd : LowReg)
  /-- ADD, format T2 (R265). -/
  | thumbAddReg (rm rn rd : LowReg)
  /-- SUB, format T2 (R270). -/
  | thumbSubReg (rm rn rd : LowReg)
  /-- ADD, format T2 (R264). -/
  | thumbAddImm3 (imm3 : BitVec 3) (rn rd : LowReg)
  /-- SUB, format T2 (R271). -/
  | thumbSubImm3 (imm3 : BitVec 3) (rn rd : LowReg)
  /-- MOV, format T3 (R261). -/
  | thumbMovImm (rd : LowReg) (imm8 : BitVec 8)
  /-- CMP, format T3 (R279). -/
  | thumbCmpImm (rn : LowReg) (imm8 : BitVec 8)
  /-- ADD, format T3 (R266). -/
  | thumbAddImm8 (rd : LowReg) (imm8 : BitVec 8)
  /-- SUB, format T3 (R272). -/
  | thumbSubImm8 (rd : LowReg) (imm8 : BitVec 8)
  /-- AND, format T4 (R281). -/
  | thumbAnd (rm rd : LowReg)
  /-- EOR, format T4 (R282). -/
  | thumbEor (rm rd : LowReg)
  /-- LSL, format T4 (R288). -/
  | thumbLslReg (rm rd : LowReg)
  /-- LSR, format T4 (R290). -/
  | thumbLsrReg (rm rd : LowReg)
  /-- ASR, format T4 (R292). -/
  | thumbAsrReg (rm rd : LowReg)
  /-- ADC, format T4 (R269). -/
  | thumbAdc (rm rd : LowReg)
  /-- SBC, format T4 (R274). -/
  | thumbSbc (rm rd : LowReg)
  /-- ROR, format T4 (R293). -/
  | thumbRorReg (rm rd : LowReg)
  /-- TST, format T4 (R286). -/
  | thumbTst (rm rn : LowReg)
  /-- NEG, format T4 (R275). -/
  | thumbNeg (rm rd : LowReg)
  /-- CMP, format T4 (R277). -/
  | thumbCmp (rm rn : LowReg)
  /-- CMN, format T4 (R280). -/
  | thumbCmn (rm rn : LowReg)
  /-- ORR, format T4 (R283). -/
  | thumbOrr (rm rd : LowReg)
  /-- MUL, format T4 (R276). -/
  | thumbMul (rm rd : LowReg)
  /-- BIC, format T4 (R284). -/
  | thumbBic (rm rd : LowReg)
  /-- MVN, format T4 (R285). -/
  | thumbMvn (rm rd : LowReg)
  /-- ADD, format T5 (R267). -/
  | thumbAddHigh (rm rd : Reg)
  /-- CMP, format T5 (R278). -/
  | thumbCmpHigh (rm rn : Reg)
  /-- MOV, format T5 (R262). -/
  | thumbMovHigh (rm rd : Reg)
  /-- BX, format T5 (R304). -/
  | thumbBx (rm : Reg)
  /-- BLX, format T5 (R305). -/
  | thumbBlxReg (rm : Reg)
  /-- LDR, format T6 (R319). -/
  | thumbLdrPc (rd : LowReg) (imm8 : BitVec 8)
  /-- STR, format T7 (R327). -/
  | thumbStrReg (ro rb rd : LowReg)
  /-- STRH, format T8 (R328). -/
  | thumbStrhReg (ro rb rd : LowReg)
  /-- STRB, format T7 (R329). -/
  | thumbStrbReg (ro rb rd : LowReg)
  /-- LDRSB, format T8 (R318). -/
  | thumbLdrsbReg (ro rb rd : LowReg)
  /-- LDR, format T7 (R314). -/
  | thumbLdrReg (ro rb rd : LowReg)
  /-- LDRH, format T8 (R315). -/
  | thumbLdrhReg (ro rb rd : LowReg)
  /-- LDRB, format T7 (R317). -/
  | thumbLdrbReg (ro rb rd : LowReg)
  /-- LDRSH, format T8 (R316). -/
  | thumbLdrshReg (ro rb rd : LowReg)
  /-- STR, format T9 (R324). -/
  | thumbStrImm (imm5 : BitVec 5) (rb rd : LowReg)
  /-- LDR, format T9 (R311). -/
  | thumbLdrImm (imm5 : BitVec 5) (rb rd : LowReg)
  /-- STRB, format T9 (R326). -/
  | thumbStrbImm (imm5 : BitVec 5) (rb rd : LowReg)
  /-- LDRB, format T9 (R313). -/
  | thumbLdrbImm (imm5 : BitVec 5) (rb rd : LowReg)
  /-- STRH, format T10 (R325). -/
  | thumbStrhImm (imm5 : BitVec 5) (rb rd : LowReg)
  /-- LDRH, format T10 (R312). -/
  | thumbLdrhImm (imm5 : BitVec 5) (rb rd : LowReg)
  /-- STR, format T11 (R330). -/
  | thumbStrSp (rd : LowReg) (imm8 : BitVec 8)
  /-- LDR, format T11 (R320). -/
  | thumbLdrSp (rd : LowReg) (imm8 : BitVec 8)
  /-- ADD, format T12 (R321). -/
  | thumbAddPc (rd : LowReg) (imm8 : BitVec 8)
  /-- ADD, format T12 (R322). -/
  | thumbAddSp (rd : LowReg) (imm8 : BitVec 8)
  /-- ADD, format T13 (R268). -/
  | thumbIncSp (imm7 : BitVec 7)
  /-- SUB, format T13 (R273). -/
  | thumbDecSp (imm7 : BitVec 7)
  /-- PUSH, format T14 (R332). -/
  | thumbPush (r : Bool) (list : BitVec 8)
  /-- POP, format T14 (R333). -/
  | thumbPop (r : Bool) (list : BitVec 8)
  /-- BKPT, format TB (R335). -/
  | thumbBkpt (imm8 : BitVec 8)
  /-- STMIA, format T15 (R331). -/
  | thumbStmia (rb : LowReg) (list : BitVec 8)
  /-- LDMIA, format T15 (R323). -/
  | thumbLdmia (rb : LowReg) (list : BitVec 8)
  /-- B<cond>, format T16 (R300). -/
  | thumbBCond (cond : Cond) (imm8 : BitVec 8)
  /-- UNDEFINED, format T16 (R127). -/
  | thumbUndefCond (imm8 : BitVec 8)
  /-- SWI, format T17 (R334). -/
  | thumbSwi (imm8 : BitVec 8)
  /-- B, format T18 (R301). -/
  | thumbB (imm11 : BitVec 11)
  /-- BLX, format T19 (R303). -/
  | thumbBlxSuffix (imm10 : BitVec 10)
  /-- UNDEFINED, format T19 (R127). -/
  | thumbUndefBlx (imm10 : BitVec 10)
  /-- BL, format T19 (R302). -/
  | thumbBlPrefix (imm11 : BitVec 11)
  /-- BL, format T19 (R302). -/
  | thumbBlSuffix (imm11 : BitVec 11)
deriving DecidableEq, Repr

end Sys2Proof
end

