-- ==== Sys2Proof/Decode.lean ====
section
/-!
DEFINITION. The decoder and, after it, the encoder of ARM and Thumb instructions (spec/30_encoding.md). The decoder is
spec/opcode_table.json read row by row: a word selects a row when its bits under the mask are the row's pattern and
none of the row's exclusions holds (R129). No word selects two rows (Sys2Proof/Laws/Decode.lean), so the order of the
rows carries no meaning. A word that selects no row is rejected, with the reason the spec gives (R126, R127).
-/
namespace Sys2Proof

/-- Why a word is no instruction. -/
inductive Reject where
  /-- Not as many bytes as an instruction of the operating state has. -/
  | wrongLength
  /-- An instruction of the table but for a should-be-zero or should-be-one field (R129, U5). -/
  | shouldBeBits
  /-- BKPT with a condition other than AL (U13). -/
  | bkptCondition
  /-- A Thumb high-register form with H1 = H2 = 0 (U12). -/
  | lowLowHighForm
  /-- LDM (2) or STM (2) with W = 1 (U9). -/
  | userBankWriteBack
  /-- Any other pattern (U17). -/
  | unallocated
deriving DecidableEq, Repr

/-- What the decoder answers. -/
inductive Decoded where
  | instr (i : Instr)
  | rejected (r : Reject)
deriving DecidableEq, Repr

/-- The conditions by number; 1111 is none (R9). -/
def Cond.ofBits (b : BitVec 4) : Option Cond :=
  match b.toNat with
  | 0 => some .eq
  | 1 => some .ne
  | 2 => some .cs
  | 3 => some .cc
  | 4 => some .mi
  | 5 => some .pl
  | 6 => some .vs
  | 7 => some .vc
  | 8 => some .hi
  | 9 => some .ls
  | 10 => some .ge
  | 11 => some .lt
  | 12 => some .gt
  | 13 => some .le
  | 14 => some .al
  | _ => none

/-- The number of a condition (R9). -/
def Cond.bits : Cond → BitVec 4
  | .eq => 0b0000#4
  | .ne => 0b0001#4
  | .cs => 0b0010#4
  | .cc => 0b0011#4
  | .mi => 0b0100#4
  | .pl => 0b0101#4
  | .vs => 0b0110#4
  | .vc => 0b0111#4
  | .hi => 0b1000#4
  | .ls => 0b1001#4
  | .ge => 0b1010#4
  | .lt => 0b1011#4
  | .gt => 0b1100#4
  | .le => 0b1101#4
  | .al => 0b1110#4

/-- The shifts by number (R116). -/
def Shift.ofBits (b : BitVec 2) : Shift :=
  match b.toNat with
  | 0 => .lsl
  | 1 => .lsr
  | 2 => .asr
  | _ => .ror

/-- The number of a shift (R116). -/
def Shift.bits : Shift → BitVec 2
  | .lsl => 0b00#2
  | .lsr => 0b01#2
  | .asr => 0b10#2
  | .ror => 0b11#2

/-- The indexing that the P and W bits select (R108, R110); P = 0 with W = 1 is excluded by the rows that use this. -/
def Index.ofBits (p wb : Bool) : Index :=
  if p then (if wb then .pre else .offset) else .post

/-- The P bit of an indexing. -/
def Index.p : Index → Bool
  | .offset => true
  | .pre => true
  | .post => false

/-- The W bit of an indexing. -/
def Index.w : Index → Bool
  | .offset => false
  | .pre => true
  | .post => false

/-- One bit as a bit vector. -/
def bit (b : Bool) : BitVec 1 := BitVec.ofBool b

/-- A row of the opcode table: the mask, the pattern under it, the excluded patterns, and the instruction that the
fields of a word make. The condition is given for the rows that have one. -/
structure Row (n : Nat) where
  mask : BitVec n
  pattern : BitVec n
  exclude : List (BitVec n × BitVec n)
  build : Cond → BitVec n → Instr

/-- A row with its parts in the order of the table. -/
def row {n : Nat} (mask pattern : BitVec n) (exclude : List (BitVec n × BitVec n))
    (build : Cond → BitVec n → Instr) : Row n :=
  { mask := mask, pattern := pattern, exclude := exclude, build := build }

/-- A word selects a row (R129). -/
def Row.accepts {n : Nat} (r : Row n) (w : BitVec n) : Bool :=
  (w &&& r.mask == r.pattern) && r.exclude.all fun e => w &&& e.1 != e.2

/-- Rows of `armRows`: AND (andImm) to ADC (adcImm). -/
def armRows1 : List (Row 32) :=
  [
    row 0x0FE00000 0x02000000 [] fun c w =>
      .andImm c (w.getLsbD 20) (w.extractLsb' 16 4) (w.extractLsb' 12 4) (w.extractLsb' 8 4) (w.extractLsb' 0 8),
    row 0x0FE00010 0x00000000 [] fun c w =>
      .andShift c (w.getLsbD 20) (w.extractLsb' 16 4) (w.extractLsb' 12 4) (w.extractLsb' 7 5) (Shift.ofBits (w.extractLsb' 5 2)) (w.extractLsb' 0 4),
    row 0x0FE00090 0x00000010 [] fun c w =>
      .andRegShift c (w.getLsbD 20) (w.extractLsb' 16 4) (w.extractLsb' 12 4) (w.extractLsb' 8 4) (Shift.ofBits (w.extractLsb' 5 2)) (w.extractLsb' 0 4),
    row 0x0FE00000 0x02200000 [] fun c w =>
      .eorImm c (w.getLsbD 20) (w.extractLsb' 16 4) (w.extractLsb' 12 4) (w.extractLsb' 8 4) (w.extractLsb' 0 8),
    row 0x0FE00010 0x00200000 [] fun c w =>
      .eorShift c (w.getLsbD 20) (w.extractLsb' 16 4) (w.extractLsb' 12 4) (w.extractLsb' 7 5) (Shift.ofBits (w.extractLsb' 5 2)) (w.extractLsb' 0 4),
    row 0x0FE00090 0x00200010 [] fun c w =>
      .eorRegShift c (w.getLsbD 20) (w.extractLsb' 16 4) (w.extractLsb' 12 4) (w.extractLsb' 8 4) (Shift.ofBits (w.extractLsb' 5 2)) (w.extractLsb' 0 4),
    row 0x0FE00000 0x02400000 [] fun c w =>
      .subImm c (w.getLsbD 20) (w.extractLsb' 16 4) (w.extractLsb' 12 4) (w.extractLsb' 8 4) (w.extractLsb' 0 8),
    row 0x0FE00010 0x00400000 [] fun c w =>
      .subShift c (w.getLsbD 20) (w.extractLsb' 16 4) (w.extractLsb' 12 4) (w.extractLsb' 7 5) (Shift.ofBits (w.extractLsb' 5 2)) (w.extractLsb' 0 4),
    row 0x0FE00090 0x00400010 [] fun c w =>
      .subRegShift c (w.getLsbD 20) (w.extractLsb' 16 4) (w.extractLsb' 12 4) (w.extractLsb' 8 4) (Shift.ofBits (w.extractLsb' 5 2)) (w.extractLsb' 0 4),
    row 0x0FE00000 0x02600000 [] fun c w =>
      .rsbImm c (w.getLsbD 20) (w.extractLsb' 16 4) (w.extractLsb' 12 4) (w.extractLsb' 8 4) (w.extractLsb' 0 8),
    row 0x0FE00010 0x00600000 [] fun c w =>
      .rsbShift c (w.getLsbD 20) (w.extractLsb' 16 4) (w.extractLsb' 12 4) (w.extractLsb' 7 5) (Shift.ofBits (w.extractLsb' 5 2)) (w.extractLsb' 0 4),
    row 0x0FE00090 0x00600010 [] fun c w =>
      .rsbRegShift c (w.getLsbD 20) (w.extractLsb' 16 4) (w.extractLsb' 12 4) (w.extractLsb' 8 4) (Shift.ofBits (w.extractLsb' 5 2)) (w.extractLsb' 0 4),
    row 0x0FE00000 0x02800000 [] fun c w =>
      .addImm c (w.getLsbD 20) (w.extractLsb' 16 4) (w.extractLsb' 12 4) (w.extractLsb' 8 4) (w.extractLsb' 0 8),
    row 0x0FE00010 0x00800000 [] fun c w =>
      .addShift c (w.getLsbD 20) (w.extractLsb' 16 4) (w.extractLsb' 12 4) (w.extractLsb' 7 5) (Shift.ofBits (w.extractLsb' 5 2)) (w.extractLsb' 0 4),
    row 0x0FE00090 0x00800010 [] fun c w =>
      .addRegShift c (w.getLsbD 20) (w.extractLsb' 16 4) (w.extractLsb' 12 4) (w.extractLsb' 8 4) (Shift.ofBits (w.extractLsb' 5 2)) (w.extractLsb' 0 4),
    row 0x0FE00000 0x02A00000 [] fun c w =>
      .adcImm c (w.getLsbD 20) (w.extractLsb' 16 4) (w.extractLsb' 12 4) (w.extractLsb' 8 4) (w.extractLsb' 0 8)
  ]

/-- Rows of `armRows`: ADC (adcShift) to CMP (cmpShift). -/
def armRows2 : List (Row 32) :=
  [
    row 0x0FE00010 0x00A00000 [] fun c w =>
      .adcShift c (w.getLsbD 20) (w.extractLsb' 16 4) (w.extractLsb' 12 4) (w.extractLsb' 7 5) (Shift.ofBits (w.extractLsb' 5 2)) (w.extractLsb' 0 4),
    row 0x0FE00090 0x00A00010 [] fun c w =>
      .adcRegShift c (w.getLsbD 20) (w.extractLsb' 16 4) (w.extractLsb' 12 4) (w.extractLsb' 8 4) (Shift.ofBits (w.extractLsb' 5 2)) (w.extractLsb' 0 4),
    row 0x0FE00000 0x02C00000 [] fun c w =>
      .sbcImm c (w.getLsbD 20) (w.extractLsb' 16 4) (w.extractLsb' 12 4) (w.extractLsb' 8 4) (w.extractLsb' 0 8),
    row 0x0FE00010 0x00C00000 [] fun c w =>
      .sbcShift c (w.getLsbD 20) (w.extractLsb' 16 4) (w.extractLsb' 12 4) (w.extractLsb' 7 5) (Shift.ofBits (w.extractLsb' 5 2)) (w.extractLsb' 0 4),
    row 0x0FE00090 0x00C00010 [] fun c w =>
      .sbcRegShift c (w.getLsbD 20) (w.extractLsb' 16 4) (w.extractLsb' 12 4) (w.extractLsb' 8 4) (Shift.ofBits (w.extractLsb' 5 2)) (w.extractLsb' 0 4),
    row 0x0FE00000 0x02E00000 [] fun c w =>
      .rscImm c (w.getLsbD 20) (w.extractLsb' 16 4) (w.extractLsb' 12 4) (w.extractLsb' 8 4) (w.extractLsb' 0 8),
    row 0x0FE00010 0x00E00000 [] fun c w =>
      .rscShift c (w.getLsbD 20) (w.extractLsb' 16 4) (w.extractLsb' 12 4) (w.extractLsb' 7 5) (Shift.ofBits (w.extractLsb' 5 2)) (w.extractLsb' 0 4),
    row 0x0FE00090 0x00E00010 [] fun c w =>
      .rscRegShift c (w.getLsbD 20) (w.extractLsb' 16 4) (w.extractLsb' 12 4) (w.extractLsb' 8 4) (Shift.ofBits (w.extractLsb' 5 2)) (w.extractLsb' 0 4),
    row 0x0FF0F000 0x03100000 [] fun c w =>
      .tstImm c (w.extractLsb' 16 4) (w.extractLsb' 8 4) (w.extractLsb' 0 8),
    row 0x0FF0F010 0x01100000 [] fun c w =>
      .tstShift c (w.extractLsb' 16 4) (w.extractLsb' 7 5) (Shift.ofBits (w.extractLsb' 5 2)) (w.extractLsb' 0 4),
    row 0x0FF0F090 0x01100010 [] fun c w =>
      .tstRegShift c (w.extractLsb' 16 4) (w.extractLsb' 8 4) (Shift.ofBits (w.extractLsb' 5 2)) (w.extractLsb' 0 4),
    row 0x0FF0F000 0x03300000 [] fun c w =>
      .teqImm c (w.extractLsb' 16 4) (w.extractLsb' 8 4) (w.extractLsb' 0 8),
    row 0x0FF0F010 0x01300000 [] fun c w =>
      .teqShift c (w.extractLsb' 16 4) (w.extractLsb' 7 5) (Shift.ofBits (w.extractLsb' 5 2)) (w.extractLsb' 0 4),
    row 0x0FF0F090 0x01300010 [] fun c w =>
      .teqRegShift c (w.extractLsb' 16 4) (w.extractLsb' 8 4) (Shift.ofBits (w.extractLsb' 5 2)) (w.extractLsb' 0 4),
    row 0x0FF0F000 0x03500000 [] fun c w =>
      .cmpImm c (w.extractLsb' 16 4) (w.extractLsb' 8 4) (w.extractLsb' 0 8),
    row 0x0FF0F010 0x01500000 [] fun c w =>
      .cmpShift c (w.extractLsb' 16 4) (w.extractLsb' 7 5) (Shift.ofBits (w.extractLsb' 5 2)) (w.extractLsb' 0 4)
  ]

/-- Rows of `armRows`: CMP (cmpRegShift) to MVN (mvnRegShift). -/
def armRows3 : List (Row 32) :=
  [
    row 0x0FF0F090 0x01500010 [] fun c w =>
      .cmpRegShift c (w.extractLsb' 16 4) (w.extractLsb' 8 4) (Shift.ofBits (w.extractLsb' 5 2)) (w.extractLsb' 0 4),
    row 0x0FF0F000 0x03700000 [] fun c w =>
      .cmnImm c (w.extractLsb' 16 4) (w.extractLsb' 8 4) (w.extractLsb' 0 8),
    row 0x0FF0F010 0x01700000 [] fun c w =>
      .cmnShift c (w.extractLsb' 16 4) (w.extractLsb' 7 5) (Shift.ofBits (w.extractLsb' 5 2)) (w.extractLsb' 0 4),
    row 0x0FF0F090 0x01700010 [] fun c w =>
      .cmnRegShift c (w.extractLsb' 16 4) (w.extractLsb' 8 4) (Shift.ofBits (w.extractLsb' 5 2)) (w.extractLsb' 0 4),
    row 0x0FE00000 0x03800000 [] fun c w =>
      .orrImm c (w.getLsbD 20) (w.extractLsb' 16 4) (w.extractLsb' 12 4) (w.extractLsb' 8 4) (w.extractLsb' 0 8),
    row 0x0FE00010 0x01800000 [] fun c w =>
      .orrShift c (w.getLsbD 20) (w.extractLsb' 16 4) (w.extractLsb' 12 4) (w.extractLsb' 7 5) (Shift.ofBits (w.extractLsb' 5 2)) (w.extractLsb' 0 4),
    row 0x0FE00090 0x01800010 [] fun c w =>
      .orrRegShift c (w.getLsbD 20) (w.extractLsb' 16 4) (w.extractLsb' 12 4) (w.extractLsb' 8 4) (Shift.ofBits (w.extractLsb' 5 2)) (w.extractLsb' 0 4),
    row 0x0FEF0000 0x03A00000 [] fun c w =>
      .movImm c (w.getLsbD 20) (w.extractLsb' 12 4) (w.extractLsb' 8 4) (w.extractLsb' 0 8),
    row 0x0FEF0010 0x01A00000 [] fun c w =>
      .movShift c (w.getLsbD 20) (w.extractLsb' 12 4) (w.extractLsb' 7 5) (Shift.ofBits (w.extractLsb' 5 2)) (w.extractLsb' 0 4),
    row 0x0FEF0090 0x01A00010 [] fun c w =>
      .movRegShift c (w.getLsbD 20) (w.extractLsb' 12 4) (w.extractLsb' 8 4) (Shift.ofBits (w.extractLsb' 5 2)) (w.extractLsb' 0 4),
    row 0x0FE00000 0x03C00000 [] fun c w =>
      .bicImm c (w.getLsbD 20) (w.extractLsb' 16 4) (w.extractLsb' 12 4) (w.extractLsb' 8 4) (w.extractLsb' 0 8),
    row 0x0FE00010 0x01C00000 [] fun c w =>
      .bicShift c (w.getLsbD 20) (w.extractLsb' 16 4) (w.extractLsb' 12 4) (w.extractLsb' 7 5) (Shift.ofBits (w.extractLsb' 5 2)) (w.extractLsb' 0 4),
    row 0x0FE00090 0x01C00010 [] fun c w =>
      .bicRegShift c (w.getLsbD 20) (w.extractLsb' 16 4) (w.extractLsb' 12 4) (w.extractLsb' 8 4) (Shift.ofBits (w.extractLsb' 5 2)) (w.extractLsb' 0 4),
    row 0x0FEF0000 0x03E00000 [] fun c w =>
      .mvnImm c (w.getLsbD 20) (w.extractLsb' 12 4) (w.extractLsb' 8 4) (w.extractLsb' 0 8),
    row 0x0FEF0010 0x01E00000 [] fun c w =>
      .mvnShift c (w.getLsbD 20) (w.extractLsb' 12 4) (w.extractLsb' 7 5) (Shift.ofBits (w.extractLsb' 5 2)) (w.extractLsb' 0 4),
    row 0x0FEF0090 0x01E00010 [] fun c w =>
      .mvnRegShift c (w.getLsbD 20) (w.extractLsb' 12 4) (w.extractLsb' 8 4) (Shift.ofBits (w.extractLsb' 5 2)) (w.extractLsb' 0 4)
  ]

/-- Rows of `armRows`: MUL (mul) to MSR (msrImm). -/
def armRows4 : List (Row 32) :=
  [
    row 0x0FE0F0F0 0x00000090 [] fun c w =>
      .mul c (w.getLsbD 20) (w.extractLsb' 16 4) (w.extractLsb' 8 4) (w.extractLsb' 0 4),
    row 0x0FE000F0 0x00200090 [] fun c w =>
      .mla c (w.getLsbD 20) (w.extractLsb' 16 4) (w.extractLsb' 12 4) (w.extractLsb' 8 4) (w.extractLsb' 0 4),
    row 0x0FE000F0 0x00800090 [] fun c w =>
      .umull c (w.getLsbD 20) (w.extractLsb' 16 4) (w.extractLsb' 12 4) (w.extractLsb' 8 4) (w.extractLsb' 0 4),
    row 0x0FE000F0 0x00A00090 [] fun c w =>
      .umlal c (w.getLsbD 20) (w.extractLsb' 16 4) (w.extractLsb' 12 4) (w.extractLsb' 8 4) (w.extractLsb' 0 4),
    row 0x0FE000F0 0x00C00090 [] fun c w =>
      .smull c (w.getLsbD 20) (w.extractLsb' 16 4) (w.extractLsb' 12 4) (w.extractLsb' 8 4) (w.extractLsb' 0 4),
    row 0x0FE000F0 0x00E00090 [] fun c w =>
      .smlal c (w.getLsbD 20) (w.extractLsb' 16 4) (w.extractLsb' 12 4) (w.extractLsb' 8 4) (w.extractLsb' 0 4),
    row 0x0FF00FF0 0x01000090 [] fun c w =>
      .swp c (w.extractLsb' 16 4) (w.extractLsb' 12 4) (w.extractLsb' 0 4),
    row 0x0FF00FF0 0x01400090 [] fun c w =>
      .swpb c (w.extractLsb' 16 4) (w.extractLsb' 12 4) (w.extractLsb' 0 4),
    row 0x0FF00090 0x01000080 [] fun c w =>
      .smlaXY c (w.extractLsb' 16 4) (w.extractLsb' 12 4) (w.extractLsb' 8 4) (w.getLsbD 6) (w.getLsbD 5) (w.extractLsb' 0 4),
    row 0x0FF000B0 0x01200080 [] fun c w =>
      .smlaWY c (w.extractLsb' 16 4) (w.extractLsb' 12 4) (w.extractLsb' 8 4) (w.getLsbD 6) (w.extractLsb' 0 4),
    row 0x0FF0F0B0 0x012000A0 [] fun c w =>
      .smulWY c (w.extractLsb' 16 4) (w.extractLsb' 8 4) (w.getLsbD 6) (w.extractLsb' 0 4),
    row 0x0FF00090 0x01400080 [] fun c w =>
      .smlalXY c (w.extractLsb' 16 4) (w.extractLsb' 12 4) (w.extractLsb' 8 4) (w.getLsbD 6) (w.getLsbD 5) (w.extractLsb' 0 4),
    row 0x0FF0F090 0x01600080 [] fun c w =>
      .smulXY c (w.extractLsb' 16 4) (w.extractLsb' 8 4) (w.getLsbD 6) (w.getLsbD 5) (w.extractLsb' 0 4),
    row 0x0FBF0FFF 0x010F0000 [] fun c w =>
      .mrs c (w.getLsbD 22) (w.extractLsb' 12 4),
    row 0x0FB0FFF0 0x0120F000 [] fun c w =>
      .msrReg c (w.getLsbD 22) (w.extractLsb' 16 4) (w.extractLsb' 0 4),
    row 0x0FB0F000 0x0320F000 [] fun c w =>
      .msrImm c (w.getLsbD 22) (w.extractLsb' 16 4) (w.extractLsb' 8 4) (w.extractLsb' 0 8)
  ]

/-- Rows of `armRows`: BX (bx) to STRB (strbImm). -/
def armRows5 : List (Row 32) :=
  [
    row 0x0FFFFFF0 0x012FFF10 [] fun c w =>
      .bx c (w.extractLsb' 0 4),
    row 0x0FFFFFF0 0x012FFF20 [] fun c w =>
      .bxj c (w.extractLsb' 0 4),
    row 0x0FFFFFF0 0x012FFF30 [] fun c w =>
      .blxReg c (w.extractLsb' 0 4),
    row 0x0FFF0FF0 0x016F0F10 [] fun c w =>
      .clz c (w.extractLsb' 12 4) (w.extractLsb' 0 4),
    row 0x0FF00FF0 0x01000050 [] fun c w =>
      .qadd c (w.extractLsb' 16 4) (w.extractLsb' 12 4) (w.extractLsb' 0 4),
    row 0x0FF00FF0 0x01200050 [] fun c w =>
      .qsub c (w.extractLsb' 16 4) (w.extractLsb' 12 4) (w.extractLsb' 0 4),
    row 0x0FF00FF0 0x01400050 [] fun c w =>
      .qdadd c (w.extractLsb' 16 4) (w.extractLsb' 12 4) (w.extractLsb' 0 4),
    row 0x0FF00FF0 0x01600050 [] fun c w =>
      .qdsub c (w.extractLsb' 16 4) (w.extractLsb' 12 4) (w.extractLsb' 0 4),
    row 0xFFF000F0 0xE1200070 [] fun _ w =>
      .bkpt (w.extractLsb' 8 12 ++ w.extractLsb' 0 4),
    row 0x0E500000 0x04100000 [(0x01200000#32, 0x00200000#32)] fun c w =>
      .ldrImm c (Index.ofBits (w.getLsbD 24) (w.getLsbD 21)) (w.getLsbD 23) (w.extractLsb' 16 4) (w.extractLsb' 12 4) (w.extractLsb' 0 12),
    row 0x0E500010 0x06100000 [(0x01200000#32, 0x00200000#32)] fun c w =>
      .ldrReg c (Index.ofBits (w.getLsbD 24) (w.getLsbD 21)) (w.getLsbD 23) (w.extractLsb' 16 4) (w.extractLsb' 12 4) (w.extractLsb' 7 5) (Shift.ofBits (w.extractLsb' 5 2)) (w.extractLsb' 0 4),
    row 0x0E500000 0x04500000 [(0x01200000#32, 0x00200000#32)] fun c w =>
      .ldrbImm c (Index.ofBits (w.getLsbD 24) (w.getLsbD 21)) (w.getLsbD 23) (w.extractLsb' 16 4) (w.extractLsb' 12 4) (w.extractLsb' 0 12),
    row 0x0E500010 0x06500000 [(0x01200000#32, 0x00200000#32)] fun c w =>
      .ldrbReg c (Index.ofBits (w.getLsbD 24) (w.getLsbD 21)) (w.getLsbD 23) (w.extractLsb' 16 4) (w.extractLsb' 12 4) (w.extractLsb' 7 5) (Shift.ofBits (w.extractLsb' 5 2)) (w.extractLsb' 0 4),
    row 0x0E500000 0x04000000 [(0x01200000#32, 0x00200000#32)] fun c w =>
      .strImm c (Index.ofBits (w.getLsbD 24) (w.getLsbD 21)) (w.getLsbD 23) (w.extractLsb' 16 4) (w.extractLsb' 12 4) (w.extractLsb' 0 12),
    row 0x0E500010 0x06000000 [(0x01200000#32, 0x00200000#32)] fun c w =>
      .strReg c (Index.ofBits (w.getLsbD 24) (w.getLsbD 21)) (w.getLsbD 23) (w.extractLsb' 16 4) (w.extractLsb' 12 4) (w.extractLsb' 7 5) (Shift.ofBits (w.extractLsb' 5 2)) (w.extractLsb' 0 4),
    row 0x0E500000 0x04400000 [(0x01200000#32, 0x00200000#32)] fun c w =>
      .strbImm c (Index.ofBits (w.getLsbD 24) (w.getLsbD 21)) (w.getLsbD 23) (w.extractLsb' 16 4) (w.extractLsb' 12 4) (w.extractLsb' 0 12)
  ]

/-- Rows of `armRows`: STRB (strbReg) to LDRSH (ldrshImm). -/
def armRows6 : List (Row 32) :=
  [
    row 0x0E500010 0x06400000 [(0x01200000#32, 0x00200000#32)] fun c w =>
      .strbReg c (Index.ofBits (w.getLsbD 24) (w.getLsbD 21)) (w.getLsbD 23) (w.extractLsb' 16 4) (w.extractLsb' 12 4) (w.extractLsb' 7 5) (Shift.ofBits (w.extractLsb' 5 2)) (w.extractLsb' 0 4),
    row 0x0F700000 0x04300000 [] fun c w =>
      .ldrtImm c (w.getLsbD 23) (w.extractLsb' 16 4) (w.extractLsb' 12 4) (w.extractLsb' 0 12),
    row 0x0F700010 0x06300000 [] fun c w =>
      .ldrtReg c (w.getLsbD 23) (w.extractLsb' 16 4) (w.extractLsb' 12 4) (w.extractLsb' 7 5) (Shift.ofBits (w.extractLsb' 5 2)) (w.extractLsb' 0 4),
    row 0x0F700000 0x04700000 [] fun c w =>
      .ldrbtImm c (w.getLsbD 23) (w.extractLsb' 16 4) (w.extractLsb' 12 4) (w.extractLsb' 0 12),
    row 0x0F700010 0x06700000 [] fun c w =>
      .ldrbtReg c (w.getLsbD 23) (w.extractLsb' 16 4) (w.extractLsb' 12 4) (w.extractLsb' 7 5) (Shift.ofBits (w.extractLsb' 5 2)) (w.extractLsb' 0 4),
    row 0x0F700000 0x04200000 [] fun c w =>
      .strtImm c (w.getLsbD 23) (w.extractLsb' 16 4) (w.extractLsb' 12 4) (w.extractLsb' 0 12),
    row 0x0F700010 0x06200000 [] fun c w =>
      .strtReg c (w.getLsbD 23) (w.extractLsb' 16 4) (w.extractLsb' 12 4) (w.extractLsb' 7 5) (Shift.ofBits (w.extractLsb' 5 2)) (w.extractLsb' 0 4),
    row 0x0F700000 0x04600000 [] fun c w =>
      .strbtImm c (w.getLsbD 23) (w.extractLsb' 16 4) (w.extractLsb' 12 4) (w.extractLsb' 0 12),
    row 0x0F700010 0x06600000 [] fun c w =>
      .strbtReg c (w.getLsbD 23) (w.extractLsb' 16 4) (w.extractLsb' 12 4) (w.extractLsb' 7 5) (Shift.ofBits (w.extractLsb' 5 2)) (w.extractLsb' 0 4),
    row 0x0E5000F0 0x004000B0 [(0x01200000#32, 0x00200000#32)] fun c w =>
      .strhImm c (Index.ofBits (w.getLsbD 24) (w.getLsbD 21)) (w.getLsbD 23) (w.extractLsb' 16 4) (w.extractLsb' 12 4) (w.extractLsb' 8 4 ++ w.extractLsb' 0 4),
    row 0x0E500FF0 0x000000B0 [(0x01200000#32, 0x00200000#32)] fun c w =>
      .strhReg c (Index.ofBits (w.getLsbD 24) (w.getLsbD 21)) (w.getLsbD 23) (w.extractLsb' 16 4) (w.extractLsb' 12 4) (w.extractLsb' 0 4),
    row 0x0E5000F0 0x005000B0 [(0x01200000#32, 0x00200000#32)] fun c w =>
      .ldrhImm c (Index.ofBits (w.getLsbD 24) (w.getLsbD 21)) (w.getLsbD 23) (w.extractLsb' 16 4) (w.extractLsb' 12 4) (w.extractLsb' 8 4 ++ w.extractLsb' 0 4),
    row 0x0E500FF0 0x001000B0 [(0x01200000#32, 0x00200000#32)] fun c w =>
      .ldrhReg c (Index.ofBits (w.getLsbD 24) (w.getLsbD 21)) (w.getLsbD 23) (w.extractLsb' 16 4) (w.extractLsb' 12 4) (w.extractLsb' 0 4),
    row 0x0E5000F0 0x005000D0 [(0x01200000#32, 0x00200000#32)] fun c w =>
      .ldrsbImm c (Index.ofBits (w.getLsbD 24) (w.getLsbD 21)) (w.getLsbD 23) (w.extractLsb' 16 4) (w.extractLsb' 12 4) (w.extractLsb' 8 4 ++ w.extractLsb' 0 4),
    row 0x0E500FF0 0x001000D0 [(0x01200000#32, 0x00200000#32)] fun c w =>
      .ldrsbReg c (Index.ofBits (w.getLsbD 24) (w.getLsbD 21)) (w.getLsbD 23) (w.extractLsb' 16 4) (w.extractLsb' 12 4) (w.extractLsb' 0 4),
    row 0x0E5000F0 0x005000F0 [(0x01200000#32, 0x00200000#32)] fun c w =>
      .ldrshImm c (Index.ofBits (w.getLsbD 24) (w.getLsbD 21)) (w.getLsbD 23) (w.extractLsb' 16 4) (w.extractLsb' 12 4) (w.extractLsb' 8 4 ++ w.extractLsb' 0 4)
  ]

/-- Rows of `armRows`: LDRSH (ldrshReg) to MCRR (mcrr). -/
def armRows7 : List (Row 32) :=
  [
    row 0x0E500FF0 0x001000F0 [(0x01200000#32, 0x00200000#32)] fun c w =>
      .ldrshReg c (Index.ofBits (w.getLsbD 24) (w.getLsbD 21)) (w.getLsbD 23) (w.extractLsb' 16 4) (w.extractLsb' 12 4) (w.extractLsb' 0 4),
    row 0x0E5000F0 0x004000D0 [(0x01200000#32, 0x00200000#32)] fun c w =>
      .ldrdImm c (Index.ofBits (w.getLsbD 24) (w.getLsbD 21)) (w.getLsbD 23) (w.extractLsb' 16 4) (w.extractLsb' 12 4) (w.extractLsb' 8 4 ++ w.extractLsb' 0 4),
    row 0x0E500FF0 0x000000D0 [(0x01200000#32, 0x00200000#32)] fun c w =>
      .ldrdReg c (Index.ofBits (w.getLsbD 24) (w.getLsbD 21)) (w.getLsbD 23) (w.extractLsb' 16 4) (w.extractLsb' 12 4) (w.extractLsb' 0 4),
    row 0x0E5000F0 0x004000F0 [(0x01200000#32, 0x00200000#32)] fun c w =>
      .strdImm c (Index.ofBits (w.getLsbD 24) (w.getLsbD 21)) (w.getLsbD 23) (w.extractLsb' 16 4) (w.extractLsb' 12 4) (w.extractLsb' 8 4 ++ w.extractLsb' 0 4),
    row 0x0E500FF0 0x000000F0 [(0x01200000#32, 0x00200000#32)] fun c w =>
      .strdReg c (Index.ofBits (w.getLsbD 24) (w.getLsbD 21)) (w.getLsbD 23) (w.extractLsb' 16 4) (w.extractLsb' 12 4) (w.extractLsb' 0 4),
    row 0x0E500000 0x08100000 [] fun c w =>
      .ldm c (w.getLsbD 24) (w.getLsbD 23) (w.getLsbD 21) (w.extractLsb' 16 4) (w.extractLsb' 0 16),
    row 0x0E708000 0x08500000 [] fun c w =>
      .ldmUser c (w.getLsbD 24) (w.getLsbD 23) (w.extractLsb' 16 4) (w.extractLsb' 0 15),
    row 0x0E508000 0x08508000 [] fun c w =>
      .ldmRestore c (w.getLsbD 24) (w.getLsbD 23) (w.getLsbD 21) (w.extractLsb' 16 4) (w.extractLsb' 0 15),
    row 0x0E500000 0x08000000 [] fun c w =>
      .stm c (w.getLsbD 24) (w.getLsbD 23) (w.getLsbD 21) (w.extractLsb' 16 4) (w.extractLsb' 0 16),
    row 0x0E700000 0x08400000 [] fun c w =>
      .stmUser c (w.getLsbD 24) (w.getLsbD 23) (w.extractLsb' 16 4) (w.extractLsb' 0 16),
    row 0x0F000000 0x0A000000 [] fun c w =>
      .b c (w.extractLsb' 0 24),
    row 0x0F000000 0x0B000000 [] fun c w =>
      .bl c (w.extractLsb' 0 24),
    row 0x0F000010 0x0E000000 [] fun c w =>
      .cdp c (w.extractLsb' 20 4) (w.extractLsb' 16 4) (w.extractLsb' 12 4) (w.extractLsb' 8 4) (w.extractLsb' 5 3) (w.extractLsb' 0 4),
    row 0x0F100010 0x0E000010 [] fun c w =>
      .mcr c (w.extractLsb' 21 3) (w.extractLsb' 16 4) (w.extractLsb' 12 4) (w.extractLsb' 8 4) (w.extractLsb' 5 3) (w.extractLsb' 0 4),
    row 0x0F100010 0x0E100010 [] fun c w =>
      .mrc c (w.extractLsb' 21 3) (w.extractLsb' 16 4) (w.extractLsb' 12 4) (w.extractLsb' 8 4) (w.extractLsb' 5 3) (w.extractLsb' 0 4),
    row 0x0FF00000 0x0C400000 [] fun c w =>
      .mcrr c (w.extractLsb' 16 4) (w.extractLsb' 12 4) (w.extractLsb' 8 4) (w.extractLsb' 4 4) (w.extractLsb' 0 4)
  ]

/-- Rows of `armRows`: MRRC (mrrc) to UNDEFINED (undefImm). -/
def armRows8 : List (Row 32) :=
  [
    row 0x0FF00000 0x0C500000 [] fun c w =>
      .mrrc c (w.extractLsb' 16 4) (w.extractLsb' 12 4) (w.extractLsb' 8 4) (w.extractLsb' 4 4) (w.extractLsb' 0 4),
    row 0x0E100000 0x0C100000 [(0x01A00000#32, 0x00000000#32)] fun c w =>
      .ldc c (w.getLsbD 24) (w.getLsbD 23) (w.getLsbD 22) (w.getLsbD 21) (w.extractLsb' 16 4) (w.extractLsb' 12 4) (w.extractLsb' 8 4) (w.extractLsb' 0 8),
    row 0x0E100000 0x0C000000 [(0x01A00000#32, 0x00000000#32)] fun c w =>
      .stc c (w.getLsbD 24) (w.getLsbD 23) (w.getLsbD 22) (w.getLsbD 21) (w.extractLsb' 16 4) (w.extractLsb' 12 4) (w.extractLsb' 8 4) (w.extractLsb' 0 8),
    row 0x0F000000 0x0F000000 [] fun c w =>
      .swi c (w.extractLsb' 0 24),
    row 0x0E000010 0x06000010 [] fun c w =>
      .undefSpace c (w.extractLsb' 5 20) (w.extractLsb' 0 4),
    row 0x0FB00000 0x03000000 [] fun c w =>
      .undefImm c (w.getLsbD 22) (w.extractLsb' 0 20)
  ]

/-- The rows of ARM state with a condition field (R102), and BKPT, whose condition is fixed. -/
def armRows : List (Row 32) :=
  armRows1 ++ armRows2 ++ armRows3 ++ armRows4 ++ armRows5 ++ armRows6 ++ armRows7 ++ armRows8

/-- Rows of `unconditionalRows`: PLD (pldImm) to STC2 (stc2). -/
def unconditionalRows1 : List (Row 32) :=
  [
    row 0xFF70F000 0xF550F000 [] fun _ w =>
      .pldImm (w.getLsbD 23) (w.extractLsb' 16 4) (w.extractLsb' 0 12),
    row 0xFF70F010 0xF750F000 [] fun _ w =>
      .pldReg (w.getLsbD 23) (w.extractLsb' 16 4) (w.extractLsb' 7 5) (Shift.ofBits (w.extractLsb' 5 2)) (w.extractLsb' 0 4),
    row 0xFE000000 0xFA000000 [] fun _ w =>
      .blxImm (w.getLsbD 24) (w.extractLsb' 0 24),
    row 0xFF000010 0xFE000000 [] fun _ w =>
      .cdp2 (w.extractLsb' 20 4) (w.extractLsb' 16 4) (w.extractLsb' 12 4) (w.extractLsb' 8 4) (w.extractLsb' 5 3) (w.extractLsb' 0 4),
    row 0xFF100010 0xFE000010 [] fun _ w =>
      .mcr2 (w.extractLsb' 21 3) (w.extractLsb' 16 4) (w.extractLsb' 12 4) (w.extractLsb' 8 4) (w.extractLsb' 5 3) (w.extractLsb' 0 4),
    row 0xFF100010 0xFE100010 [] fun _ w =>
      .mrc2 (w.extractLsb' 21 3) (w.extractLsb' 16 4) (w.extractLsb' 12 4) (w.extractLsb' 8 4) (w.extractLsb' 5 3) (w.extractLsb' 0 4),
    row 0xFE100000 0xFC100000 [(0x01A00000#32, 0x00000000#32)] fun _ w =>
      .ldc2 (w.getLsbD 24) (w.getLsbD 23) (w.getLsbD 22) (w.getLsbD 21) (w.extractLsb' 16 4) (w.extractLsb' 12 4) (w.extractLsb' 8 4) (w.extractLsb' 0 8),
    row 0xFE100000 0xFC000000 [(0x01A00000#32, 0x00000000#32)] fun _ w =>
      .stc2 (w.getLsbD 24) (w.getLsbD 23) (w.getLsbD 22) (w.getLsbD 21) (w.extractLsb' 16 4) (w.extractLsb' 12 4) (w.extractLsb' 8 4) (w.extractLsb' 0 8)
  ]

/-- The rows of the unconditional space, bits [31:28] = 1111 (R111). -/
def unconditionalRows : List (Row 32) :=
  unconditionalRows1

/-- Rows of `thumbRows`: LSL (thumbLslImm) to ASR (thumbAsrReg). -/
def thumbRows1 : List (Row 16) :=
  [
    row 0xF800 0x0000 [] fun _ w =>
      .thumbLslImm (w.extractLsb' 6 5) (w.extractLsb' 3 3) (w.extractLsb' 0 3),
    row 0xF800 0x0800 [] fun _ w =>
      .thumbLsrImm (w.extractLsb' 6 5) (w.extractLsb' 3 3) (w.extractLsb' 0 3),
    row 0xF800 0x1000 [] fun _ w =>
      .thumbAsrImm (w.extractLsb' 6 5) (w.extractLsb' 3 3) (w.extractLsb' 0 3),
    row 0xFE00 0x1800 [] fun _ w =>
      .thumbAddReg (w.extractLsb' 6 3) (w.extractLsb' 3 3) (w.extractLsb' 0 3),
    row 0xFE00 0x1A00 [] fun _ w =>
      .thumbSubReg (w.extractLsb' 6 3) (w.extractLsb' 3 3) (w.extractLsb' 0 3),
    row 0xFE00 0x1C00 [] fun _ w =>
      .thumbAddImm3 (w.extractLsb' 6 3) (w.extractLsb' 3 3) (w.extractLsb' 0 3),
    row 0xFE00 0x1E00 [] fun _ w =>
      .thumbSubImm3 (w.extractLsb' 6 3) (w.extractLsb' 3 3) (w.extractLsb' 0 3),
    row 0xF800 0x2000 [] fun _ w =>
      .thumbMovImm (w.extractLsb' 8 3) (w.extractLsb' 0 8),
    row 0xF800 0x2800 [] fun _ w =>
      .thumbCmpImm (w.extractLsb' 8 3) (w.extractLsb' 0 8),
    row 0xF800 0x3000 [] fun _ w =>
      .thumbAddImm8 (w.extractLsb' 8 3) (w.extractLsb' 0 8),
    row 0xF800 0x3800 [] fun _ w =>
      .thumbSubImm8 (w.extractLsb' 8 3) (w.extractLsb' 0 8),
    row 0xFFC0 0x4000 [] fun _ w =>
      .thumbAnd (w.extractLsb' 3 3) (w.extractLsb' 0 3),
    row 0xFFC0 0x4040 [] fun _ w =>
      .thumbEor (w.extractLsb' 3 3) (w.extractLsb' 0 3),
    row 0xFFC0 0x4080 [] fun _ w =>
      .thumbLslReg (w.extractLsb' 3 3) (w.extractLsb' 0 3),
    row 0xFFC0 0x40C0 [] fun _ w =>
      .thumbLsrReg (w.extractLsb' 3 3) (w.extractLsb' 0 3),
    row 0xFFC0 0x4100 [] fun _ w =>
      .thumbAsrReg (w.extractLsb' 3 3) (w.extractLsb' 0 3)
  ]

/-- Rows of `thumbRows`: ADC (thumbAdc) to BLX (thumbBlxReg). -/
def thumbRows2 : List (Row 16) :=
  [
    row 0xFFC0 0x4140 [] fun _ w =>
      .thumbAdc (w.extractLsb' 3 3) (w.extractLsb' 0 3),
    row 0xFFC0 0x4180 [] fun _ w =>
      .thumbSbc (w.extractLsb' 3 3) (w.extractLsb' 0 3),
    row 0xFFC0 0x41C0 [] fun _ w =>
      .thumbRorReg (w.extractLsb' 3 3) (w.extractLsb' 0 3),
    row 0xFFC0 0x4200 [] fun _ w =>
      .thumbTst (w.extractLsb' 3 3) (w.extractLsb' 0 3),
    row 0xFFC0 0x4240 [] fun _ w =>
      .thumbNeg (w.extractLsb' 3 3) (w.extractLsb' 0 3),
    row 0xFFC0 0x4280 [] fun _ w =>
      .thumbCmp (w.extractLsb' 3 3) (w.extractLsb' 0 3),
    row 0xFFC0 0x42C0 [] fun _ w =>
      .thumbCmn (w.extractLsb' 3 3) (w.extractLsb' 0 3),
    row 0xFFC0 0x4300 [] fun _ w =>
      .thumbOrr (w.extractLsb' 3 3) (w.extractLsb' 0 3),
    row 0xFFC0 0x4340 [] fun _ w =>
      .thumbMul (w.extractLsb' 3 3) (w.extractLsb' 0 3),
    row 0xFFC0 0x4380 [] fun _ w =>
      .thumbBic (w.extractLsb' 3 3) (w.extractLsb' 0 3),
    row 0xFFC0 0x43C0 [] fun _ w =>
      .thumbMvn (w.extractLsb' 3 3) (w.extractLsb' 0 3),
    row 0xFF00 0x4400 [(0x00C0#16, 0x0000#16)] fun _ w =>
      .thumbAddHigh (w.extractLsb' 3 4) (w.extractLsb' 7 1 ++ w.extractLsb' 0 3),
    row 0xFF00 0x4500 [(0x00C0#16, 0x0000#16)] fun _ w =>
      .thumbCmpHigh (w.extractLsb' 3 4) (w.extractLsb' 7 1 ++ w.extractLsb' 0 3),
    row 0xFF00 0x4600 [(0x00C0#16, 0x0000#16)] fun _ w =>
      .thumbMovHigh (w.extractLsb' 3 4) (w.extractLsb' 7 1 ++ w.extractLsb' 0 3),
    row 0xFF87 0x4700 [] fun _ w =>
      .thumbBx (w.extractLsb' 3 4),
    row 0xFF87 0x4780 [] fun _ w =>
      .thumbBlxReg (w.extractLsb' 3 4)
  ]

/-- Rows of `thumbRows`: LDR (thumbLdrPc) to STR (thumbStrSp). -/
def thumbRows3 : List (Row 16) :=
  [
    row 0xF800 0x4800 [] fun _ w =>
      .thumbLdrPc (w.extractLsb' 8 3) (w.extractLsb' 0 8),
    row 0xFE00 0x5000 [] fun _ w =>
      .thumbStrReg (w.extractLsb' 6 3) (w.extractLsb' 3 3) (w.extractLsb' 0 3),
    row 0xFE00 0x5200 [] fun _ w =>
      .thumbStrhReg (w.extractLsb' 6 3) (w.extractLsb' 3 3) (w.extractLsb' 0 3),
    row 0xFE00 0x5400 [] fun _ w =>
      .thumbStrbReg (w.extractLsb' 6 3) (w.extractLsb' 3 3) (w.extractLsb' 0 3),
    row 0xFE00 0x5600 [] fun _ w =>
      .thumbLdrsbReg (w.extractLsb' 6 3) (w.extractLsb' 3 3) (w.extractLsb' 0 3),
    row 0xFE00 0x5800 [] fun _ w =>
      .thumbLdrReg (w.extractLsb' 6 3) (w.extractLsb' 3 3) (w.extractLsb' 0 3),
    row 0xFE00 0x5A00 [] fun _ w =>
      .thumbLdrhReg (w.extractLsb' 6 3) (w.extractLsb' 3 3) (w.extractLsb' 0 3),
    row 0xFE00 0x5C00 [] fun _ w =>
      .thumbLdrbReg (w.extractLsb' 6 3) (w.extractLsb' 3 3) (w.extractLsb' 0 3),
    row 0xFE00 0x5E00 [] fun _ w =>
      .thumbLdrshReg (w.extractLsb' 6 3) (w.extractLsb' 3 3) (w.extractLsb' 0 3),
    row 0xF800 0x6000 [] fun _ w =>
      .thumbStrImm (w.extractLsb' 6 5) (w.extractLsb' 3 3) (w.extractLsb' 0 3),
    row 0xF800 0x6800 [] fun _ w =>
      .thumbLdrImm (w.extractLsb' 6 5) (w.extractLsb' 3 3) (w.extractLsb' 0 3),
    row 0xF800 0x7000 [] fun _ w =>
      .thumbStrbImm (w.extractLsb' 6 5) (w.extractLsb' 3 3) (w.extractLsb' 0 3),
    row 0xF800 0x7800 [] fun _ w =>
      .thumbLdrbImm (w.extractLsb' 6 5) (w.extractLsb' 3 3) (w.extractLsb' 0 3),
    row 0xF800 0x8000 [] fun _ w =>
      .thumbStrhImm (w.extractLsb' 6 5) (w.extractLsb' 3 3) (w.extractLsb' 0 3),
    row 0xF800 0x8800 [] fun _ w =>
      .thumbLdrhImm (w.extractLsb' 6 5) (w.extractLsb' 3 3) (w.extractLsb' 0 3),
    row 0xF800 0x9000 [] fun _ w =>
      .thumbStrSp (w.extractLsb' 8 3) (w.extractLsb' 0 8)
  ]

/-- Rows of `thumbRows`: LDR (thumbLdrSp) to UNDEFINED (thumbUndefBlx). -/
def thumbRows4 : List (Row 16) :=
  [
    row 0xF800 0x9800 [] fun _ w =>
      .thumbLdrSp (w.extractLsb' 8 3) (w.extractLsb' 0 8),
    row 0xF800 0xA000 [] fun _ w =>
      .thumbAddPc (w.extractLsb' 8 3) (w.extractLsb' 0 8),
    row 0xF800 0xA800 [] fun _ w =>
      .thumbAddSp (w.extractLsb' 8 3) (w.extractLsb' 0 8),
    row 0xFF80 0xB000 [] fun _ w =>
      .thumbIncSp (w.extractLsb' 0 7),
    row 0xFF80 0xB080 [] fun _ w =>
      .thumbDecSp (w.extractLsb' 0 7),
    row 0xFE00 0xB400 [] fun _ w =>
      .thumbPush (w.getLsbD 8) (w.extractLsb' 0 8),
    row 0xFE00 0xBC00 [] fun _ w =>
      .thumbPop (w.getLsbD 8) (w.extractLsb' 0 8),
    row 0xFF00 0xBE00 [] fun _ w =>
      .thumbBkpt (w.extractLsb' 0 8),
    row 0xF800 0xC000 [] fun _ w =>
      .thumbStmia (w.extractLsb' 8 3) (w.extractLsb' 0 8),
    row 0xF800 0xC800 [] fun _ w =>
      .thumbLdmia (w.extractLsb' 8 3) (w.extractLsb' 0 8),
    row 0xF000 0xD000 [(0x0E00#16, 0x0E00#16)] fun _ w =>
      .thumbBCond ((Cond.ofBits (w.extractLsb' 8 4)).getD .al) (w.extractLsb' 0 8),
    row 0xFF00 0xDE00 [] fun _ w =>
      .thumbUndefCond (w.extractLsb' 0 8),
    row 0xFF00 0xDF00 [] fun _ w =>
      .thumbSwi (w.extractLsb' 0 8),
    row 0xF800 0xE000 [] fun _ w =>
      .thumbB (w.extractLsb' 0 11),
    row 0xF801 0xE800 [] fun _ w =>
      .thumbBlxSuffix (w.extractLsb' 1 10),
    row 0xF801 0xE801 [] fun _ w =>
      .thumbUndefBlx (w.extractLsb' 1 10)
  ]

/-- Rows of `thumbRows`: BL (thumbBlPrefix) to BL (thumbBlSuffix). -/
def thumbRows5 : List (Row 16) :=
  [
    row 0xF800 0xF000 [] fun _ w =>
      .thumbBlPrefix (w.extractLsb' 0 11),
    row 0xF800 0xF800 [] fun _ w =>
      .thumbBlSuffix (w.extractLsb' 0 11)
  ]

/-- The rows of Thumb state (R103, R125). -/
def thumbRows : List (Row 16) :=
  thumbRows1 ++ thumbRows2 ++ thumbRows3 ++ thumbRows4 ++ thumbRows5

/-- The ARM patterns of the table without their should-be fields (R116 to R119, R129). -/
def armShouldBe : List (Word × Word) :=
  [ (0x0FE00000, 0x03A00000), (0x0FE00010, 0x01A00000), (0x0FE00090, 0x01A00010),  -- MOV
    (0x0FE00000, 0x03E00000), (0x0FE00010, 0x01E00000), (0x0FE00090, 0x01E00010),  -- MVN
    (0x0F900000, 0x03100000), (0x0F900010, 0x01100000), (0x0F900090, 0x01100010),  -- TST, TEQ, CMP, CMN
    (0x0FE000F0, 0x00000090),                                                      -- MUL
    (0x0FB000F0, 0x01000090),                                                      -- SWP, SWPB
    (0x0FF000B0, 0x012000A0), (0x0FF00090, 0x01600080),                            -- SMULWy, SMULxy
    (0x0FB000F0, 0x01000000),                                                      -- MRS
    (0x0FB000F0, 0x01200000), (0x0FB00000, 0x03200000),                            -- MSR
    (0x0FF000F0, 0x01200010), (0x0FF000F0, 0x01200020), (0x0FF000F0, 0x01200030),  -- BX, BXJ, BLX
    (0x0FF000F0, 0x01600010),                                                      -- CLZ
    (0x0F9000F0, 0x01000050),                                                      -- QADD, QSUB, QDADD, QDSUB
    (0x0F6000F0, 0x000000B0), (0x0F6000D0, 0x000000D0), (0x0F6000F0, 0x002000B0),  -- register forms of mode 3
    (0x0F4000F0, 0x010000B0), (0x0F4000D0, 0x010000D0) ]

/-- Whether a word has one of the patterns listed. -/
def hasPattern {n : Nat} (l : List (BitVec n × BitVec n)) (w : BitVec n) : Bool :=
  l.any fun e => w &&& e.1 == e.2

/-- The reason why an ARM word that selects no row is no instruction (R126). -/
def armReject (w : Word) : Reject :=
  if w.extractLsb' 28 4 = 0b1111#4 then
    (if hasPattern [(0x0F700000, 0x05500000), (0x0F700010, 0x07500000)] w then .shouldBeBits else .unallocated)
  else if hasPattern [(0x0FF000F0, 0x01200070)] w then .bkptCondition
  else if hasPattern [(0x0E708000, 0x08700000), (0x0E700000, 0x08600000)] w then .userBankWriteBack
  else if hasPattern armShouldBe w then .shouldBeBits
  else .unallocated

/-- The reason why a Thumb halfword that selects no row is no instruction (R127). -/
def thumbReject (h : Half) : Reject :=
  if hasPattern [(0xFFC0, 0x4400), (0xFFC0, 0x4500), (0xFFC0, 0x4600)] h then .lowLowHighForm
  else if hasPattern [(0xFF00, 0x4700)] h then .shouldBeBits
  else .unallocated

/-- The first row of a table that a word selects. -/
def selectRow {n : Nat} (rows : List (Row n)) (w : BitVec n) : Option (Row n) :=
  rows.find? fun r => r.accepts w

/-- The instruction an ARM word stands for (R101, R102, R111). -/
def decodeArm (w : Word) : Decoded :=
  match Cond.ofBits (w.extractLsb' 28 4) with
  | some c =>
    match selectRow armRows w with
    | some r => .instr (r.build c w)
    | none => .rejected (armReject w)
  | none =>
    match selectRow unconditionalRows w with
    | some r => .instr (r.build .al w)
    | none => .rejected (armReject w)

/-- The instruction a Thumb halfword stands for (R103). -/
def decodeThumb (h : Half) : Decoded :=
  match selectRow thumbRows h with
  | some r => .instr (r.build .al h)
  | none => .rejected (thumbReject h)

/-- A word from its bytes, the byte at the lowest address first (R63). -/
def wordOfBytes (bigEndian : Bool) (b0 b1 b2 b3 : Byte) : Word :=
  if bigEndian then b0 ++ b1 ++ b2 ++ b3 else b3 ++ b2 ++ b1 ++ b0

/-- A halfword from its bytes, the byte at the lowest address first (R63). -/
def halfOfBytes (bigEndian : Bool) (b0 b1 : Byte) : Half :=
  if bigEndian then b0 ++ b1 else b1 ++ b0

/-- The bytes of a word, the one for the lowest address first (R63). -/
def bytesOfWord (bigEndian : Bool) (w : Word) : List Byte :=
  let bytes := [w.extractLsb' 0 8, w.extractLsb' 8 8, w.extractLsb' 16 8, w.extractLsb' 24 8]
  if bigEndian then bytes.reverse else bytes

/-- The bytes of a halfword, the one for the lowest address first (R63). -/
def bytesOfHalf (bigEndian : Bool) (h : Half) : List Byte :=
  let bytes := [h.extractLsb' 0 8, h.extractLsb' 8 8]
  if bigEndian then bytes.reverse else bytes

/-- The decoder on bytes, the one at the lowest address first: a word in ARM state, a halfword in Thumb state
(R65, R100). -/
def decodeBytes (thumb bigEndian : Bool) (bytes : List Byte) : Decoded :=
  match thumb, bytes with
  | false, [b0, b1, b2, b3] => decodeArm (wordOfBytes bigEndian b0 b1 b2 b3)
  | true, [b0, b1] => decodeThumb (halfOfBytes bigEndian b0 b1)
  | _, _ => .rejected .wrongLength

/-- The bytes, least significant first, of the `n` bytes that a row of the table has. -/
def tableBytes (n w : Nat) : List Byte :=
  (List.range n).map fun k => BitVec.ofNat 8 (w >>> (8 * k))

/-- The instruction the decoder reads from an instruction of `nbits` bits whose bits are `w`: 32 bits are an ARM
instruction, 16 a Thumb instruction, stored as a little-endian memory stores them. -/
def decodeTableWord (nbits w : Nat) : Option Instr :=
  match decodeBytes (nbits == 16) false (tableBytes (nbits / 8) w) with
  | .instr i => some i
  | .rejected _ => none

/-- The bits of an instruction: a word of ARM state or a halfword of Thumb state. -/
inductive Encoded where
  | arm (w : Word)
  | thumb (h : Half)
deriving DecidableEq, Repr

/-- The decoder on either kind of bits. -/
def decode : Encoded → Decoded
  | .arm w => decodeArm w
  | .thumb h => decodeThumb h

/-- A field at its place in an instruction of `n` bits: its lowest bit is bit `lo`. -/
def place {m : Nat} (n : Nat) (f : BitVec m) (lo : Nat) : BitVec n := f.setWidth n <<< lo

/-- The bits of an instruction: the pattern of its row, with its fields in their places (R116 to R125). -/
def encode : Instr → Encoded
  | .andImm cond sb rn rd rot imm8 =>
    .arm (0x02000000#32 ||| place 32 cond.bits 28 ||| place 32 (bit sb) 20 ||| place 32 rn 16 |||
      place 32 rd 12 ||| place 32 rot 8 ||| place 32 imm8 0)
  | .andShift cond sb rn rd amount shift rm =>
    .arm (0x00000000#32 ||| place 32 cond.bits 28 ||| place 32 (bit sb) 20 ||| place 32 rn 16 |||
      place 32 rd 12 ||| place 32 amount 7 ||| place 32 shift.bits 5 ||| place 32 rm 0)
  | .andRegShift cond sb rn rd rs shift rm =>
    .arm (0x00000010#32 ||| place 32 cond.bits 28 ||| place 32 (bit sb) 20 ||| place 32 rn 16 |||
      place 32 rd 12 ||| place 32 rs 8 ||| place 32 shift.bits 5 ||| place 32 rm 0)
  | .eorImm cond sb rn rd rot imm8 =>
    .arm (0x02200000#32 ||| place 32 cond.bits 28 ||| place 32 (bit sb) 20 ||| place 32 rn 16 |||
      place 32 rd 12 ||| place 32 rot 8 ||| place 32 imm8 0)
  | .eorShift cond sb rn rd amount shift rm =>
    .arm (0x00200000#32 ||| place 32 cond.bits 28 ||| place 32 (bit sb) 20 ||| place 32 rn 16 |||
      place 32 rd 12 ||| place 32 amount 7 ||| place 32 shift.bits 5 ||| place 32 rm 0)
  | .eorRegShift cond sb rn rd rs shift rm =>
    .arm (0x00200010#32 ||| place 32 cond.bits 28 ||| place 32 (bit sb) 20 ||| place 32 rn 16 |||
      place 32 rd 12 ||| place 32 rs 8 ||| place 32 shift.bits 5 ||| place 32 rm 0)
  | .subImm cond sb rn rd rot imm8 =>
    .arm (0x02400000#32 ||| place 32 cond.bits 28 ||| place 32 (bit sb) 20 ||| place 32 rn 16 |||
      place 32 rd 12 ||| place 32 rot 8 ||| place 32 imm8 0)
  | .subShift cond sb rn rd amount shift rm =>
    .arm (0x00400000#32 ||| place 32 cond.bits 28 ||| place 32 (bit sb) 20 ||| place 32 rn 16 |||
      place 32 rd 12 ||| place 32 amount 7 ||| place 32 shift.bits 5 ||| place 32 rm 0)
  | .subRegShift cond sb rn rd rs shift rm =>
    .arm (0x00400010#32 ||| place 32 cond.bits 28 ||| place 32 (bit sb) 20 ||| place 32 rn 16 |||
      place 32 rd 12 ||| place 32 rs 8 ||| place 32 shift.bits 5 ||| place 32 rm 0)
  | .rsbImm cond sb rn rd rot imm8 =>
    .arm (0x02600000#32 ||| place 32 cond.bits 28 ||| place 32 (bit sb) 20 ||| place 32 rn 16 |||
      place 32 rd 12 ||| place 32 rot 8 ||| place 32 imm8 0)
  | .rsbShift cond sb rn rd amount shift rm =>
    .arm (0x00600000#32 ||| place 32 cond.bits 28 ||| place 32 (bit sb) 20 ||| place 32 rn 16 |||
      place 32 rd 12 ||| place 32 amount 7 ||| place 32 shift.bits 5 ||| place 32 rm 0)
  | .rsbRegShift cond sb rn rd rs shift rm =>
    .arm (0x00600010#32 ||| place 32 cond.bits 28 ||| place 32 (bit sb) 20 ||| place 32 rn 16 |||
      place 32 rd 12 ||| place 32 rs 8 ||| place 32 shift.bits 5 ||| place 32 rm 0)
  | .addImm cond sb rn rd rot imm8 =>
    .arm (0x02800000#32 ||| place 32 cond.bits 28 ||| place 32 (bit sb) 20 ||| place 32 rn 16 |||
      place 32 rd 12 ||| place 32 rot 8 ||| place 32 imm8 0)
  | .addShift cond sb rn rd amount shift rm =>
    .arm (0x00800000#32 ||| place 32 cond.bits 28 ||| place 32 (bit sb) 20 ||| place 32 rn 16 |||
      place 32 rd 12 ||| place 32 amount 7 ||| place 32 shift.bits 5 ||| place 32 rm 0)
  | .addRegShift cond sb rn rd rs shift rm =>
    .arm (0x00800010#32 ||| place 32 cond.bits 28 ||| place 32 (bit sb) 20 ||| place 32 rn 16 |||
      place 32 rd 12 ||| place 32 rs 8 ||| place 32 shift.bits 5 ||| place 32 rm 0)
  | .adcImm cond sb rn rd rot imm8 =>
    .arm (0x02A00000#32 ||| place 32 cond.bits 28 ||| place 32 (bit sb) 20 ||| place 32 rn 16 |||
      place 32 rd 12 ||| place 32 rot 8 ||| place 32 imm8 0)
  | .adcShift cond sb rn rd amount shift rm =>
    .arm (0x00A00000#32 ||| place 32 cond.bits 28 ||| place 32 (bit sb) 20 ||| place 32 rn 16 |||
      place 32 rd 12 ||| place 32 amount 7 ||| place 32 shift.bits 5 ||| place 32 rm 0)
  | .adcRegShift cond sb rn rd rs shift rm =>
    .arm (0x00A00010#32 ||| place 32 cond.bits 28 ||| place 32 (bit sb) 20 ||| place 32 rn 16 |||
      place 32 rd 12 ||| place 32 rs 8 ||| place 32 shift.bits 5 ||| place 32 rm 0)
  | .sbcImm cond sb rn rd rot imm8 =>
    .arm (0x02C00000#32 ||| place 32 cond.bits 28 ||| place 32 (bit sb) 20 ||| place 32 rn 16 |||
      place 32 rd 12 ||| place 32 rot 8 ||| place 32 imm8 0)
  | .sbcShift cond sb rn rd amount shift rm =>
    .arm (0x00C00000#32 ||| place 32 cond.bits 28 ||| place 32 (bit sb) 20 ||| place 32 rn 16 |||
      place 32 rd 12 ||| place 32 amount 7 ||| place 32 shift.bits 5 ||| place 32 rm 0)
  | .sbcRegShift cond sb rn rd rs shift rm =>
    .arm (0x00C00010#32 ||| place 32 cond.bits 28 ||| place 32 (bit sb) 20 ||| place 32 rn 16 |||
      place 32 rd 12 ||| place 32 rs 8 ||| place 32 shift.bits 5 ||| place 32 rm 0)
  | .rscImm cond sb rn rd rot imm8 =>
    .arm (0x02E00000#32 ||| place 32 cond.bits 28 ||| place 32 (bit sb) 20 ||| place 32 rn 16 |||
      place 32 rd 12 ||| place 32 rot 8 ||| place 32 imm8 0)
  | .rscShift cond sb rn rd amount shift rm =>
    .arm (0x00E00000#32 ||| place 32 cond.bits 28 ||| place 32 (bit sb) 20 ||| place 32 rn 16 |||
      place 32 rd 12 ||| place 32 amount 7 ||| place 32 shift.bits 5 ||| place 32 rm 0)
  | .rscRegShift cond sb rn rd rs shift rm =>
    .arm (0x00E00010#32 ||| place 32 cond.bits 28 ||| place 32 (bit sb) 20 ||| place 32 rn 16 |||
      place 32 rd 12 ||| place 32 rs 8 ||| place 32 shift.bits 5 ||| place 32 rm 0)
  | .tstImm cond rn rot imm8 =>
    .arm (0x03100000#32 ||| place 32 cond.bits 28 ||| place 32 rn 16 ||| place 32 rot 8 ||| place 32 imm8 0)
  | .tstShift cond rn amount shift rm =>
    .arm (0x01100000#32 ||| place 32 cond.bits 28 ||| place 32 rn 16 ||| place 32 amount 7 |||
      place 32 shift.bits 5 ||| place 32 rm 0)
  | .tstRegShift cond rn rs shift rm =>
    .arm (0x01100010#32 ||| place 32 cond.bits 28 ||| place 32 rn 16 ||| place 32 rs 8 |||
      place 32 shift.bits 5 ||| place 32 rm 0)
  | .teqImm cond rn rot imm8 =>
    .arm (0x03300000#32 ||| place 32 cond.bits 28 ||| place 32 rn 16 ||| place 32 rot 8 ||| place 32 imm8 0)
  | .teqShift cond rn amount shift rm =>
    .arm (0x01300000#32 ||| place 32 cond.bits 28 ||| place 32 rn 16 ||| place 32 amount 7 |||
      place 32 shift.bits 5 ||| place 32 rm 0)
  | .teqRegShift cond rn rs shift rm =>
    .arm (0x01300010#32 ||| place 32 cond.bits 28 ||| place 32 rn 16 ||| place 32 rs 8 |||
      place 32 shift.bits 5 ||| place 32 rm 0)
  | .cmpImm cond rn rot imm8 =>
    .arm (0x03500000#32 ||| place 32 cond.bits 28 ||| place 32 rn 16 ||| place 32 rot 8 ||| place 32 imm8 0)
  | .cmpShift cond rn amount shift rm =>
    .arm (0x01500000#32 ||| place 32 cond.bits 28 ||| place 32 rn 16 ||| place 32 amount 7 |||
      place 32 shift.bits 5 ||| place 32 rm 0)
  | .cmpRegShift cond rn rs shift rm =>
    .arm (0x01500010#32 ||| place 32 cond.bits 28 ||| place 32 rn 16 ||| place 32 rs 8 |||
      place 32 shift.bits 5 ||| place 32 rm 0)
  | .cmnImm cond rn rot imm8 =>
    .arm (0x03700000#32 ||| place 32 cond.bits 28 ||| place 32 rn 16 ||| place 32 rot 8 ||| place 32 imm8 0)
  | .cmnShift cond rn amount shift rm =>
    .arm (0x01700000#32 ||| place 32 cond.bits 28 ||| place 32 rn 16 ||| place 32 amount 7 |||
      place 32 shift.bits 5 ||| place 32 rm 0)
  | .cmnRegShift cond rn rs shift rm =>
    .arm (0x01700010#32 ||| place 32 cond.bits 28 ||| place 32 rn 16 ||| place 32 rs 8 |||
      place 32 shift.bits 5 ||| place 32 rm 0)
  | .orrImm cond sb rn rd rot imm8 =>
    .arm (0x03800000#32 ||| place 32 cond.bits 28 ||| place 32 (bit sb) 20 ||| place 32 rn 16 |||
      place 32 rd 12 ||| place 32 rot 8 ||| place 32 imm8 0)
  | .orrShift cond sb rn rd amount shift rm =>
    .arm (0x01800000#32 ||| place 32 cond.bits 28 ||| place 32 (bit sb) 20 ||| place 32 rn 16 |||
      place 32 rd 12 ||| place 32 amount 7 ||| place 32 shift.bits 5 ||| place 32 rm 0)
  | .orrRegShift cond sb rn rd rs shift rm =>
    .arm (0x01800010#32 ||| place 32 cond.bits 28 ||| place 32 (bit sb) 20 ||| place 32 rn 16 |||
      place 32 rd 12 ||| place 32 rs 8 ||| place 32 shift.bits 5 ||| place 32 rm 0)
  | .movImm cond sb rd rot imm8 =>
    .arm (0x03A00000#32 ||| place 32 cond.bits 28 ||| place 32 (bit sb) 20 ||| place 32 rd 12 |||
      place 32 rot 8 ||| place 32 imm8 0)
  | .movShift cond sb rd amount shift rm =>
    .arm (0x01A00000#32 ||| place 32 cond.bits 28 ||| place 32 (bit sb) 20 ||| place 32 rd 12 |||
      place 32 amount 7 ||| place 32 shift.bits 5 ||| place 32 rm 0)
  | .movRegShift cond sb rd rs shift rm =>
    .arm (0x01A00010#32 ||| place 32 cond.bits 28 ||| place 32 (bit sb) 20 ||| place 32 rd 12 |||
      place 32 rs 8 ||| place 32 shift.bits 5 ||| place 32 rm 0)
  | .bicImm cond sb rn rd rot imm8 =>
    .arm (0x03C00000#32 ||| place 32 cond.bits 28 ||| place 32 (bit sb) 20 ||| place 32 rn 16 |||
      place 32 rd 12 ||| place 32 rot 8 ||| place 32 imm8 0)
  | .bicShift cond sb rn rd amount shift rm =>
    .arm (0x01C00000#32 ||| place 32 cond.bits 28 ||| place 32 (bit sb) 20 ||| place 32 rn 16 |||
      place 32 rd 12 ||| place 32 amount 7 ||| place 32 shift.bits 5 ||| place 32 rm 0)
  | .bicRegShift cond sb rn rd rs shift rm =>
    .arm (0x01C00010#32 ||| place 32 cond.bits 28 ||| place 32 (bit sb) 20 ||| place 32 rn 16 |||
      place 32 rd 12 ||| place 32 rs 8 ||| place 32 shift.bits 5 ||| place 32 rm 0)
  | .mvnImm cond sb rd rot imm8 =>
    .arm (0x03E00000#32 ||| place 32 cond.bits 28 ||| place 32 (bit sb) 20 ||| place 32 rd 12 |||
      place 32 rot 8 ||| place 32 imm8 0)
  | .mvnShift cond sb rd amount shift rm =>
    .arm (0x01E00000#32 ||| place 32 cond.bits 28 ||| place 32 (bit sb) 20 ||| place 32 rd 12 |||
      place 32 amount 7 ||| place 32 shift.bits 5 ||| place 32 rm 0)
  | .mvnRegShift cond sb rd rs shift rm =>
    .arm (0x01E00010#32 ||| place 32 cond.bits 28 ||| place 32 (bit sb) 20 ||| place 32 rd 12 |||
      place 32 rs 8 ||| place 32 shift.bits 5 ||| place 32 rm 0)
  | .mul cond sb rd rs rm =>
    .arm (0x00000090#32 ||| place 32 cond.bits 28 ||| place 32 (bit sb) 20 ||| place 32 rd 16 |||
      place 32 rs 8 ||| place 32 rm 0)
  | .mla cond sb rd rn rs rm =>
    .arm (0x00200090#32 ||| place 32 cond.bits 28 ||| place 32 (bit sb) 20 ||| place 32 rd 16 |||
      place 32 rn 12 ||| place 32 rs 8 ||| place 32 rm 0)
  | .umull cond sb rdHi rdLo rs rm =>
    .arm (0x00800090#32 ||| place 32 cond.bits 28 ||| place 32 (bit sb) 20 ||| place 32 rdHi 16 |||
      place 32 rdLo 12 ||| place 32 rs 8 ||| place 32 rm 0)
  | .umlal cond sb rdHi rdLo rs rm =>
    .arm (0x00A00090#32 ||| place 32 cond.bits 28 ||| place 32 (bit sb) 20 ||| place 32 rdHi 16 |||
      place 32 rdLo 12 ||| place 32 rs 8 ||| place 32 rm 0)
  | .smull cond sb rdHi rdLo rs rm =>
    .arm (0x00C00090#32 ||| place 32 cond.bits 28 ||| place 32 (bit sb) 20 ||| place 32 rdHi 16 |||
      place 32 rdLo 12 ||| place 32 rs 8 ||| place 32 rm 0)
  | .smlal cond sb rdHi rdLo rs rm =>
    .arm (0x00E00090#32 ||| place 32 cond.bits 28 ||| place 32 (bit sb) 20 ||| place 32 rdHi 16 |||
      place 32 rdLo 12 ||| place 32 rs 8 ||| place 32 rm 0)
  | .swp cond rn rd rm =>
    .arm (0x01000090#32 ||| place 32 cond.bits 28 ||| place 32 rn 16 ||| place 32 rd 12 ||| place 32 rm 0)
  | .swpb cond rn rd rm =>
    .arm (0x01400090#32 ||| place 32 cond.bits 28 ||| place 32 rn 16 ||| place 32 rd 12 ||| place 32 rm 0)
  | .smlaXY cond rd rn rs y x rm =>
    .arm (0x01000080#32 ||| place 32 cond.bits 28 ||| place 32 rd 16 ||| place 32 rn 12 ||| place 32 rs 8 |||
      place 32 (bit y) 6 ||| place 32 (bit x) 5 ||| place 32 rm 0)
  | .smlaWY cond rd rn rs y rm =>
    .arm (0x01200080#32 ||| place 32 cond.bits 28 ||| place 32 rd 16 ||| place 32 rn 12 ||| place 32 rs 8 |||
      place 32 (bit y) 6 ||| place 32 rm 0)
  | .smulWY cond rd rs y rm =>
    .arm (0x012000A0#32 ||| place 32 cond.bits 28 ||| place 32 rd 16 ||| place 32 rs 8 |||
      place 32 (bit y) 6 ||| place 32 rm 0)
  | .smlalXY cond rdHi rdLo rs y x rm =>
    .arm (0x01400080#32 ||| place 32 cond.bits 28 ||| place 32 rdHi 16 ||| place 32 rdLo 12 |||
      place 32 rs 8 ||| place 32 (bit y) 6 ||| place 32 (bit x) 5 ||| place 32 rm 0)
  | .smulXY cond rd rs y x rm =>
    .arm (0x01600080#32 ||| place 32 cond.bits 28 ||| place 32 rd 16 ||| place 32 rs 8 |||
      place 32 (bit y) 6 ||| place 32 (bit x) 5 ||| place 32 rm 0)
  | .mrs cond r rd =>
    .arm (0x010F0000#32 ||| place 32 cond.bits 28 ||| place 32 (bit r) 22 ||| place 32 rd 12)
  | .msrReg cond r mask rm =>
    .arm (0x0120F000#32 ||| place 32 cond.bits 28 ||| place 32 (bit r) 22 ||| place 32 mask 16 |||
      place 32 rm 0)
  | .msrImm cond r mask rot imm8 =>
    .arm (0x0320F000#32 ||| place 32 cond.bits 28 ||| place 32 (bit r) 22 ||| place 32 mask 16 |||
      place 32 rot 8 ||| place 32 imm8 0)
  | .bx cond rm => .arm (0x012FFF10#32 ||| place 32 cond.bits 28 ||| place 32 rm 0)
  | .bxj cond rm => .arm (0x012FFF20#32 ||| place 32 cond.bits 28 ||| place 32 rm 0)
  | .blxReg cond rm => .arm (0x012FFF30#32 ||| place 32 cond.bits 28 ||| place 32 rm 0)
  | .clz cond rd rm =>
    .arm (0x016F0F10#32 ||| place 32 cond.bits 28 ||| place 32 rd 12 ||| place 32 rm 0)
  | .qadd cond rn rd rm =>
    .arm (0x01000050#32 ||| place 32 cond.bits 28 ||| place 32 rn 16 ||| place 32 rd 12 ||| place 32 rm 0)
  | .qsub cond rn rd rm =>
    .arm (0x01200050#32 ||| place 32 cond.bits 28 ||| place 32 rn 16 ||| place 32 rd 12 ||| place 32 rm 0)
  | .qdadd cond rn rd rm =>
    .arm (0x01400050#32 ||| place 32 cond.bits 28 ||| place 32 rn 16 ||| place 32 rd 12 ||| place 32 rm 0)
  | .qdsub cond rn rd rm =>
    .arm (0x01600050#32 ||| place 32 cond.bits 28 ||| place 32 rn 16 ||| place 32 rd 12 ||| place 32 rm 0)
  | .bkpt imm16 =>
    .arm (0xE1200070#32 ||| place 32 (imm16.extractLsb' 4 12) 8 ||| place 32 (imm16.extractLsb' 0 4) 0)
  | .ldrImm cond idx u rn rd off12 =>
    .arm (0x04100000#32 ||| place 32 cond.bits 28 ||| place 32 (bit idx.p) 24 ||| place 32 (bit u) 23 |||
      place 32 (bit idx.w) 21 ||| place 32 rn 16 ||| place 32 rd 12 ||| place 32 off12 0)
  | .ldrReg cond idx u rn rd amount shift rm =>
    .arm (0x06100000#32 ||| place 32 cond.bits 28 ||| place 32 (bit idx.p) 24 ||| place 32 (bit u) 23 |||
      place 32 (bit idx.w) 21 ||| place 32 rn 16 ||| place 32 rd 12 ||| place 32 amount 7 |||
      place 32 shift.bits 5 ||| place 32 rm 0)
  | .ldrbImm cond idx u rn rd off12 =>
    .arm (0x04500000#32 ||| place 32 cond.bits 28 ||| place 32 (bit idx.p) 24 ||| place 32 (bit u) 23 |||
      place 32 (bit idx.w) 21 ||| place 32 rn 16 ||| place 32 rd 12 ||| place 32 off12 0)
  | .ldrbReg cond idx u rn rd amount shift rm =>
    .arm (0x06500000#32 ||| place 32 cond.bits 28 ||| place 32 (bit idx.p) 24 ||| place 32 (bit u) 23 |||
      place 32 (bit idx.w) 21 ||| place 32 rn 16 ||| place 32 rd 12 ||| place 32 amount 7 |||
      place 32 shift.bits 5 ||| place 32 rm 0)
  | .strImm cond idx u rn rd off12 =>
    .arm (0x04000000#32 ||| place 32 cond.bits 28 ||| place 32 (bit idx.p) 24 ||| place 32 (bit u) 23 |||
      place 32 (bit idx.w) 21 ||| place 32 rn 16 ||| place 32 rd 12 ||| place 32 off12 0)
  | .strReg cond idx u rn rd amount shift rm =>
    .arm (0x06000000#32 ||| place 32 cond.bits 28 ||| place 32 (bit idx.p) 24 ||| place 32 (bit u) 23 |||
      place 32 (bit idx.w) 21 ||| place 32 rn 16 ||| place 32 rd 12 ||| place 32 amount 7 |||
      place 32 shift.bits 5 ||| place 32 rm 0)
  | .strbImm cond idx u rn rd off12 =>
    .arm (0x04400000#32 ||| place 32 cond.bits 28 ||| place 32 (bit idx.p) 24 ||| place 32 (bit u) 23 |||
      place 32 (bit idx.w) 21 ||| place 32 rn 16 ||| place 32 rd 12 ||| place 32 off12 0)
  | .strbReg cond idx u rn rd amount shift rm =>
    .arm (0x06400000#32 ||| place 32 cond.bits 28 ||| place 32 (bit idx.p) 24 ||| place 32 (bit u) 23 |||
      place 32 (bit idx.w) 21 ||| place 32 rn 16 ||| place 32 rd 12 ||| place 32 amount 7 |||
      place 32 shift.bits 5 ||| place 32 rm 0)
  | .ldrtImm cond u rn rd off12 =>
    .arm (0x04300000#32 ||| place 32 cond.bits 28 ||| place 32 (bit u) 23 ||| place 32 rn 16 |||
      place 32 rd 12 ||| place 32 off12 0)
  | .ldrtReg cond u rn rd amount shift rm =>
    .arm (0x06300000#32 ||| place 32 cond.bits 28 ||| place 32 (bit u) 23 ||| place 32 rn 16 |||
      place 32 rd 12 ||| place 32 amount 7 ||| place 32 shift.bits 5 ||| place 32 rm 0)
  | .ldrbtImm cond u rn rd off12 =>
    .arm (0x04700000#32 ||| place 32 cond.bits 28 ||| place 32 (bit u) 23 ||| place 32 rn 16 |||
      place 32 rd 12 ||| place 32 off12 0)
  | .ldrbtReg cond u rn rd amount shift rm =>
    .arm (0x06700000#32 ||| place 32 cond.bits 28 ||| place 32 (bit u) 23 ||| place 32 rn 16 |||
      place 32 rd 12 ||| place 32 amount 7 ||| place 32 shift.bits 5 ||| place 32 rm 0)
  | .strtImm cond u rn rd off12 =>
    .arm (0x04200000#32 ||| place 32 cond.bits 28 ||| place 32 (bit u) 23 ||| place 32 rn 16 |||
      place 32 rd 12 ||| place 32 off12 0)
  | .strtReg cond u rn rd amount shift rm =>
    .arm (0x06200000#32 ||| place 32 cond.bits 28 ||| place 32 (bit u) 23 ||| place 32 rn 16 |||
      place 32 rd 12 ||| place 32 amount 7 ||| place 32 shift.bits 5 ||| place 32 rm 0)
  | .strbtImm cond u rn rd off12 =>
    .arm (0x04600000#32 ||| place 32 cond.bits 28 ||| place 32 (bit u) 23 ||| place 32 rn 16 |||
      place 32 rd 12 ||| place 32 off12 0)
  | .strbtReg cond u rn rd amount shift rm =>
    .arm (0x06600000#32 ||| place 32 cond.bits 28 ||| place 32 (bit u) 23 ||| place 32 rn 16 |||
      place 32 rd 12 ||| place 32 amount 7 ||| place 32 shift.bits 5 ||| place 32 rm 0)
  | .pldImm u rn off12 =>
    .arm (0xF550F000#32 ||| place 32 (bit u) 23 ||| place 32 rn 16 ||| place 32 off12 0)
  | .pldReg u rn amount shift rm =>
    .arm (0xF750F000#32 ||| place 32 (bit u) 23 ||| place 32 rn 16 ||| place 32 amount 7 |||
      place 32 shift.bits 5 ||| place 32 rm 0)
  | .strhImm cond idx u rn rd off8 =>
    .arm (0x004000B0#32 ||| place 32 cond.bits 28 ||| place 32 (bit idx.p) 24 ||| place 32 (bit u) 23 |||
      place 32 (bit idx.w) 21 ||| place 32 rn 16 ||| place 32 rd 12 |||
      place 32 (off8.extractLsb' 4 4) 8 ||| place 32 (off8.extractLsb' 0 4) 0)
  | .strhReg cond idx u rn rd rm =>
    .arm (0x000000B0#32 ||| place 32 cond.bits 28 ||| place 32 (bit idx.p) 24 ||| place 32 (bit u) 23 |||
      place 32 (bit idx.w) 21 ||| place 32 rn 16 ||| place 32 rd 12 ||| place 32 rm 0)
  | .ldrhImm cond idx u rn rd off8 =>
    .arm (0x005000B0#32 ||| place 32 cond.bits 28 ||| place 32 (bit idx.p) 24 ||| place 32 (bit u) 23 |||
      place 32 (bit idx.w) 21 ||| place 32 rn 16 ||| place 32 rd 12 |||
      place 32 (off8.extractLsb' 4 4) 8 ||| place 32 (off8.extractLsb' 0 4) 0)
  | .ldrhReg cond idx u rn rd rm =>
    .arm (0x001000B0#32 ||| place 32 cond.bits 28 ||| place 32 (bit idx.p) 24 ||| place 32 (bit u) 23 |||
      place 32 (bit idx.w) 21 ||| place 32 rn 16 ||| place 32 rd 12 ||| place 32 rm 0)
  | .ldrsbImm cond idx u rn rd off8 =>
    .arm (0x005000D0#32 ||| place 32 cond.bits 28 ||| place 32 (bit idx.p) 24 ||| place 32 (bit u) 23 |||
      place 32 (bit idx.w) 21 ||| place 32 rn 16 ||| place 32 rd 12 |||
      place 32 (off8.extractLsb' 4 4) 8 ||| place 32 (off8.extractLsb' 0 4) 0)
  | .ldrsbReg cond idx u rn rd rm =>
    .arm (0x001000D0#32 ||| place 32 cond.bits 28 ||| place 32 (bit idx.p) 24 ||| place 32 (bit u) 23 |||
      place 32 (bit idx.w) 21 ||| place 32 rn 16 ||| place 32 rd 12 ||| place 32 rm 0)
  | .ldrshImm cond idx u rn rd off8 =>
    .arm (0x005000F0#32 ||| place 32 cond.bits 28 ||| place 32 (bit idx.p) 24 ||| place 32 (bit u) 23 |||
      place 32 (bit idx.w) 21 ||| place 32 rn 16 ||| place 32 rd 12 |||
      place 32 (off8.extractLsb' 4 4) 8 ||| place 32 (off8.extractLsb' 0 4) 0)
  | .ldrshReg cond idx u rn rd rm =>
    .arm (0x001000F0#32 ||| place 32 cond.bits 28 ||| place 32 (bit idx.p) 24 ||| place 32 (bit u) 23 |||
      place 32 (bit idx.w) 21 ||| place 32 rn 16 ||| place 32 rd 12 ||| place 32 rm 0)
  | .ldrdImm cond idx u rn rd off8 =>
    .arm (0x004000D0#32 ||| place 32 cond.bits 28 ||| place 32 (bit idx.p) 24 ||| place 32 (bit u) 23 |||
      place 32 (bit idx.w) 21 ||| place 32 rn 16 ||| place 32 rd 12 |||
      place 32 (off8.extractLsb' 4 4) 8 ||| place 32 (off8.extractLsb' 0 4) 0)
  | .ldrdReg cond idx u rn rd rm =>
    .arm (0x000000D0#32 ||| place 32 cond.bits 28 ||| place 32 (bit idx.p) 24 ||| place 32 (bit u) 23 |||
      place 32 (bit idx.w) 21 ||| place 32 rn 16 ||| place 32 rd 12 ||| place 32 rm 0)
  | .strdImm cond idx u rn rd off8 =>
    .arm (0x004000F0#32 ||| place 32 cond.bits 28 ||| place 32 (bit idx.p) 24 ||| place 32 (bit u) 23 |||
      place 32 (bit idx.w) 21 ||| place 32 rn 16 ||| place 32 rd 12 |||
      place 32 (off8.extractLsb' 4 4) 8 ||| place 32 (off8.extractLsb' 0 4) 0)
  | .strdReg cond idx u rn rd rm =>
    .arm (0x000000F0#32 ||| place 32 cond.bits 28 ||| place 32 (bit idx.p) 24 ||| place 32 (bit u) 23 |||
      place 32 (bit idx.w) 21 ||| place 32 rn 16 ||| place 32 rd 12 ||| place 32 rm 0)
  | .ldm cond p u wb rn list =>
    .arm (0x08100000#32 ||| place 32 cond.bits 28 ||| place 32 (bit p) 24 ||| place 32 (bit u) 23 |||
      place 32 (bit wb) 21 ||| place 32 rn 16 ||| place 32 list 0)
  | .ldmUser cond p u rn list =>
    .arm (0x08500000#32 ||| place 32 cond.bits 28 ||| place 32 (bit p) 24 ||| place 32 (bit u) 23 |||
      place 32 rn 16 ||| place 32 list 0)
  | .ldmRestore cond p u wb rn list =>
    .arm (0x08508000#32 ||| place 32 cond.bits 28 ||| place 32 (bit p) 24 ||| place 32 (bit u) 23 |||
      place 32 (bit wb) 21 ||| place 32 rn 16 ||| place 32 list 0)
  | .stm cond p u wb rn list =>
    .arm (0x08000000#32 ||| place 32 cond.bits 28 ||| place 32 (bit p) 24 ||| place 32 (bit u) 23 |||
      place 32 (bit wb) 21 ||| place 32 rn 16 ||| place 32 list 0)
  | .stmUser cond p u rn list =>
    .arm (0x08400000#32 ||| place 32 cond.bits 28 ||| place 32 (bit p) 24 ||| place 32 (bit u) 23 |||
      place 32 rn 16 ||| place 32 list 0)
  | .b cond imm24 => .arm (0x0A000000#32 ||| place 32 cond.bits 28 ||| place 32 imm24 0)
  | .bl cond imm24 => .arm (0x0B000000#32 ||| place 32 cond.bits 28 ||| place 32 imm24 0)
  | .blxImm h imm24 => .arm (0xFA000000#32 ||| place 32 (bit h) 24 ||| place 32 imm24 0)
  | .cdp cond op1 crn crd cp op2 crm =>
    .arm (0x0E000000#32 ||| place 32 cond.bits 28 ||| place 32 op1 20 ||| place 32 crn 16 |||
      place 32 crd 12 ||| place 32 cp 8 ||| place 32 op2 5 ||| place 32 crm 0)
  | .mcr cond op1 crn rd cp op2 crm =>
    .arm (0x0E000010#32 ||| place 32 cond.bits 28 ||| place 32 op1 21 ||| place 32 crn 16 |||
      place 32 rd 12 ||| place 32 cp 8 ||| place 32 op2 5 ||| place 32 crm 0)
  | .mrc cond op1 crn rd cp op2 crm =>
    .arm (0x0E100010#32 ||| place 32 cond.bits 28 ||| place 32 op1 21 ||| place 32 crn 16 |||
      place 32 rd 12 ||| place 32 cp 8 ||| place 32 op2 5 ||| place 32 crm 0)
  | .mcrr cond rn rd cp op crm =>
    .arm (0x0C400000#32 ||| place 32 cond.bits 28 ||| place 32 rn 16 ||| place 32 rd 12 ||| place 32 cp 8 |||
      place 32 op 4 ||| place 32 crm 0)
  | .mrrc cond rn rd cp op crm =>
    .arm (0x0C500000#32 ||| place 32 cond.bits 28 ||| place 32 rn 16 ||| place 32 rd 12 ||| place 32 cp 8 |||
      place 32 op 4 ||| place 32 crm 0)
  | .ldc cond p u n wb rn crd cp off8 =>
    .arm (0x0C100000#32 ||| place 32 cond.bits 28 ||| place 32 (bit p) 24 ||| place 32 (bit u) 23 |||
      place 32 (bit n) 22 ||| place 32 (bit wb) 21 ||| place 32 rn 16 ||| place 32 crd 12 |||
      place 32 cp 8 ||| place 32 off8 0)
  | .stc cond p u n wb rn crd cp off8 =>
    .arm (0x0C000000#32 ||| place 32 cond.bits 28 ||| place 32 (bit p) 24 ||| place 32 (bit u) 23 |||
      place 32 (bit n) 22 ||| place 32 (bit wb) 21 ||| place 32 rn 16 ||| place 32 crd 12 |||
      place 32 cp 8 ||| place 32 off8 0)
  | .cdp2 op1 crn crd cp op2 crm =>
    .arm (0xFE000000#32 ||| place 32 op1 20 ||| place 32 crn 16 ||| place 32 crd 12 ||| place 32 cp 8 |||
      place 32 op2 5 ||| place 32 crm 0)
  | .mcr2 op1 crn rd cp op2 crm =>
    .arm (0xFE000010#32 ||| place 32 op1 21 ||| place 32 crn 16 ||| place 32 rd 12 ||| place 32 cp 8 |||
      place 32 op2 5 ||| place 32 crm 0)
  | .mrc2 op1 crn rd cp op2 crm =>
    .arm (0xFE100010#32 ||| place 32 op1 21 ||| place 32 crn 16 ||| place 32 rd 12 ||| place 32 cp 8 |||
      place 32 op2 5 ||| place 32 crm 0)
  | .ldc2 p u n wb rn crd cp off8 =>
    .arm (0xFC100000#32 ||| place 32 (bit p) 24 ||| place 32 (bit u) 23 ||| place 32 (bit n) 22 |||
      place 32 (bit wb) 21 ||| place 32 rn 16 ||| place 32 crd 12 ||| place 32 cp 8 ||| place 32 off8 0)
  | .stc2 p u n wb rn crd cp off8 =>
    .arm (0xFC000000#32 ||| place 32 (bit p) 24 ||| place 32 (bit u) 23 ||| place 32 (bit n) 22 |||
      place 32 (bit wb) 21 ||| place 32 rn 16 ||| place 32 crd 12 ||| place 32 cp 8 ||| place 32 off8 0)
  | .swi cond imm24 => .arm (0x0F000000#32 ||| place 32 cond.bits 28 ||| place 32 imm24 0)
  | .undefSpace cond payload payloadLow =>
    .arm (0x06000010#32 ||| place 32 cond.bits 28 ||| place 32 payload 5 ||| place 32 payloadLow 0)
  | .undefImm cond bit22 payload =>
    .arm (0x03000000#32 ||| place 32 cond.bits 28 ||| place 32 (bit bit22) 22 ||| place 32 payload 0)
  | .thumbLslImm imm5 rm rd => .thumb (0x0000#16 ||| place 16 imm5 6 ||| place 16 rm 3 ||| place 16 rd 0)
  | .thumbLsrImm imm5 rm rd => .thumb (0x0800#16 ||| place 16 imm5 6 ||| place 16 rm 3 ||| place 16 rd 0)
  | .thumbAsrImm imm5 rm rd => .thumb (0x1000#16 ||| place 16 imm5 6 ||| place 16 rm 3 ||| place 16 rd 0)
  | .thumbAddReg rm rn rd => .thumb (0x1800#16 ||| place 16 rm 6 ||| place 16 rn 3 ||| place 16 rd 0)
  | .thumbSubReg rm rn rd => .thumb (0x1A00#16 ||| place 16 rm 6 ||| place 16 rn 3 ||| place 16 rd 0)
  | .thumbAddImm3 imm3 rn rd => .thumb (0x1C00#16 ||| place 16 imm3 6 ||| place 16 rn 3 ||| place 16 rd 0)
  | .thumbSubImm3 imm3 rn rd => .thumb (0x1E00#16 ||| place 16 imm3 6 ||| place 16 rn 3 ||| place 16 rd 0)
  | .thumbMovImm rd imm8 => .thumb (0x2000#16 ||| place 16 rd 8 ||| place 16 imm8 0)
  | .thumbCmpImm rn imm8 => .thumb (0x2800#16 ||| place 16 rn 8 ||| place 16 imm8 0)
  | .thumbAddImm8 rd imm8 => .thumb (0x3000#16 ||| place 16 rd 8 ||| place 16 imm8 0)
  | .thumbSubImm8 rd imm8 => .thumb (0x3800#16 ||| place 16 rd 8 ||| place 16 imm8 0)
  | .thumbAnd rm rd => .thumb (0x4000#16 ||| place 16 rm 3 ||| place 16 rd 0)
  | .thumbEor rm rd => .thumb (0x4040#16 ||| place 16 rm 3 ||| place 16 rd 0)
  | .thumbLslReg rm rd => .thumb (0x4080#16 ||| place 16 rm 3 ||| place 16 rd 0)
  | .thumbLsrReg rm rd => .thumb (0x40C0#16 ||| place 16 rm 3 ||| place 16 rd 0)
  | .thumbAsrReg rm rd => .thumb (0x4100#16 ||| place 16 rm 3 ||| place 16 rd 0)
  | .thumbAdc rm rd => .thumb (0x4140#16 ||| place 16 rm 3 ||| place 16 rd 0)
  | .thumbSbc rm rd => .thumb (0x4180#16 ||| place 16 rm 3 ||| place 16 rd 0)
  | .thumbRorReg rm rd => .thumb (0x41C0#16 ||| place 16 rm 3 ||| place 16 rd 0)
  | .thumbTst rm rn => .thumb (0x4200#16 ||| place 16 rm 3 ||| place 16 rn 0)
  | .thumbNeg rm rd => .thumb (0x4240#16 ||| place 16 rm 3 ||| place 16 rd 0)
  | .thumbCmp rm rn => .thumb (0x4280#16 ||| place 16 rm 3 ||| place 16 rn 0)
  | .thumbCmn rm rn => .thumb (0x42C0#16 ||| place 16 rm 3 ||| place 16 rn 0)
  | .thumbOrr rm rd => .thumb (0x4300#16 ||| place 16 rm 3 ||| place 16 rd 0)
  | .thumbMul rm rd => .thumb (0x4340#16 ||| place 16 rm 3 ||| place 16 rd 0)
  | .thumbBic rm rd => .thumb (0x4380#16 ||| place 16 rm 3 ||| place 16 rd 0)
  | .thumbMvn rm rd => .thumb (0x43C0#16 ||| place 16 rm 3 ||| place 16 rd 0)
  | .thumbAddHigh rm rd =>
    .thumb (0x4400#16 ||| place 16 (rd.extractLsb' 3 1) 7 ||| place 16 rm 3 ||| place 16 (rd.extractLsb' 0 3) 0)
  | .thumbCmpHigh rm rn =>
    .thumb (0x4500#16 ||| place 16 (rn.extractLsb' 3 1) 7 ||| place 16 rm 3 ||| place 16 (rn.extractLsb' 0 3) 0)
  | .thumbMovHigh rm rd =>
    .thumb (0x4600#16 ||| place 16 (rd.extractLsb' 3 1) 7 ||| place 16 rm 3 ||| place 16 (rd.extractLsb' 0 3) 0)
  | .thumbBx rm => .thumb (0x4700#16 ||| place 16 rm 3)
  | .thumbBlxReg rm => .thumb (0x4780#16 ||| place 16 rm 3)
  | .thumbLdrPc rd imm8 => .thumb (0x4800#16 ||| place 16 rd 8 ||| place 16 imm8 0)
  | .thumbStrReg ro rb rd => .thumb (0x5000#16 ||| place 16 ro 6 ||| place 16 rb 3 ||| place 16 rd 0)
  | .thumbStrhReg ro rb rd => .thumb (0x5200#16 ||| place 16 ro 6 ||| place 16 rb 3 ||| place 16 rd 0)
  | .thumbStrbReg ro rb rd => .thumb (0x5400#16 ||| place 16 ro 6 ||| place 16 rb 3 ||| place 16 rd 0)
  | .thumbLdrsbReg ro rb rd => .thumb (0x5600#16 ||| place 16 ro 6 ||| place 16 rb 3 ||| place 16 rd 0)
  | .thumbLdrReg ro rb rd => .thumb (0x5800#16 ||| place 16 ro 6 ||| place 16 rb 3 ||| place 16 rd 0)
  | .thumbLdrhReg ro rb rd => .thumb (0x5A00#16 ||| place 16 ro 6 ||| place 16 rb 3 ||| place 16 rd 0)
  | .thumbLdrbReg ro rb rd => .thumb (0x5C00#16 ||| place 16 ro 6 ||| place 16 rb 3 ||| place 16 rd 0)
  | .thumbLdrshReg ro rb rd => .thumb (0x5E00#16 ||| place 16 ro 6 ||| place 16 rb 3 ||| place 16 rd 0)
  | .thumbStrImm imm5 rb rd => .thumb (0x6000#16 ||| place 16 imm5 6 ||| place 16 rb 3 ||| place 16 rd 0)
  | .thumbLdrImm imm5 rb rd => .thumb (0x6800#16 ||| place 16 imm5 6 ||| place 16 rb 3 ||| place 16 rd 0)
  | .thumbStrbImm imm5 rb rd => .thumb (0x7000#16 ||| place 16 imm5 6 ||| place 16 rb 3 ||| place 16 rd 0)
  | .thumbLdrbImm imm5 rb rd => .thumb (0x7800#16 ||| place 16 imm5 6 ||| place 16 rb 3 ||| place 16 rd 0)
  | .thumbStrhImm imm5 rb rd => .thumb (0x8000#16 ||| place 16 imm5 6 ||| place 16 rb 3 ||| place 16 rd 0)
  | .thumbLdrhImm imm5 rb rd => .thumb (0x8800#16 ||| place 16 imm5 6 ||| place 16 rb 3 ||| place 16 rd 0)
  | .thumbStrSp rd imm8 => .thumb (0x9000#16 ||| place 16 rd 8 ||| place 16 imm8 0)
  | .thumbLdrSp rd imm8 => .thumb (0x9800#16 ||| place 16 rd 8 ||| place 16 imm8 0)
  | .thumbAddPc rd imm8 => .thumb (0xA000#16 ||| place 16 rd 8 ||| place 16 imm8 0)
  | .thumbAddSp rd imm8 => .thumb (0xA800#16 ||| place 16 rd 8 ||| place 16 imm8 0)
  | .thumbIncSp imm7 => .thumb (0xB000#16 ||| place 16 imm7 0)
  | .thumbDecSp imm7 => .thumb (0xB080#16 ||| place 16 imm7 0)
  | .thumbPush r list => .thumb (0xB400#16 ||| place 16 (bit r) 8 ||| place 16 list 0)
  | .thumbPop r list => .thumb (0xBC00#16 ||| place 16 (bit r) 8 ||| place 16 list 0)
  | .thumbBkpt imm8 => .thumb (0xBE00#16 ||| place 16 imm8 0)
  | .thumbStmia rb list => .thumb (0xC000#16 ||| place 16 rb 8 ||| place 16 list 0)
  | .thumbLdmia rb list => .thumb (0xC800#16 ||| place 16 rb 8 ||| place 16 list 0)
  | .thumbBCond cond imm8 => .thumb (0xD000#16 ||| place 16 cond.bits 8 ||| place 16 imm8 0)
  | .thumbUndefCond imm8 => .thumb (0xDE00#16 ||| place 16 imm8 0)
  | .thumbSwi imm8 => .thumb (0xDF00#16 ||| place 16 imm8 0)
  | .thumbB imm11 => .thumb (0xE000#16 ||| place 16 imm11 0)
  | .thumbBlxSuffix imm10 => .thumb (0xE800#16 ||| place 16 imm10 1)
  | .thumbUndefBlx imm10 => .thumb (0xE801#16 ||| place 16 imm10 1)
  | .thumbBlPrefix imm11 => .thumb (0xF000#16 ||| place 16 imm11 0)
  | .thumbBlSuffix imm11 => .thumb (0xF800#16 ||| place 16 imm11 0)

end Sys2Proof
end

