-- ==== Sys2Proof/Config.lean ====
section
/-!
DEFINITION. What the system around the core fixes or supplies (spec/00_scope.md rule R6, spec/92_eei_decisions.md):
the static pins, the memory system's abort answers and its side effects, the interrupt and reset inputs, the attached
coprocessors; and the free values, which the spec leaves open. All but the free values are plain data that a state carries
and no step of the core chooses; the free values are one constant without a body.
-/
namespace Sys2Proof

/-- The three kinds of memory access (R60, R74). -/
inductive Access where
  | fetch | read | write
deriving DecidableEq, Repr

/-- The three widths of a memory access (R71). -/
inductive Width where
  | byte | half | word
deriving DecidableEq, Repr

/-- The number of bytes of an access. -/
def Width.bytes : Width → Nat
  | .byte => 1
  | .half => 2
  | .word => 4

/-- One rule of the attached memory system's abort predicate (R74, D5): an access is answered with an abort when it
touches one of the `size` bytes from `base` on, is of one of the kinds listed, and is of the width, carries the privilege
attribute (R73) and is locked or not (R72) as the rule gives them, where it gives them. A finite list of rules is every
predicate of address, width, kind, privilege and lock on aligned accesses. Abort answers do not change during a run. -/
structure AbortRule where
  base : Nat
  size : Nat
  kinds : List Access
  width : Option Width
  privileged : Option Bool
  locked : Option Bool
deriving DecidableEq, Repr

/-- What the attached memory system and the inputs do before one instruction: the two registered interrupt inputs (R41),
whether nRESET has been driven LOW and then HIGH again (R346, R400), and the bytes that devices and other bus masters
change in memory, the later entry standing (R6, R76: the side effects of MEM; log entry 6). -/
structure PinSample where
  reset : Bool
  fiq : Bool
  irq : Bool
  mem : List (Word × Byte)
deriving DecidableEq, Repr

/-- The answer of the attached coprocessors to one offered instruction (R240). -/
inductive CpAnswer where
  /-- No coprocessor accepts: the Undefined instruction trap is taken. -/
  | absent
  /-- Busy-wait: the instruction stays where it is. -/
  | wait
  /-- Go and Last: the instruction is committed. The words are the coprocessor's side of it: `first` is the value of
  MRC, `first` and `second` those of MRRC, `first` followed by `more` the words of STC; LDC moves as many words as
  `first` followed by `more` has. -/
  | accept (first second : Word) (more : List Word)
deriving DecidableEq, Repr

/-- One rule of COPROC (R240, R257, D11): how the attached coprocessors answer an instruction word that is `pattern` under
`mask`, offered with the privilege given, if one is given. With `some .wait` they wait for ever (R256); with `none` they
answer from their own state, by the next entry of the state's `cpAnswers`. -/
structure CpRule where
  mask : Word
  pattern : Word
  privileged : Option Bool
  answer : Option CpAnswer
deriving DecidableEq, Repr

/-- The parameters of R6 that are fixed for a run. `bigEndian` is BIGEND (CFGBIGEND), `hiVecs` is HIVECS
(CFGHIVECS), `storePc12` says that STORE_PC_OFFSET is 12 and not 8 (D12), `aborts` is the abort predicate of MEM,
`coprocessors` is COPROC: the first rule that covers an instruction counts, and an instruction that none covers is
answered Absent (D11). -/
structure Config where
  bigEndian : Bool
  hiVecs : Bool
  storePc12 : Bool
  aborts : List AbortRule
  coprocessors : List CpRule
deriving DecidableEq, Repr

/-- What the core handed to the coprocessors in one committed instruction (R241 to R248): the instruction, the
privilege it was offered with (R257), the words transferred to the coprocessor, and whether the transfer
completed (an LDC stopped by a Data Abort does not, R246). -/
structure CpMessage where
  instr : Instr
  privileged : Bool
  data : List Word
  complete : Bool
deriving DecidableEq, Repr

/-- The free values: what the spec calls indeterminate, UNPREDICTABLE as a value, or without a value, in a machine
that goes on (U1, U2, U9, U16, U20). The state counts them, so that each occurrence is a value of its own; nothing is
known of any of them. -/
opaque Config.freeWord : Nat → Word

end Sys2Proof
end

