-- ==== Sys2Proof/Machine/State.lean ====
section
/-!
DEFINITION. The state of the machine (spec/10_state.md), the reasons a step can stop, and the state after reset (R45).
All of it is plain data. Every change of a state is made by an operation of Sys2Proof/Machine/Ops.lean.
-/
namespace Sys2Proof.Machine

/-- The seven processor modes (R31, R360). -/
inductive Mode where
  | usr | fiq | irq | svc | abt | und | sys
deriving DecidableEq, Repr

/-- The thirty general-purpose registers other than the PC, by their physical names (R20). -/
inductive PhysReg where
  | r0 | r1 | r2 | r3 | r4 | r5 | r6 | r7
  | r8 | r9 | r10 | r11 | r12
  | r8fiq | r9fiq | r10fiq | r11fiq | r12fiq
  | r13 | r13fiq | r13irq | r13svc | r13abt | r13und
  | r14 | r14fiq | r14irq | r14svc | r14abt | r14und
deriving DecidableEq, Repr

/-- What the thirty registers hold (R20). -/
structure Regs where
  r0 : Word
  r1 : Word
  r2 : Word
  r3 : Word
  r4 : Word
  r5 : Word
  r6 : Word
  r7 : Word
  r8 : Word
  r9 : Word
  r10 : Word
  r11 : Word
  r12 : Word
  r8fiq : Word
  r9fiq : Word
  r10fiq : Word
  r11fiq : Word
  r12fiq : Word
  r13 : Word
  r13fiq : Word
  r13irq : Word
  r13svc : Word
  r13abt : Word
  r13und : Word
  r14 : Word
  r14fiq : Word
  r14irq : Word
  r14svc : Word
  r14abt : Word
  r14und : Word
deriving DecidableEq, Repr

/-- The five saved program status registers (R20, R32). -/
structure Spsrs where
  fiq : Word
  irq : Word
  svc : Word
  abt : Word
  und : Word
deriving DecidableEq, Repr

/-- The debug communications channel, coprocessor 14 (R35 to R38): the two data registers, the W and R bits of the
control register, and the DbgAbt bit. -/
structure Dcc where
  readData : Word
  writeData : Word
  w : Bool
  r : Bool
  dbgAbt : Bool
deriving DecidableEq, Repr

/-- The state of the machine. -/
structure State where
  /-- The thirty general registers other than the PC (R20). -/
  regs : Regs
  /-- `instr_addr`, the address of the instruction about to execute (R25). -/
  pc : Word
  /-- The current program status register (R27). -/
  cpsr : Word
  /-- The saved program status registers (R32). -/
  spsr : Spsrs
  /-- Coprocessor 14 (R35). -/
  dcc : Dcc
  /-- Memory: the bytes that hold a value, addresses strictly rising (R61). A byte that is not listed holds no
  value (R402). -/
  mem : List Host.Cell
  /-- The addresses the program has stored to, and those of executed bytes that a device has rewritten, strictly rising:
  none of them is executed (R80, D7). -/
  stored : List Nat
  /-- The addresses of the bytes executed as instructions, strictly rising: read-only for the run (R80, D7). -/
  fetched : List Nat
  /-- The parameters fixed for the run (R6). -/
  config : Config
  /-- What the pins hold and what devices write at the coming instruction boundaries (R41, D15, R76); none left means
  all inactive. -/
  pins : List PinSample
  /-- The answers to come of the coprocessors whose rule in `config` leaves the answer to their own state (R240); none
  left means that they accept and supply free values. -/
  cpAnswers : List CpAnswer
  /-- What the coprocessors were handed, oldest first (R241 to R248). -/
  cpSent : List CpMessage
  /-- The instruction at `pc` is a coprocessor instruction being busy-waited (R44). -/
  cpWaiting : Bool
  /-- The instruction just executed was an LDM of User-bank registers (R412). -/
  userLdm : Bool
  /-- Sequential execution has run past the top of memory: `pc` holds the wrapped address (R26, D9). -/
  pastTop : Bool
  /-- How many free values have been taken: the model's own counter. -/
  freeCount : Nat
deriving DecidableEq, Repr

/-- Why a step faults. -/
inductive Fault where
  /-- A load or a fetch read a byte of memory that holds no value (R402, D5). Raised by every load and by the fetch.
  Safe: hardware reads some value and goes on, so the model only proves less. -/
  | unwrittenByte
  /-- The mode bits of the CPSR hold none of the seven modes: "an unrecoverable state" that only reset leaves (R31,
  U3). Raised at the boundary before each instruction. Safe: the machine is stuck, as the spec says. -/
  | illegalMode
deriving DecidableEq, Repr

/-- Why a step is refused: the points where the spec gives the machine no next state. All are safe: hardware does
something the spec does not state, and the model proves nothing about it. -/
inductive Refusal where
  /-- The instruction has no meaning in this model. Raised by an arm of `exec` only. -/
  | notModelled (mnemonic : String)
  /-- The word is no instruction of the table (R126, R127, U17, D22). Raised by the fetch. -/
  | unallocatedEncoding
  /-- A should-be-zero or should-be-one field does not hold what it should (R129, U5). Raised by the fetch. -/
  | shouldBeBits
  /-- BKPT with a condition other than AL (R250, U13). Raised by the fetch. -/
  | bkptCondition
  /-- A Thumb high-register form that names two low registers (R262, R267, R278, U12). Raised by the fetch. -/
  | lowLowHighForm
  /-- LDM (2) or STM (2) with write-back (R208, R217, U9). Raised by the fetch. -/
  | userBankWriteBack
  /-- Register 15 where the instruction does not allow it (U6, U9, U12, U14). -/
  | r15Operand
  /-- Register fields that may not be equal are equal (U6, U9, U14). -/
  | overlappingRegisters
  /-- LDRD or STRD of a pair that begins at an odd register or at r14 (R210, R218, U9, D22). -/
  | badRegisterPair
  /-- A data-processing instruction writes the PC with a value whose bits [1:0] are not 00 (R104, R140, U6). -/
  | misalignedPcWrite
  /-- BX, BLX or a load to the PC gives a value whose bits [1:0] are 10 (R104, U8). -/
  | armTargetBit1
  /-- An exception return to an address not aligned for the restored state (R104). -/
  | misalignedReturn
  /-- An access to the SPSR in a mode that has none (R32, U4). -/
  | noSpsr
  /-- LDM (2) or STM (2) in User or System mode (R208, R217, U4). -/
  | userBankInUserMode
  /-- An MSR whose operand has the J or T bit set in a byte it selects of the CPSR (R144, U7). -/
  | msrSetsStateBits
  /-- A halfword access at an odd address (R70, U10). -/
  | misalignedHalfword
  /-- A doubleword access at an address that is no multiple of 8 (R70, U11). -/
  | misalignedDoubleword
  /-- A word load into the PC from an address that is no multiple of 4 (R68, U11). -/
  | misalignedPcLoad
  /-- A load or store multiple of no register (R225, U9). -/
  | emptyRegisterList
  /-- A load multiple with write-back whose base is in its list, or a store multiple with write-back whose base is in its
  list and not the lowest register of it (R207, R216, R331, U9). -/
  | baseInList
  /-- The instruction after an LDM (2) names a banked register of the current mode (R412, U9). -/
  | bankedAfterUserLdm
  /-- A BXJ whose condition passes, or an exception return to an SPSR with J = 1 and T = 0 (R195, R355, D1, U23). -/
  | jazelleEntry
  /-- The instruction to execute is a Java bytecode: J = 1, T = 0 (R132, D1, U23). -/
  | jazelleState
  /-- An access to coprocessor 14 to which the spec gives no meaning (R252, D17, U15). -/
  | cp14Undocumented
  /-- The instruction to execute was stored by the program, or rewritten by a device after it had been executed (R80, D7,
  U24). Raised by the fetch. -/
  | fetchOfStored
  /-- A store to a byte that has been executed as an instruction (R80, D7, U24). Raised by every store. -/
  | storeToFetched
  /-- Sequential execution past the top of the address space (R26, D9, U18). -/
  | sequentialWrap
deriving DecidableEq, Repr

/-- The registers after reset: the spec gives them no value (R45); DESIGN CHOICE, zero (log entry 1). -/
def Regs.zero : Regs :=
  { r0 := 0, r1 := 0, r2 := 0, r3 := 0, r4 := 0, r5 := 0, r6 := 0, r7 := 0, r8 := 0, r9 := 0, r10 := 0, r11 := 0,
    r12 := 0, r8fiq := 0, r9fiq := 0, r10fiq := 0, r11fiq := 0, r12fiq := 0, r13 := 0, r13fiq := 0, r13irq := 0,
    r13svc := 0, r13abt := 0, r13und := 0, r14 := 0, r14fiq := 0, r14irq := 0, r14svc := 0, r14abt := 0,
    r14und := 0 }

/-- The configuration of `State.reset`: little-endian, vectors at 0, STORE_PC_OFFSET 8, no access aborts,
no coprocessor but 14. The spec leaves these open (D2, D3, D12, D5, D11); DESIGN CHOICE (log entry 3). -/
def defaultConfig : Config :=
  { bigEndian := false, hiVecs := false, storePc12 := false, aborts := [], coprocessors := [] }

/-- The machine right after reset with a given configuration (R45, R400): Supervisor mode, IRQ and FIQ disabled, ARM
state, the PC at the vector base. What the spec calls indeterminate is zero by DESIGN CHOICE (log entry 1). -/
def State.resetWith (c : Config) : State :=
  { regs := Regs.zero
    pc := if c.hiVecs then 0xFFFF0000#32 else 0x00000000#32
    cpsr := 0x000000D3#32
    spsr := { fiq := 0, irq := 0, svc := 0, abt := 0, und := 0 }
    dcc := { readData := 0, writeData := 0, w := false, r := false, dbgAbt := false }
    mem := []
    stored := []
    fetched := []
    config := c
    pins := []
    cpAnswers := []
    cpSent := []
    cpWaiting := false
    userLdm := false
    pastTop := false
    freeCount := 0 }

/-- The machine right after reset. -/
def State.reset : State := State.resetWith defaultConfig

end Sys2Proof.Machine
end

