-- ==== Sys2Proof/Machine/Flags.lean ====
section
/-!
DEFINITION. The program status registers bit by bit (spec/10_state.md rules R27 to R33), the condition test (R9), and
every flag computation: addition with carry, signed saturation (R10), and the flags each group of instructions writes
(R140, R156 to R172, R260).
-/
namespace Sys2Proof.Machine

/-- A word with one bit replaced. -/
def setBit (v : Word) (i : Nat) (b : Bool) : Word :=
  (v &&& ~~~(1#32 <<< i)) ||| ((BitVec.ofBool b).setWidth 32 <<< i)

/-- The N flag of a PSR (R27). -/
def psrN (p : Word) : Bool := p.getLsbD 31

/-- The Z flag of a PSR (R27). -/
def psrZ (p : Word) : Bool := p.getLsbD 30

/-- The C flag of a PSR (R27). -/
def psrC (p : Word) : Bool := p.getLsbD 29

/-- The V flag of a PSR (R27). -/
def psrV (p : Word) : Bool := p.getLsbD 28

/-- The sticky overflow flag of a PSR (R29). -/
def psrQ (p : Word) : Bool := p.getLsbD 27

/-- The Jazelle state bit of a PSR (R30). -/
def psrJ (p : Word) : Bool := p.getLsbD 24

/-- The IRQ disable bit of a PSR (R31). -/
def psrI (p : Word) : Bool := p.getLsbD 7

/-- The FIQ disable bit of a PSR (R31). -/
def psrF (p : Word) : Bool := p.getLsbD 6

/-- The Thumb state bit of a PSR (R30). -/
def psrT (p : Word) : Bool := p.getLsbD 5

/-- The mode bits of a PSR (R31). -/
def psrM (p : Word) : BitVec 5 := p.extractLsb' 0 5

/-- The mode numbers (R31, Table 2-2). -/
def Mode.bits : Mode → BitVec 5
  | .usr => 0b10000#5
  | .fiq => 0b10001#5
  | .irq => 0b10010#5
  | .svc => 0b10011#5
  | .abt => 0b10111#5
  | .und => 0b11011#5
  | .sys => 0b11111#5

/-- The mode of a mode number; the other 25 numbers are illegal (R31). -/
def Mode.ofBits (b : BitVec 5) : Option Mode :=
  match b.toNat with
  | 0b10000 => some .usr
  | 0b10001 => some .fiq
  | 0b10010 => some .irq
  | 0b10011 => some .svc
  | 0b10111 => some .abt
  | 0b11011 => some .und
  | 0b11111 => some .sys
  | _ => none

/-- A PSR with its mode bits replaced. -/
def setMode (p : Word) (m : Mode) : Word := (p &&& 0xFFFFFFE0#32) ||| m.bits.setWidth 32

/-- ConditionPassed (R9). -/
def condPassed (c : Cond) (p : Word) : Bool :=
  match c with
  | .eq => psrZ p
  | .ne => !psrZ p
  | .cs => psrC p
  | .cc => !psrC p
  | .mi => psrN p
  | .pl => !psrN p
  | .vs => psrV p
  | .vc => !psrV p
  | .hi => psrC p && !psrZ p
  | .ls => !psrC p || psrZ p
  | .ge => psrN p == psrV p
  | .lt => psrN p != psrV p
  | .gt => !psrZ p && psrN p == psrV p
  | .le => psrZ p || psrN p != psrV p
  | .al => true

/-- What an addition gives: the result modulo 2^32, the carry out and the signed overflow (R10). -/
structure Sum where
  value : Word
  carry : Bool
  overflow : Bool
deriving DecidableEq, Repr

/-- AddWithCarry (R10). -/
def addWithCarry (a b : Word) (cin : Bool) : Sum :=
  let usum := a.toNat + b.toNat + cin.toNat
  let ssum := a.toInt + b.toInt + (cin.toNat : Int)
  let value := BitVec.ofNat 32 usum
  { value := value, carry := decide (2 ^ 32 ≤ usum), overflow := decide (ssum ≠ value.toInt) }

/-- `a - b` (R10): the carry is NOT borrow. -/
def subtract (a b : Word) : Sum := addWithCarry a (~~~b) true

/-- `a - b - NOT C` (R10). -/
def subtractCarry (a b : Word) (c : Bool) : Sum := addWithCarry a (~~~b) c

/-- SignedSat32 (R10): the saturated word, and whether it saturated. -/
def signedSat32 (i : Int) : Word × Bool :=
  if 2 ^ 31 - 1 < i then (0x7FFFFFFF#32, true)
  else if i < -(2 ^ 31) then (0x80000000#32, true)
  else (BitVec.ofInt 32 i, false)

/-- A PSR with N and Z from a result. -/
def withNZ (p value : Word) : Word := setBit (setBit p 31 (value.getLsbD 31)) 30 (value == 0#32)

/-- A PSR with N and Z from a result, and C: the logical group (R140) and the shifts (R260). -/
def withLogic (p value : Word) (c : Bool) : Word := setBit (withNZ p value) 29 c

/-- A PSR with N, Z, C and V from a sum: the arithmetic group (R140, R260). -/
def withArith (p : Word) (r : Sum) : Word := setBit (withLogic p r.value r.carry) 28 r.overflow

/-- A PSR with N and Z from a 64-bit product (R158 to R161). -/
def withLongNZ (p : Word) (value : BitVec 64) : Word :=
  setBit (setBit p 31 (value.getLsbD 63)) 30 (value == 0#64)

/-- A PSR with N, Z, C, V from the top four bits of a word: MRC with Rd = 15 (R242). -/
def withTopFlags (p value : Word) : Word := (p &&& 0x0FFFFFFF#32) ||| (value &&& 0xF0000000#32)

/-- A PSR with Q set where an instruction saturates or overflows, and kept otherwise (R29). -/
def withSticky (p : Word) (sat : Bool) : Word := if sat then setBit p 27 true else p

end Sys2Proof.Machine
end

