-- ==== Sys2Proof/Machine/Ops.lean ====
section
/-!
DEFINITION. The named operations over registers, memory and coprocessors, taking an exception and returning from one.
Every meaning of an instruction is made of these. Rules: spec/10_state.md (registers), spec/20_memory.md (memory),
spec/60_exceptions.md (exceptions), spec/44_arm_load_store.md rule R222 (Data Abort during a transfer).
-/
namespace Sys2Proof.Machine

/-- What a step or the meaning of an instruction answers. -/
abbrev Result := Host.Outcome State Fault Refusal

/-! ### Registers -/

/-- The word a physical register holds. -/
def Regs.get (r : Regs) : PhysReg → Word
  | .r0 => r.r0
  | .r1 => r.r1
  | .r2 => r.r2
  | .r3 => r.r3
  | .r4 => r.r4
  | .r5 => r.r5
  | .r6 => r.r6
  | .r7 => r.r7
  | .r8 => r.r8
  | .r9 => r.r9
  | .r10 => r.r10
  | .r11 => r.r11
  | .r12 => r.r12
  | .r8fiq => r.r8fiq
  | .r9fiq => r.r9fiq
  | .r10fiq => r.r10fiq
  | .r11fiq => r.r11fiq
  | .r12fiq => r.r12fiq
  | .r13 => r.r13
  | .r13fiq => r.r13fiq
  | .r13irq => r.r13irq
  | .r13svc => r.r13svc
  | .r13abt => r.r13abt
  | .r13und => r.r13und
  | .r14 => r.r14
  | .r14fiq => r.r14fiq
  | .r14irq => r.r14irq
  | .r14svc => r.r14svc
  | .r14abt => r.r14abt
  | .r14und => r.r14und

/-- The registers with one of them replaced. -/
def Regs.set (r : Regs) (p : PhysReg) (v : Word) : Regs :=
  match p with
  | .r0 => { r with r0 := v }
  | .r1 => { r with r1 := v }
  | .r2 => { r with r2 := v }
  | .r3 => { r with r3 := v }
  | .r4 => { r with r4 := v }
  | .r5 => { r with r5 := v }
  | .r6 => { r with r6 := v }
  | .r7 => { r with r7 := v }
  | .r8 => { r with r8 := v }
  | .r9 => { r with r9 := v }
  | .r10 => { r with r10 := v }
  | .r11 => { r with r11 := v }
  | .r12 => { r with r12 := v }
  | .r8fiq => { r with r8fiq := v }
  | .r9fiq => { r with r9fiq := v }
  | .r10fiq => { r with r10fiq := v }
  | .r11fiq => { r with r11fiq := v }
  | .r12fiq => { r with r12fiq := v }
  | .r13 => { r with r13 := v }
  | .r13fiq => { r with r13fiq := v }
  | .r13irq => { r with r13irq := v }
  | .r13svc => { r with r13svc := v }
  | .r13abt => { r with r13abt := v }
  | .r13und => { r with r13und := v }
  | .r14 => { r with r14 := v }
  | .r14fiq => { r with r14fiq := v }
  | .r14irq => { r with r14irq := v }
  | .r14svc => { r with r14svc := v }
  | .r14abt => { r with r14abt := v }
  | .r14und => { r with r14und := v }

/-- The stack pointer of a mode (R22). -/
def Mode.sp : Mode → PhysReg
  | .usr => .r13
  | .fiq => .r13fiq
  | .irq => .r13irq
  | .svc => .r13svc
  | .abt => .r13abt
  | .und => .r13und
  | .sys => .r13

/-- The link register of a mode (R22). -/
def Mode.lr : Mode → PhysReg
  | .usr => .r14
  | .fiq => .r14fiq
  | .irq => .r14irq
  | .svc => .r14svc
  | .abt => .r14abt
  | .und => .r14und
  | .sys => .r14

/-- The physical register that `x[i]` names in a mode; none for `x[15]`, the PC (R22). -/
def bank (m : Mode) (i : Reg) : Option PhysReg :=
  match i.toNat with
  | 0 => some .r0
  | 1 => some .r1
  | 2 => some .r2
  | 3 => some .r3
  | 4 => some .r4
  | 5 => some .r5
  | 6 => some .r6
  | 7 => some .r7
  | 8 => some (if m = .fiq then .r8fiq else .r8)
  | 9 => some (if m = .fiq then .r9fiq else .r9)
  | 10 => some (if m = .fiq then .r10fiq else .r10)
  | 11 => some (if m = .fiq then .r11fiq else .r11)
  | 12 => some (if m = .fiq then .r12fiq else .r12)
  | 13 => some m.sp
  | 14 => some m.lr
  | _ => none

/-- The processor mode (R31). With illegal mode bits no instruction executes (U3); the registers such a state would
name are then the User ones (DESIGN CHOICE, log entry 14). -/
def State.mode (s : State) : Mode := (Mode.ofBits (psrM s.cpsr)).getD .usr

/-- InAPrivilegedMode (R8). -/
def State.privileged (s : State) : Bool := psrM s.cpsr != 0b10000#5

/-- What a read of r15 gives: eight ahead of the instruction in ARM state, four ahead in Thumb state (R25). -/
def State.pcRead (s : State) : Word := if psrT s.cpsr then s.pc + 4 else s.pc + 8

/-- `x[i]` (R8). -/
def State.reg (s : State) (i : Reg) : Word :=
  match bank s.mode i with
  | some p => s.regs.get p
  | none => s.pcRead

/-- `x[i] <- v` for `i` other than 15 (R8); a write of the PC is a control transfer and is never made by this. -/
def State.setReg (s : State) (i : Reg) (v : Word) : State :=
  match bank s.mode i with
  | some p => { s with regs := s.regs.set p v }
  | none => s

/-- `x_usr[i]` (R8). -/
def State.userReg (s : State) (i : Reg) : Word :=
  match bank .usr i with
  | some p => s.regs.get p
  | none => s.pcRead

/-- `x_usr[i] <- v` for `i` other than 15 (R8). -/
def State.setUserReg (s : State) (i : Reg) (v : Word) : State :=
  match bank .usr i with
  | some p => { s with regs := s.regs.set p v }
  | none => s

/-- The register a Thumb field names (R24). -/
def lowReg (i : LowReg) : Reg := i.setWidth 4

/-- The value of r15 as a register stored by STR or STM (R25, R211; STORE_PC_OFFSET, D12). -/
def State.storedPc (s : State) : Word := s.pc + (if s.config.storePc12 then 12 else 8)

/-- The value STR and STM store for a register (R211, R216). -/
def State.storeReg (s : State) (i : Reg) : Word := if i = 15#4 then s.storedPc else s.reg i

/-- The value STM (2) stores for a register (R217). -/
def State.storeUserReg (s : State) (i : Reg) : Word := if i = 15#4 then s.storedPc else s.userReg i

/-- The CPSR replaced. -/
def State.setCpsr (s : State) (v : Word) : State := { s with cpsr := v }

/-- The SPSR of a mode; User and System mode have none (R32). -/
def Spsrs.get (p : Spsrs) : Mode → Option Word
  | .usr => none
  | .fiq => some p.fiq
  | .irq => some p.irq
  | .svc => some p.svc
  | .abt => some p.abt
  | .und => some p.und
  | .sys => none

/-- The SPSRs with that of a mode replaced; nothing changes where the mode has none. -/
def Spsrs.set (p : Spsrs) (m : Mode) (v : Word) : Spsrs :=
  match m with
  | .usr => p
  | .fiq => { p with fiq := v }
  | .irq => { p with irq := v }
  | .svc => { p with svc := v }
  | .abt => { p with abt := v }
  | .und => { p with und := v }
  | .sys => p

/-- A control transfer: the next instruction is the one at the address given (R8). -/
def State.setPc (s : State) (v : Word) : State := { s with pc := v, pastTop := false }

/-- The length of an instruction in the current state: four bytes in ARM state, two in Thumb state (R26). -/
def State.size (s : State) : Nat := if psrT s.cpsr then 2 else 4

/-- The address of the next instruction in sequence (R8). -/
def State.nextPc (s : State) : Word := s.pc + BitVec.ofNat 32 s.size

/-- Nothing but the move to the next instruction (R26). Running past the top of memory is marked and refused before
the instruction at address 0 executes (D9). -/
def State.advance (s : State) : State :=
  { s with pc := s.nextPc, pastTop := decide (2 ^ 32 ≤ s.pc.toNat + s.size) }

/-- An ARM instruction whose condition fails does nothing but advance (R9, R101). -/
def whenPassed (c : Cond) (s : State) (k : Result) : Result :=
  if condPassed c s.cpsr then k else .next s.advance

/-! ### Free values -/

/-- The next free value. -/
def State.freeWord (s : State) : Word := Config.freeWord s.freeCount

/-- The state after a free value has been taken. -/
def State.takeFree (s : State) : State := { s with freeCount := s.freeCount + 1 }

/-! ### Taking an exception and returning from one -/

/-- The exceptions that a state enters with a link value (R340); reset is `takeReset`. -/
inductive Exception where
  | undefined | swi | prefetchAbort | dataAbort | irq | fiq
deriving DecidableEq, Repr

/-- The mode an exception enters (R340). -/
def Exception.mode : Exception → Mode
  | .undefined => .und
  | .swi => .svc
  | .prefetchAbort => .abt
  | .dataAbort => .abt
  | .irq => .irq
  | .fiq => .fiq

/-- The offset of an exception's vector (R340). -/
def Exception.offset : Exception → Word
  | .undefined => 0x04
  | .swi => 0x08
  | .prefetchAbort => 0x0C
  | .dataAbort => 0x10
  | .irq => 0x18
  | .fiq => 0x1C

/-- VECBASE (R340). -/
def State.vectorBase (s : State) : Word := if s.config.hiVecs then 0xFFFF0000#32 else 0x00000000#32

/-- The CPSR that an exception leaves: the new mode, ARM state, IRQ disabled, FIQ disabled by FIQ only, the other bits
unchanged (R342). -/
def exceptionCpsr (e : Exception) (p : Word) : Word :=
  let q := setBit (setBit (setBit (setMode p e.mode) 5 false) 24 false) 7 true
  if e = .fiq then setBit q 6 true else q

/-- TakeException (R342): the link register of the new mode gets the link value, its SPSR the old CPSR, and the PC
goes to the vector. A coprocessor busy-wait is abandoned (R256), and the instruction at the vector does not count as
the one after an LDM (2) (log entry 23). -/
def takeException (e : Exception) (link : Word) (s : State) : State :=
  { s with
    regs := s.regs.set e.mode.lr link
    spsr := s.spsr.set e.mode s.cpsr
    cpsr := exceptionCpsr e s.cpsr
    pc := s.vectorBase + e.offset
    pastTop := false
    userLdm := false
    cpWaiting := false }

/-- The Undefined instruction exception of the executing instruction (R345). -/
def takeUndefined (s : State) : State := takeException .undefined s.nextPc s

/-- The software interrupt (R344). -/
def takeSwi (s : State) : State := takeException .swi s.nextPc s

/-- The Prefetch Abort of the instruction at `pc`, or of a BKPT (R347). -/
def takePrefetchAbort (s : State) : State := takeException .prefetchAbort (s.pc + 4) s

/-- The Data Abort of the executing instruction (R348). -/
def takeDataAbort (s : State) : State := takeException .dataAbort (s.pc + 8) s

/-- IRQ, before the instruction at `pc` (R349). -/
def takeIrq (s : State) : State := takeException .irq (s.pc + 4) s

/-- FIQ, before the instruction at `pc` (R350). -/
def takeFiq (s : State) : State := takeException .fiq (s.pc + 4) s

/-- The Undefined instruction exception of a CPSR with J = T = 1 (R30, R345). Its link value is not stated (N14, U16):
a free value (log entry 12). -/
def takeBothStates (s : State) : State := takeException .undefined s.freeWord s.takeFree

/-- The register a reset leaves in place number `k`: a free value. -/
def freeRegs (k : Nat) : Regs :=
  { r0 := Config.freeWord k, r1 := Config.freeWord (k + 1), r2 := Config.freeWord (k + 2),
    r3 := Config.freeWord (k + 3), r4 := Config.freeWord (k + 4), r5 := Config.freeWord (k + 5),
    r6 := Config.freeWord (k + 6), r7 := Config.freeWord (k + 7), r8 := Config.freeWord (k + 8),
    r9 := Config.freeWord (k + 9), r10 := Config.freeWord (k + 10), r11 := Config.freeWord (k + 11),
    r12 := Config.freeWord (k + 12), r8fiq := Config.freeWord (k + 13), r9fiq := Config.freeWord (k + 14),
    r10fiq := Config.freeWord (k + 15), r11fiq := Config.freeWord (k + 16), r12fiq := Config.freeWord (k + 17),
    r13 := Config.freeWord (k + 18), r13fiq := Config.freeWord (k + 19), r13irq := Config.freeWord (k + 20),
    r13svc := Config.freeWord (k + 21), r13abt := Config.freeWord (k + 22), r13und := Config.freeWord (k + 23),
    r14 := Config.freeWord (k + 24), r14fiq := Config.freeWord (k + 25), r14irq := Config.freeWord (k + 26),
    r14svc := Config.freeWord (k + 27), r14abt := Config.freeWord (k + 28), r14und := Config.freeWord (k + 29) }

/-- The CPSR after a reset: Supervisor mode, I = F = 1, T = J = 0; the other bits are indeterminate (R346). -/
def resetCpsr (p : Word) : Word :=
  setBit (setBit (setBit (setBit (setMode p .svc) 5 false) 24 false) 7 true) 6 true

/-- A reset during the run (R346, R400): every register but the PC, the SPSRs, the indeterminate bits of the CPSR and
the data registers of coprocessor 14 become free values; memory is not affected. W, R and DbgAbt become 0 (D17). -/
def takeReset (s : State) : State :=
  { s with
    regs := freeRegs s.freeCount
    spsr :=
      { fiq := Config.freeWord (s.freeCount + 30), irq := Config.freeWord (s.freeCount + 31),
        svc := Config.freeWord (s.freeCount + 32), abt := Config.freeWord (s.freeCount + 33),
        und := Config.freeWord (s.freeCount + 34) }
    cpsr := resetCpsr (Config.freeWord (s.freeCount + 35))
    dcc :=
      { readData := Config.freeWord (s.freeCount + 36), writeData := Config.freeWord (s.freeCount + 37),
        w := false, r := false, dbgAbt := false }
    pc := s.vectorBase
    pastTop := false
    userLdm := false
    cpWaiting := false
    freeCount := s.freeCount + 38 }

/-- J = 1 and T = 0: the PSR selects Jazelle state (R30). -/
def inJazelle (p : Word) : Bool := psrJ p && !psrT p

/-- Whether an address is aligned for the state a PSR selects: a word in ARM state, a halfword in Thumb state and for
J = T = 1, any byte in Jazelle state (R25, R104). -/
def returnAligned (p v : Word) : Bool :=
  if psrT p then v.extractLsb' 0 1 == 0#1
  else if psrJ p then true
  else v.extractLsb' 0 2 == 0#2

/-- The exception return (R355): the whole SPSR of the current mode goes to the CPSR, the value to the PC. In User and
System mode it is UNPREDICTABLE (U4), as is a value not aligned for the restored state (R104); a return into Jazelle
state is refused (D1, U23). -/
def exceptionReturn (v : Word) (s : State) : Result :=
  match s.spsr.get s.mode with
  | none => .refused .noSpsr
  | some p =>
    if inJazelle p then .refused .jazelleEntry
    else if returnAligned p v then .next ((s.setCpsr p).setPc v)
    else .refused .misalignedReturn

/-- A load to the PC, BX and BLX (R104): bit 0 selects the state, bits [1:0] = 10 are UNPREDICTABLE (U8). -/
def branchExchange (v : Word) (s : State) : Result :=
  if v.extractLsb' 0 2 = 0b10#2 then .refused .armTargetBit1
  else .next ((s.setCpsr (setBit s.cpsr 5 (v.getLsbD 0))).setPc (v &&& 0xFFFFFFFE#32))

/-! ### Memory -/

/-- The byte at an address; none where nothing has been written (R402). -/
def readCell : List Host.Cell → Nat → Option Byte
  | [], _ => none
  | (k, v) :: rest, a => if k = a then some v else readCell rest a

/-- Memory with a byte written, in its place in the rising order. -/
def writeCell : List Host.Cell → Nat → Byte → List Host.Cell
  | [], a, v => [(a, v)]
  | (k, w) :: rest, a, v =>
    if a < k then (a, v) :: (k, w) :: rest
    else if a = k then (a, v) :: rest
    else (k, w) :: writeCell rest a v

/-- Whether one of the addresses listed is among `n` bytes from `a` upwards. -/
def overlaps (l : List Nat) (a n : Nat) : Bool := l.any fun k => decide (a ≤ k) && decide (k < a + n)

/-- A rising list of addresses with one added. -/
def insertAddr : List Nat → Nat → List Nat
  | [], a => [a]
  | k :: rest, a => if a < k then a :: k :: rest else if a = k then k :: rest else k :: insertAddr rest a

/-- A rising list of addresses with `n` added from `a` upwards. -/
def insertAddrs (l : List Nat) (a : Nat) : Nat → List Nat
  | 0 => l
  | n + 1 => insertAddrs (insertAddr l a) (a + 1) n

/-- A list of addresses that rises strictly and stays inside the address space. -/
def rising : List Nat → Bool
  | [] => true
  | [k] => decide (k < 2 ^ 32)
  | k :: l :: rest => decide (k < l) && rising (l :: rest)

/-- The canonical form of a memory: addresses strictly rising, all inside the address space. An unlisted byte holds no
value, so that no entry can be equal to what an unlisted address reads as. -/
def Memory.wf (m : List Host.Cell) : Bool := rising (m.map Prod.fst)

/-- The byte at an address (R61). -/
def State.byteAt (s : State) (a : Word) : Option Byte := readCell s.mem a.toNat

/-- The word at an aligned address (R63). -/
def State.wordAt (s : State) (a : Word) : Option Word :=
  match s.byteAt a, s.byteAt (a + 1), s.byteAt (a + 2), s.byteAt (a + 3) with
  | some b0, some b1, some b2, some b3 => some (wordOfBytes s.config.bigEndian b0 b1 b2 b3)
  | _, _, _, _ => none

/-- The halfword at an aligned address (R63). -/
def State.halfAt (s : State) (a : Word) : Option Half :=
  match s.byteAt a, s.byteAt (a + 1) with
  | some b0, some b1 => some (halfOfBytes s.config.bigEndian b0 b1)
  | _, _ => none

/-- A byte stored by the program, and remembered as stored (R80). -/
def State.putByte (s : State) (a : Word) (v : Byte) : State :=
  { s with mem := writeCell s.mem a.toNat v, stored := insertAddr s.stored a.toNat }

/-- Bytes stored from an address upwards. -/
def State.putBytes (s : State) (a : Word) : List Byte → State
  | [] => s
  | b :: bs => (s.putByte a b).putBytes (a + 1) bs

/-- A word stored at an aligned address (R63). -/
def State.putWord (s : State) (a v : Word) : State := s.putBytes a (bytesOfWord s.config.bigEndian v)

/-- A halfword stored at an aligned address (R63). -/
def State.putHalf (s : State) (a : Word) (v : Half) : State := s.putBytes a (bytesOfHalf s.config.bigEndian v)

/-- The address with its two low bits ignored, as the memory system takes a word access (R67). -/
def wordAlign (a : Word) : Word := a &&& 0xFFFFFFFC#32

/-- Whether a rule of the abort predicate covers an access (R74, D5). -/
def covers (r : AbortRule) (k : Access) (w : Width) (a : Nat) (priv locked : Bool) : Bool :=
  r.kinds.contains k && r.width.all (· == w) && r.privileged.all (· == priv) && r.locked.all (· == locked) &&
  decide (r.base < a + w.bytes) && decide (a < r.base + r.size)

/-- Whether the memory system answers an access with an abort (R74). Only the accesses of SWP and SWPB are locked (R72). -/
def State.aborts (s : State) (k : Access) (w : Width) (a : Word) (priv : Bool) (locked : Bool := false) : Bool :=
  s.config.aborts.any fun r => covers r k w a.toNat priv locked

/-- What the data interface answers to a read. -/
inductive Load (α : Type) where
  | value (v : α)
  | abort
  | unwritten
deriving DecidableEq, Repr

/-- An answer from a read that may meet a byte without a value. -/
def Load.ofOption {α : Type} : Option α → Load α
  | some v => .value v
  | none => .unwritten

/-- MemRead of an aligned word, the low two address bits ignored (R67). -/
def State.loadAligned (s : State) (priv : Bool) (a : Word) (locked : Bool := false) : Load Word :=
  if s.aborts .read .word (wordAlign a) priv locked then .abort else .ofOption (s.wordAt (wordAlign a))

/-- LoadWord (R68): the aligned word rotated right by 8 times the low two address bits. -/
def State.loadWord (s : State) (priv : Bool) (a : Word) (locked : Bool := false) : Load Word :=
  match s.loadAligned priv a locked with
  | .value w => .value (w.rotateRight (8 * (a.extractLsb' 0 2).toNat))
  | .abort => .abort
  | .unwritten => .unwritten

/-- MemRead of a halfword at an even address (R63). -/
def State.loadHalf (s : State) (priv : Bool) (a : Word) : Load Half :=
  if s.aborts .read .half a priv then .abort else .ofOption (s.halfAt a)

/-- MemRead of a byte (R63). -/
def State.loadByte (s : State) (priv : Bool) (a : Word) (locked : Bool := false) : Load Byte :=
  if s.aborts .read .byte a priv locked then .abort else .ofOption (s.byteAt a)

/-- What the data interface answers to a write. -/
inductive Store where
  | done (t : State)
  | abort
  /-- One of the bytes has been executed as an instruction (R80). -/
  | toFetched
deriving DecidableEq, Repr

/-- A write of a width to an address, which gives the state `t` where the memory system does not abort it (R74) and none of
its bytes has been executed as an instruction (R80, D7). -/
def State.store (s : State) (w : Width) (priv : Bool) (a : Word) (locked : Bool) (t : State) : Store :=
  if s.aborts .write w a priv locked then .abort
  else if overlaps s.fetched a.toNat w.bytes then .toFetched
  else .done t

/-- StoreWord (R69): the word goes to the aligned address. -/
def State.storeWord (s : State) (priv : Bool) (a v : Word) (locked : Bool := false) : Store :=
  s.store .word priv (wordAlign a) locked (s.putWord (wordAlign a) v)

/-- MemWrite of a halfword at an even address (R63). -/
def State.storeHalf (s : State) (priv : Bool) (a : Word) (v : Half) : Store :=
  s.store .half priv a false (s.putHalf a v)

/-- MemWrite of a byte (R63). -/
def State.storeByte (s : State) (priv : Bool) (a : Word) (v : Byte) (locked : Bool := false) : Store :=
  s.store .byte priv a locked (s.putByte a v)

/-- An instruction goes on with the value it loaded, or takes the Data Abort with its registers unchanged (R222), or
faults where the byte holds no value. -/
def withLoad {α : Type} (l : Load α) (s : State) (k : α → Result) : Result :=
  match l with
  | .value v => k v
  | .abort => .next (takeDataAbort s)
  | .unwritten => .fault .unwrittenByte

/-- An instruction goes on in the state after its store, or takes the Data Abort with nothing changed (R222), or is
refused where it stores to an instruction that has been executed (D7). -/
def withStore (o : Store) (s : State) (k : State → Result) : Result :=
  match o with
  | .done t => k t
  | .abort => .next (takeDataAbort s)
  | .toFetched => .refused .storeToFetched

/-! ### Transfers of several words -/

/-- What a sequence of word reads gives: all the words, or those before the one that aborted. -/
inductive Words where
  | all (ws : List Word)
  | abort (before : List Word)
  | unwritten
deriving DecidableEq, Repr

/-- A word in front of those that follow it. -/
def Words.cons (w : Word) : Words → Words
  | .all ws => .all (w :: ws)
  | .abort ws => .abort (w :: ws)
  | .unwritten => .unwritten

/-- `n` words from ascending addresses, the low two address bits ignored and nothing rotated (R68, R70, R225). -/
def State.loadWords (s : State) (priv : Bool) : Nat → Word → Words
  | 0, _ => .all []
  | n + 1, a =>
    match s.loadAligned priv a with
    | .value w => (s.loadWords priv n (a + 4)).cons w
    | .abort => .abort []
    | .unwritten => .unwritten

/-- `n` words from an address upwards become free values: the words of an aborted store multiple after the aborting
one (R222, D24; log entry 11). -/
def State.scramble (s : State) : Nat → Word → State
  | 0, _ => s
  | n + 1, a => (s.takeFree.putWord (wordAlign a) s.freeWord).scramble n (a + 4)

/-- What a sequence of word writes leads to: all are made, or one is aborted, or one is to an executed instruction. -/
inductive Stores where
  | done (t : State)
  | abort (t : State)
  | toFetched
deriving DecidableEq, Repr

/-- Words stored to ascending addresses (R69, R222): where one of the accesses aborts, the words before it are stored, it
is not, and the places of those after it become free values. -/
def State.storeWords (s : State) (priv : Bool) (a : Word) : List Word → Stores
  | [] => .done s
  | v :: vs =>
    match s.storeWord priv a v with
    | .done t => t.storeWords priv (a + 4) vs
    | .abort => .abort (s.scramble vs.length (a + 4))
    | .toFetched => .toFetched

/-- Registers written with words, in order; 15 is passed over (R207). -/
def State.setRegs (s : State) : List Reg → List Word → State
  | r :: rs, w :: ws => (s.setReg r w).setRegs rs ws
  | _, _ => s

/-- User-bank registers written with words, in order (R208). -/
def State.setUserRegs (s : State) : List Reg → List Word → State
  | r :: rs, w :: ws => (s.setUserReg r w).setUserRegs rs ws
  | _, _ => s

/-- Registers that become free values: those of an aborted load multiple (R222, D24; log entry 11). -/
def State.clobber (s : State) : List Reg → State
  | [] => s
  | r :: rs => (s.takeFree.setReg r s.freeWord).clobber rs

/-- User-bank registers that become free values: those of an aborted LDM (2). -/
def State.clobberUser (s : State) : List Reg → State
  | [] => s
  | r :: rs => (s.takeFree.setUserReg r s.freeWord).clobberUser rs

/-- The load half of LDM, LDRD, POP and LDMIA: the listed registers take the words from `start` upwards, and the
instruction goes on with the words. After a Data Abort every listed register but the base and the PC is a free value,
and the base is as it was (R222). -/
def loadRegs (s : State) (regs : List Reg) (start : Word) (base : Reg) (k : List Word → State → Result) : Result :=
  match s.loadWords s.privileged regs.length start with
  | .all ws => k ws (s.setRegs regs ws)
  | .abort _ => .next (takeDataAbort (s.clobber (regs.filter fun r => r != base && r != 15#4)))
  | .unwritten => .fault .unwrittenByte

/-- The store half of STM, STRD, PUSH, STMIA and STC. -/
def storeList (s : State) (start : Word) (ws : List Word) (k : State → Result) : Result :=
  match s.storeWords s.privileged start ws with
  | .done t => k t
  | .abort t => .next (takeDataAbort t)
  | .toFetched => .refused .storeToFetched

/-! ### Coprocessors -/

/-- The word of an ARM instruction, as the coprocessors see it (R240). -/
def armWord (i : Instr) : Word :=
  match encode i with
  | .arm w => w
  | .thumb _ => 0

/-- Whether a rule of COPROC covers an instruction word offered with a privilege (R240, R257). -/
def cpCovers (r : CpRule) (w : Word) (priv : Bool) : Bool :=
  w &&& r.mask == r.pattern && r.privileged.all (· == priv)

/-- `n` free values, from number `k` on. -/
def freeWords (k : Nat) : Nat → List Word
  | 0 => []
  | n + 1 => Config.freeWord k :: freeWords (k + 1) n

/-- COPROC (R240): what the attached coprocessors answer to an instruction in the current privilege, and the state with
that answer used up. An answer that neither a rule nor the list gives is an acceptance (DESIGN CHOICE, log entry 16). Its
words are free values, and so is the number of words that an LDC or STC moves, at least one (R246, R247): one more than a
free value. -/
def State.coprocessor (s : State) (i : Instr) : CpAnswer × State :=
  match s.config.coprocessors.find? fun r => cpCovers r (armWord i) s.privileged with
  | none => (.absent, s)
  | some r =>
    match r.answer, s.cpAnswers with
    | some a, _ => (a, s)
    | none, a :: rest => (a, { s with cpAnswers := rest })
    | none, [] =>
      let n := (Config.freeWord (s.freeCount + 2)).toNat
      (.accept s.freeWord s.takeFree.freeWord (freeWords (s.freeCount + 3) n), { s with freeCount := s.freeCount + 3 + n })

/-- A coprocessor instruction is offered to the attached coprocessors (R240, R256): all answer absent, and it is
undefined; or it waits and stays where it is; or it is accepted and goes on. -/
def offer (i : Instr) (s : State) (k : Word → Word → List Word → State → Result) : Result :=
  match s.coprocessor i with
  | (.absent, t) => .next (takeUndefined t)
  | (.wait, t) => .next { t with cpWaiting := true }
  | (.accept first second more, t) => k first second more { t with cpWaiting := false }

/-- What the coprocessors were handed, recorded (R241 to R248). -/
def State.send (s : State) (i : Instr) (data : List Word) (complete : Bool) : State :=
  { s with
    cpSent := s.cpSent ++ [{ instr := i, privileged := s.privileged, data := data, complete := complete }] }

/-! ### Register checks -/

/-- Register 15 is not allowed in any of the fields given (U6, U9, U14). -/
def noPc (regs : List Reg) (k : Result) : Result :=
  if regs.contains 15#4 then .refused .r15Operand else k

/-- Two register fields may not be equal (U6, U9, U14). -/
def distinct (pairs : List (Reg × Reg)) (k : Result) : Result :=
  if pairs.any (fun e => e.1 == e.2) then .refused .overlappingRegisters else k

end Sys2Proof.Machine
end

