-- ==== Sys2Proof/Machine/Operands.lean ====
section
/-!
DEFINITION. Every operand form: the shifts (spec/00_scope.md rule R10), the shifter operand of the data-processing
instructions (spec/30_encoding.md rules R105 to R107), addressing modes 2 to 5 (R108 to R110, R121, R123; R223 to
R225), register lists, branch targets (R122, R114), and the half selection of the 16-bit multiplies.
-/
namespace Sys2Proof.Machine

/-- What a shift gives: the word and the carry out. -/
structure Shifted where
  value : Word
  carry : Bool
deriving DecidableEq, Repr

/-- LSL by an amount of 0 to 255 (R10, R107); by 0 the carry is C. -/
def shiftLsl (v : Word) (n : Nat) (c : Bool) : Shifted :=
  if n = 0 then { value := v, carry := c }
  else if n ≤ 32 then { value := v <<< n, carry := v.getLsbD (32 - n) }
  else { value := 0#32, carry := false }

/-- LSR by an amount of 0 to 255 (R10, R107); by 0 the carry is C. -/
def shiftLsr (v : Word) (n : Nat) (c : Bool) : Shifted :=
  if n = 0 then { value := v, carry := c }
  else if n ≤ 32 then { value := v >>> n, carry := v.getLsbD (n - 1) }
  else { value := 0#32, carry := false }

/-- ASR by an amount of 0 to 255 (R10, R107); by 0 the carry is C, from 32 on all bits are bit 31. -/
def shiftAsr (v : Word) (n : Nat) (c : Bool) : Shifted :=
  if n = 0 then { value := v, carry := c }
  else if n < 32 then { value := v.sshiftRight n, carry := v.getLsbD (n - 1) }
  else { value := v.sshiftRight 32, carry := v.getLsbD 31 }

/-- ROR by an amount of 0 to 255 (R10, R107); by 0 the carry is C, by another multiple of 32 it is bit 31. -/
def shiftRor (v : Word) (n : Nat) (c : Bool) : Shifted :=
  if n = 0 then { value := v, carry := c }
  else if n % 32 = 0 then { value := v, carry := v.getLsbD 31 }
  else { value := v.rotateRight (n % 32), carry := v.getLsbD (n % 32 - 1) }

/-- RRX (R10): the word moves right by one, C comes in at the top. -/
def shiftRrx (v : Word) (c : Bool) : Shifted :=
  { value := setBit (v >>> 1) 31 c, carry := v.getLsbD 0 }

/-- A register shifted by an immediate (R106): an amount of 0 means 32 for LSR and ASR, and RRX for ROR. -/
def shiftByImm (t : Shift) (v : Word) (amount : BitVec 5) (c : Bool) : Shifted :=
  match t with
  | .lsl => shiftLsl v amount.toNat c
  | .lsr => shiftLsr v (if amount = 0#5 then 32 else amount.toNat) c
  | .asr => shiftAsr v (if amount = 0#5 then 32 else amount.toNat) c
  | .ror => if amount = 0#5 then shiftRrx v c else shiftRor v amount.toNat c

/-- A register shifted by the low byte of another (R107). -/
def shiftByReg (t : Shift) (v amount : Word) (c : Bool) : Shifted :=
  let n := (amount.extractLsb' 0 8).toNat
  match t with
  | .lsl => shiftLsl v n c
  | .lsr => shiftLsr v n c
  | .asr => shiftAsr v n c
  | .ror => shiftRor v n c

/-- The rotated immediate (R105): the carry is C when nothing is rotated, else bit 31 of the result. -/
def rotatedImm (rot : BitVec 4) (imm8 : BitVec 8) (c : Bool) : Shifted :=
  let value := (imm8.setWidth 32).rotateRight (2 * rot.toNat)
  { value := value, carry := if rot = 0#4 then c else value.getLsbD 31 }

/-- The shifter operand of format A_DPI (R105). -/
def State.immOperand (s : State) (rot : BitVec 4) (imm8 : BitVec 8) : Shifted := rotatedImm rot imm8 (psrC s.cpsr)

/-- The shifter operand of format A_DPS (R106). -/
def State.shiftOperand (s : State) (rm : Reg) (t : Shift) (amount : BitVec 5) : Shifted :=
  shiftByImm t (s.reg rm) amount (psrC s.cpsr)

/-- The shifter operand of format A_DPR (R107). -/
def State.regShiftOperand (s : State) (rm rs : Reg) (t : Shift) : Shifted :=
  shiftByReg t (s.reg rm) (s.reg rs) (psrC s.cpsr)

/-- A base with an offset added or subtracted, modulo 2^32 (R108, R110, R123). -/
def offsetBy (u : Bool) (base offset : Word) : Word := if u then base + offset else base - offset

/-- An address of mode 2 or 3: the address used, whether the base is written back, and with what (R223, R224). -/
structure Address where
  address : Word
  writeBack : Bool
  target : Word
deriving DecidableEq, Repr

/-- AddrMode2 and AddrMode3 (R223, R224) for a base and an offset. -/
def indexed (idx : Index) (u : Bool) (base offset : Word) : Address :=
  let target := offsetBy u base offset
  match idx with
  | .offset => { address := target, writeBack := false, target := target }
  | .pre => { address := target, writeBack := true, target := target }
  | .post => { address := base, writeBack := true, target := target }

/-- The offset register of mode 2, shifted by an immediate, without its carry (R108, R223). -/
def State.shiftedOffset (s : State) (rm : Reg) (t : Shift) (amount : BitVec 5) : Word :=
  (s.shiftOperand rm t amount).value

/-- The base register written back, where the addressing mode says so. -/
def State.writeBase (s : State) (a : Address) (rn : Reg) : State :=
  if a.writeBack then s.setReg rn a.target else s

/-- The restrictions of modes 2 and 3 with an immediate offset (R223, U9): with write-back, Rn is neither 15 nor Rd. -/
def baseAllowed (writeBack : Bool) (rn rd : Reg) (k : Result) : Result :=
  if writeBack then noPc [rn] (distinct [(rn, rd)] k) else k

/-- The restrictions of modes 2 and 3 with a register offset (R223, U9): Rm is not 15; with write-back, Rn is neither
15 nor Rd nor Rm. -/
def regBaseAllowed (writeBack : Bool) (rn rd rm : Reg) (k : Result) : Result :=
  noPc [rm] (if writeBack then noPc [rn] (distinct [(rn, rd), (rm, rn)] k) else k)

/-- The sixteen register numbers, rising. -/
def allRegs : List Reg :=
  [0#4, 1#4, 2#4, 3#4, 4#4, 5#4, 6#4, 7#4, 8#4, 9#4, 10#4, 11#4, 12#4, 13#4, 14#4, 15#4]

/-- The registers of a register list, rising: bit `i` selects register `i` (R121). -/
def listed (list : BitVec 16) : List Reg := allRegs.filter fun r => list.getLsbD r.toNat

/-- start_address of addressing mode 4 (R121, R225) for `n` registers. -/
def multipleStart (p u : Bool) (base : Word) (n : Nat) : Word :=
  match u, p with
  | true, false => base
  | true, true => base + 4
  | false, false => base - BitVec.ofNat 32 (4 * n) + 4
  | false, true => base - BitVec.ofNat 32 (4 * n)

/-- The written-back base of addressing mode 4 (R121, R225) for `n` registers. -/
def multipleBase (u : Bool) (base : Word) (n : Nat) : Word :=
  if u then base + BitVec.ofNat 32 (4 * n) else base - BitVec.ofNat 32 (4 * n)

/-- The restrictions of addressing mode 4 (R225, U9): the base is not r15 and the list is not empty. -/
def multipleAllowed (rn : Reg) (regs : List Reg) (k : Result) : Result :=
  noPc [rn] (if regs.isEmpty then .refused .emptyRegisterList else k)

/-- The restriction of a load multiple (R207, U9): with write-back the base is not in the list. -/
def baseNotListed (wb : Bool) (rn : Reg) (regs : List Reg) (k : Result) : Result :=
  if wb && regs.contains rn then .refused .baseInList else k

/-- The restriction of a store multiple (R216, R331, U9): with write-back, a base in the list is its lowest-numbered
register. -/
def baseLowest (wb : Bool) (rn : Reg) (regs : List Reg) (k : Result) : Result :=
  if wb && regs.contains rn && regs.any (fun r => r.toNat < rn.toNat) then .refused .baseInList else k

/-- The target of B, BL and BLX of ARM state (R122): the offset is in words. -/
def State.armTarget (s : State) (imm24 : BitVec 24) : Word := s.pc + 8 + (imm24.signExtend 32 <<< 2)

/-- The target of a Thumb branch (R114, R300, R301): the offset is in halfwords. -/
def State.thumbTarget {n : Nat} (s : State) (imm : BitVec n) : Word := s.pc + 4 + (imm.signExtend 32 <<< 1)

/-- The half of a register that x or y selects, as a signed number (R168 to R172): T is the top half. -/
def halfInt (v : Word) (top : Bool) : Int :=
  if top then (v.extractLsb' 16 16).toInt else (v.extractLsb' 0 16).toInt

/-- A zero-extended field scaled by 4 (R114). -/
def scaled4 {n : Nat} (imm : BitVec n) : Word := imm.setWidth 32 <<< 2

/-- A zero-extended field scaled by 2 (R114). -/
def scaled2 {n : Nat} (imm : BitVec n) : Word := imm.setWidth 32 <<< 1

/-- A doubleword transfer needs an even register below 14 (R210, R218, U9, D22). -/
def evenPair (rd : Reg) (k : Result) : Result :=
  if rd.getLsbD 0 || rd == 14#4 then .refused .badRegisterPair else k

/-- A halfword access needs an even address (R70, U10). -/
def evenAddress (a : Word) (k : Result) : Result :=
  if a.getLsbD 0 then .refused .misalignedHalfword else k

/-- A doubleword access needs an address that is a multiple of 8 (R70, U11). -/
def doubleAligned (a : Word) (k : Result) : Result :=
  if a.extractLsb' 0 3 = 0#3 then k else .refused .misalignedDoubleword

end Sys2Proof.Machine
end

