-- ==== Sys2Proof/Machine/ArmBranch.lean ====
section
/-!
DEFINITION. The ARM branches (spec/43_arm_branch.md).
-/
namespace Sys2Proof.Machine

/-- B: branch (R190). -/
def execB (cond : Cond) (imm24 : BitVec 24) (s : State) : Result :=
  whenPassed cond s (.next (s.setPc (s.armTarget imm24)))

/-- BL: branch with link (R191). -/
def execBl (cond : Cond) (imm24 : BitVec 24) (s : State) : Result :=
  whenPassed cond s (.next ((s.setReg 14#4 (s.pc + 4)).setPc (s.armTarget imm24)))

/-- BX: branch and exchange (R192). -/
def execBx (cond : Cond) (rm : Reg) (s : State) : Result :=
  whenPassed cond s (branchExchange (s.reg rm) s)

/-- BLX with an offset (R193): always executed, always to Thumb state; H is bit 1 of the target. -/
def execBlxImm (h : Bool) (imm24 : BitVec 24) (s : State) : Result :=
  .next (((s.setReg 14#4 (s.pc + 4)).setCpsr (setBit s.cpsr 5 true)).setPc
    (s.armTarget imm24 + (if h then 2 else 0)))

/-- BLX with a register (R194): the target is read before r14 is written. -/
def execBlxReg (cond : Cond) (rm : Reg) (s : State) : Result :=
  whenPassed cond s (noPc [rm] (branchExchange (s.reg rm) (s.setReg 14#4 (s.pc + 4))))

/-- BXJ: branch and exchange to Jazelle state (R195). The spec gives it no meaning once its condition passes, and
the entry to Jazelle state is refused (D1, U23). -/
def execBxj (cond : Cond) (_rm : Reg) (s : State) : Result :=
  whenPassed cond s (.refused .jazelleEntry)

end Sys2Proof.Machine
end

