-- ==== Sys2Proof/Machine/ArmCoproc.lean ====
section
/-!
DEFINITION. The coprocessor instructions (spec/45_arm_coprocessor_swi_bkpt.md rules R240 to R248, R251, R252).
Coprocessor 14 is inside the core; every other coprocessor is attached to it and answers as the parameter COPROC says. The
operands of an instruction are looked at once it is accepted (log entry 16).
-/
namespace Sys2Proof.Machine

/-- A CP14 register as MRC reads it, and the state after the read (R252, R36 to R38); none where the spec gives the
access no meaning (U15). Reading the data read register clears R. -/
def cp14Read (op1 : BitVec 3) (crn : BitVec 4) (op2 : BitVec 3) (crm : BitVec 4) (s : State) : Option (Word × State) :=
  if op1 = 0#3 ∧ op2 = 0#3 ∧ crm = 0#4 then
    match crn.toNat with
    | 0 => some (setBit (setBit 0x60000000#32 1 s.dcc.w) 0 s.dcc.r, s)
    | 1 => some (s.dcc.readData, { s with dcc := { s.dcc with r := false } })
    | 2 => some (setBit 0#32 0 s.dcc.dbgAbt, s)
    | _ => none
  else none

/-- The state after MCR writes a CP14 register (R252, R37, R38); none where the spec gives the access no meaning
(U15). Writing the data write register sets W. -/
def cp14Write (op1 : BitVec 3) (crn : BitVec 4) (op2 : BitVec 3) (crm : BitVec 4) (v : Word) (s : State) :
    Option State :=
  if op1 = 0#3 ∧ op2 = 0#3 ∧ crm = 0#4 then
    match crn.toNat with
    | 1 => some { s with dcc := { s.dcc with writeData := v, w := true } }
    | 2 => some { s with dcc := { s.dcc with dbgAbt := v.getLsbD 0 } }
    | _ => none
  else none

/-- The end of MRC (R242): a destination of r15 takes the four flags and no register. -/
def mrcResult (rd : Reg) (data : Word) (s : State) : Result :=
  if rd = 15#4 then .next (s.setCpsr (withTopFlags s.cpsr data)).advance
  else .next (s.setReg rd data).advance

/-- MRC from an attached coprocessor: the first word it supplies (R242). -/
def mrcWith (i : Instr) (rd : Reg) (s : State) : Result :=
  offer i s fun first _ _ t => mrcResult rd first (t.send i [] true)

/-- MCR to an attached coprocessor (R243): the register is handed over; r15 is UNPREDICTABLE (U14). -/
def mcrWith (i : Instr) (rd : Reg) (s : State) : Result :=
  offer i s fun _ _ _ t => noPc [rd] (.next (t.send i [t.reg rd] true).advance)

/-- CDP (R241): nothing of the core changes. -/
def cdpWith (i : Instr) (s : State) : Result :=
  offer i s fun _ _ _ t => .next (t.send i [] true).advance

/-- The target of addressing mode 5 (R123, R246): the base plus or minus the offset times four. -/
def State.cpTarget (s : State) (u : Bool) (rn : Reg) (off8 : BitVec 8) : Word :=
  offsetBy u (s.reg rn) (scaled4 off8)

/-- The address of addressing mode 5 (R123, R246). -/
def State.cpAddress (s : State) (p u : Bool) (rn : Reg) (off8 : BitVec 8) : Word :=
  if p then s.cpTarget u rn off8 else s.reg rn

/-- The base of a coprocessor transfer written back with W = 1 (R246); Rn = 15 is then UNPREDICTABLE (U14). -/
def cpBaseAllowed (wb : Bool) (rn : Reg) (k : Result) : Result := if wb then noPc [rn] k else k

/-- LDC (R246): as many words as the coprocessor chose go from memory to it. -/
def ldcWith (i : Instr) (p u wb : Bool) (rn : Reg) (off8 : BitVec 8) (s : State) : Result :=
  offer i s fun _ _ more t => cpBaseAllowed wb rn
    (match t.loadWords t.privileged (more.length + 1) (t.cpAddress p u rn off8) with
    | .all ws => .next ((if wb then t.setReg rn (t.cpTarget u rn off8) else t).send i ws true).advance
    | .abort ws => .next (takeDataAbort (t.send i ws false))
    | .unwritten => .fault .unwrittenByte)

/-- STC (R247): the words the coprocessor supplies go to memory. -/
def stcWith (i : Instr) (p u wb : Bool) (rn : Reg) (off8 : BitVec 8) (s : State) : Result :=
  offer i s fun first _ more t => cpBaseAllowed wb rn
    (match t.storeWords t.privileged (t.cpAddress p u rn off8) (first :: more) with
    | .done v => .next ((if wb then v.setReg rn (t.cpTarget u rn off8) else v).send i [] true).advance
    | .abort v => .next (takeDataAbort (v.send i [] false))
    | .toFetched => .refused .storeToFetched)

/-- A coprocessor instruction other than MRC and MCR has no meaning for coprocessor 14 (R252, U15). -/
def notCp14 (cp : BitVec 4) (k : Result) : Result := if cp = 14#4 then .refused .cp14Undocumented else k

/-- CDP: coprocessor data operation (R241). -/
def execCdp (cond : Cond) (op1 crn crd cp : BitVec 4) (op2 : BitVec 3) (crm : BitVec 4) (s : State) : Result :=
  whenPassed cond s (notCp14 cp (cdpWith (.cdp cond op1 crn crd cp op2 crm) s))

/-- MCR: move to coprocessor from register (R243). -/
def execMcr (cond : Cond) (op1 : BitVec 3) (crn : BitVec 4) (rd : Reg) (cp : BitVec 4) (op2 : BitVec 3) (crm : BitVec 4)
    (s : State) : Result :=
  whenPassed cond s
    (if cp = 14#4 then
      noPc [rd] (match cp14Write op1 crn op2 crm (s.reg rd) s with
        | some t => .next t.advance
        | none => .refused .cp14Undocumented)
    else mcrWith (.mcr cond op1 crn rd cp op2 crm) rd s)

/-- MRC: move to register from coprocessor (R242). -/
def execMrc (cond : Cond) (op1 : BitVec 3) (crn : BitVec 4) (rd : Reg) (cp : BitVec 4) (op2 : BitVec 3) (crm : BitVec 4)
    (s : State) : Result :=
  whenPassed cond s
    (if cp = 14#4 then
      match cp14Read op1 crn op2 crm s with
      | some (data, t) => mrcResult rd data t
      | none => .refused .cp14Undocumented
    else mrcWith (.mrc cond op1 crn rd cp op2 crm) rd s)

/-- MCRR: move two registers to coprocessor (R245): Rd, then Rn. -/
def execMcrr (cond : Cond) (rn rd : Reg) (cp op crm : BitVec 4) (s : State) : Result :=
  whenPassed cond s (notCp14 cp (offer (.mcrr cond rn rd cp op crm) s fun _ _ _ t =>
    noPc [rn, rd] (.next (t.send (.mcrr cond rn rd cp op crm) [t.reg rd, t.reg rn] true).advance)))

/-- MRRC: move two registers from coprocessor (R244): the first value to Rd, the second to Rn. -/
def execMrrc (cond : Cond) (rn rd : Reg) (cp op crm : BitVec 4) (s : State) : Result :=
  whenPassed cond s (notCp14 cp (offer (.mrrc cond rn rd cp op crm) s fun first second _ t =>
    noPc [rn, rd] (distinct [(rd, rn)]
      (.next (((t.setReg rd first).setReg rn second).send (.mrrc cond rn rd cp op crm) [] true).advance))))

/-- LDC: load coprocessor from memory (R246). -/
def execLdc (cond : Cond) (p u n wb : Bool) (rn : Reg) (crd cp : BitVec 4) (off8 : BitVec 8) (s : State) : Result :=
  whenPassed cond s (notCp14 cp (ldcWith (.ldc cond p u n wb rn crd cp off8) p u wb rn off8 s))

/-- STC: store coprocessor to memory (R247). -/
def execStc (cond : Cond) (p u n wb : Bool) (rn : Reg) (crd cp : BitVec 4) (off8 : BitVec 8) (s : State) : Result :=
  whenPassed cond s (notCp14 cp (stcWith (.stc cond p u n wb rn crd cp off8) p u wb rn off8 s))

/-- CDP2: CDP without a condition (R248). -/
def execCdp2 (op1 crn crd cp : BitVec 4) (op2 : BitVec 3) (crm : BitVec 4) (s : State) : Result :=
  notCp14 cp (cdpWith (.cdp2 op1 crn crd cp op2 crm) s)

/-- MCR2: MCR without a condition (R248); refused for coprocessor 14. -/
def execMcr2 (op1 : BitVec 3) (crn : BitVec 4) (rd : Reg) (cp : BitVec 4) (op2 : BitVec 3) (crm : BitVec 4) (s : State) :
    Result :=
  notCp14 cp (mcrWith (.mcr2 op1 crn rd cp op2 crm) rd s)

/-- MRC2: MRC without a condition (R248); refused for coprocessor 14. -/
def execMrc2 (op1 : BitVec 3) (crn : BitVec 4) (rd : Reg) (cp : BitVec 4) (op2 : BitVec 3) (crm : BitVec 4) (s : State) :
    Result :=
  notCp14 cp (mrcWith (.mrc2 op1 crn rd cp op2 crm) rd s)

/-- LDC2: LDC without a condition (R248). -/
def execLdc2 (p u n wb : Bool) (rn : Reg) (crd cp : BitVec 4) (off8 : BitVec 8) (s : State) : Result :=
  notCp14 cp (ldcWith (.ldc2 p u n wb rn crd cp off8) p u wb rn off8 s)

/-- STC2: STC without a condition (R248). -/
def execStc2 (p u n wb : Bool) (rn : Reg) (crd cp : BitVec 4) (off8 : BitVec 8) (s : State) : Result :=
  notCp14 cp (stcWith (.stc2 p u n wb rn crd cp off8) p u wb rn off8 s)

end Sys2Proof.Machine
end

