-- ==== Sys2Proof/Machine/ArmDataProc.lean ====
section
/-!
DEFINITION. The sixteen ARM data-processing instructions in their three formats (spec/40_arm_move_and_status.md rules
R140 to R142, spec/41_arm_arithmetic.md rules R150 to R155, R162, R163, spec/42_arm_logical.md). Each instruction is
its operation on the first operand and the shifter operand; its three formats differ in the shifter operand.
-/
namespace Sys2Proof.Machine

/-- The destination of a data-processing instruction (R140). A destination of r15 with S = 1 is an exception return,
with S = 0 a branch, whose target must be word-aligned; any other destination takes the result, and with S = 1 the CPSR
takes the flags. -/
def dataResult (sb : Bool) (rd : Reg) (psr value : Word) (s : State) : Result :=
  if rd = 15#4 then
    if sb then exceptionReturn value s
    else if value.extractLsb' 0 2 = 0#2 then .next (s.setPc value)
    else .refused .misalignedPcWrite
  else .next ((s.setReg rd value).setCpsr (if sb then psr else s.cpsr)).advance

/-- The logical group (R140): C is the shifter's carry, V is kept. -/
def logicalTo (sb : Bool) (rd : Reg) (value : Word) (o : Shifted) (s : State) : Result :=
  dataResult sb rd (withLogic s.cpsr value o.carry) value s

/-- The arithmetic group (R140): C and V are those of the addition. -/
def arithTo (sb : Bool) (rd : Reg) (r : Sum) (s : State) : Result :=
  dataResult sb rd (withArith s.cpsr r) r.value s

/-- The tests of the logical group (R140): only the flags are written. -/
def logicalTest (value : Word) (o : Shifted) (s : State) : Result :=
  .next (s.setCpsr (withLogic s.cpsr value o.carry)).advance

/-- The compares of the arithmetic group (R140): only the flags are written. -/
def arithTest (r : Sum) (s : State) : Result := .next (s.setCpsr (withArith s.cpsr r)).advance

/-- AND: bitwise AND (R182). -/
def andWith (sb : Bool) (rd : Reg) (a : Word) (o : Shifted) (s : State) : Result :=
  logicalTo sb rd (a &&& o.value) o s

/-- AND with a rotated immediate, format A_DPI (R182, R105). -/
def execAndImm (cond : Cond) (sb : Bool) (rn rd : Reg) (rot : BitVec 4) (imm8 : BitVec 8) (s : State) : Result :=
  whenPassed cond s (andWith sb rd (s.reg rn) (s.immOperand rot imm8) s)

/-- AND with a register shifted by an immediate, format A_DPS (R182, R106). -/
def execAndShift (cond : Cond) (sb : Bool) (rn rd : Reg) (amount : BitVec 5) (shift : Shift) (rm : Reg)
    (s : State) : Result :=
  whenPassed cond s (andWith sb rd (s.reg rn) (s.shiftOperand rm shift amount) s)

/-- AND with a register shifted by a register, format A_DPR (R182, R107): no register may be r15. -/
def execAndRegShift (cond : Cond) (sb : Bool) (rn rd rs : Reg) (shift : Shift) (rm : Reg) (s : State) : Result :=
  whenPassed cond s (noPc [rd, rn, rs, rm] (andWith sb rd (s.reg rn) (s.regShiftOperand rm rs shift) s))

/-- EOR: bitwise exclusive OR (R183). -/
def eorWith (sb : Bool) (rd : Reg) (a : Word) (o : Shifted) (s : State) : Result :=
  logicalTo sb rd (a ^^^ o.value) o s

/-- EOR with a rotated immediate, format A_DPI (R183, R105). -/
def execEorImm (cond : Cond) (sb : Bool) (rn rd : Reg) (rot : BitVec 4) (imm8 : BitVec 8) (s : State) : Result :=
  whenPassed cond s (eorWith sb rd (s.reg rn) (s.immOperand rot imm8) s)

/-- EOR with a register shifted by an immediate, format A_DPS (R183, R106). -/
def execEorShift (cond : Cond) (sb : Bool) (rn rd : Reg) (amount : BitVec 5) (shift : Shift) (rm : Reg)
    (s : State) : Result :=
  whenPassed cond s (eorWith sb rd (s.reg rn) (s.shiftOperand rm shift amount) s)

/-- EOR with a register shifted by a register, format A_DPR (R183, R107): no register may be r15. -/
def execEorRegShift (cond : Cond) (sb : Bool) (rn rd rs : Reg) (shift : Shift) (rm : Reg) (s : State) : Result :=
  whenPassed cond s (noPc [rd, rn, rs, rm] (eorWith sb rd (s.reg rn) (s.regShiftOperand rm rs shift) s))

/-- SUB: subtract (R152). -/
def subWith (sb : Bool) (rd : Reg) (a : Word) (o : Shifted) (s : State) : Result :=
  arithTo sb rd (subtract a o.value) s

/-- SUB with a rotated immediate, format A_DPI (R152, R105). -/
def execSubImm (cond : Cond) (sb : Bool) (rn rd : Reg) (rot : BitVec 4) (imm8 : BitVec 8) (s : State) : Result :=
  whenPassed cond s (subWith sb rd (s.reg rn) (s.immOperand rot imm8) s)

/-- SUB with a register shifted by an immediate, format A_DPS (R152, R106). -/
def execSubShift (cond : Cond) (sb : Bool) (rn rd : Reg) (amount : BitVec 5) (shift : Shift) (rm : Reg)
    (s : State) : Result :=
  whenPassed cond s (subWith sb rd (s.reg rn) (s.shiftOperand rm shift amount) s)

/-- SUB with a register shifted by a register, format A_DPR (R152, R107): no register may be r15. -/
def execSubRegShift (cond : Cond) (sb : Bool) (rn rd rs : Reg) (shift : Shift) (rm : Reg) (s : State) : Result :=
  whenPassed cond s (noPc [rd, rn, rs, rm] (subWith sb rd (s.reg rn) (s.regShiftOperand rm rs shift) s))

/-- RSB: reverse subtract (R154). -/
def rsbWith (sb : Bool) (rd : Reg) (a : Word) (o : Shifted) (s : State) : Result :=
  arithTo sb rd (subtract o.value a) s

/-- RSB with a rotated immediate, format A_DPI (R154, R105). -/
def execRsbImm (cond : Cond) (sb : Bool) (rn rd : Reg) (rot : BitVec 4) (imm8 : BitVec 8) (s : State) : Result :=
  whenPassed cond s (rsbWith sb rd (s.reg rn) (s.immOperand rot imm8) s)

/-- RSB with a register shifted by an immediate, format A_DPS (R154, R106). -/
def execRsbShift (cond : Cond) (sb : Bool) (rn rd : Reg) (amount : BitVec 5) (shift : Shift) (rm : Reg)
    (s : State) : Result :=
  whenPassed cond s (rsbWith sb rd (s.reg rn) (s.shiftOperand rm shift amount) s)

/-- RSB with a register shifted by a register, format A_DPR (R154, R107): no register may be r15. -/
def execRsbRegShift (cond : Cond) (sb : Bool) (rn rd rs : Reg) (shift : Shift) (rm : Reg) (s : State) : Result :=
  whenPassed cond s (noPc [rd, rn, rs, rm] (rsbWith sb rd (s.reg rn) (s.regShiftOperand rm rs shift) s))

/-- ADD: add (R150). -/
def addWith (sb : Bool) (rd : Reg) (a : Word) (o : Shifted) (s : State) : Result :=
  arithTo sb rd (addWithCarry a o.value false) s

/-- ADD with a rotated immediate, format A_DPI (R150, R105). -/
def execAddImm (cond : Cond) (sb : Bool) (rn rd : Reg) (rot : BitVec 4) (imm8 : BitVec 8) (s : State) : Result :=
  whenPassed cond s (addWith sb rd (s.reg rn) (s.immOperand rot imm8) s)

/-- ADD with a register shifted by an immediate, format A_DPS (R150, R106). -/
def execAddShift (cond : Cond) (sb : Bool) (rn rd : Reg) (amount : BitVec 5) (shift : Shift) (rm : Reg)
    (s : State) : Result :=
  whenPassed cond s (addWith sb rd (s.reg rn) (s.shiftOperand rm shift amount) s)

/-- ADD with a register shifted by a register, format A_DPR (R150, R107): no register may be r15. -/
def execAddRegShift (cond : Cond) (sb : Bool) (rn rd rs : Reg) (shift : Shift) (rm : Reg) (s : State) : Result :=
  whenPassed cond s (noPc [rd, rn, rs, rm] (addWith sb rd (s.reg rn) (s.regShiftOperand rm rs shift) s))

/-- ADC: add with carry (R151). -/
def adcWith (sb : Bool) (rd : Reg) (a : Word) (o : Shifted) (s : State) : Result :=
  arithTo sb rd (addWithCarry a o.value (psrC s.cpsr)) s

/-- ADC with a rotated immediate, format A_DPI (R151, R105). -/
def execAdcImm (cond : Cond) (sb : Bool) (rn rd : Reg) (rot : BitVec 4) (imm8 : BitVec 8) (s : State) : Result :=
  whenPassed cond s (adcWith sb rd (s.reg rn) (s.immOperand rot imm8) s)

/-- ADC with a register shifted by an immediate, format A_DPS (R151, R106). -/
def execAdcShift (cond : Cond) (sb : Bool) (rn rd : Reg) (amount : BitVec 5) (shift : Shift) (rm : Reg)
    (s : State) : Result :=
  whenPassed cond s (adcWith sb rd (s.reg rn) (s.shiftOperand rm shift amount) s)

/-- ADC with a register shifted by a register, format A_DPR (R151, R107): no register may be r15. -/
def execAdcRegShift (cond : Cond) (sb : Bool) (rn rd rs : Reg) (shift : Shift) (rm : Reg) (s : State) : Result :=
  whenPassed cond s (noPc [rd, rn, rs, rm] (adcWith sb rd (s.reg rn) (s.regShiftOperand rm rs shift) s))

/-- SBC: subtract with carry (R153). -/
def sbcWith (sb : Bool) (rd : Reg) (a : Word) (o : Shifted) (s : State) : Result :=
  arithTo sb rd (subtractCarry a o.value (psrC s.cpsr)) s

/-- SBC with a rotated immediate, format A_DPI (R153, R105). -/
def execSbcImm (cond : Cond) (sb : Bool) (rn rd : Reg) (rot : BitVec 4) (imm8 : BitVec 8) (s : State) : Result :=
  whenPassed cond s (sbcWith sb rd (s.reg rn) (s.immOperand rot imm8) s)

/-- SBC with a register shifted by an immediate, format A_DPS (R153, R106). -/
def execSbcShift (cond : Cond) (sb : Bool) (rn rd : Reg) (amount : BitVec 5) (shift : Shift) (rm : Reg)
    (s : State) : Result :=
  whenPassed cond s (sbcWith sb rd (s.reg rn) (s.shiftOperand rm shift amount) s)

/-- SBC with a register shifted by a register, format A_DPR (R153, R107): no register may be r15. -/
def execSbcRegShift (cond : Cond) (sb : Bool) (rn rd rs : Reg) (shift : Shift) (rm : Reg) (s : State) : Result :=
  whenPassed cond s (noPc [rd, rn, rs, rm] (sbcWith sb rd (s.reg rn) (s.regShiftOperand rm rs shift) s))

/-- RSC: reverse subtract with carry (R155). -/
def rscWith (sb : Bool) (rd : Reg) (a : Word) (o : Shifted) (s : State) : Result :=
  arithTo sb rd (subtractCarry o.value a (psrC s.cpsr)) s

/-- RSC with a rotated immediate, format A_DPI (R155, R105). -/
def execRscImm (cond : Cond) (sb : Bool) (rn rd : Reg) (rot : BitVec 4) (imm8 : BitVec 8) (s : State) : Result :=
  whenPassed cond s (rscWith sb rd (s.reg rn) (s.immOperand rot imm8) s)

/-- RSC with a register shifted by an immediate, format A_DPS (R155, R106). -/
def execRscShift (cond : Cond) (sb : Bool) (rn rd : Reg) (amount : BitVec 5) (shift : Shift) (rm : Reg)
    (s : State) : Result :=
  whenPassed cond s (rscWith sb rd (s.reg rn) (s.shiftOperand rm shift amount) s)

/-- RSC with a register shifted by a register, format A_DPR (R155, R107): no register may be r15. -/
def execRscRegShift (cond : Cond) (sb : Bool) (rn rd rs : Reg) (shift : Shift) (rm : Reg) (s : State) : Result :=
  whenPassed cond s (noPc [rd, rn, rs, rm] (rscWith sb rd (s.reg rn) (s.regShiftOperand rm rs shift) s))

/-- TST: test (R180). -/
def tstWith (a : Word) (o : Shifted) (s : State) : Result :=
  logicalTest (a &&& o.value) o s

/-- TST with a rotated immediate, format A_DPI (R180, R105). -/
def execTstImm (cond : Cond) (rn : Reg) (rot : BitVec 4) (imm8 : BitVec 8) (s : State) : Result :=
  whenPassed cond s (tstWith (s.reg rn) (s.immOperand rot imm8) s)

/-- TST with a register shifted by an immediate, format A_DPS (R180, R106). -/
def execTstShift (cond : Cond) (rn : Reg) (amount : BitVec 5) (shift : Shift) (rm : Reg)
    (s : State) : Result :=
  whenPassed cond s (tstWith (s.reg rn) (s.shiftOperand rm shift amount) s)

/-- TST with a register shifted by a register, format A_DPR (R180, R107): no register may be r15. -/
def execTstRegShift (cond : Cond) (rn rs : Reg) (shift : Shift) (rm : Reg) (s : State) : Result :=
  whenPassed cond s (noPc [rn, rs, rm] (tstWith (s.reg rn) (s.regShiftOperand rm rs shift) s))

/-- TEQ: test equivalence (R181). -/
def teqWith (a : Word) (o : Shifted) (s : State) : Result :=
  logicalTest (a ^^^ o.value) o s

/-- TEQ with a rotated immediate, format A_DPI (R181, R105). -/
def execTeqImm (cond : Cond) (rn : Reg) (rot : BitVec 4) (imm8 : BitVec 8) (s : State) : Result :=
  whenPassed cond s (teqWith (s.reg rn) (s.immOperand rot imm8) s)

/-- TEQ with a register shifted by an immediate, format A_DPS (R181, R106). -/
def execTeqShift (cond : Cond) (rn : Reg) (amount : BitVec 5) (shift : Shift) (rm : Reg)
    (s : State) : Result :=
  whenPassed cond s (teqWith (s.reg rn) (s.shiftOperand rm shift amount) s)

/-- TEQ with a register shifted by a register, format A_DPR (R181, R107): no register may be r15. -/
def execTeqRegShift (cond : Cond) (rn rs : Reg) (shift : Shift) (rm : Reg) (s : State) : Result :=
  whenPassed cond s (noPc [rn, rs, rm] (teqWith (s.reg rn) (s.regShiftOperand rm rs shift) s))

/-- CMP: compare (R162). -/
def cmpWith (a : Word) (o : Shifted) (s : State) : Result :=
  arithTest (subtract a o.value) s

/-- CMP with a rotated immediate, format A_DPI (R162, R105). -/
def execCmpImm (cond : Cond) (rn : Reg) (rot : BitVec 4) (imm8 : BitVec 8) (s : State) : Result :=
  whenPassed cond s (cmpWith (s.reg rn) (s.immOperand rot imm8) s)

/-- CMP with a register shifted by an immediate, format A_DPS (R162, R106). -/
def execCmpShift (cond : Cond) (rn : Reg) (amount : BitVec 5) (shift : Shift) (rm : Reg)
    (s : State) : Result :=
  whenPassed cond s (cmpWith (s.reg rn) (s.shiftOperand rm shift amount) s)

/-- CMP with a register shifted by a register, format A_DPR (R162, R107): no register may be r15. -/
def execCmpRegShift (cond : Cond) (rn rs : Reg) (shift : Shift) (rm : Reg) (s : State) : Result :=
  whenPassed cond s (noPc [rn, rs, rm] (cmpWith (s.reg rn) (s.regShiftOperand rm rs shift) s))

/-- CMN: compare negative (R163). -/
def cmnWith (a : Word) (o : Shifted) (s : State) : Result :=
  arithTest (addWithCarry a o.value false) s

/-- CMN with a rotated immediate, format A_DPI (R163, R105). -/
def execCmnImm (cond : Cond) (rn : Reg) (rot : BitVec 4) (imm8 : BitVec 8) (s : State) : Result :=
  whenPassed cond s (cmnWith (s.reg rn) (s.immOperand rot imm8) s)

/-- CMN with a register shifted by an immediate, format A_DPS (R163, R106). -/
def execCmnShift (cond : Cond) (rn : Reg) (amount : BitVec 5) (shift : Shift) (rm : Reg)
    (s : State) : Result :=
  whenPassed cond s (cmnWith (s.reg rn) (s.shiftOperand rm shift amount) s)

/-- CMN with a register shifted by a register, format A_DPR (R163, R107): no register may be r15. -/
def execCmnRegShift (cond : Cond) (rn rs : Reg) (shift : Shift) (rm : Reg) (s : State) : Result :=
  whenPassed cond s (noPc [rn, rs, rm] (cmnWith (s.reg rn) (s.regShiftOperand rm rs shift) s))

/-- ORR: bitwise OR (R184). -/
def orrWith (sb : Bool) (rd : Reg) (a : Word) (o : Shifted) (s : State) : Result :=
  logicalTo sb rd (a ||| o.value) o s

/-- ORR with a rotated immediate, format A_DPI (R184, R105). -/
def execOrrImm (cond : Cond) (sb : Bool) (rn rd : Reg) (rot : BitVec 4) (imm8 : BitVec 8) (s : State) : Result :=
  whenPassed cond s (orrWith sb rd (s.reg rn) (s.immOperand rot imm8) s)

/-- ORR with a register shifted by an immediate, format A_DPS (R184, R106). -/
def execOrrShift (cond : Cond) (sb : Bool) (rn rd : Reg) (amount : BitVec 5) (shift : Shift) (rm : Reg)
    (s : State) : Result :=
  whenPassed cond s (orrWith sb rd (s.reg rn) (s.shiftOperand rm shift amount) s)

/-- ORR with a register shifted by a register, format A_DPR (R184, R107): no register may be r15. -/
def execOrrRegShift (cond : Cond) (sb : Bool) (rn rd rs : Reg) (shift : Shift) (rm : Reg) (s : State) : Result :=
  whenPassed cond s (noPc [rd, rn, rs, rm] (orrWith sb rd (s.reg rn) (s.regShiftOperand rm rs shift) s))

/-- MOV: move (R141). -/
def movWith (sb : Bool) (rd : Reg) (o : Shifted) (s : State) : Result :=
  logicalTo sb rd o.value o s

/-- MOV with a rotated immediate, format A_DPI (R141, R105). -/
def execMovImm (cond : Cond) (sb : Bool) (rd : Reg) (rot : BitVec 4) (imm8 : BitVec 8) (s : State) : Result :=
  whenPassed cond s (movWith sb rd (s.immOperand rot imm8) s)

/-- MOV with a register shifted by an immediate, format A_DPS (R141, R106). -/
def execMovShift (cond : Cond) (sb : Bool) (rd : Reg) (amount : BitVec 5) (shift : Shift) (rm : Reg)
    (s : State) : Result :=
  whenPassed cond s (movWith sb rd (s.shiftOperand rm shift amount) s)

/-- MOV with a register shifted by a register, format A_DPR (R141, R107): no register may be r15. -/
def execMovRegShift (cond : Cond) (sb : Bool) (rd rs : Reg) (shift : Shift) (rm : Reg) (s : State) : Result :=
  whenPassed cond s (noPc [rd, rs, rm] (movWith sb rd (s.regShiftOperand rm rs shift) s))

/-- BIC: bit clear (R185). -/
def bicWith (sb : Bool) (rd : Reg) (a : Word) (o : Shifted) (s : State) : Result :=
  logicalTo sb rd (a &&& ~~~o.value) o s

/-- BIC with a rotated immediate, format A_DPI (R185, R105). -/
def execBicImm (cond : Cond) (sb : Bool) (rn rd : Reg) (rot : BitVec 4) (imm8 : BitVec 8) (s : State) : Result :=
  whenPassed cond s (bicWith sb rd (s.reg rn) (s.immOperand rot imm8) s)

/-- BIC with a register shifted by an immediate, format A_DPS (R185, R106). -/
def execBicShift (cond : Cond) (sb : Bool) (rn rd : Reg) (amount : BitVec 5) (shift : Shift) (rm : Reg)
    (s : State) : Result :=
  whenPassed cond s (bicWith sb rd (s.reg rn) (s.shiftOperand rm shift amount) s)

/-- BIC with a register shifted by a register, format A_DPR (R185, R107): no register may be r15. -/
def execBicRegShift (cond : Cond) (sb : Bool) (rn rd rs : Reg) (shift : Shift) (rm : Reg) (s : State) : Result :=
  whenPassed cond s (noPc [rd, rn, rs, rm] (bicWith sb rd (s.reg rn) (s.regShiftOperand rm rs shift) s))

/-- MVN: move NOT (R142). -/
def mvnWith (sb : Bool) (rd : Reg) (o : Shifted) (s : State) : Result :=
  logicalTo sb rd (~~~o.value) o s

/-- MVN with a rotated immediate, format A_DPI (R142, R105). -/
def execMvnImm (cond : Cond) (sb : Bool) (rd : Reg) (rot : BitVec 4) (imm8 : BitVec 8) (s : State) : Result :=
  whenPassed cond s (mvnWith sb rd (s.immOperand rot imm8) s)

/-- MVN with a register shifted by an immediate, format A_DPS (R142, R106). -/
def execMvnShift (cond : Cond) (sb : Bool) (rd : Reg) (amount : BitVec 5) (shift : Shift) (rm : Reg)
    (s : State) : Result :=
  whenPassed cond s (mvnWith sb rd (s.shiftOperand rm shift amount) s)

/-- MVN with a register shifted by a register, format A_DPR (R142, R107): no register may be r15. -/
def execMvnRegShift (cond : Cond) (sb : Bool) (rd rs : Reg) (shift : Shift) (rm : Reg) (s : State) : Result :=
  whenPassed cond s (noPc [rd, rs, rm] (mvnWith sb rd (s.regShiftOperand rm rs shift) s))

end Sys2Proof.Machine
end

