-- ==== Sys2Proof/Machine/ArmLoadStore.lean ====
section
/-!
DEFINITION. The ARM single loads and stores and PLD (spec/44_arm_load_store.md rules R200 to R206, R210 to R215, R218,
R219, R223, R224). Each transfer is written once over an address; the two forms of an instruction differ in the offset
and in the register restrictions. A Data Abort leaves every register as it was (R222).
-/
namespace Sys2Proof.Machine

/-- Whether an indexing writes the base back (R223). -/
def writesBack : Index → Bool
  | .offset => false
  | .pre => true
  | .post => true

/-- An address with an immediate offset (R223, R224). -/
def State.immAddress {n : Nat} (s : State) (idx : Index) (u : Bool) (rn : Reg) (off : BitVec n) : Address :=
  indexed idx u (s.reg rn) (off.setWidth 32)

/-- An address of mode 2 with a shifted register offset (R223). -/
def State.shiftAddress (s : State) (idx : Index) (u : Bool) (rn : Reg) (amount : BitVec 5) (shift : Shift) (rm : Reg) :
    Address :=
  indexed idx u (s.reg rn) (s.shiftedOffset rm shift amount)

/-- An address of mode 3 with a register offset (R224). -/
def State.regAddress (s : State) (idx : Index) (u : Bool) (rn rm : Reg) : Address :=
  indexed idx u (s.reg rn) (s.reg rm)

/-- The end of a load: the base written back and the destination written (R200). -/
def finishLoad (a : Address) (rn rd : Reg) (v : Word) (s : State) : Result :=
  .next ((s.writeBase a rn).setReg rd v).advance

/-- The end of a store, in the state after it: the base written back (R211). -/
def finishStore (a : Address) (rn : Reg) (t : State) : Result := .next (t.writeBase a rn).advance

/-- LDR (R200): a destination of r15 is a load to the PC, from a word-aligned address only (U11). -/
def ldrWith (a : Address) (rn rd : Reg) (s : State) : Result :=
  withLoad (s.loadWord s.privileged a.address) s fun v =>
    if rd = 15#4 then
      if a.address.extractLsb' 0 2 = 0#2 then branchExchange v (s.writeBase a rn) else .refused .misalignedPcLoad
    else finishLoad a rn rd v s

/-- LDRT (R201): the access carries the User attribute. -/
def ldrtWith (a : Address) (rn rd : Reg) (s : State) : Result :=
  noPc [rd] (withLoad (s.loadWord false a.address) s fun v => finishLoad a rn rd v s)

/-- LDRB and LDRBT (R202, R203): the byte zero-extended. -/
def ldrbWith (priv : Bool) (a : Address) (rn rd : Reg) (s : State) : Result :=
  noPc [rd] (withLoad (s.loadByte priv a.address) s fun v => finishLoad a rn rd (v.setWidth 32) s)

/-- LDRSB (R204): the byte sign-extended. -/
def ldrsbWith (a : Address) (rn rd : Reg) (s : State) : Result :=
  noPc [rd] (withLoad (s.loadByte s.privileged a.address) s fun v => finishLoad a rn rd (v.signExtend 32) s)

/-- LDRH (R205): the halfword zero-extended. -/
def ldrhWith (a : Address) (rn rd : Reg) (s : State) : Result :=
  noPc [rd] (evenAddress a.address
    (withLoad (s.loadHalf s.privileged a.address) s fun v => finishLoad a rn rd (v.setWidth 32) s))

/-- LDRSH (R206): the halfword sign-extended. -/
def ldrshWith (a : Address) (rn rd : Reg) (s : State) : Result :=
  noPc [rd] (evenAddress a.address
    (withLoad (s.loadHalf s.privileged a.address) s fun v => finishLoad a rn rd (v.signExtend 32) s))

/-- LDRD (R210): the word at the lower address goes to the even register. -/
def ldrdWith (a : Address) (rn rd : Reg) (s : State) : Result :=
  evenPair rd (doubleAligned a.address
    (loadRegs s [rd, rd + 1] a.address rn fun _ t => .next (t.writeBase a rn).advance))

/-- STR (R211): r15 is stored as the address of the instruction plus STORE_PC_OFFSET. -/
def strWith (a : Address) (rn rd : Reg) (s : State) : Result :=
  withStore (s.storeWord s.privileged a.address (s.storeReg rd)) s (finishStore a rn)

/-- STRT (R212): the access carries the User attribute. -/
def strtWith (a : Address) (rn rd : Reg) (s : State) : Result :=
  noPc [rd] (withStore (s.storeWord false a.address (s.reg rd)) s (finishStore a rn))

/-- STRB and STRBT (R213, R214): the low byte of the register. -/
def strbWith (priv : Bool) (a : Address) (rn rd : Reg) (s : State) : Result :=
  noPc [rd] (withStore (s.storeByte priv a.address ((s.reg rd).setWidth 8)) s (finishStore a rn))

/-- STRH (R215): the low halfword of the register. -/
def strhWith (a : Address) (rn rd : Reg) (s : State) : Result :=
  noPc [rd] (evenAddress a.address
    (withStore (s.storeHalf s.privileged a.address ((s.reg rd).setWidth 16)) s (finishStore a rn)))

/-- STRD (R218): the even register goes to the lower address. -/
def strdWith (a : Address) (rn rd : Reg) (s : State) : Result :=
  evenPair rd (doubleAligned a.address
    (storeList s a.address [s.reg rd, s.reg (rd + 1)] (finishStore a rn)))

/-- The restrictions of LDRD and STRD on the base (R210, U9): with write-back, Rn is neither 15 nor one of the pair. -/
def pairBaseAllowed (writeBack : Bool) (rn rd : Reg) (k : Result) : Result :=
  if writeBack then noPc [rn] (distinct [(rn, rd), (rn, rd + 1)] k) else k

/-- The restrictions of LDRD and STRD on an offset register (R210, U9): Rm is neither 15 nor one of the pair; with
write-back, Rn is neither 15 nor one of the pair nor Rm. -/
def pairRegBaseAllowed (writeBack : Bool) (rn rd rm : Reg) (k : Result) : Result :=
  noPc [rm] (distinct [(rm, rd), (rm, rd + 1)] (pairBaseAllowed writeBack rn rd
    (if writeBack then distinct [(rm, rn)] k else k)))

/-- LDR: load word, immediate offset (R200). -/
def execLdrImm (cond : Cond) (idx : Index) (u : Bool) (rn rd : Reg) (off12 : BitVec 12) (s : State) : Result :=
  whenPassed cond s (baseAllowed (writesBack idx) rn rd (ldrWith (s.immAddress idx u rn off12) rn rd s))

/-- LDR: load word, shifted register offset (R200). -/
def execLdrReg (cond : Cond) (idx : Index) (u : Bool) (rn rd : Reg) (amount : BitVec 5) (shift : Shift) (rm : Reg)
    (s : State) : Result :=
  whenPassed cond s (regBaseAllowed (writesBack idx) rn rd rm
    (ldrWith (s.shiftAddress idx u rn amount shift rm) rn rd s))

/-- LDRB: load unsigned byte, immediate offset (R202). -/
def execLdrbImm (cond : Cond) (idx : Index) (u : Bool) (rn rd : Reg) (off12 : BitVec 12) (s : State) : Result :=
  whenPassed cond s (baseAllowed (writesBack idx) rn rd (ldrbWith s.privileged (s.immAddress idx u rn off12) rn rd s))

/-- LDRB: load unsigned byte, shifted register offset (R202). -/
def execLdrbReg (cond : Cond) (idx : Index) (u : Bool) (rn rd : Reg) (amount : BitVec 5) (shift : Shift) (rm : Reg)
    (s : State) : Result :=
  whenPassed cond s (regBaseAllowed (writesBack idx) rn rd rm
    (ldrbWith s.privileged (s.shiftAddress idx u rn amount shift rm) rn rd s))

/-- STR: store word, immediate offset (R211). -/
def execStrImm (cond : Cond) (idx : Index) (u : Bool) (rn rd : Reg) (off12 : BitVec 12) (s : State) : Result :=
  whenPassed cond s (baseAllowed (writesBack idx) rn rd (strWith (s.immAddress idx u rn off12) rn rd s))

/-- STR: store word, shifted register offset (R211). -/
def execStrReg (cond : Cond) (idx : Index) (u : Bool) (rn rd : Reg) (amount : BitVec 5) (shift : Shift) (rm : Reg)
    (s : State) : Result :=
  whenPassed cond s (regBaseAllowed (writesBack idx) rn rd rm
    (strWith (s.shiftAddress idx u rn amount shift rm) rn rd s))

/-- STRB: store byte, immediate offset (R213). -/
def execStrbImm (cond : Cond) (idx : Index) (u : Bool) (rn rd : Reg) (off12 : BitVec 12) (s : State) : Result :=
  whenPassed cond s (baseAllowed (writesBack idx) rn rd (strbWith s.privileged (s.immAddress idx u rn off12) rn rd s))

/-- STRB: store byte, shifted register offset (R213). -/
def execStrbReg (cond : Cond) (idx : Index) (u : Bool) (rn rd : Reg) (amount : BitVec 5) (shift : Shift) (rm : Reg)
    (s : State) : Result :=
  whenPassed cond s (regBaseAllowed (writesBack idx) rn rd rm
    (strbWith s.privileged (s.shiftAddress idx u rn amount shift rm) rn rd s))

/-- LDRT: load word with User privilege, post-indexed by an immediate (R201, R109). -/
def execLdrtImm (cond : Cond) (u : Bool) (rn rd : Reg) (off12 : BitVec 12) (s : State) : Result :=
  whenPassed cond s (baseAllowed true rn rd (ldrtWith (s.immAddress .post u rn off12) rn rd s))

/-- LDRT: load word with User privilege, post-indexed by a shifted register (R201, R109). -/
def execLdrtReg (cond : Cond) (u : Bool) (rn rd : Reg) (amount : BitVec 5) (shift : Shift) (rm : Reg) (s : State) :
    Result :=
  whenPassed cond s (regBaseAllowed true rn rd rm
    (ldrtWith (s.shiftAddress .post u rn amount shift rm) rn rd s))

/-- LDRBT: load unsigned byte with User privilege, post-indexed by an immediate (R203, R109). -/
def execLdrbtImm (cond : Cond) (u : Bool) (rn rd : Reg) (off12 : BitVec 12) (s : State) : Result :=
  whenPassed cond s (baseAllowed true rn rd (ldrbWith false (s.immAddress .post u rn off12) rn rd s))

/-- LDRBT: load unsigned byte with User privilege, post-indexed by a shifted register (R203, R109). -/
def execLdrbtReg (cond : Cond) (u : Bool) (rn rd : Reg) (amount : BitVec 5) (shift : Shift) (rm : Reg) (s : State) :
    Result :=
  whenPassed cond s (regBaseAllowed true rn rd rm
    (ldrbWith false (s.shiftAddress .post u rn amount shift rm) rn rd s))

/-- STRT: store word with User privilege, post-indexed by an immediate (R212, R109). -/
def execStrtImm (cond : Cond) (u : Bool) (rn rd : Reg) (off12 : BitVec 12) (s : State) : Result :=
  whenPassed cond s (baseAllowed true rn rd (strtWith (s.immAddress .post u rn off12) rn rd s))

/-- STRT: store word with User privilege, post-indexed by a shifted register (R212, R109). -/
def execStrtReg (cond : Cond) (u : Bool) (rn rd : Reg) (amount : BitVec 5) (shift : Shift) (rm : Reg) (s : State) :
    Result :=
  whenPassed cond s (regBaseAllowed true rn rd rm
    (strtWith (s.shiftAddress .post u rn amount shift rm) rn rd s))

/-- STRBT: store byte with User privilege, post-indexed by an immediate (R214, R109). -/
def execStrbtImm (cond : Cond) (u : Bool) (rn rd : Reg) (off12 : BitVec 12) (s : State) : Result :=
  whenPassed cond s (baseAllowed true rn rd (strbWith false (s.immAddress .post u rn off12) rn rd s))

/-- STRBT: store byte with User privilege, post-indexed by a shifted register (R214, R109). -/
def execStrbtReg (cond : Cond) (u : Bool) (rn rd : Reg) (amount : BitVec 5) (shift : Shift) (rm : Reg) (s : State) :
    Result :=
  whenPassed cond s (regBaseAllowed true rn rd rm
    (strbWith false (s.shiftAddress .post u rn amount shift rm) rn rd s))

/-- PLD: soft preload, immediate offset (R219): a hint without architectural effect. -/
def execPldImm (_u : Bool) (_rn : Reg) (_off12 : BitVec 12) (s : State) : Result := .next s.advance

/-- PLD: soft preload, register offset (R219): a hint without architectural effect; Rm = 15 is UNPREDICTABLE. -/
def execPldReg (_u : Bool) (_rn : Reg) (_amount : BitVec 5) (_shift : Shift) (rm : Reg) (s : State) : Result :=
  noPc [rm] (.next s.advance)

/-- STRH: store halfword, immediate offset (R215). -/
def execStrhImm (cond : Cond) (idx : Index) (u : Bool) (rn rd : Reg) (off8 : BitVec 8) (s : State) : Result :=
  whenPassed cond s (baseAllowed (writesBack idx) rn rd (strhWith (s.immAddress idx u rn off8) rn rd s))

/-- STRH: store halfword, register offset (R215). -/
def execStrhReg (cond : Cond) (idx : Index) (u : Bool) (rn rd rm : Reg) (s : State) : Result :=
  whenPassed cond s (regBaseAllowed (writesBack idx) rn rd rm (strhWith (s.regAddress idx u rn rm) rn rd s))

/-- LDRH: load unsigned halfword, immediate offset (R205). -/
def execLdrhImm (cond : Cond) (idx : Index) (u : Bool) (rn rd : Reg) (off8 : BitVec 8) (s : State) : Result :=
  whenPassed cond s (baseAllowed (writesBack idx) rn rd (ldrhWith (s.immAddress idx u rn off8) rn rd s))

/-- LDRH: load unsigned halfword, register offset (R205). -/
def execLdrhReg (cond : Cond) (idx : Index) (u : Bool) (rn rd rm : Reg) (s : State) : Result :=
  whenPassed cond s (regBaseAllowed (writesBack idx) rn rd rm (ldrhWith (s.regAddress idx u rn rm) rn rd s))

/-- LDRSB: load signed byte, immediate offset (R204). -/
def execLdrsbImm (cond : Cond) (idx : Index) (u : Bool) (rn rd : Reg) (off8 : BitVec 8) (s : State) : Result :=
  whenPassed cond s (baseAllowed (writesBack idx) rn rd (ldrsbWith (s.immAddress idx u rn off8) rn rd s))

/-- LDRSB: load signed byte, register offset (R204). -/
def execLdrsbReg (cond : Cond) (idx : Index) (u : Bool) (rn rd rm : Reg) (s : State) : Result :=
  whenPassed cond s (regBaseAllowed (writesBack idx) rn rd rm (ldrsbWith (s.regAddress idx u rn rm) rn rd s))

/-- LDRSH: load signed halfword, immediate offset (R206). -/
def execLdrshImm (cond : Cond) (idx : Index) (u : Bool) (rn rd : Reg) (off8 : BitVec 8) (s : State) : Result :=
  whenPassed cond s (baseAllowed (writesBack idx) rn rd (ldrshWith (s.immAddress idx u rn off8) rn rd s))

/-- LDRSH: load signed halfword, register offset (R206). -/
def execLdrshReg (cond : Cond) (idx : Index) (u : Bool) (rn rd rm : Reg) (s : State) : Result :=
  whenPassed cond s (regBaseAllowed (writesBack idx) rn rd rm (ldrshWith (s.regAddress idx u rn rm) rn rd s))

/-- LDRD: load doubleword, immediate offset (R210). -/
def execLdrdImm (cond : Cond) (idx : Index) (u : Bool) (rn rd : Reg) (off8 : BitVec 8) (s : State) : Result :=
  whenPassed cond s (pairBaseAllowed (writesBack idx) rn rd (ldrdWith (s.immAddress idx u rn off8) rn rd s))

/-- LDRD: load doubleword, register offset (R210). -/
def execLdrdReg (cond : Cond) (idx : Index) (u : Bool) (rn rd rm : Reg) (s : State) : Result :=
  whenPassed cond s (pairRegBaseAllowed (writesBack idx) rn rd rm (ldrdWith (s.regAddress idx u rn rm) rn rd s))

/-- STRD: store doubleword, immediate offset (R218). -/
def execStrdImm (cond : Cond) (idx : Index) (u : Bool) (rn rd : Reg) (off8 : BitVec 8) (s : State) : Result :=
  whenPassed cond s (pairBaseAllowed (writesBack idx) rn rd (strdWith (s.immAddress idx u rn off8) rn rd s))

/-- STRD: store doubleword, register offset (R218). -/
def execStrdReg (cond : Cond) (idx : Index) (u : Bool) (rn rd rm : Reg) (s : State) : Result :=
  whenPassed cond s (pairRegBaseAllowed (writesBack idx) rn rd rm (strdWith (s.regAddress idx u rn rm) rn rd s))

end Sys2Proof.Machine
end

