-- ==== Sys2Proof/Machine/ArmMultiple.lean ====
section
/-!
DEFINITION. The ARM load and store multiples and the swaps (spec/44_arm_load_store.md rules R207 to R209, R216, R217,
R220, R221, R225).
-/
namespace Sys2Proof.Machine

/-- LDM (1): load multiple (R207). With r15 in the list the last word is a load to the PC. -/
def execLdm (cond : Cond) (p u wb : Bool) (rn : Reg) (list : BitVec 16) (s : State) : Result :=
  whenPassed cond s (multipleAllowed rn (listed list) (baseNotListed wb rn (listed list)
    (loadRegs s (listed list) (multipleStart p u (s.reg rn) (listed list).length) rn fun ws t =>
      let t := if wb then t.setReg rn (multipleBase u (s.reg rn) (listed list).length) else t
      if list.getLsbD 15 then branchExchange (ws.getLastD 0) t else .next t.advance)))

/-- The registers of an aborted LDM (2) that hold the base: the User-bank copy is the base itself where the current
mode has no bank of its own (R222). -/
def isBase (s : State) (rn r : Reg) : Bool := bank s.mode rn == bank .usr r

/-- LDM (2): load multiple of User registers (R208), not in User or System mode (U4); it remembers that the next
instruction may not name a banked register (R412). -/
def execLdmUser (cond : Cond) (p u : Bool) (rn : Reg) (list : BitVec 15) (s : State) : Result :=
  whenPassed cond s (multipleAllowed rn (listed (list.setWidth 16))
    (match s.spsr.get s.mode with
    | none => .refused .userBankInUserMode
    | some _ =>
      match s.loadWords s.privileged (listed (list.setWidth 16)).length
          (multipleStart p u (s.reg rn) (listed (list.setWidth 16)).length) with
      | .all ws => .next { s.setUserRegs (listed (list.setWidth 16)) ws with userLdm := true }.advance
      | .abort _ => .next (takeDataAbort
          (s.clobberUser ((listed (list.setWidth 16)).filter fun r => !isBase s rn r)))
      | .unwritten => .fault .unwrittenByte))

/-- The register list of an LDM (3): the low fifteen registers and the PC (R209). -/
def withPc (list : BitVec 15) : BitVec 16 := 1#1 ++ list

/-- LDM (3): load multiple and restore the CPSR (R209): an exception return whose base is written back in the mode it
leaves. -/
def execLdmRestore (cond : Cond) (p u wb : Bool) (rn : Reg) (list : BitVec 15) (s : State) : Result :=
  whenPassed cond s (multipleAllowed rn (listed (withPc list)) (baseNotListed wb rn (listed (withPc list))
    (match s.spsr.get s.mode with
    | none => .refused .noSpsr
    | some _ =>
      loadRegs s (listed (withPc list)) (multipleStart p u (s.reg rn) (listed (withPc list)).length) rn fun ws t =>
        exceptionReturn (ws.getLastD 0)
          (if wb then t.setReg rn (multipleBase u (s.reg rn) (listed (withPc list)).length) else t))))

/-- STM (1): store multiple (R216), with write-back of no listed base but the lowest register (U9). -/
def execStm (cond : Cond) (p u wb : Bool) (rn : Reg) (list : BitVec 16) (s : State) : Result :=
  whenPassed cond s (multipleAllowed rn (listed list) (baseLowest wb rn (listed list)
    (storeList s (multipleStart p u (s.reg rn) (listed list).length) ((listed list).map s.storeReg) fun t =>
      .next (if wb then t.setReg rn (multipleBase u (s.reg rn) (listed list).length) else t).advance)))

/-- STM (2): store multiple of User registers (R217), not in User or System mode (U4). -/
def execStmUser (cond : Cond) (p u : Bool) (rn : Reg) (list : BitVec 16) (s : State) : Result :=
  whenPassed cond s (multipleAllowed rn (listed list)
    (match s.spsr.get s.mode with
    | none => .refused .userBankInUserMode
    | some _ =>
      storeList s (multipleStart p u (s.reg rn) (listed list).length) ((listed list).map s.storeUserReg) fun t =>
        .next t.advance))

/-- SWP: swap word (R220): the locked read, then the locked write to the same aligned word; an abort of either leaves
the destination unchanged. -/
def execSwp (cond : Cond) (rn rd rm : Reg) (s : State) : Result :=
  whenPassed cond s (noPc [rn, rd, rm] (distinct [(rn, rm), (rn, rd)]
    (withLoad (s.loadWord s.privileged (s.reg rn) true) s fun v =>
      withStore (s.storeWord s.privileged (s.reg rn) (s.reg rm) true) s fun t => .next (t.setReg rd v).advance)))

/-- SWPB: swap byte (R221), the accesses locked as those of SWP. -/
def execSwpb (cond : Cond) (rn rd rm : Reg) (s : State) : Result :=
  whenPassed cond s (noPc [rn, rd, rm] (distinct [(rn, rm), (rn, rd)]
    (withLoad (s.loadByte s.privileged (s.reg rn) true) s fun v =>
      withStore (s.storeByte s.privileged (s.reg rn) ((s.reg rm).setWidth 8) true) s fun t =>
        .next (t.setReg rd (v.setWidth 32)).advance)))

end Sys2Proof.Machine
end

