-- ==== Sys2Proof/Machine/ArmMultiply.lean ====
section
/-!
DEFINITION. The ARM multiplies, the saturating instructions, the 16-bit signed multiplies and CLZ
(spec/41_arm_arithmetic.md rules R156 to R161, R164 to R173). Register 15 is not allowed in any of them.
-/
namespace Sys2Proof.Machine

/-- The destination of a 32-bit multiply: with S = 1 the CPSR takes N and Z, C and V are kept (R156). -/
def multiplyTo (sb : Bool) (rd : Reg) (value : Word) (s : State) : Result :=
  .next ((s.setReg rd value).setCpsr (if sb then withNZ s.cpsr value else s.cpsr)).advance

/-- The destinations of a 64-bit multiply: with S = 1 the CPSR takes N and Z, C and V are kept (R158). -/
def longTo (sb : Bool) (rdHi rdLo : Reg) (value : BitVec 64) (s : State) : Result :=
  .next (((s.setReg rdHi (value.extractLsb' 32 32)).setReg rdLo (value.extractLsb' 0 32)).setCpsr
    (if sb then withLongNZ s.cpsr value else s.cpsr)).advance

/-- The restrictions of the long multiplies (R158, U6): RdHi, RdLo and Rm are different registers. -/
def longAllowed (rdHi rdLo rs rm : Reg) (k : Result) : Result :=
  noPc [rdHi, rdLo, rs, rm] (distinct [(rdHi, rdLo), (rdHi, rm), (rdLo, rm)] k)

/-- The 64-bit accumulator in a register pair (R159). -/
def State.regPair (s : State) (hi lo : Reg) : BitVec 64 := s.reg hi ++ s.reg lo

/-- MUL: multiply (R156). -/
def execMul (cond : Cond) (sb : Bool) (rd rs rm : Reg) (s : State) : Result :=
  whenPassed cond s (noPc [rd, rs, rm] (distinct [(rd, rm)] (multiplyTo sb rd (s.reg rm * s.reg rs) s)))

/-- MLA: multiply accumulate (R157). -/
def execMla (cond : Cond) (sb : Bool) (rd rn rs rm : Reg) (s : State) : Result :=
  whenPassed cond s (noPc [rd, rn, rs, rm] (distinct [(rd, rm)]
    (multiplyTo sb rd (s.reg rm * s.reg rs + s.reg rn) s)))

/-- UMULL: unsigned multiply long (R158). -/
def execUmull (cond : Cond) (sb : Bool) (rdHi rdLo rs rm : Reg) (s : State) : Result :=
  whenPassed cond s (longAllowed rdHi rdLo rs rm
    (longTo sb rdHi rdLo (BitVec.ofNat 64 ((s.reg rm).toNat * (s.reg rs).toNat)) s))

/-- UMLAL: unsigned multiply accumulate long (R159). -/
def execUmlal (cond : Cond) (sb : Bool) (rdHi rdLo rs rm : Reg) (s : State) : Result :=
  whenPassed cond s (longAllowed rdHi rdLo rs rm
    (longTo sb rdHi rdLo
      (BitVec.ofNat 64 ((s.reg rm).toNat * (s.reg rs).toNat + (s.regPair rdHi rdLo).toNat)) s))

/-- SMULL: signed multiply long (R160). -/
def execSmull (cond : Cond) (sb : Bool) (rdHi rdLo rs rm : Reg) (s : State) : Result :=
  whenPassed cond s (longAllowed rdHi rdLo rs rm
    (longTo sb rdHi rdLo (BitVec.ofInt 64 ((s.reg rm).toInt * (s.reg rs).toInt)) s))

/-- SMLAL: signed multiply accumulate long (R161). -/
def execSmlal (cond : Cond) (sb : Bool) (rdHi rdLo rs rm : Reg) (s : State) : Result :=
  whenPassed cond s (longAllowed rdHi rdLo rs rm
    (longTo sb rdHi rdLo
      (BitVec.ofInt 64 ((s.reg rm).toInt * (s.reg rs).toInt + (s.regPair rdHi rdLo).toInt)) s))

/-- The destination of a saturating instruction or an accumulating 16-bit multiply: Q is set or kept, nothing else of
the CPSR changes (R29). -/
def stickyTo (rd : Reg) (value : Word) (sat : Bool) (s : State) : Result :=
  .next ((s.setReg rd value).setCpsr (withSticky s.cpsr sat)).advance

/-- QADD: saturating add (R164); the first operand is in bits [3:0], the second in bits [19:16]. -/
def execQadd (cond : Cond) (rn rd rm : Reg) (s : State) : Result :=
  whenPassed cond s (noPc [rn, rd, rm]
    (stickyTo rd (signedSat32 ((s.reg rm).toInt + (s.reg rn).toInt)).1
      (signedSat32 ((s.reg rm).toInt + (s.reg rn).toInt)).2 s))

/-- QSUB: saturating subtract (R166). -/
def execQsub (cond : Cond) (rn rd rm : Reg) (s : State) : Result :=
  whenPassed cond s (noPc [rn, rd, rm]
    (stickyTo rd (signedSat32 ((s.reg rm).toInt - (s.reg rn).toInt)).1
      (signedSat32 ((s.reg rm).toInt - (s.reg rn).toInt)).2 s))

/-- The second operand of QDADD and QDSUB doubled, saturating (R165). -/
def doubled (v : Word) : Word × Bool := signedSat32 (2 * v.toInt)

/-- QDADD: saturating add with double (R165). -/
def execQdadd (cond : Cond) (rn rd rm : Reg) (s : State) : Result :=
  whenPassed cond s (noPc [rn, rd, rm]
    (stickyTo rd (signedSat32 ((s.reg rm).toInt + (doubled (s.reg rn)).1.toInt)).1
      ((doubled (s.reg rn)).2 || (signedSat32 ((s.reg rm).toInt + (doubled (s.reg rn)).1.toInt)).2) s))

/-- QDSUB: saturating subtract with double (R167). -/
def execQdsub (cond : Cond) (rn rd rm : Reg) (s : State) : Result :=
  whenPassed cond s (noPc [rn, rd, rm]
    (stickyTo rd (signedSat32 ((s.reg rm).toInt - (doubled (s.reg rn)).1.toInt)).1
      ((doubled (s.reg rn)).2 || (signedSat32 ((s.reg rm).toInt - (doubled (s.reg rn)).1.toInt)).2) s))

/-- An accumulation that wraps and reports its signed overflow (R169, R171). -/
def accumulate (p : Int) (n : Word) : Word × Bool :=
  (BitVec.ofInt 32 (p + n.toInt), decide (p + n.toInt ≠ (BitVec.ofInt 32 (p + n.toInt)).toInt))

/-- The product of two selected halves (R168). -/
def State.halfProduct (s : State) (rm rs : Reg) (x y : Bool) : Int :=
  halfInt (s.reg rm) x * halfInt (s.reg rs) y

/-- Bits [47:16] of the product of a word and a selected half, as a signed number (R170, R171). -/
def State.wordHalfProduct (s : State) (rm rs : Reg) (y : Bool) : Word :=
  (BitVec.ofInt 48 ((s.reg rm).toInt * halfInt (s.reg rs) y)).extractLsb' 16 32

/-- SMULxy: signed multiply 16x16 (R168). -/
def execSmulXY (cond : Cond) (rd rs : Reg) (y x : Bool) (rm : Reg) (s : State) : Result :=
  whenPassed cond s (noPc [rd, rs, rm]
    (.next (s.setReg rd (BitVec.ofInt 32 (s.halfProduct rm rs x y))).advance))

/-- SMLAxy: signed multiply accumulate 16x16 (R169); Q is set on signed overflow of the accumulation. -/
def execSmlaXY (cond : Cond) (rd rn rs : Reg) (y x : Bool) (rm : Reg) (s : State) : Result :=
  whenPassed cond s (noPc [rd, rn, rs, rm]
    (stickyTo rd (accumulate (s.halfProduct rm rs x y) (s.reg rn)).1
      (accumulate (s.halfProduct rm rs x y) (s.reg rn)).2 s))

/-- SMULWy: signed multiply 32x16, the top 32 bits of the product (R170). -/
def execSmulWY (cond : Cond) (rd rs : Reg) (y : Bool) (rm : Reg) (s : State) : Result :=
  whenPassed cond s (noPc [rd, rs, rm] (.next (s.setReg rd (s.wordHalfProduct rm rs y)).advance))

/-- SMLAWy: signed multiply accumulate 32x16 (R171); Q is set on signed overflow of the accumulation. -/
def execSmlaWY (cond : Cond) (rd rn rs : Reg) (y : Bool) (rm : Reg) (s : State) : Result :=
  whenPassed cond s (noPc [rd, rn, rs, rm]
    (stickyTo rd (accumulate (s.wordHalfProduct rm rs y).toInt (s.reg rn)).1
      (accumulate (s.wordHalfProduct rm rs y).toInt (s.reg rn)).2 s))

/-- SMLALxy: signed multiply accumulate long 16x16 (R172): it wraps and leaves Q alone. -/
def execSmlalXY (cond : Cond) (rdHi rdLo rs : Reg) (y x : Bool) (rm : Reg) (s : State) : Result :=
  whenPassed cond s (noPc [rdHi, rdLo, rs, rm] (distinct [(rdHi, rdLo)]
    (longTo false rdHi rdLo
      (BitVec.ofInt 64 ((s.regPair rdHi rdLo).toInt + s.halfProduct rm rs x y)) s)))

/-- How many of the bits below bit `n` are zero above the most significant one (R173). -/
def leadingZeros (v : Word) : Nat → Nat
  | 0 => 0
  | n + 1 => if v.getLsbD n then 0 else leadingZeros v n + 1

/-- CLZ: count leading zeros (R173). -/
def execClz (cond : Cond) (rd rm : Reg) (s : State) : Result :=
  whenPassed cond s (noPc [rd, rm]
    (.next (s.setReg rd (BitVec.ofNat 32 (leadingZeros (s.reg rm) 32))).advance))

end Sys2Proof.Machine
end

