-- ==== Sys2Proof/Machine/ArmStatus.lean ====
section
/-!
DEFINITION. MRS and MSR (spec/40_arm_move_and_status.md rules R143, R144).
-/
namespace Sys2Proof.Machine

/-- MRS: a PSR to a register (R143); `r` selects the SPSR, which User and System mode do not have (U4). -/
def execMrs (cond : Cond) (r : Bool) (rd : Reg) (s : State) : Result :=
  whenPassed cond s (noPc [rd]
    (if r then
      match s.spsr.get s.mode with
      | some p => .next (s.setReg rd p).advance
      | none => .refused .noSpsr
    else .next (s.setReg rd s.cpsr).advance))

/-- The bytes a field mask selects (R27, R144): bit 0 is c, bit 1 is x, bit 2 is s, bit 3 is f. -/
def byteMask (mask : BitVec 4) : Word :=
  (if mask.getLsbD 0 then 0x000000FF#32 else 0#32) ||| (if mask.getLsbD 1 then 0x0000FF00#32 else 0#32) |||
  (if mask.getLsbD 2 then 0x00FF0000#32 else 0#32) ||| (if mask.getLsbD 3 then 0xFF000000#32 else 0#32)

/-- A word with the bits under a mask taken from another (R144). -/
def merge (old new mask : Word) : Word := (old &&& ~~~mask) ||| (new &&& mask)

/-- MSR of an operand (R144). To the CPSR: in a privileged mode all selected bytes but J and T, and an operand with J
or T set in a selected byte is UNPREDICTABLE (U7); in User mode the flags N, Z, C, V, Q only. To the SPSR: every bit of
the selected bytes; User and System mode have none (U4). -/
def msrWith (r : Bool) (mask : BitVec 4) (operand : Word) (s : State) : Result :=
  if r then
    match s.spsr.get s.mode with
    | some p => .next { s with spsr := s.spsr.set s.mode (merge p operand (byteMask mask)) }.advance
    | none => .refused .noSpsr
  else if s.privileged then
    if byteMask mask &&& operand &&& 0x01000020#32 = 0#32 then
      .next (s.setCpsr (merge s.cpsr operand (byteMask mask &&& 0xFEFFFFDF#32))).advance
    else .refused .msrSetsStateBits
  else .next (s.setCpsr (merge s.cpsr operand (byteMask mask &&& 0xF8000000#32))).advance

/-- MSR from a register (R144). -/
def execMsrReg (cond : Cond) (r : Bool) (mask : BitVec 4) (rm : Reg) (s : State) : Result :=
  whenPassed cond s (noPc [rm] (msrWith r mask (s.reg rm) s))

/-- MSR from a rotated immediate (R144). -/
def execMsrImm (cond : Cond) (r : Bool) (mask rot : BitVec 4) (imm8 : BitVec 8) (s : State) : Result :=
  whenPassed cond s (msrWith r mask (s.immOperand rot imm8).value s)

end Sys2Proof.Machine
end

