-- ==== Sys2Proof/Machine/ArmSystem.lean ====
section
/-!
DEFINITION. The ARM instructions whose effect is an exception: SWI and BKPT (spec/45_arm_coprocessor_swi_bkpt.md rules
R249, R250) and the two patterns that take the Undefined instruction trap (spec/30_encoding.md rule R126). The
immediates and the other bits of these words are not used by the core.
-/
namespace Sys2Proof.Machine

/-- SWI: software interrupt (R249). -/
def execSwi (cond : Cond) (_imm24 : BitVec 24) (s : State) : Result := whenPassed cond s (.next (takeSwi s))

/-- BKPT: software breakpoint (R250), a Prefetch Abort. -/
def execBkpt (_imm16 : BitVec 16) (s : State) : Result := .next (takePrefetchAbort s)

/-- The architected undefined-instruction space (R126). -/
def execUndefSpace (cond : Cond) (_payload : BitVec 20) (_payloadLow : BitVec 4) (s : State) : Result :=
  whenPassed cond s (.next (takeUndefined s))

/-- The undefined patterns of the data-processing immediate space (R126). -/
def execUndefImm (cond : Cond) (_bit22 : Bool) (_payload : BitVec 20) (s : State) : Result :=
  whenPassed cond s (.next (takeUndefined s))

end Sys2Proof.Machine
end

