-- ==== Sys2Proof/Machine/ThumbBranch.lean ====
section
/-!
DEFINITION. The Thumb branches (spec/47_thumb_branch.md). BL and BLX with an offset are two instructions each: the
prefix and a suffix (R302, R303).
-/
namespace Sys2Proof.Machine

/-- The link value of a Thumb branch with link: the next halfword, bit 0 set (R302). -/
def State.thumbLink (s : State) : Word := (s.pc + 2) ||| 1#32

/-- B<cond>: conditional branch (R300). -/
def execThumbBCond (cond : Cond) (imm8 : BitVec 8) (s : State) : Result :=
  whenPassed cond s (.next (s.setPc (s.thumbTarget imm8)))

/-- B: branch (R301). -/
def execThumbB (imm11 : BitVec 11) (s : State) : Result :=
  .next (s.setPc (s.thumbTarget imm11))

/-- BL and BLX prefix (R302): the high part of the offset goes to r14. -/
def execThumbBlPrefix (imm11 : BitVec 11) (s : State) : Result :=
  .next (s.setReg 14#4 (s.pc + 4 + (imm11.signExtend 32 <<< 12))).advance

/-- BL suffix (R302). -/
def execThumbBlSuffix (imm11 : BitVec 11) (s : State) : Result :=
  .next ((s.setReg 14#4 s.thumbLink).setPc ((s.reg 14#4 + scaled2 imm11) &&& 0xFFFFFFFE#32))

/-- BLX suffix (R303): to ARM state, at a word-aligned target; the field holds bits [10:1] of the offset. -/
def execThumbBlxSuffix (imm10 : BitVec 10) (s : State) : Result :=
  .next (((s.setReg 14#4 s.thumbLink).setCpsr (setBit s.cpsr 5 false)).setPc
    (wordAlign (s.reg 14#4 + scaled4 imm10)))

/-- BX: branch and exchange (R304). -/
def execThumbBx (rm : Reg) (s : State) : Result :=
  branchExchange (s.reg rm) s

/-- BLX with a register (R305): the target is read before r14 is written. -/
def execThumbBlxReg (rm : Reg) (s : State) : Result :=
  noPc [rm] (branchExchange (s.reg rm) (s.setReg 14#4 s.thumbLink))

end Sys2Proof.Machine
end

