-- ==== Sys2Proof/Machine/ThumbDataProc.lean ====
section
/-!
DEFINITION. The Thumb data-processing instructions (spec/46_thumb_data_processing.md; the two address forms are R321 and
R322 of spec/48_thumb_load_store_misc.md). Which flags each writes is R260.
-/
namespace Sys2Proof.Machine

/-- The arithmetic group: the destination takes the sum, the CPSR its four flags (R260). -/
def thumbArith (rd : LowReg) (r : Sum) (s : State) : Result :=
  .next ((s.setReg (lowReg rd) r.value).setCpsr (withArith s.cpsr r)).advance

/-- The compares: the CPSR takes the four flags (R260). -/
def thumbCompare (r : Sum) (s : State) : Result := .next (s.setCpsr (withArith s.cpsr r)).advance

/-- The logical group: the destination takes the result, the CPSR N and Z (R260). -/
def thumbLogic (rd : LowReg) (value : Word) (s : State) : Result :=
  .next ((s.setReg (lowReg rd) value).setCpsr (withNZ s.cpsr value)).advance

/-- The shifts: the destination takes the word, the CPSR N, Z and the carry (R260). -/
def thumbShift (rd : LowReg) (o : Shifted) (s : State) : Result :=
  .next ((s.setReg (lowReg rd) o.value).setCpsr (withLogic s.cpsr o.value o.carry)).advance

/-- The amount of a shift by a register: its low byte (R288). -/
def shiftAmount (v : Word) : Nat := (v.extractLsb' 0 8).toNat

/-- A low register. -/
def State.low (s : State) (r : LowReg) : Word := s.reg (lowReg r)

/-- LSL by an immediate (R287). -/
def execThumbLslImm (imm5 : BitVec 5) (rm rd : LowReg) (s : State) : Result :=
  thumbShift rd (shiftByImm .lsl (s.low rm) imm5 (psrC s.cpsr)) s

/-- LSR by an immediate (R289). -/
def execThumbLsrImm (imm5 : BitVec 5) (rm rd : LowReg) (s : State) : Result :=
  thumbShift rd (shiftByImm .lsr (s.low rm) imm5 (psrC s.cpsr)) s

/-- ASR by an immediate (R291). -/
def execThumbAsrImm (imm5 : BitVec 5) (rm rd : LowReg) (s : State) : Result :=
  thumbShift rd (shiftByImm .asr (s.low rm) imm5 (psrC s.cpsr)) s

/-- ADD of registers (R265). -/
def execThumbAddReg (rm rn rd : LowReg) (s : State) : Result :=
  thumbArith rd (addWithCarry (s.low rn) (s.low rm) false) s

/-- SUB of registers (R270). -/
def execThumbSubReg (rm rn rd : LowReg) (s : State) : Result :=
  thumbArith rd (subtract (s.low rn) (s.low rm)) s

/-- ADD of a 3-bit immediate (R264). -/
def execThumbAddImm3 (imm3 : BitVec 3) (rn rd : LowReg) (s : State) : Result :=
  thumbArith rd (addWithCarry (s.low rn) (imm3.setWidth 32) false) s

/-- SUB of a 3-bit immediate (R271). -/
def execThumbSubImm3 (imm3 : BitVec 3) (rn rd : LowReg) (s : State) : Result :=
  thumbArith rd (subtract (s.low rn) (imm3.setWidth 32)) s

/-- MOV of an immediate (R261). -/
def execThumbMovImm (rd : LowReg) (imm8 : BitVec 8) (s : State) : Result :=
  thumbLogic rd (imm8.setWidth 32) s

/-- CMP with an immediate (R279). -/
def execThumbCmpImm (rn : LowReg) (imm8 : BitVec 8) (s : State) : Result :=
  thumbCompare (subtract (s.low rn) (imm8.setWidth 32)) s

/-- ADD of an 8-bit immediate (R266). -/
def execThumbAddImm8 (rd : LowReg) (imm8 : BitVec 8) (s : State) : Result :=
  thumbArith rd (addWithCarry (s.low rd) (imm8.setWidth 32) false) s

/-- SUB of an 8-bit immediate (R272). -/
def execThumbSubImm8 (rd : LowReg) (imm8 : BitVec 8) (s : State) : Result :=
  thumbArith rd (subtract (s.low rd) (imm8.setWidth 32)) s

/-- AND (R281). -/
def execThumbAnd (rm rd : LowReg) (s : State) : Result :=
  thumbLogic rd (s.low rd &&& s.low rm) s

/-- EOR (R282). -/
def execThumbEor (rm rd : LowReg) (s : State) : Result :=
  thumbLogic rd (s.low rd ^^^ s.low rm) s

/-- LSL by a register (R288). -/
def execThumbLslReg (rm rd : LowReg) (s : State) : Result :=
  thumbShift rd (shiftLsl (s.low rd) (shiftAmount (s.low rm)) (psrC s.cpsr)) s

/-- LSR by a register (R290). -/
def execThumbLsrReg (rm rd : LowReg) (s : State) : Result :=
  thumbShift rd (shiftLsr (s.low rd) (shiftAmount (s.low rm)) (psrC s.cpsr)) s

/-- ASR by a register (R292). -/
def execThumbAsrReg (rm rd : LowReg) (s : State) : Result :=
  thumbShift rd (shiftAsr (s.low rd) (shiftAmount (s.low rm)) (psrC s.cpsr)) s

/-- ADC (R269). -/
def execThumbAdc (rm rd : LowReg) (s : State) : Result :=
  thumbArith rd (addWithCarry (s.low rd) (s.low rm) (psrC s.cpsr)) s

/-- SBC (R274). -/
def execThumbSbc (rm rd : LowReg) (s : State) : Result :=
  thumbArith rd (subtractCarry (s.low rd) (s.low rm) (psrC s.cpsr)) s

/-- ROR by a register (R293). -/
def execThumbRorReg (rm rd : LowReg) (s : State) : Result :=
  thumbShift rd (shiftRor (s.low rd) (shiftAmount (s.low rm)) (psrC s.cpsr)) s

/-- TST (R286): flags only. -/
def execThumbTst (rm rn : LowReg) (s : State) : Result :=
  .next (s.setCpsr (withNZ s.cpsr (s.low rn &&& s.low rm))).advance

/-- NEG (R275): 0 minus the register. -/
def execThumbNeg (rm rd : LowReg) (s : State) : Result :=
  thumbArith rd (addWithCarry (~~~s.low rm) 0#32 true) s

/-- CMP (R277). -/
def execThumbCmp (rm rn : LowReg) (s : State) : Result :=
  thumbCompare (subtract (s.low rn) (s.low rm)) s

/-- CMN (R280). -/
def execThumbCmn (rm rn : LowReg) (s : State) : Result :=
  thumbCompare (addWithCarry (s.low rn) (s.low rm) false) s

/-- ORR (R283). -/
def execThumbOrr (rm rd : LowReg) (s : State) : Result :=
  thumbLogic rd (s.low rd ||| s.low rm) s

/-- MUL (R276); Rd = Rm is UNPREDICTABLE (U6). -/
def execThumbMul (rm rd : LowReg) (s : State) : Result :=
  distinct [(lowReg rd, lowReg rm)] (thumbLogic rd (s.low rm * s.low rd) s)

/-- BIC (R284). -/
def execThumbBic (rm rd : LowReg) (s : State) : Result :=
  thumbLogic rd (s.low rd &&& ~~~s.low rm) s

/-- MVN (R285). -/
def execThumbMvn (rm rd : LowReg) (s : State) : Result :=
  thumbLogic rd (~~~s.low rm) s

/-- The destination of a high-register form: r15 is a branch that stays in Thumb state (R262, R267). -/
def thumbHigh (rd : Reg) (value : Word) (s : State) : Result :=
  if rd = 15#4 then .next (s.setPc (value &&& 0xFFFFFFFE#32)) else .next (s.setReg rd value).advance

/-- ADD of high registers (R267): no flag changes. -/
def execThumbAddHigh (rm rd : Reg) (s : State) : Result :=
  thumbHigh rd (s.reg rd + s.reg rm) s

/-- CMP of high registers (R278); a first register of r15 is UNPREDICTABLE (U12). -/
def execThumbCmpHigh (rm rn : Reg) (s : State) : Result :=
  noPc [rn] (thumbCompare (subtract (s.reg rn) (s.reg rm)) s)

/-- MOV of high registers (R262): no flag changes. -/
def execThumbMovHigh (rm rd : Reg) (s : State) : Result :=
  thumbHigh rd (s.reg rm) s

/-- ADD of the PC, rounded down to a word, and an immediate (R321). -/
def execThumbAddPc (rd : LowReg) (imm8 : BitVec 8) (s : State) : Result :=
  .next (s.setReg (lowReg rd) (wordAlign (s.pc + 4) + scaled4 imm8)).advance

/-- ADD of the stack pointer and an immediate (R322). -/
def execThumbAddSp (rd : LowReg) (imm8 : BitVec 8) (s : State) : Result :=
  .next (s.setReg (lowReg rd) (s.reg 13#4 + scaled4 imm8)).advance

/-- ADD to the stack pointer (R268). -/
def execThumbIncSp (imm7 : BitVec 7) (s : State) : Result :=
  .next (s.setReg 13#4 (s.reg 13#4 + scaled4 imm7)).advance

/-- SUB from the stack pointer (R273). -/
def execThumbDecSp (imm7 : BitVec 7) (s : State) : Result :=
  .next (s.setReg 13#4 (s.reg 13#4 - scaled4 imm7)).advance

end Sys2Proof.Machine
end

