-- ==== Sys2Proof/Machine/ThumbLoadStore.lean ====
section
/-!
DEFINITION. The Thumb loads and stores (spec/48_thumb_load_store_misc.md rules R310 to R320, R323 to R333). A Data Abort
leaves the registers as R222 says.
-/
namespace Sys2Proof.Machine

/-- A load that ends in a low register (R310). -/
def thumbLoaded (rd : LowReg) (v : Word) (s : State) : Result := .next (s.setReg (lowReg rd) v).advance

/-- LDR from an address, rotated where it is not word-aligned (R310, R68). -/
def thumbLdr (a : Word) (rd : LowReg) (s : State) : Result :=
  withLoad (s.loadWord s.privileged a) s fun v => thumbLoaded rd v s

/-- LDRB from an address. -/
def thumbLdrb (a : Word) (rd : LowReg) (s : State) : Result :=
  withLoad (s.loadByte s.privileged a) s fun v => thumbLoaded rd (v.setWidth 32) s

/-- LDRSB from an address. -/
def thumbLdrsb (a : Word) (rd : LowReg) (s : State) : Result :=
  withLoad (s.loadByte s.privileged a) s fun v => thumbLoaded rd (v.signExtend 32) s

/-- LDRH from an even address (U10). -/
def thumbLdrh (a : Word) (rd : LowReg) (s : State) : Result :=
  evenAddress a (withLoad (s.loadHalf s.privileged a) s fun v => thumbLoaded rd (v.setWidth 32) s)

/-- LDRSH from an even address (U10). -/
def thumbLdrsh (a : Word) (rd : LowReg) (s : State) : Result :=
  evenAddress a (withLoad (s.loadHalf s.privileged a) s fun v => thumbLoaded rd (v.signExtend 32) s)

/-- STR to an address, its low two bits ignored (R310, R69). -/
def thumbStr (a : Word) (rd : LowReg) (s : State) : Result :=
  withStore (s.storeWord s.privileged a (s.reg (lowReg rd))) s fun t => .next t.advance

/-- STRB to an address. -/
def thumbStrb (a : Word) (rd : LowReg) (s : State) : Result :=
  withStore (s.storeByte s.privileged a ((s.reg (lowReg rd)).setWidth 8)) s fun t => .next t.advance

/-- STRH to an even address (U10). -/
def thumbStrh (a : Word) (rd : LowReg) (s : State) : Result :=
  evenAddress a
    (withStore (s.storeHalf s.privileged a ((s.reg (lowReg rd)).setWidth 16)) s fun t => .next t.advance)

/-- The address of a register offset. -/
def State.sumAddress (s : State) (rb ro : LowReg) : Word := s.reg (lowReg rb) + s.reg (lowReg ro)

/-- The address of an immediate offset, already scaled. -/
def State.offsetAddress (s : State) (rb : LowReg) (off : Word) : Word := s.reg (lowReg rb) + off

/-- LDR, PC-relative (R319): the PC is rounded down to a word. -/
def execThumbLdrPc (rd : LowReg) (imm8 : BitVec 8) (s : State) : Result :=
  withLoad (s.loadAligned s.privileged (wordAlign (s.pc + 4) + scaled4 imm8)) s fun v => thumbLoaded rd v s

/-- STR, register offset (R327). -/
def execThumbStrReg (ro rb rd : LowReg) (s : State) : Result :=
  thumbStr (s.sumAddress rb ro) rd s

/-- STRH, register offset (R328). -/
def execThumbStrhReg (ro rb rd : LowReg) (s : State) : Result :=
  thumbStrh (s.sumAddress rb ro) rd s

/-- STRB, register offset (R329). -/
def execThumbStrbReg (ro rb rd : LowReg) (s : State) : Result :=
  thumbStrb (s.sumAddress rb ro) rd s

/-- LDRSB, register offset (R318). -/
def execThumbLdrsbReg (ro rb rd : LowReg) (s : State) : Result :=
  thumbLdrsb (s.sumAddress rb ro) rd s

/-- LDR, register offset (R314). -/
def execThumbLdrReg (ro rb rd : LowReg) (s : State) : Result :=
  thumbLdr (s.sumAddress rb ro) rd s

/-- LDRH, register offset (R315). -/
def execThumbLdrhReg (ro rb rd : LowReg) (s : State) : Result :=
  thumbLdrh (s.sumAddress rb ro) rd s

/-- LDRB, register offset (R317). -/
def execThumbLdrbReg (ro rb rd : LowReg) (s : State) : Result :=
  thumbLdrb (s.sumAddress rb ro) rd s

/-- LDRSH, register offset (R316). -/
def execThumbLdrshReg (ro rb rd : LowReg) (s : State) : Result :=
  thumbLdrsh (s.sumAddress rb ro) rd s

/-- STR, immediate offset (R324). -/
def execThumbStrImm (imm5 : BitVec 5) (rb rd : LowReg) (s : State) : Result :=
  thumbStr (s.offsetAddress rb (scaled4 imm5)) rd s

/-- LDR, immediate offset (R311). -/
def execThumbLdrImm (imm5 : BitVec 5) (rb rd : LowReg) (s : State) : Result :=
  thumbLdr (s.offsetAddress rb (scaled4 imm5)) rd s

/-- STRB, immediate offset (R326). -/
def execThumbStrbImm (imm5 : BitVec 5) (rb rd : LowReg) (s : State) : Result :=
  thumbStrb (s.offsetAddress rb (imm5.setWidth 32)) rd s

/-- LDRB, immediate offset (R313). -/
def execThumbLdrbImm (imm5 : BitVec 5) (rb rd : LowReg) (s : State) : Result :=
  thumbLdrb (s.offsetAddress rb (imm5.setWidth 32)) rd s

/-- STRH, immediate offset (R325). -/
def execThumbStrhImm (imm5 : BitVec 5) (rb rd : LowReg) (s : State) : Result :=
  thumbStrh (s.offsetAddress rb (scaled2 imm5)) rd s

/-- LDRH, immediate offset (R312). -/
def execThumbLdrhImm (imm5 : BitVec 5) (rb rd : LowReg) (s : State) : Result :=
  thumbLdrh (s.offsetAddress rb (scaled2 imm5)) rd s

/-- STR, SP-relative (R330). -/
def execThumbStrSp (rd : LowReg) (imm8 : BitVec 8) (s : State) : Result :=
  thumbStr (s.reg 13#4 + scaled4 imm8) rd s

/-- LDR, SP-relative (R320). -/
def execThumbLdrSp (rd : LowReg) (imm8 : BitVec 8) (s : State) : Result :=
  thumbLdr (s.reg 13#4 + scaled4 imm8) rd s

/-- The registers of a Thumb list, and one more register above them (R332, R333). -/
def thumbListed (list : BitVec 8) (extra : Bool) (r : Reg) : List Reg :=
  listed (list.setWidth 16) ++ (if extra then [r] else [])

/-- PUSH (R332): a full descending stack, the lowest-numbered register at the lowest address. -/
def execThumbPush (r : Bool) (list : BitVec 8) (s : State) : Result :=
  multipleAllowed 13#4 (thumbListed list r 14#4)
    (storeList s (multipleStart true false (s.reg 13#4) (thumbListed list r 14#4).length)
      ((thumbListed list r 14#4).map s.reg) fun t =>
        .next (t.setReg 13#4 (multipleBase false (s.reg 13#4) (thumbListed list r 14#4).length)).advance)

/-- POP (R333): with R = 1 the last word is a load to the PC. -/
def execThumbPop (r : Bool) (list : BitVec 8) (s : State) : Result :=
  multipleAllowed 13#4 (thumbListed list r 15#4)
    (loadRegs s (thumbListed list r 15#4) (s.reg 13#4) 13#4 fun ws t =>
      let t := t.setReg 13#4 (multipleBase true (s.reg 13#4) (thumbListed list r 15#4).length)
      if r then branchExchange (ws.getLastD 0) t else .next t.advance)

/-- STMIA (R331): the base is always written back, so that a listed one that is not the lowest register is refused (U9). -/
def execThumbStmia (rb : LowReg) (list : BitVec 8) (s : State) : Result :=
  multipleAllowed (lowReg rb) (thumbListed list false 0#4) (baseLowest true (lowReg rb) (thumbListed list false 0#4)
    (storeList s (s.reg (lowReg rb)) ((thumbListed list false 0#4).map s.reg) fun t =>
      .next (t.setReg (lowReg rb)
        (multipleBase true (s.reg (lowReg rb)) (thumbListed list false 0#4).length)).advance))

/-- LDMIA (R323): a base that is listed keeps the word loaded, any other is written back. -/
def execThumbLdmia (rb : LowReg) (list : BitVec 8) (s : State) : Result :=
  multipleAllowed (lowReg rb) (thumbListed list false 0#4)
    (loadRegs s (thumbListed list false 0#4) (s.reg (lowReg rb)) (lowReg rb) fun _ t =>
      .next (if (thumbListed list false 0#4).contains (lowReg rb) then t else
        t.setReg (lowReg rb)
          (multipleBase true (s.reg (lowReg rb)) (thumbListed list false 0#4).length)).advance)

end Sys2Proof.Machine
end

