-- ==== Sys2Proof/Machine/ThumbSystem.lean ====
section
/-!
DEFINITION. The Thumb instructions whose effect is an exception: SWI and BKPT (spec/48_thumb_load_store_misc.md rules
R334, R335) and the two patterns that take the Undefined instruction trap (R336, spec/30_encoding.md rule R127).
-/
namespace Sys2Proof.Machine

/-- SWI: software interrupt (R334). -/
def execThumbSwi (_imm8 : BitVec 8) (s : State) : Result :=
  .next (takeSwi s)

/-- BKPT: software breakpoint (R335), a Prefetch Abort. -/
def execThumbBkpt (_imm8 : BitVec 8) (s : State) : Result :=
  .next (takePrefetchAbort s)

/-- A conditional branch with the condition 1110 is undefined (R127). -/
def execThumbUndefCond (_imm8 : BitVec 8) (s : State) : Result :=
  .next (takeUndefined s)

/-- A BLX suffix with bit 0 set is undefined (R127). -/
def execThumbUndefBlx (_imm10 : BitVec 10) (s : State) : Result :=
  .next (takeUndefined s)

end Sys2Proof.Machine
end

