-- ==== Sys2Proof/Machine/Dispatch.lean ====
section
/-!
DEFINITION. The meaning of each instruction: one arm for each constructor of `Instr`, in the order of
spec/opcode_table.json.
-/
namespace Sys2Proof.Machine

def exec (i : Instr) (s : State) : Host.Outcome State Fault Refusal :=
  match i with
  | .andImm cond sb rn rd rot imm8 => Sys2Proof.Machine.execAndImm cond sb rn rd rot imm8 s
  | .andShift cond sb rn rd amount shift rm => Sys2Proof.Machine.execAndShift cond sb rn rd amount shift rm s
  | .andRegShift cond sb rn rd rs shift rm => Sys2Proof.Machine.execAndRegShift cond sb rn rd rs shift rm s
  | .eorImm cond sb rn rd rot imm8 => Sys2Proof.Machine.execEorImm cond sb rn rd rot imm8 s
  | .eorShift cond sb rn rd amount shift rm => Sys2Proof.Machine.execEorShift cond sb rn rd amount shift rm s
  | .eorRegShift cond sb rn rd rs shift rm => Sys2Proof.Machine.execEorRegShift cond sb rn rd rs shift rm s
  | .subImm cond sb rn rd rot imm8 => Sys2Proof.Machine.execSubImm cond sb rn rd rot imm8 s
  | .subShift cond sb rn rd amount shift rm => Sys2Proof.Machine.execSubShift cond sb rn rd amount shift rm s
  | .subRegShift cond sb rn rd rs shift rm => Sys2Proof.Machine.execSubRegShift cond sb rn rd rs shift rm s
  | .rsbImm cond sb rn rd rot imm8 => Sys2Proof.Machine.execRsbImm cond sb rn rd rot imm8 s
  | .rsbShift cond sb rn rd amount shift rm => Sys2Proof.Machine.execRsbShift cond sb rn rd amount shift rm s
  | .rsbRegShift cond sb rn rd rs shift rm => Sys2Proof.Machine.execRsbRegShift cond sb rn rd rs shift rm s
  | .addImm cond sb rn rd rot imm8 => Sys2Proof.Machine.execAddImm cond sb rn rd rot imm8 s
  | .addShift cond sb rn rd amount shift rm => Sys2Proof.Machine.execAddShift cond sb rn rd amount shift rm s
  | .addRegShift cond sb rn rd rs shift rm => Sys2Proof.Machine.execAddRegShift cond sb rn rd rs shift rm s
  | .adcImm cond sb rn rd rot imm8 => Sys2Proof.Machine.execAdcImm cond sb rn rd rot imm8 s
  | .adcShift cond sb rn rd amount shift rm => Sys2Proof.Machine.execAdcShift cond sb rn rd amount shift rm s
  | .adcRegShift cond sb rn rd rs shift rm => Sys2Proof.Machine.execAdcRegShift cond sb rn rd rs shift rm s
  | .sbcImm cond sb rn rd rot imm8 => Sys2Proof.Machine.execSbcImm cond sb rn rd rot imm8 s
  | .sbcShift cond sb rn rd amount shift rm => Sys2Proof.Machine.execSbcShift cond sb rn rd amount shift rm s
  | .sbcRegShift cond sb rn rd rs shift rm => Sys2Proof.Machine.execSbcRegShift cond sb rn rd rs shift rm s
  | .rscImm cond sb rn rd rot imm8 => Sys2Proof.Machine.execRscImm cond sb rn rd rot imm8 s
  | .rscShift cond sb rn rd amount shift rm => Sys2Proof.Machine.execRscShift cond sb rn rd amount shift rm s
  | .rscRegShift cond sb rn rd rs shift rm => Sys2Proof.Machine.execRscRegShift cond sb rn rd rs shift rm s
  | .tstImm cond rn rot imm8 => Sys2Proof.Machine.execTstImm cond rn rot imm8 s
  | .tstShift cond rn amount shift rm => Sys2Proof.Machine.execTstShift cond rn amount shift rm s
  | .tstRegShift cond rn rs shift rm => Sys2Proof.Machine.execTstRegShift cond rn rs shift rm s
  | .teqImm cond rn rot imm8 => Sys2Proof.Machine.execTeqImm cond rn rot imm8 s
  | .teqShift cond rn amount shift rm => Sys2Proof.Machine.execTeqShift cond rn amount shift rm s
  | .teqRegShift cond rn rs shift rm => Sys2Proof.Machine.execTeqRegShift cond rn rs shift rm s
  | .cmpImm cond rn rot imm8 => Sys2Proof.Machine.execCmpImm cond rn rot imm8 s
  | .cmpShift cond rn amount shift rm => Sys2Proof.Machine.execCmpShift cond rn amount shift rm s
  | .cmpRegShift cond rn rs shift rm => Sys2Proof.Machine.execCmpRegShift cond rn rs shift rm s
  | .cmnImm cond rn rot imm8 => Sys2Proof.Machine.execCmnImm cond rn rot imm8 s
  | .cmnShift cond rn amount shift rm => Sys2Proof.Machine.execCmnShift cond rn amount shift rm s
  | .cmnRegShift cond rn rs shift rm => Sys2Proof.Machine.execCmnRegShift cond rn rs shift rm s
  | .orrImm cond sb rn rd rot imm8 => Sys2Proof.Machine.execOrrImm cond sb rn rd rot imm8 s
  | .orrShift cond sb rn rd amount shift rm => Sys2Proof.Machine.execOrrShift cond sb rn rd amount shift rm s
  | .orrRegShift cond sb rn rd rs shift rm => Sys2Proof.Machine.execOrrRegShift cond sb rn rd rs shift rm s
  | .movImm cond sb rd rot imm8 => Sys2Proof.Machine.execMovImm cond sb rd rot imm8 s
  | .movShift cond sb rd amount shift rm => Sys2Proof.Machine.execMovShift cond sb rd amount shift rm s
  | .movRegShift cond sb rd rs shift rm => Sys2Proof.Machine.execMovRegShift cond sb rd rs shift rm s
  | .bicImm cond sb rn rd rot imm8 => Sys2Proof.Machine.execBicImm cond sb rn rd rot imm8 s
  | .bicShift cond sb rn rd amount shift rm => Sys2Proof.Machine.execBicShift cond sb rn rd amount shift rm s
  | .bicRegShift cond sb rn rd rs shift rm => Sys2Proof.Machine.execBicRegShift cond sb rn rd rs shift rm s
  | .mvnImm cond sb rd rot imm8 => Sys2Proof.Machine.execMvnImm cond sb rd rot imm8 s
  | .mvnShift cond sb rd amount shift rm => Sys2Proof.Machine.execMvnShift cond sb rd amount shift rm s
  | .mvnRegShift cond sb rd rs shift rm => Sys2Proof.Machine.execMvnRegShift cond sb rd rs shift rm s
  | .mul cond sb rd rs rm => Sys2Proof.Machine.execMul cond sb rd rs rm s
  | .mla cond sb rd rn rs rm => Sys2Proof.Machine.execMla cond sb rd rn rs rm s
  | .umull cond sb rdHi rdLo rs rm => Sys2Proof.Machine.execUmull cond sb rdHi rdLo rs rm s
  | .umlal cond sb rdHi rdLo rs rm => Sys2Proof.Machine.execUmlal cond sb rdHi rdLo rs rm s
  | .smull cond sb rdHi rdLo rs rm => Sys2Proof.Machine.execSmull cond sb rdHi rdLo rs rm s
  | .smlal cond sb rdHi rdLo rs rm => Sys2Proof.Machine.execSmlal cond sb rdHi rdLo rs rm s
  | .swp cond rn rd rm => Sys2Proof.Machine.execSwp cond rn rd rm s
  | .swpb cond rn rd rm => Sys2Proof.Machine.execSwpb cond rn rd rm s
  | .smlaXY cond rd rn rs y x rm => Sys2Proof.Machine.execSmlaXY cond rd rn rs y x rm s
  | .smlaWY cond rd rn rs y rm => Sys2Proof.Machine.execSmlaWY cond rd rn rs y rm s
  | .smulWY cond rd rs y rm => Sys2Proof.Machine.execSmulWY cond rd rs y rm s
  | .smlalXY cond rdHi rdLo rs y x rm => Sys2Proof.Machine.execSmlalXY cond rdHi rdLo rs y x rm s
  | .smulXY cond rd rs y x rm => Sys2Proof.Machine.execSmulXY cond rd rs y x rm s
  | .mrs cond r rd => Sys2Proof.Machine.execMrs cond r rd s
  | .msrReg cond r mask rm => Sys2Proof.Machine.execMsrReg cond r mask rm s
  | .msrImm cond r mask rot imm8 => Sys2Proof.Machine.execMsrImm cond r mask rot imm8 s
  | .bx cond rm => Sys2Proof.Machine.execBx cond rm s
  | .bxj cond rm => Sys2Proof.Machine.execBxj cond rm s
  | .blxReg cond rm => Sys2Proof.Machine.execBlxReg cond rm s
  | .clz cond rd rm => Sys2Proof.Machine.execClz cond rd rm s
  | .qadd cond rn rd rm => Sys2Proof.Machine.execQadd cond rn rd rm s
  | .qsub cond rn rd rm => Sys2Proof.Machine.execQsub cond rn rd rm s
  | .qdadd cond rn rd rm => Sys2Proof.Machine.execQdadd cond rn rd rm s
  | .qdsub cond rn rd rm => Sys2Proof.Machine.execQdsub cond rn rd rm s
  | .bkpt imm16 => Sys2Proof.Machine.execBkpt imm16 s
  | .ldrImm cond idx u rn rd off12 => Sys2Proof.Machine.execLdrImm cond idx u rn rd off12 s
  | .ldrReg cond idx u rn rd amount shift rm => Sys2Proof.Machine.execLdrReg cond idx u rn rd amount shift rm s
  | .ldrbImm cond idx u rn rd off12 => Sys2Proof.Machine.execLdrbImm cond idx u rn rd off12 s
  | .ldrbReg cond idx u rn rd amount shift rm => Sys2Proof.Machine.execLdrbReg cond idx u rn rd amount shift rm s
  | .strImm cond idx u rn rd off12 => Sys2Proof.Machine.execStrImm cond idx u rn rd off12 s
  | .strReg cond idx u rn rd amount shift rm => Sys2Proof.Machine.execStrReg cond idx u rn rd amount shift rm s
  | .strbImm cond idx u rn rd off12 => Sys2Proof.Machine.execStrbImm cond idx u rn rd off12 s
  | .strbReg cond idx u rn rd amount shift rm => Sys2Proof.Machine.execStrbReg cond idx u rn rd amount shift rm s
  | .ldrtImm cond u rn rd off12 => Sys2Proof.Machine.execLdrtImm cond u rn rd off12 s
  | .ldrtReg cond u rn rd amount shift rm => Sys2Proof.Machine.execLdrtReg cond u rn rd amount shift rm s
  | .ldrbtImm cond u rn rd off12 => Sys2Proof.Machine.execLdrbtImm cond u rn rd off12 s
  | .ldrbtReg cond u rn rd amount shift rm => Sys2Proof.Machine.execLdrbtReg cond u rn rd amount shift rm s
  | .strtImm cond u rn rd off12 => Sys2Proof.Machine.execStrtImm cond u rn rd off12 s
  | .strtReg cond u rn rd amount shift rm => Sys2Proof.Machine.execStrtReg cond u rn rd amount shift rm s
  | .strbtImm cond u rn rd off12 => Sys2Proof.Machine.execStrbtImm cond u rn rd off12 s
  | .strbtReg cond u rn rd amount shift rm => Sys2Proof.Machine.execStrbtReg cond u rn rd amount shift rm s
  | .pldImm u rn off12 => Sys2Proof.Machine.execPldImm u rn off12 s
  | .pldReg u rn amount shift rm => Sys2Proof.Machine.execPldReg u rn amount shift rm s
  | .strhImm cond idx u rn rd off8 => Sys2Proof.Machine.execStrhImm cond idx u rn rd off8 s
  | .strhReg cond idx u rn rd rm => Sys2Proof.Machine.execStrhReg cond idx u rn rd rm s
  | .ldrhImm cond idx u rn rd off8 => Sys2Proof.Machine.execLdrhImm cond idx u rn rd off8 s
  | .ldrhReg cond idx u rn rd rm => Sys2Proof.Machine.execLdrhReg cond idx u rn rd rm s
  | .ldrsbImm cond idx u rn rd off8 => Sys2Proof.Machine.execLdrsbImm cond idx u rn rd off8 s
  | .ldrsbReg cond idx u rn rd rm => Sys2Proof.Machine.execLdrsbReg cond idx u rn rd rm s
  | .ldrshImm cond idx u rn rd off8 => Sys2Proof.Machine.execLdrshImm cond idx u rn rd off8 s
  | .ldrshReg cond idx u rn rd rm => Sys2Proof.Machine.execLdrshReg cond idx u rn rd rm s
  | .ldrdImm cond idx u rn rd off8 => Sys2Proof.Machine.execLdrdImm cond idx u rn rd off8 s
  | .ldrdReg cond idx u rn rd rm => Sys2Proof.Machine.execLdrdReg cond idx u rn rd rm s
  | .strdImm cond idx u rn rd off8 => Sys2Proof.Machine.execStrdImm cond idx u rn rd off8 s
  | .strdReg cond idx u rn rd rm => Sys2Proof.Machine.execStrdReg cond idx u rn rd rm s
  | .ldm cond p u wb rn list => Sys2Proof.Machine.execLdm cond p u wb rn list s
  | .ldmUser cond p u rn list => Sys2Proof.Machine.execLdmUser cond p u rn list s
  | .ldmRestore cond p u wb rn list => Sys2Proof.Machine.execLdmRestore cond p u wb rn list s
  | .stm cond p u wb rn list => Sys2Proof.Machine.execStm cond p u wb rn list s
  | .stmUser cond p u rn list => Sys2Proof.Machine.execStmUser cond p u rn list s
  | .b cond imm24 => Sys2Proof.Machine.execB cond imm24 s
  | .bl cond imm24 => Sys2Proof.Machine.execBl cond imm24 s
  | .blxImm h imm24 => Sys2Proof.Machine.execBlxImm h imm24 s
  | .cdp cond op1 crn crd cp op2 crm => Sys2Proof.Machine.execCdp cond op1 crn crd cp op2 crm s
  | .mcr cond op1 crn rd cp op2 crm => Sys2Proof.Machine.execMcr cond op1 crn rd cp op2 crm s
  | .mrc cond op1 crn rd cp op2 crm => Sys2Proof.Machine.execMrc cond op1 crn rd cp op2 crm s
  | .mcrr cond rn rd cp op crm => Sys2Proof.Machine.execMcrr cond rn rd cp op crm s
  | .mrrc cond rn rd cp op crm => Sys2Proof.Machine.execMrrc cond rn rd cp op crm s
  | .ldc cond p u n wb rn crd cp off8 => Sys2Proof.Machine.execLdc cond p u n wb rn crd cp off8 s
  | .stc cond p u n wb rn crd cp off8 => Sys2Proof.Machine.execStc cond p u n wb rn crd cp off8 s
  | .cdp2 op1 crn crd cp op2 crm => Sys2Proof.Machine.execCdp2 op1 crn crd cp op2 crm s
  | .mcr2 op1 crn rd cp op2 crm => Sys2Proof.Machine.execMcr2 op1 crn rd cp op2 crm s
  | .mrc2 op1 crn rd cp op2 crm => Sys2Proof.Machine.execMrc2 op1 crn rd cp op2 crm s
  | .ldc2 p u n wb rn crd cp off8 => Sys2Proof.Machine.execLdc2 p u n wb rn crd cp off8 s
  | .stc2 p u n wb rn crd cp off8 => Sys2Proof.Machine.execStc2 p u n wb rn crd cp off8 s
  | .swi cond imm24 => Sys2Proof.Machine.execSwi cond imm24 s
  | .undefSpace cond payload payloadLow => Sys2Proof.Machine.execUndefSpace cond payload payloadLow s
  | .undefImm cond bit22 payload => Sys2Proof.Machine.execUndefImm cond bit22 payload s
  | .thumbLslImm imm5 rm rd => Sys2Proof.Machine.execThumbLslImm imm5 rm rd s
  | .thumbLsrImm imm5 rm rd => Sys2Proof.Machine.execThumbLsrImm imm5 rm rd s
  | .thumbAsrImm imm5 rm rd => Sys2Proof.Machine.execThumbAsrImm imm5 rm rd s
  | .thumbAddReg rm rn rd => Sys2Proof.Machine.execThumbAddReg rm rn rd s
  | .thumbSubReg rm rn rd => Sys2Proof.Machine.execThumbSubReg rm rn rd s
  | .thumbAddImm3 imm3 rn rd => Sys2Proof.Machine.execThumbAddImm3 imm3 rn rd s
  | .thumbSubImm3 imm3 rn rd => Sys2Proof.Machine.execThumbSubImm3 imm3 rn rd s
  | .thumbMovImm rd imm8 => Sys2Proof.Machine.execThumbMovImm rd imm8 s
  | .thumbCmpImm rn imm8 => Sys2Proof.Machine.execThumbCmpImm rn imm8 s
  | .thumbAddImm8 rd imm8 => Sys2Proof.Machine.execThumbAddImm8 rd imm8 s
  | .thumbSubImm8 rd imm8 => Sys2Proof.Machine.execThumbSubImm8 rd imm8 s
  | .thumbAnd rm rd => Sys2Proof.Machine.execThumbAnd rm rd s
  | .thumbEor rm rd => Sys2Proof.Machine.execThumbEor rm rd s
  | .thumbLslReg rm rd => Sys2Proof.Machine.execThumbLslReg rm rd s
  | .thumbLsrReg rm rd => Sys2Proof.Machine.execThumbLsrReg rm rd s
  | .thumbAsrReg rm rd => Sys2Proof.Machine.execThumbAsrReg rm rd s
  | .thumbAdc rm rd => Sys2Proof.Machine.execThumbAdc rm rd s
  | .thumbSbc rm rd => Sys2Proof.Machine.execThumbSbc rm rd s
  | .thumbRorReg rm rd => Sys2Proof.Machine.execThumbRorReg rm rd s
  | .thumbTst rm rn => Sys2Proof.Machine.execThumbTst rm rn s
  | .thumbNeg rm rd => Sys2Proof.Machine.execThumbNeg rm rd s
  | .thumbCmp rm rn => Sys2Proof.Machine.execThumbCmp rm rn s
  | .thumbCmn rm rn => Sys2Proof.Machine.execThumbCmn rm rn s
  | .thumbOrr rm rd => Sys2Proof.Machine.execThumbOrr rm rd s
  | .thumbMul rm rd => Sys2Proof.Machine.execThumbMul rm rd s
  | .thumbBic rm rd => Sys2Proof.Machine.execThumbBic rm rd s
  | .thumbMvn rm rd => Sys2Proof.Machine.execThumbMvn rm rd s
  | .thumbAddHigh rm rd => Sys2Proof.Machine.execThumbAddHigh rm rd s
  | .thumbCmpHigh rm rn => Sys2Proof.Machine.execThumbCmpHigh rm rn s
  | .thumbMovHigh rm rd => Sys2Proof.Machine.execThumbMovHigh rm rd s
  | .thumbBx rm => Sys2Proof.Machine.execThumbBx rm s
  | .thumbBlxReg rm => Sys2Proof.Machine.execThumbBlxReg rm s
  | .thumbLdrPc rd imm8 => Sys2Proof.Machine.execThumbLdrPc rd imm8 s
  | .thumbStrReg ro rb rd => Sys2Proof.Machine.execThumbStrReg ro rb rd s
  | .thumbStrhReg ro rb rd => Sys2Proof.Machine.execThumbStrhReg ro rb rd s
  | .thumbStrbReg ro rb rd => Sys2Proof.Machine.execThumbStrbReg ro rb rd s
  | .thumbLdrsbReg ro rb rd => Sys2Proof.Machine.execThumbLdrsbReg ro rb rd s
  | .thumbLdrReg ro rb rd => Sys2Proof.Machine.execThumbLdrReg ro rb rd s
  | .thumbLdrhReg ro rb rd => Sys2Proof.Machine.execThumbLdrhReg ro rb rd s
  | .thumbLdrbReg ro rb rd => Sys2Proof.Machine.execThumbLdrbReg ro rb rd s
  | .thumbLdrshReg ro rb rd => Sys2Proof.Machine.execThumbLdrshReg ro rb rd s
  | .thumbStrImm imm5 rb rd => Sys2Proof.Machine.execThumbStrImm imm5 rb rd s
  | .thumbLdrImm imm5 rb rd => Sys2Proof.Machine.execThumbLdrImm imm5 rb rd s
  | .thumbStrbImm imm5 rb rd => Sys2Proof.Machine.execThumbStrbImm imm5 rb rd s
  | .thumbLdrbImm imm5 rb rd => Sys2Proof.Machine.execThumbLdrbImm imm5 rb rd s
  | .thumbStrhImm imm5 rb rd => Sys2Proof.Machine.execThumbStrhImm imm5 rb rd s
  | .thumbLdrhImm imm5 rb rd => Sys2Proof.Machine.execThumbLdrhImm imm5 rb rd s
  | .thumbStrSp rd imm8 => Sys2Proof.Machine.execThumbStrSp rd imm8 s
  | .thumbLdrSp rd imm8 => Sys2Proof.Machine.execThumbLdrSp rd imm8 s
  | .thumbAddPc rd imm8 => Sys2Proof.Machine.execThumbAddPc rd imm8 s
  | .thumbAddSp rd imm8 => Sys2Proof.Machine.execThumbAddSp rd imm8 s
  | .thumbIncSp imm7 => Sys2Proof.Machine.execThumbIncSp imm7 s
  | .thumbDecSp imm7 => Sys2Proof.Machine.execThumbDecSp imm7 s
  | .thumbPush r list => Sys2Proof.Machine.execThumbPush r list s
  | .thumbPop r list => Sys2Proof.Machine.execThumbPop r list s
  | .thumbBkpt imm8 => Sys2Proof.Machine.execThumbBkpt imm8 s
  | .thumbStmia rb list => Sys2Proof.Machine.execThumbStmia rb list s
  | .thumbLdmia rb list => Sys2Proof.Machine.execThumbLdmia rb list s
  | .thumbBCond cond imm8 => Sys2Proof.Machine.execThumbBCond cond imm8 s
  | .thumbUndefCond imm8 => Sys2Proof.Machine.execThumbUndefCond imm8 s
  | .thumbSwi imm8 => Sys2Proof.Machine.execThumbSwi imm8 s
  | .thumbB imm11 => Sys2Proof.Machine.execThumbB imm11 s
  | .thumbBlxSuffix imm10 => Sys2Proof.Machine.execThumbBlxSuffix imm10 s
  | .thumbUndefBlx imm10 => Sys2Proof.Machine.execThumbUndefBlx imm10 s
  | .thumbBlPrefix imm11 => Sys2Proof.Machine.execThumbBlPrefix imm11 s
  | .thumbBlSuffix imm11 => Sys2Proof.Machine.execThumbBlSuffix imm11 s

end Sys2Proof.Machine
end

