-- ==== Sys2Proof/Machine/Hazard.lean ====
section
/-!
DEFINITION. The one hazard the spec makes a program respect (spec/70_reset_and_hazards.md rule R412): the instruction after
an LDM (2) may not name a banked register of the current mode. LDM (2) is an ARM instruction, so only an ARM
instruction can follow it; and an instruction whose condition fails names nothing it accesses.
-/
namespace Sys2Proof.Machine

/-- A register of which the mode has a copy of its own (R22). -/
def banked (m : Mode) (r : Reg) : Bool := bank m r != bank .usr r

/-- The condition of an instruction; AL for those that have none. -/
def conditionOf : Instr → Cond
  | .andImm cond _ _ _ _ _ => cond
  | .andShift cond _ _ _ _ _ _ => cond
  | .andRegShift cond _ _ _ _ _ _ => cond
  | .eorImm cond _ _ _ _ _ => cond
  | .eorShift cond _ _ _ _ _ _ => cond
  | .eorRegShift cond _ _ _ _ _ _ => cond
  | .subImm cond _ _ _ _ _ => cond
  | .subShift cond _ _ _ _ _ _ => cond
  | .subRegShift cond _ _ _ _ _ _ => cond
  | .rsbImm cond _ _ _ _ _ => cond
  | .rsbShift cond _ _ _ _ _ _ => cond
  | .rsbRegShift cond _ _ _ _ _ _ => cond
  | .addImm cond _ _ _ _ _ => cond
  | .addShift cond _ _ _ _ _ _ => cond
  | .addRegShift cond _ _ _ _ _ _ => cond
  | .adcImm cond _ _ _ _ _ => cond
  | .adcShift cond _ _ _ _ _ _ => cond
  | .adcRegShift cond _ _ _ _ _ _ => cond
  | .sbcImm cond _ _ _ _ _ => cond
  | .sbcShift cond _ _ _ _ _ _ => cond
  | .sbcRegShift cond _ _ _ _ _ _ => cond
  | .rscImm cond _ _ _ _ _ => cond
  | .rscShift cond _ _ _ _ _ _ => cond
  | .rscRegShift cond _ _ _ _ _ _ => cond
  | .tstImm cond _ _ _ => cond
  | .tstShift cond _ _ _ _ => cond
  | .tstRegShift cond _ _ _ _ => cond
  | .teqImm cond _ _ _ => cond
  | .teqShift cond _ _ _ _ => cond
  | .teqRegShift cond _ _ _ _ => cond
  | .cmpImm cond _ _ _ => cond
  | .cmpShift cond _ _ _ _ => cond
  | .cmpRegShift cond _ _ _ _ => cond
  | .cmnImm cond _ _ _ => cond
  | .cmnShift cond _ _ _ _ => cond
  | .cmnRegShift cond _ _ _ _ => cond
  | .orrImm cond _ _ _ _ _ => cond
  | .orrShift cond _ _ _ _ _ _ => cond
  | .orrRegShift cond _ _ _ _ _ _ => cond
  | .movImm cond _ _ _ _ => cond
  | .movShift cond _ _ _ _ _ => cond
  | .movRegShift cond _ _ _ _ _ => cond
  | .bicImm cond _ _ _ _ _ => cond
  | .bicShift cond _ _ _ _ _ _ => cond
  | .bicRegShift cond _ _ _ _ _ _ => cond
  | .mvnImm cond _ _ _ _ => cond
  | .mvnShift cond _ _ _ _ _ => cond
  | .mvnRegShift cond _ _ _ _ _ => cond
  | .mul cond _ _ _ _ => cond
  | .mla cond _ _ _ _ _ => cond
  | .umull cond _ _ _ _ _ => cond
  | .umlal cond _ _ _ _ _ => cond
  | .smull cond _ _ _ _ _ => cond
  | .smlal cond _ _ _ _ _ => cond
  | .swp cond _ _ _ => cond
  | .swpb cond _ _ _ => cond
  | .smlaXY cond _ _ _ _ _ _ => cond
  | .smlaWY cond _ _ _ _ _ => cond
  | .smulWY cond _ _ _ _ => cond
  | .smlalXY cond _ _ _ _ _ _ => cond
  | .smulXY cond _ _ _ _ _ => cond
  | .mrs cond _ _ => cond
  | .msrReg cond _ _ _ => cond
  | .msrImm cond _ _ _ _ => cond
  | .bx cond _ => cond
  | .bxj cond _ => cond
  | .blxReg cond _ => cond
  | .clz cond _ _ => cond
  | .qadd cond _ _ _ => cond
  | .qsub cond _ _ _ => cond
  | .qdadd cond _ _ _ => cond
  | .qdsub cond _ _ _ => cond
  | .ldrImm cond _ _ _ _ _ => cond
  | .ldrReg cond _ _ _ _ _ _ _ => cond
  | .ldrbImm cond _ _ _ _ _ => cond
  | .ldrbReg cond _ _ _ _ _ _ _ => cond
  | .strImm cond _ _ _ _ _ => cond
  | .strReg cond _ _ _ _ _ _ _ => cond
  | .strbImm cond _ _ _ _ _ => cond
  | .strbReg cond _ _ _ _ _ _ _ => cond
  | .ldrtImm cond _ _ _ _ => cond
  | .ldrtReg cond _ _ _ _ _ _ => cond
  | .ldrbtImm cond _ _ _ _ => cond
  | .ldrbtReg cond _ _ _ _ _ _ => cond
  | .strtImm cond _ _ _ _ => cond
  | .strtReg cond _ _ _ _ _ _ => cond
  | .strbtImm cond _ _ _ _ => cond
  | .strbtReg cond _ _ _ _ _ _ => cond
  | .strhImm cond _ _ _ _ _ => cond
  | .strhReg cond _ _ _ _ _ => cond
  | .ldrhImm cond _ _ _ _ _ => cond
  | .ldrhReg cond _ _ _ _ _ => cond
  | .ldrsbImm cond _ _ _ _ _ => cond
  | .ldrsbReg cond _ _ _ _ _ => cond
  | .ldrshImm cond _ _ _ _ _ => cond
  | .ldrshReg cond _ _ _ _ _ => cond
  | .ldrdImm cond _ _ _ _ _ => cond
  | .ldrdReg cond _ _ _ _ _ => cond
  | .strdImm cond _ _ _ _ _ => cond
  | .strdReg cond _ _ _ _ _ => cond
  | .ldm cond _ _ _ _ _ => cond
  | .ldmUser cond _ _ _ _ => cond
  | .ldmRestore cond _ _ _ _ _ => cond
  | .stm cond _ _ _ _ _ => cond
  | .stmUser cond _ _ _ _ => cond
  | .b cond _ => cond
  | .bl cond _ => cond
  | .cdp cond _ _ _ _ _ _ => cond
  | .mcr cond _ _ _ _ _ _ => cond
  | .mrc cond _ _ _ _ _ _ => cond
  | .mcrr cond _ _ _ _ _ => cond
  | .mrrc cond _ _ _ _ _ => cond
  | .ldc cond _ _ _ _ _ _ _ _ => cond
  | .stc cond _ _ _ _ _ _ _ _ => cond
  | .swi cond _ => cond
  | .undefSpace cond _ _ => cond
  | .undefImm cond _ _ => cond
  | .thumbBCond cond _ => cond
  | .bkpt .. | .pldImm .. | .pldReg .. | .blxImm .. | .cdp2 .. | .mcr2 .. | .mrc2 .. | .ldc2 .. | .stc2 ..
  | .thumbLslImm .. | .thumbLsrImm .. | .thumbAsrImm .. | .thumbAddReg .. | .thumbSubReg .. | .thumbAddImm3 ..
  | .thumbSubImm3 .. | .thumbMovImm .. | .thumbCmpImm .. | .thumbAddImm8 .. | .thumbSubImm8 .. | .thumbAnd ..
  | .thumbEor .. | .thumbLslReg .. | .thumbLsrReg .. | .thumbAsrReg .. | .thumbAdc .. | .thumbSbc ..
  | .thumbRorReg .. | .thumbTst .. | .thumbNeg .. | .thumbCmp .. | .thumbCmn .. | .thumbOrr .. | .thumbMul ..
  | .thumbBic .. | .thumbMvn .. | .thumbAddHigh .. | .thumbCmpHigh .. | .thumbMovHigh .. | .thumbBx ..
  | .thumbBlxReg .. | .thumbLdrPc .. | .thumbStrReg .. | .thumbStrhReg .. | .thumbStrbReg ..
  | .thumbLdrsbReg .. | .thumbLdrReg .. | .thumbLdrhReg .. | .thumbLdrbReg .. | .thumbLdrshReg ..
  | .thumbStrImm .. | .thumbLdrImm .. | .thumbStrbImm .. | .thumbLdrbImm .. | .thumbStrhImm ..
  | .thumbLdrhImm .. | .thumbStrSp .. | .thumbLdrSp .. | .thumbAddPc .. | .thumbAddSp .. | .thumbIncSp ..
  | .thumbDecSp .. | .thumbPush .. | .thumbPop .. | .thumbBkpt .. | .thumbStmia .. | .thumbLdmia ..
  | .thumbUndefCond .. | .thumbSwi .. | .thumbB .. | .thumbBlxSuffix .. | .thumbUndefBlx .. | .thumbBlPrefix ..
  | .thumbBlSuffix .. => .al

/-- The registers of the current mode that an ARM instruction reads or writes by number; the User-bank transfers
name their base only, and BL and BLX write r14. An exception that the instruction raises writes r14 of the mode it enters,
also where that is the current mode (SWI in Supervisor mode, BKPT in Abort mode, an undefined pattern in Undefined mode, a
Data Abort in Abort mode): R412 does not say whether this accesses a banked register, and the model does not count it
(DESIGN CHOICE, log entry 23). -/
def namedRegs : Instr → List Reg
  | .andImm _ _ rn rd _ _ => [rn, rd]
  | .andShift _ _ rn rd _ _ rm => [rn, rd, rm]
  | .andRegShift _ _ rn rd rs _ rm => [rn, rd, rs, rm]
  | .eorImm _ _ rn rd _ _ => [rn, rd]
  | .eorShift _ _ rn rd _ _ rm => [rn, rd, rm]
  | .eorRegShift _ _ rn rd rs _ rm => [rn, rd, rs, rm]
  | .subImm _ _ rn rd _ _ => [rn, rd]
  | .subShift _ _ rn rd _ _ rm => [rn, rd, rm]
  | .subRegShift _ _ rn rd rs _ rm => [rn, rd, rs, rm]
  | .rsbImm _ _ rn rd _ _ => [rn, rd]
  | .rsbShift _ _ rn rd _ _ rm => [rn, rd, rm]
  | .rsbRegShift _ _ rn rd rs _ rm => [rn, rd, rs, rm]
  | .addImm _ _ rn rd _ _ => [rn, rd]
  | .addShift _ _ rn rd _ _ rm => [rn, rd, rm]
  | .addRegShift _ _ rn rd rs _ rm => [rn, rd, rs, rm]
  | .adcImm _ _ rn rd _ _ => [rn, rd]
  | .adcShift _ _ rn rd _ _ rm => [rn, rd, rm]
  | .adcRegShift _ _ rn rd rs _ rm => [rn, rd, rs, rm]
  | .sbcImm _ _ rn rd _ _ => [rn, rd]
  | .sbcShift _ _ rn rd _ _ rm => [rn, rd, rm]
  | .sbcRegShift _ _ rn rd rs _ rm => [rn, rd, rs, rm]
  | .rscImm _ _ rn rd _ _ => [rn, rd]
  | .rscShift _ _ rn rd _ _ rm => [rn, rd, rm]
  | .rscRegShift _ _ rn rd rs _ rm => [rn, rd, rs, rm]
  | .tstImm _ rn _ _ => [rn]
  | .tstShift _ rn _ _ rm => [rn, rm]
  | .tstRegShift _ rn rs _ rm => [rn, rs, rm]
  | .teqImm _ rn _ _ => [rn]
  | .teqShift _ rn _ _ rm => [rn, rm]
  | .teqRegShift _ rn rs _ rm => [rn, rs, rm]
  | .cmpImm _ rn _ _ => [rn]
  | .cmpShift _ rn _ _ rm => [rn, rm]
  | .cmpRegShift _ rn rs _ rm => [rn, rs, rm]
  | .cmnImm _ rn _ _ => [rn]
  | .cmnShift _ rn _ _ rm => [rn, rm]
  | .cmnRegShift _ rn rs _ rm => [rn, rs, rm]
  | .orrImm _ _ rn rd _ _ => [rn, rd]
  | .orrShift _ _ rn rd _ _ rm => [rn, rd, rm]
  | .orrRegShift _ _ rn rd rs _ rm => [rn, rd, rs, rm]
  | .movImm _ _ rd _ _ => [rd]
  | .movShift _ _ rd _ _ rm => [rd, rm]
  | .movRegShift _ _ rd rs _ rm => [rd, rs, rm]
  | .bicImm _ _ rn rd _ _ => [rn, rd]
  | .bicShift _ _ rn rd _ _ rm => [rn, rd, rm]
  | .bicRegShift _ _ rn rd rs _ rm => [rn, rd, rs, rm]
  | .mvnImm _ _ rd _ _ => [rd]
  | .mvnShift _ _ rd _ _ rm => [rd, rm]
  | .mvnRegShift _ _ rd rs _ rm => [rd, rs, rm]
  | .mul _ _ rd rs rm => [rd, rs, rm]
  | .mla _ _ rd rn rs rm => [rd, rn, rs, rm]
  | .umull _ _ rdHi rdLo rs rm => [rdHi, rdLo, rs, rm]
  | .umlal _ _ rdHi rdLo rs rm => [rdHi, rdLo, rs, rm]
  | .smull _ _ rdHi rdLo rs rm => [rdHi, rdLo, rs, rm]
  | .smlal _ _ rdHi rdLo rs rm => [rdHi, rdLo, rs, rm]
  | .swp _ rn rd rm => [rn, rd, rm]
  | .swpb _ rn rd rm => [rn, rd, rm]
  | .smlaXY _ rd rn rs _ _ rm => [rd, rn, rs, rm]
  | .smlaWY _ rd rn rs _ rm => [rd, rn, rs, rm]
  | .smulWY _ rd rs _ rm => [rd, rs, rm]
  | .smlalXY _ rdHi rdLo rs _ _ rm => [rdHi, rdLo, rs, rm]
  | .smulXY _ rd rs _ _ rm => [rd, rs, rm]
  | .mrs _ _ rd => [rd]
  | .msrReg _ _ _ rm => [rm]
  | .bx _ rm => [rm]
  | .bxj _ rm => [rm]
  | .blxReg _ rm => [rm, 14#4]
  | .clz _ rd rm => [rd, rm]
  | .qadd _ rn rd rm => [rn, rd, rm]
  | .qsub _ rn rd rm => [rn, rd, rm]
  | .qdadd _ rn rd rm => [rn, rd, rm]
  | .qdsub _ rn rd rm => [rn, rd, rm]
  | .ldrImm _ _ _ rn rd _ => [rn, rd]
  | .ldrReg _ _ _ rn rd _ _ rm => [rn, rd, rm]
  | .ldrbImm _ _ _ rn rd _ => [rn, rd]
  | .ldrbReg _ _ _ rn rd _ _ rm => [rn, rd, rm]
  | .strImm _ _ _ rn rd _ => [rn, rd]
  | .strReg _ _ _ rn rd _ _ rm => [rn, rd, rm]
  | .strbImm _ _ _ rn rd _ => [rn, rd]
  | .strbReg _ _ _ rn rd _ _ rm => [rn, rd, rm]
  | .ldrtImm _ _ rn rd _ => [rn, rd]
  | .ldrtReg _ _ rn rd _ _ rm => [rn, rd, rm]
  | .ldrbtImm _ _ rn rd _ => [rn, rd]
  | .ldrbtReg _ _ rn rd _ _ rm => [rn, rd, rm]
  | .strtImm _ _ rn rd _ => [rn, rd]
  | .strtReg _ _ rn rd _ _ rm => [rn, rd, rm]
  | .strbtImm _ _ rn rd _ => [rn, rd]
  | .strbtReg _ _ rn rd _ _ rm => [rn, rd, rm]
  | .pldImm _ rn _ => [rn]
  | .pldReg _ rn _ _ rm => [rn, rm]
  | .strhImm _ _ _ rn rd _ => [rn, rd]
  | .strhReg _ _ _ rn rd rm => [rn, rd, rm]
  | .ldrhImm _ _ _ rn rd _ => [rn, rd]
  | .ldrhReg _ _ _ rn rd rm => [rn, rd, rm]
  | .ldrsbImm _ _ _ rn rd _ => [rn, rd]
  | .ldrsbReg _ _ _ rn rd rm => [rn, rd, rm]
  | .ldrshImm _ _ _ rn rd _ => [rn, rd]
  | .ldrshReg _ _ _ rn rd rm => [rn, rd, rm]
  | .ldrdImm _ _ _ rn rd _ => [rn, rd, rd + 1]
  | .ldrdReg _ _ _ rn rd rm => [rn, rd, rd + 1, rm]
  | .strdImm _ _ _ rn rd _ => [rn, rd, rd + 1]
  | .strdReg _ _ _ rn rd rm => [rn, rd, rd + 1, rm]
  | .ldm _ _ _ _ rn list => rn :: listed list
  | .ldmUser _ _ _ rn _ => [rn]
  | .ldmRestore _ _ _ _ rn list => rn :: listed (list.setWidth 16)
  | .stm _ _ _ _ rn list => rn :: listed list
  | .stmUser _ _ _ rn _ => [rn]
  | .bl _ _ => [14#4]
  | .blxImm _ _ => [14#4]
  | .mcr _ _ _ rd _ _ _ => [rd]
  | .mrc _ _ _ rd _ _ _ => [rd]
  | .mcrr _ rn rd _ _ _ => [rn, rd]
  | .mrrc _ rn rd _ _ _ => [rn, rd]
  | .ldc _ _ _ _ _ rn _ _ _ => [rn]
  | .stc _ _ _ _ _ rn _ _ _ => [rn]
  | .mcr2 _ _ rd _ _ _ => [rd]
  | .mrc2 _ _ rd _ _ _ => [rd]
  | .ldc2 _ _ _ _ rn _ _ _ => [rn]
  | .stc2 _ _ _ _ rn _ _ _ => [rn]
  | .msrImm .. | .bkpt .. | .b .. | .cdp .. | .cdp2 .. | .swi .. | .undefSpace .. | .undefImm ..
  | .thumbLslImm .. | .thumbLsrImm .. | .thumbAsrImm .. | .thumbAddReg .. | .thumbSubReg .. | .thumbAddImm3 ..
  | .thumbSubImm3 .. | .thumbMovImm .. | .thumbCmpImm .. | .thumbAddImm8 .. | .thumbSubImm8 .. | .thumbAnd ..
  | .thumbEor .. | .thumbLslReg .. | .thumbLsrReg .. | .thumbAsrReg .. | .thumbAdc .. | .thumbSbc ..
  | .thumbRorReg .. | .thumbTst .. | .thumbNeg .. | .thumbCmp .. | .thumbCmn .. | .thumbOrr .. | .thumbMul ..
  | .thumbBic .. | .thumbMvn .. | .thumbAddHigh .. | .thumbCmpHigh .. | .thumbMovHigh .. | .thumbBx ..
  | .thumbBlxReg .. | .thumbLdrPc .. | .thumbStrReg .. | .thumbStrhReg .. | .thumbStrbReg ..
  | .thumbLdrsbReg .. | .thumbLdrReg .. | .thumbLdrhReg .. | .thumbLdrbReg .. | .thumbLdrshReg ..
  | .thumbStrImm .. | .thumbLdrImm .. | .thumbStrbImm .. | .thumbLdrbImm .. | .thumbStrhImm ..
  | .thumbLdrhImm .. | .thumbStrSp .. | .thumbLdrSp .. | .thumbAddPc .. | .thumbAddSp .. | .thumbIncSp ..
  | .thumbDecSp .. | .thumbPush .. | .thumbPop .. | .thumbBkpt .. | .thumbStmia .. | .thumbLdmia ..
  | .thumbBCond .. | .thumbUndefCond .. | .thumbSwi .. | .thumbB .. | .thumbBlxSuffix .. | .thumbUndefBlx ..
  | .thumbBlPrefix .. | .thumbBlSuffix .. => []

/-- Whether the instruction after an LDM (2) names a banked register of the current mode (R412). -/
def bankedHazard (i : Instr) (s : State) : Bool :=
  s.userLdm && condPassed (conditionOf i) s.cpsr && (namedRegs i).any fun r => banked s.mode r

end Sys2Proof.Machine
end

