-- ==== Sys2Proof/Machine/Fetch.lean ====
section
/-!
DEFINITION. What happens at an instruction boundary (spec/60_exceptions.md rules R346, R347, R349, R350, R352, R353): the
pins are sampled, a reset or an enabled interrupt is taken, or the instruction at the PC is fetched and decoded.
-/
namespace Sys2Proof.Machine

/-- What an instruction boundary leads to. -/
inductive Boundary where
  /-- A reset or an exception is taken instead of an instruction. -/
  | entered (t : State)
  /-- The instruction at the PC executes. -/
  | run (i : Instr) (t : State)
  /-- The machine stops with a fault. -/
  | stopped (f : Fault)
  /-- The spec gives no next state. -/
  | refused (r : Refusal)
deriving DecidableEq, Repr

/-- Both interrupt inputs inactive, no reset, and no device writing to memory (D15). -/
def quietPins : PinSample := { reset := false, fiq := false, irq := false, mem := [] }

/-- What the pins hold at the coming boundary. -/
def State.sample (s : State) : PinSample := s.pins.headD quietPins

/-- Memory after devices and other bus masters have changed some of its bytes (R76; log entry 6). -/
def deviceWrites (m : List Host.Cell) : List (Word × Byte) → List Host.Cell
  | [] => m
  | (a, v) :: rest => deviceWrites (writeCell m a.toNat v) rest

/-- The stored addresses with those added that devices rewrite of the bytes already executed: memory that has been
fetched is read-only for the run (R80, D7), so that a second fetch of such a byte is refused (log entry 6). -/
def rewritten (fetched stored : List Nat) : List (Word × Byte) → List Nat
  | [] => stored
  | (a, _) :: rest =>
    rewritten fetched (if fetched.contains a.toNat then insertAddr stored a.toNat else stored) rest

/-- The state after the sample of the coming boundary has been taken: the memory as the devices have left it, and the
sample used up. -/
def State.sampled (s : State) : State :=
  { s with
    mem := deviceWrites s.mem s.sample.mem
    stored := rewritten s.fetched s.stored s.sample.mem
    pins := s.pins.tail }

/-- The refusal of a word that is no instruction. -/
def refusalOf : Reject → Refusal
  | .wrongLength => .unallocatedEncoding
  | .shouldBeBits => .shouldBeBits
  | .bkptCondition => .bkptCondition
  | .lowLowHighForm => .lowLowHighForm
  | .userBankWriteBack => .userBankWriteBack
  | .unallocated => .unallocatedEncoding

/-- The state in which an instruction of `n` bytes at `a` executes: its bytes are remembered as executed (R80, D7), and an
LDM (2) before it is forgotten (R412). -/
def State.fetching (s : State) (a : Word) (n : Nat) : State :=
  { s with fetched := insertAddrs s.fetched a.toNat n, userLdm := false }

/-- The decoded instruction of `n` bytes at `a` executes, unless the program has stored to it (R80, D7) or it may not
follow an LDM (2) (R412). -/
def decoded (d : Decoded) (a : Word) (n : Nat) (s : State) : Boundary :=
  if overlaps s.stored a.toNat n then .refused .fetchOfStored
  else
    match d with
    | .instr i => if bankedHazard i s then .refused .bankedAfterUserLdm else .run i (s.fetching a n)
    | .rejected r => .refused (refusalOf r)

/-- An address with its low bit ignored, as a halfword fetch takes it (R66). -/
def halfAlign (a : Word) : Word := a &&& 0xFFFFFFFE#32

/-- The fetch in ARM state: the word at the PC (R65, R66). An aborted fetch takes the Prefetch Abort whatever the
bits are (R347); a word the program has stored to is refused (D7). -/
def fetchArm (s : State) : Boundary :=
  if s.aborts .fetch .word (wordAlign s.pc) s.privileged then .entered (takePrefetchAbort s)
  else
    match s.wordAt (wordAlign s.pc) with
    | none => .stopped .unwrittenByte
    | some w => decoded (decodeArm w) (wordAlign s.pc) 4 s

/-- The fetch in Thumb state: the halfword at the PC (R65, R66). -/
def fetchThumb (s : State) : Boundary :=
  if s.aborts .fetch .half (halfAlign s.pc) s.privileged then .entered (takePrefetchAbort s)
  else
    match s.halfAt (halfAlign s.pc) with
    | none => .stopped .unwrittenByte
    | some h => decoded (decodeThumb h) (halfAlign s.pc) 2 s

/-- The fetch in Jazelle state: an abort is taken as in the other states (R343), and a Java bytecode is refused (R132,
D1). -/
def fetchJazelle (s : State) : Boundary :=
  if s.aborts .fetch .word (wordAlign s.pc) s.privileged then .entered (takePrefetchAbort s)
  else .refused .jazelleState

/-- The fetch with J = T = 1: an aborted fetch, which has the higher priority (R353), takes the Prefetch Abort (R42); else
the Undefined instruction exception is taken whatever the bits are (R30). The fetch is that of the T bit, a halfword
(DEDUCED, log entry 12). -/
def fetchBothStates (s : State) : Boundary :=
  if s.aborts .fetch .half (halfAlign s.pc) s.privileged then .entered (takePrefetchAbort s)
  else .entered (takeBothStates s)

/-- The instruction at the PC, in the state that J and T select (R30, R100). -/
def fetch (s : State) : Boundary :=
  match psrJ s.cpsr, psrT s.cpsr with
  | false, false => fetchArm s
  | false, true => fetchThumb s
  | true, false => fetchJazelle s
  | true, true => fetchBothStates s

/-- An instruction boundary (R352, R353): reset first, then a stuck machine stays stuck (R31, U3), then FIQ, IRQ and the
instruction. The sample is used up first. -/
def boundary (s : State) : Boundary :=
  let p := s.sample
  let t := s.sampled
  if p.reset then .entered (takeReset t)
  else if Mode.ofBits (psrM t.cpsr) = none then .stopped .illegalMode
  else if t.pastTop then .refused .sequentialWrap
  else if p.fiq && !psrF t.cpsr then .entered (takeFiq t)
  else if p.irq && !psrI t.cpsr then .entered (takeIrq t)
  else fetch t

/-- Bytes placed in memory from an address upwards, not by a store of the program. -/
def placeBytes (m : List Host.Cell) (a : Nat) : List Byte → List Host.Cell
  | [] => m
  | b :: bs => placeBytes (writeCell m a b) (a + 1) bs

/-- A rule of the abort predicate that no longer answers fetches. -/
def withoutFetch (r : AbortRule) : AbortRule := { r with kinds := r.kinds.filter fun k => k != .fetch }

end Sys2Proof.Machine
end

