-- ==== Sys2Proof/Machine/Step.lean ====
section
/-!
DEFINITION. One step of the machine, and how the host places an instruction where the next step fetches it.
-/
namespace Sys2Proof.Machine

/-- One step: a reset or an exception taken at the instruction boundary, or the instruction at the PC. -/
def step (s : State) : Host.Outcome State Fault Refusal :=
  match boundary s with
  | .entered t => .next t
  | .run i t => exec i t
  | .stopped f => .fault f
  | .refused r => .refused r

/-- The state with an instruction of `nbits` bits placed where the next step fetches, 32 bits for ARM state and 16 for
Thumb state, and with everything out of the way that would keep that step from executing it: an interrupt, a reset or a
device's write at this boundary, an abort of the fetch, an illegal mode, a hazard of the instruction before, and the mark
that the program stored these bytes. The placing stands for a program loaded from outside the machine (R402, D13). -/
def State.withFetchWord (s : State) (nbits w : Nat) : State :=
  let thumb := nbits == 16
  let bytes :=
    if thumb then bytesOfHalf s.config.bigEndian (BitVec.ofNat 16 w)
    else bytesOfWord s.config.bigEndian (BitVec.ofNat 32 w)
  let a := (if thumb then halfAlign s.pc else wordAlign s.pc).toNat
  let cpsr := setBit (setBit s.cpsr 24 false) 5 thumb
  { s with
    cpsr := if Mode.ofBits (psrM cpsr) = none then setMode cpsr .svc else cpsr
    mem := placeBytes s.mem a bytes
    stored := s.stored.filter fun k => !(decide (a ≤ k) && decide (k < a + bytes.length))
    config := { s.config with aborts := s.config.aborts.map withoutFetch }
    pins := match s.pins with
      | [] => []
      | _ :: rest => quietPins :: rest
    pastTop := false
    userLdm := false }

end Sys2Proof.Machine
end

