-- ==== Sys2Proof/Safety.lean ====
section
/-!
DEFINITION. The terms in which claims about the machine are made: the invariants of a state, the end of a run (spec/
70_reset_and_hazards.md rule R405), when a state is at rest at an instruction boundary, and what may differ between the
state before and the state after an instruction.
-/
namespace Sys2Proof.Machine

/-- Memory and the lists of stored and of executed addresses are in canonical form. -/
def State.memoryWf (s : State) : Prop := Memory.wf s.mem = true ∧ rising s.stored = true ∧ rising s.fetched = true

/-- The PC is aligned for the operating state (R25): a word in ARM state, a halfword in Thumb state. -/
def State.pcAligned (s : State) : Prop := returnAligned s.cpsr s.pc = true

/-- The mode bits hold one of the seven modes (R31). -/
def State.legalMode (s : State) : Prop := Mode.ofBits (psrM s.cpsr) ≠ none

/-- No reset and no enabled interrupt is pending at the boundary (R352). -/
def State.quiet (s : State) : Prop :=
  s.sample.reset = false ∧ (s.sample.fiq = false ∨ psrF s.cpsr = true) ∧
  (s.sample.irq = false ∨ psrI s.cpsr = true)

/-- An instruction that branches to its own address without a condition (R405): `B .` of ARM and of Thumb state. -/
def selfBranch : Instr → Bool
  | .b .al imm24 => imm24 == 0xFFFFFE#24
  | .thumbB imm11 => imm11 == 0x7FE#11
  | _ => false

/-- The run is finished (R405, D16): the instruction about to execute branches to itself and nothing is pending. -/
def State.finished (s : State) : Bool :=
  match boundary s with
  | .run i _ => selfBranch i
  | _ => false

/-- COPROC answers the instruction Wait whenever it is offered (R256). -/
def State.waitsForEver (s : State) (i : Instr) : Bool :=
  match s.config.coprocessors.find? fun r => cpCovers r (armWord i) s.privileged with
  | some r => r.answer == some .wait
  | none => false

/-- An instruction of an attached coprocessor (R240). -/
def isCoprocessor : Instr → Bool
  | .cdp _ _ _ _ cp _ _ | .mcr _ _ _ _ cp _ _ | .mrc _ _ _ _ cp _ _ | .mcrr _ _ _ cp _ _ | .mrrc _ _ _ cp _ _
  | .ldc _ _ _ _ _ _ _ cp _ | .stc _ _ _ _ _ _ _ cp _ | .cdp2 _ _ _ cp _ _ | .mcr2 _ _ _ cp _ _ | .mrc2 _ _ _ cp _ _
  | .ldc2 _ _ _ _ _ _ cp _ | .stc2 _ _ _ _ _ _ cp _ => cp != 14#4
  | _ => false

/-- The machine is stuck until a reset (R405): illegal mode bits (R31), or a coprocessor that waits for ever with both
interrupts masked (R256, U25). -/
def State.stuck (s : State) : Bool :=
  match boundary s with
  | .stopped .illegalMode => true
  | .run i t => isCoprocessor i && condPassed (conditionOf i) t.cpsr && t.waitsForEver i && psrI t.cpsr && psrF t.cpsr
  | _ => false

/-! ### What an instruction leaves unchanged -/

/-- The physical registers that register fields name in the mode of a state (R22); the PC is none of them. -/
def State.physical (s : State) (rs : List Reg) : List PhysReg := rs.filterMap (bank s.mode)

/-- Of the general registers only those that the fields `rs` name in the mode of `s` may differ. -/
def State.onlyRegs (s t : State) (rs : List Reg) : Prop := ∀ p, p ∉ s.physical rs → t.regs.get p = s.regs.get p

/-- Of the CPSR only the bits listed may differ. -/
def State.onlyBits (s t : State) (bits : List Nat) : Prop := ∀ i, i ∉ bits → t.cpsr.getLsbD i = s.cpsr.getLsbD i

/-- The exception registers, coprocessor 14, the parameters, the inputs and the list of executed bytes are as before. -/
def State.systemKept (s t : State) : Prop :=
  t.spsr = s.spsr ∧ t.dcc = s.dcc ∧ t.config = s.config ∧ t.pins = s.pins ∧ t.userLdm = s.userLdm ∧ t.fetched = s.fetched

/-- No coprocessor was asked or told anything. -/
def State.coprocessorsKept (s t : State) : Prop :=
  t.cpAnswers = s.cpAnswers ∧ t.cpSent = s.cpSent ∧ t.cpWaiting = s.cpWaiting

/-- Every byte of memory reads as before, and none was stored. -/
def State.memoryKept (s t : State) : Prop := t.stored = s.stored ∧ ∀ a, t.byteAt a = s.byteAt a

/-- Every byte of memory but the `n` from `a` upwards reads as before. -/
def State.memoryKeptOutside (s t : State) (a : Word) (n : Nat) : Prop :=
  ∀ b, (∀ k < n, b ≠ a + BitVec.ofNat 32 k) → t.byteAt b = s.byteAt b

/-- An instruction that goes on to the next one in sequence and writes nothing but the registers that the fields `rs`
name and the CPSR bits listed. -/
def State.onlyWrites (s t : State) (rs : List Reg) (bits : List Nat) : Prop :=
  t.pc = s.nextPc ∧ s.onlyRegs t rs ∧ s.onlyBits t bits ∧ s.systemKept t ∧ s.coprocessorsKept t ∧ s.memoryKept t

/-- An instruction that transfers control to `target` and writes nothing else but the registers that the fields `rs`
name and the CPSR bits listed. -/
def State.onlyJumps (s t : State) (target : Word) (rs : List Reg) (bits : List Nat) : Prop :=
  t.pc = target ∧ s.onlyRegs t rs ∧ s.onlyBits t bits ∧ s.systemKept t ∧ s.coprocessorsKept t ∧ s.memoryKept t

/-- An instruction that goes on to the next one in sequence and writes nothing but the registers that the fields `rs`
name and the `n` bytes from `a` upwards. -/
def State.onlyStores (s t : State) (rs : List Reg) (a : Word) (n : Nat) : Prop :=
  t.pc = s.nextPc ∧ s.onlyRegs t rs ∧ t.cpsr = s.cpsr ∧ s.systemKept t ∧ s.coprocessorsKept t ∧
  s.memoryKeptOutside t a n

/-- The flags N and Z of a result. -/
def flagsNZ (p value : Word) : Prop := psrN p = value.msb ∧ psrZ p = (value == 0#32)

/-! ### What memory answers -/

/-- A word access at the aligned address is not aborted and finds the word `w` (R67). -/
def State.readsWord (s : State) (priv : Bool) (a w : Word) (locked : Bool := false) : Prop :=
  s.aborts .read .word (wordAlign a) priv locked = false ∧ s.wordAt (wordAlign a) = some w

/-- A halfword access is not aborted and finds the halfword `h`. -/
def State.readsHalf (s : State) (priv : Bool) (a : Word) (h : Half) : Prop :=
  s.aborts .read .half a priv = false ∧ s.halfAt a = some h

/-- A byte access is not aborted and finds the byte `b`. -/
def State.readsByte (s : State) (priv : Bool) (a : Word) (b : Byte) (locked : Bool := false) : Prop :=
  s.aborts .read .byte a priv locked = false ∧ s.byteAt a = some b

/-- A store of a width at an address is not aborted, and none of its bytes has been executed (R74, R80). -/
def State.stores (s : State) (w : Width) (priv : Bool) (a : Word) (locked : Bool := false) : Prop :=
  s.aborts .write w a priv locked = false ∧ overlaps s.fetched a.toNat w.bytes = false

/-- A word store at the aligned address is made (R67). -/
def State.storesWord (s : State) (priv : Bool) (a : Word) (locked : Bool := false) : Prop :=
  s.stores .word priv (wordAlign a) locked

/-- The k-th word of a transfer of several words. -/
def wordPlace (start : Word) (k : Nat) : Word := start + BitVec.ofNat 32 (4 * k)

/-! ### Which base registers an addressing mode allows (R223, U9) -/

/-- With write-back the base is neither r15 nor the transferred register. -/
def baseOk (wb : Bool) (rn rd : Reg) : Prop := wb = true → rn ≠ 15#4 ∧ rn ≠ rd

/-- The offset register is not r15, and with write-back the base is neither r15 nor one of the other registers. -/
def regBaseOk (wb : Bool) (rn rd rm : Reg) : Prop := rm ≠ 15#4 ∧ (wb = true → rn ≠ 15#4 ∧ rn ≠ rd ∧ rm ≠ rn)

/-- A base that is in the list is its lowest-numbered register (R216, R331): with write-back a store multiple allows no
other. -/
def lowestIfListed (rn : Reg) (regs : List Reg) : Prop := rn ∈ regs → ∀ r ∈ regs, rn.toNat ≤ r.toNat

/-- The registers that a transfer with an addressing mode writes: those given, and the base with write-back. -/
def withBase (a : Address) (rn : Reg) (rs : List Reg) : List Reg := if a.writeBack then rn :: rs else rs

/-! ### The single loads and stores, each with its one access (R200 to R206, R211 to R215, R310 to R320, R323 to R330) -/

/-- The ARM single loads and stores with an immediate offset: the instruction, the kind, the width and the privilege of its
access, and its address. -/
def State.immTransfers (s : State) (c : Cond) (idx : Index) (u : Bool) (rn rd : Reg) (off12 : BitVec 12)
    (off8 : BitVec 8) : List (Instr × Access × Width × Bool × Address) :=
  [(.ldrImm c idx u rn rd off12, .read, .word, s.privileged, s.immAddress idx u rn off12),
    (.ldrbImm c idx u rn rd off12, .read, .byte, s.privileged, s.immAddress idx u rn off12),
    (.strImm c idx u rn rd off12, .write, .word, s.privileged, s.immAddress idx u rn off12),
    (.strbImm c idx u rn rd off12, .write, .byte, s.privileged, s.immAddress idx u rn off12),
    (.ldrtImm c u rn rd off12, .read, .word, false, s.immAddress .post u rn off12),
    (.ldrbtImm c u rn rd off12, .read, .byte, false, s.immAddress .post u rn off12),
    (.strtImm c u rn rd off12, .write, .word, false, s.immAddress .post u rn off12),
    (.strbtImm c u rn rd off12, .write, .byte, false, s.immAddress .post u rn off12),
    (.ldrsbImm c idx u rn rd off8, .read, .byte, s.privileged, s.immAddress idx u rn off8),
    (.ldrhImm c idx u rn rd off8, .read, .half, s.privileged, s.immAddress idx u rn off8),
    (.ldrshImm c idx u rn rd off8, .read, .half, s.privileged, s.immAddress idx u rn off8),
    (.strhImm c idx u rn rd off8, .write, .half, s.privileged, s.immAddress idx u rn off8)]

/-- The same, with a register offset. -/
def State.regTransfers (s : State) (c : Cond) (idx : Index) (u : Bool) (rn rd : Reg) (n : BitVec 5) (sh : Shift)
    (rm : Reg) : List (Instr × Access × Width × Bool × Address) :=
  [(.ldrReg c idx u rn rd n sh rm, .read, .word, s.privileged, s.shiftAddress idx u rn n sh rm),
    (.ldrbReg c idx u rn rd n sh rm, .read, .byte, s.privileged, s.shiftAddress idx u rn n sh rm),
    (.strReg c idx u rn rd n sh rm, .write, .word, s.privileged, s.shiftAddress idx u rn n sh rm),
    (.strbReg c idx u rn rd n sh rm, .write, .byte, s.privileged, s.shiftAddress idx u rn n sh rm),
    (.ldrtReg c u rn rd n sh rm, .read, .word, false, s.shiftAddress .post u rn n sh rm),
    (.ldrbtReg c u rn rd n sh rm, .read, .byte, false, s.shiftAddress .post u rn n sh rm),
    (.strtReg c u rn rd n sh rm, .write, .word, false, s.shiftAddress .post u rn n sh rm),
    (.strbtReg c u rn rd n sh rm, .write, .byte, false, s.shiftAddress .post u rn n sh rm),
    (.ldrsbReg c idx u rn rd rm, .read, .byte, s.privileged, s.regAddress idx u rn rm),
    (.ldrhReg c idx u rn rd rm, .read, .half, s.privileged, s.regAddress idx u rn rm),
    (.ldrshReg c idx u rn rd rm, .read, .half, s.privileged, s.regAddress idx u rn rm),
    (.strhReg c idx u rn rd rm, .write, .half, s.privileged, s.regAddress idx u rn rm)]

/-- The Thumb single loads and stores: the instruction, the kind and the width of its access, and its address. -/
def State.thumbTransfers (s : State) (ro rb rd : LowReg) (imm5 : BitVec 5) (imm8 : BitVec 8) :
    List (Instr × Access × Width × Word) :=
  [(.thumbLdrPc rd imm8, .read, .word, (s.pc + 4) - (s.pc + 4) % 4 + 4 * imm8.setWidth 32),
    (.thumbLdrReg ro rb rd, .read, .word, s.reg (lowReg rb) + s.reg (lowReg ro)),
    (.thumbLdrImm imm5 rb rd, .read, .word, s.reg (lowReg rb) + 4 * imm5.setWidth 32),
    (.thumbLdrSp rd imm8, .read, .word, s.reg 13#4 + 4 * imm8.setWidth 32),
    (.thumbLdrbReg ro rb rd, .read, .byte, s.reg (lowReg rb) + s.reg (lowReg ro)),
    (.thumbLdrbImm imm5 rb rd, .read, .byte, s.reg (lowReg rb) + imm5.setWidth 32),
    (.thumbLdrsbReg ro rb rd, .read, .byte, s.reg (lowReg rb) + s.reg (lowReg ro)),
    (.thumbLdrhReg ro rb rd, .read, .half, s.reg (lowReg rb) + s.reg (lowReg ro)),
    (.thumbLdrhImm imm5 rb rd, .read, .half, s.reg (lowReg rb) + 2 * imm5.setWidth 32),
    (.thumbLdrshReg ro rb rd, .read, .half, s.reg (lowReg rb) + s.reg (lowReg ro)),
    (.thumbStrReg ro rb rd, .write, .word, s.reg (lowReg rb) + s.reg (lowReg ro)),
    (.thumbStrImm imm5 rb rd, .write, .word, s.reg (lowReg rb) + 4 * imm5.setWidth 32),
    (.thumbStrSp rd imm8, .write, .word, s.reg 13#4 + 4 * imm8.setWidth 32),
    (.thumbStrbReg ro rb rd, .write, .byte, s.reg (lowReg rb) + s.reg (lowReg ro)),
    (.thumbStrbImm imm5 rb rd, .write, .byte, s.reg (lowReg rb) + imm5.setWidth 32),
    (.thumbStrhReg ro rb rd, .write, .half, s.reg (lowReg rb) + s.reg (lowReg ro)),
    (.thumbStrhImm imm5 rb rd, .write, .half, s.reg (lowReg rb) + 2 * imm5.setWidth 32)]

/-- The address at which the memory system takes an access of a width: for a word the low two bits are ignored (R67). -/
def accessPlace : Width → Word → Word
  | .byte, a => a
  | .half, a => a
  | .word, a => wordAlign a

/-- An address that the model allows for an access of a width: an even one for a halfword (U10). -/
def accessAllowed (w : Width) (a : Word) : Prop := w = .half → a.toNat % 2 = 0

/-- An LDRD (`load`) or STRD, with an immediate or a register offset, that the model does not refuse: an even pair below
r14, an address that is a multiple of 8, and a base that the addressing mode allows (R210, R218, U9, U11). -/
def State.pairTransfer (s : State) (c : Cond) (idx : Index) (u : Bool) (rn rd rm : Reg) (off8 : BitVec 8) (a : Address)
    (i : Instr) (load : Bool) : Prop :=
  rd.toNat % 2 = 0 ∧ rd ≠ 14#4 ∧ a.address.toNat % 8 = 0 ∧
  (a = s.immAddress idx u rn off8 ∧ i = (if load then .ldrdImm c idx u rn rd off8 else .strdImm c idx u rn rd off8) ∧
      (writesBack idx = true → rn ∉ [15#4, rd, rd + 1]) ∨
    a = s.regAddress idx u rn rm ∧ i = (if load then .ldrdReg c idx u rn rd rm else .strdReg c idx u rn rd rm) ∧
      rm ∉ [15#4, rd, rd + 1] ∧ (writesBack idx = true → rn ∉ [15#4, rd, rd + 1, rm]))

/-! ### The data-processing instructions by group (R140) -/

/-- The logical instructions that write a register, with an immediate operand. -/
def logicalImm (c : Cond) (sb : Bool) (rn rd : Reg) (rot : BitVec 4) (imm8 : BitVec 8) : List Instr :=
  [.andImm c sb rn rd rot imm8, .eorImm c sb rn rd rot imm8, .orrImm c sb rn rd rot imm8, .bicImm c sb rn rd rot imm8,
    .movImm c sb rd rot imm8, .mvnImm c sb rd rot imm8]

/-- The same, with a register shifted by an immediate. -/
def logicalShift (c : Cond) (sb : Bool) (rn rd : Reg) (n : BitVec 5) (sh : Shift) (rm : Reg) : List Instr :=
  [.andShift c sb rn rd n sh rm, .eorShift c sb rn rd n sh rm, .orrShift c sb rn rd n sh rm, .bicShift c sb rn rd n sh rm,
    .movShift c sb rd n sh rm, .mvnShift c sb rd n sh rm]

/-- The same, with a register shifted by a register. -/
def logicalRegShift (c : Cond) (sb : Bool) (rn rd rs : Reg) (sh : Shift) (rm : Reg) : List Instr :=
  [.andRegShift c sb rn rd rs sh rm, .eorRegShift c sb rn rd rs sh rm, .orrRegShift c sb rn rd rs sh rm,
    .bicRegShift c sb rn rd rs sh rm, .movRegShift c sb rd rs sh rm, .mvnRegShift c sb rd rs sh rm]

/-- What AND, EOR, ORR, BIC, MOV and MVN compute from the first operand and the shifter operand (R141, R142, R182 to
R185). -/
def logicalValues (a o : Word) : List Word := [a &&& o, a ^^^ o, a ||| o, a &&& ~~~o, o, ~~~o]

/-- The arithmetic instructions that write a register, with an immediate operand. -/
def arithImm (c : Cond) (sb : Bool) (rn rd : Reg) (rot : BitVec 4) (imm8 : BitVec 8) : List Instr :=
  [.addImm c sb rn rd rot imm8, .adcImm c sb rn rd rot imm8, .subImm c sb rn rd rot imm8, .sbcImm c sb rn rd rot imm8,
    .rsbImm c sb rn rd rot imm8, .rscImm c sb rn rd rot imm8]

/-- The same, with a register shifted by an immediate. -/
def arithShift (c : Cond) (sb : Bool) (rn rd : Reg) (n : BitVec 5) (sh : Shift) (rm : Reg) : List Instr :=
  [.addShift c sb rn rd n sh rm, .adcShift c sb rn rd n sh rm, .subShift c sb rn rd n sh rm, .sbcShift c sb rn rd n sh rm,
    .rsbShift c sb rn rd n sh rm, .rscShift c sb rn rd n sh rm]

/-- The same, with a register shifted by a register. -/
def arithRegShift (c : Cond) (sb : Bool) (rn rd rs : Reg) (sh : Shift) (rm : Reg) : List Instr :=
  [.addRegShift c sb rn rd rs sh rm, .adcRegShift c sb rn rd rs sh rm, .subRegShift c sb rn rd rs sh rm,
    .sbcRegShift c sb rn rd rs sh rm, .rsbRegShift c sb rn rd rs sh rm, .rscRegShift c sb rn rd rs sh rm]

/-- What ADD, ADC, SUB, SBC, RSB and RSC add, with which carry in (R150 to R155). -/
def arithSums (a o : Word) (cf : Bool) : List Sum :=
  [addWithCarry a o false, addWithCarry a o cf, addWithCarry a (~~~o) true, addWithCarry a (~~~o) cf,
    addWithCarry o (~~~a) true, addWithCarry o (~~~a) cf]

/-- The data-processing instructions that return from an exception: S = 1 and Rd = 15 (R140, R355). -/
def dataReturns (c : Cond) (rn rm : Reg) (rot : BitVec 4) (imm8 : BitVec 8) (n : BitVec 5) (sh : Shift) : List Instr :=
  logicalImm c true rn 15#4 rot imm8 ++ arithImm c true rn 15#4 rot imm8 ++ logicalShift c true rn 15#4 n sh rm ++
    arithShift c true rn 15#4 n sh rm

/-- An instruction that returns from an exception: a data-processing one, or an LDM (3) (R355). -/
def isExceptionReturn (i : Instr) : Prop :=
  (∃ c rn rm rot imm8 n sh, i ∈ dataReturns c rn rm rot imm8 n sh) ∨
  ∃ c p u wb rn list, i = .ldmRestore c p u wb rn list

/-! ### Exceptions -/

/-- `t` is a state in which the handler of an exception starts that was taken from `s` with a link value (R342): the link
register and the SPSR of its mode, the CPSR and the PC are as the exception sets them, and all else but the registers,
memory and the coprocessors is as before. A busy-wait is abandoned (R256), and an LDM (2) is forgotten (log entry 23). -/
def State.entered (s t : State) (e : Exception) (link : Word) : Prop :=
  t.regs.get e.mode.lr = link ∧
  t.spsr.get e.mode = some s.cpsr ∧ (∀ m, m ≠ e.mode → t.spsr.get m = s.spsr.get m) ∧
  psrM t.cpsr = e.mode.bits ∧ psrT t.cpsr = false ∧ psrJ t.cpsr = false ∧ psrI t.cpsr = true ∧
  psrF t.cpsr = (psrF s.cpsr || decide (e = .fiq)) ∧
  (∀ i, 8 ≤ i → i ≠ 24 → t.cpsr.getLsbD i = s.cpsr.getLsbD i) ∧
  t.pc = s.vectorBase + e.offset ∧ t.pastTop = false ∧ t.dcc = s.dcc ∧ t.config = s.config ∧ t.pins = s.pins ∧
  t.fetched = s.fetched ∧ t.userLdm = false ∧ t.cpWaiting = false

/-- An exception was taken that nothing came before: no register but the link register, no byte of memory and no
coprocessor is changed (R342). -/
def State.tookException (s t : State) (e : Exception) (link : Word) : Prop :=
  s.entered t e link ∧ (∀ p, p ≠ e.mode.lr → t.regs.get p = s.regs.get p) ∧ s.memoryKept t ∧
  t.cpAnswers = s.cpAnswers ∧ t.cpSent = s.cpSent

/-! ### Transfers of several words that a Data Abort ends (R222) -/

/-- Of the `n` words from `start` upwards the one numbered `j` is the first whose read is aborted. -/
def State.readAborts (s : State) (start : Word) (n j : Nat) (words : Nat → Word) : Prop :=
  j < n ∧ (∀ k < j, s.readsWord s.privileged (wordPlace start k) (words k)) ∧
  s.aborts .read .word (wordAlign (wordPlace start j)) s.privileged = true

/-- Of the `n` words from `start` upwards the one numbered `j` is the first whose write is aborted. -/
def State.writeAborts (s : State) (start : Word) (n j : Nat) : Prop :=
  j < n ∧ (∀ k < j, s.storesWord s.privileged (wordPlace start k)) ∧
  s.aborts .write .word (wordAlign (wordPlace start j)) s.privileged = true

/-- The registers after an aborted load of several words: `base` and every physical register but those in `regs` and the
link register of Abort mode are as before (R222). -/
def State.loadAborted (s t : State) (base : Reg) (regs : List PhysReg) : Prop :=
  s.entered t .dataAbort (s.pc + 8) ∧ s.memoryKept t ∧ t.cpAnswers = s.cpAnswers ∧ t.cpSent = s.cpSent ∧
  (∀ q, q ≠ .r14abt → bank s.mode base = some q → t.regs.get q = s.regs.get q) ∧
  (∀ q, q ≠ .r14abt → q ∉ regs → t.regs.get q = s.regs.get q)

/-- The state after a store of `n` words from `start` upwards whose word number `j` was aborted: the words before it are
stored, those that `words` gives; its bytes and those outside the transfer are as before, and so are all registers but the
link register of Abort mode. Of the words after it nothing is said (D24; log entry 11). -/
def State.storeAborted (s t : State) (start : Word) (n j : Nat) (words : Nat → Option Word) : Prop :=
  s.entered t .dataAbort (s.pc + 8) ∧ (∀ q, q ≠ .r14abt → t.regs.get q = s.regs.get q) ∧
  (∀ k < j, ∀ w, words k = some w → t.wordAt (wordAlign (wordPlace start k)) = some w) ∧
  (∀ k < 4, t.byteAt (wordAlign (wordPlace start j) + BitVec.ofNat 32 k) =
    s.byteAt (wordAlign (wordPlace start j) + BitVec.ofNat 32 k)) ∧
  s.memoryKeptOutside t (wordAlign start) (4 * n)

end Sys2Proof.Machine
end

