-- ==== Sys2Proof/WellFormed.lean ====
section
/-!
DEFINITION. Which terms of `Instr` are instructions: the exclusions of spec/opcode_table.json that the types of the fields
do not already make (R129). Operand combinations that are UNPREDICTABLE are not excluded here: they are encodings, and
the instruction's meaning refuses them.
-/
namespace Sys2Proof

/-- A high-register form of format T5 names at least one of r8 to r15: H1 = H2 = 0 is excluded (R262, U12). -/
def highForm (a b : Reg) : Bool := a.getLsbD 3 || b.getLsbD 3

/-- P = U = W = 0 is not a coprocessor load or store (R123). -/
def transferForm (p u wb : Bool) : Bool := p || u || wb

/-- Whether a term is an instruction of the table. -/
def Instr.wellFormed : Instr → Bool
  | .thumbAddHigh rm rd => highForm rm rd
  | .thumbCmpHigh rm rn => highForm rm rn
  | .thumbMovHigh rm rd => highForm rm rd
  | .ldc _ p u _ wb _ _ _ _ => transferForm p u wb
  | .stc _ p u _ wb _ _ _ _ => transferForm p u wb
  | .ldc2 p u _ wb _ _ _ _ => transferForm p u wb
  | .stc2 p u _ wb _ _ _ _ => transferForm p u wb
  | .thumbBCond cond _ => cond != .al
  | .andImm .. | .andShift .. | .andRegShift .. | .eorImm .. | .eorShift .. | .eorRegShift .. | .subImm ..
  | .subShift .. | .subRegShift .. | .rsbImm .. | .rsbShift .. | .rsbRegShift .. | .addImm .. | .addShift ..
  | .addRegShift .. | .adcImm .. | .adcShift .. | .adcRegShift .. | .sbcImm .. | .sbcShift .. | .sbcRegShift ..
  | .rscImm .. | .rscShift .. | .rscRegShift .. | .tstImm .. | .tstShift .. | .tstRegShift .. | .teqImm ..
  | .teqShift .. | .teqRegShift .. | .cmpImm .. | .cmpShift .. | .cmpRegShift .. | .cmnImm .. | .cmnShift ..
  | .cmnRegShift .. | .orrImm .. | .orrShift .. | .orrRegShift .. | .movImm .. | .movShift .. | .movRegShift ..
  | .bicImm .. | .bicShift .. | .bicRegShift .. | .mvnImm .. | .mvnShift .. | .mvnRegShift .. | .mul ..
  | .mla .. | .umull .. | .umlal .. | .smull .. | .smlal .. | .swp .. | .swpb .. | .smlaXY .. | .smlaWY ..
  | .smulWY .. | .smlalXY .. | .smulXY .. | .mrs .. | .msrReg .. | .msrImm .. | .bx .. | .bxj .. | .blxReg ..
  | .clz .. | .qadd .. | .qsub .. | .qdadd .. | .qdsub .. | .bkpt .. | .ldrImm .. | .ldrReg .. | .ldrbImm ..
  | .ldrbReg .. | .strImm .. | .strReg .. | .strbImm .. | .strbReg .. | .ldrtImm .. | .ldrtReg ..
  | .ldrbtImm .. | .ldrbtReg .. | .strtImm .. | .strtReg .. | .strbtImm .. | .strbtReg .. | .pldImm ..
  | .pldReg .. | .strhImm .. | .strhReg .. | .ldrhImm .. | .ldrhReg .. | .ldrsbImm .. | .ldrsbReg ..
  | .ldrshImm .. | .ldrshReg .. | .ldrdImm .. | .ldrdReg .. | .strdImm .. | .strdReg .. | .ldm .. | .ldmUser ..
  | .ldmRestore .. | .stm .. | .stmUser .. | .b .. | .bl .. | .blxImm .. | .cdp .. | .mcr .. | .mrc ..
  | .mcrr .. | .mrrc .. | .cdp2 .. | .mcr2 .. | .mrc2 .. | .swi .. | .undefSpace .. | .undefImm ..
  | .thumbLslImm .. | .thumbLsrImm .. | .thumbAsrImm .. | .thumbAddReg .. | .thumbSubReg .. | .thumbAddImm3 ..
  | .thumbSubImm3 .. | .thumbMovImm .. | .thumbCmpImm .. | .thumbAddImm8 .. | .thumbSubImm8 .. | .thumbAnd ..
  | .thumbEor .. | .thumbLslReg .. | .thumbLsrReg .. | .thumbAsrReg .. | .thumbAdc .. | .thumbSbc ..
  | .thumbRorReg .. | .thumbTst .. | .thumbNeg .. | .thumbCmp .. | .thumbCmn .. | .thumbOrr .. | .thumbMul ..
  | .thumbBic .. | .thumbMvn .. | .thumbBx .. | .thumbBlxReg .. | .thumbLdrPc .. | .thumbStrReg ..
  | .thumbStrhReg .. | .thumbStrbReg .. | .thumbLdrsbReg .. | .thumbLdrReg .. | .thumbLdrhReg ..
  | .thumbLdrbReg .. | .thumbLdrshReg .. | .thumbStrImm .. | .thumbLdrImm .. | .thumbStrbImm ..
  | .thumbLdrbImm .. | .thumbStrhImm .. | .thumbLdrhImm .. | .thumbStrSp .. | .thumbLdrSp .. | .thumbAddPc ..
  | .thumbAddSp .. | .thumbIncSp .. | .thumbDecSp .. | .thumbPush .. | .thumbPop .. | .thumbBkpt ..
  | .thumbStmia .. | .thumbLdmia .. | .thumbUndefCond .. | .thumbSwi .. | .thumbB .. | .thumbBlxSuffix ..
  | .thumbUndefBlx .. | .thumbBlPrefix .. | .thumbBlSuffix .. => true

end Sys2Proof
end

