-- ==== Sys2Proof/Certificates/Slice0/Obligations.lean ====
section
/-!
DEFINITION. The statements for the provers, each a proposition about the model. Where a statement rests on a choice of
the model, its docstring names the log entry.
-/
section
open Sys2Proof Sys2Proof.Machine

/-! ### Encodings -/

/-- A few instruction words of spec/95_test_vectors.md, one or two for each family, decode to the instructions the
vectors name. -/
def Obligations.DecodeSpecWords : Prop :=
  decode (.arm 0xE2910001#32) = .instr (.addImm .al true 1#4 0#4 0#4 1#8) ∧
  decode (.arm 0xE1B01182#32) = .instr (.movShift .al true 1#4 3#5 .lsl 2#4) ∧
  decode (.arm 0xE1F03574#32) = .instr (.mvnRegShift .al true 3#4 5#4 .ror 4#4) ∧
  decode (.arm 0xE0810392#32) = .instr (.umull .al false 1#4 0#4 3#4 2#4) ∧
  decode (.arm 0xE129F003#32) = .instr (.msrReg .al false 0b1001#4 3#4) ∧
  decode (.arm 0x1A000002#32) = .instr (.b .ne 2#24) ∧
  decode (.arm 0xFB000000#32) = .instr (.blxImm true 0#24) ∧
  decode (.arm 0xE7A10102#32) = .instr (.strReg .al .pre true 1#4 0#4 2#5 .lsl 2#4) ∧
  decode (.arm 0xE15100D1#32) = .instr (.ldrsbImm .al .offset false 1#4 0#4 1#8) ∧
  decode (.arm 0xE8FD800F#32) = .instr (.ldmRestore .al false true true 13#4 0b000000000001111#15) ∧
  decode (.arm 0xE1420091#32) = .instr (.swpb .al 2#4 0#4 1#4) ∧
  decode (.arm 0xEE2431C5#32) = .instr (.cdp .al 2#4 4#4 3#4 1#4 6#3 5#4) ∧
  decode (.arm 0xEF123456#32) = .instr (.swi .al 0x123456#24) ∧
  decode (.thumb 0x1DC8#16) = .instr (.thumbAddImm3 7#3 1#3 0#3) ∧
  decode (.thumb 0x4680#16) = .instr (.thumbMovHigh 0#4 8#4) ∧
  decode (.thumb 0xD27F#16) = .instr (.thumbBCond .cs 0x7F#8) ∧
  decode (.thumb 0x8FC8#16) = .instr (.thumbLdrhImm 31#5 1#3 0#3) ∧
  decode (.thumb 0xBD10#16) = .instr (.thumbPop true 0b00010000#8)

/-- Every well-formed ARM instruction is decoded from its encoding, whatever its operands. -/
def Obligations.ArmRoundTrip : Prop :=
  ∀ (i : Instr) (w : Word), i.wellFormed = true → encode i = .arm w → decodeArm w = .instr i

/-- Every well-formed Thumb instruction is decoded from its encoding, whatever its operands. -/
def Obligations.ThumbRoundTrip : Prop :=
  ∀ (i : Instr) (h : Half), i.wellFormed = true → encode i = .thumb h → decodeThumb h = .instr i

/-- Whatever the decoder accepts is a well-formed instruction, and its encoding is the word decoded: no bit of an
accepted word is ignored, and no two words are one instruction. -/
def Obligations.DecodeInverse : Prop :=
  (∀ (w : Word) (i : Instr), decodeArm w = .instr i → i.wellFormed = true ∧ encode i = .arm w) ∧
  (∀ (h : Half) (i : Instr), decodeThumb h = .instr i → i.wellFormed = true ∧ encode i = .thumb h)

/-! ### The instruction boundary -/

/-- Where no reset and no enabled interrupt is pending and the mode is legal, and the bits at the PC decode to an
instruction, a step executes it: the step is `exec` of it in the state `u` that this boundary's sample of the pins leaves,
with the bytes of the instruction added to those executed and the mark of an LDM (2) before it taken away. The fetch is not
aborted and the program has not stored to it (log entry 7); the last step did not run past the top of memory (log entry
8). -/
def Obligations.StepRunsDecoded : Prop :=
  ∀ (s u : State) (i : Instr),
    u = s.sampled → s.quiet → s.legalMode → s.pastTop = false → psrJ s.cpsr = false → bankedHazard i s = false →
    (∀ w, psrT s.cpsr = false → s.aborts .fetch .word (wordAlign s.pc) s.privileged = false →
      u.wordAt (wordAlign s.pc) = some w → overlaps u.stored (wordAlign s.pc).toNat 4 = false →
      decodeArm w = .instr i →
      step s = exec i { u with fetched := insertAddrs s.fetched (wordAlign s.pc).toNat 4, userLdm := false }) ∧
    (∀ h, psrT s.cpsr = true → s.aborts .fetch .half (halfAlign s.pc) s.privileged = false →
      u.halfAt (halfAlign s.pc) = some h → overlaps u.stored (halfAlign s.pc).toNat 2 = false →
      decodeThumb h = .instr i →
      step s = exec i { u with fetched := insertAddrs s.fetched (halfAlign s.pc).toNat 2, userLdm := false })

/-- At a boundary the sample is taken first: the bytes that devices write hold what they wrote last, those they rewrite of
the executed ones count as stored to, and nothing else changes (R6, R76; log entry 6). Then, without reset, an enabled FIQ
is taken, whatever stands at the PC; otherwise an enabled IRQ; otherwise, where the fetch of the instruction is aborted, a
word for T = 0 and a halfword for T = 1, the Prefetch Abort. Each has the link value PC + 4 in either state. That the fetch
with J = 1 has the width that T gives is the model's choice (log entries 12 and 13). -/
def Obligations.BoundaryExceptions : Prop :=
  ∀ s u : State, u = s.sampled →
    u = { s with mem := u.mem, stored := u.stored, pins := s.pins.tail } ∧
    (∀ a, (∀ v, (a, v) ∉ s.sample.mem) → u.byteAt a = s.byteAt a) ∧
    (∀ l r a v, s.sample.mem = l ++ (a, v) :: r → (∀ x, (a, x) ∉ r) → u.byteAt a = some v) ∧
    (∀ k, k ∈ u.stored ↔ k ∈ s.stored ∨ k ∈ s.fetched ∧ ∃ w ∈ s.sample.mem, w.1.toNat = k) ∧
    (s.sample.reset = false → s.legalMode → s.pastTop = false →
      (s.sample.fiq = true → psrF s.cpsr = false → ∃ t, step s = .next t ∧ u.tookException t .fiq (s.pc + 4)) ∧
      ((s.sample.fiq = false ∨ psrF s.cpsr = true) → s.sample.irq = true → psrI s.cpsr = false →
        ∃ t, step s = .next t ∧ u.tookException t .irq (s.pc + 4)) ∧
      (s.quiet →
        (psrT s.cpsr = false ∧ s.aborts .fetch .word (wordAlign s.pc) s.privileged = true ∨
          psrT s.cpsr = true ∧ s.aborts .fetch .half (halfAlign s.pc) s.privileged = true) →
        ∃ t, step s = .next t ∧ u.tookException t .prefetchAbort (s.pc + 4)))

/-- A reset is taken at every boundary whose sample asserts it, also by a machine that is stuck: Supervisor mode, IRQ and
FIQ disabled, ARM state, the PC at the vector base; memory is as the sample leaves it. W, R and DbgAbt become 0 (D17, log
entry 4). -/
def Obligations.ResetEntry : Prop :=
  ∀ s : State, s.sample.reset = true →
    ∃ t, step s = .next t ∧ psrM t.cpsr = Mode.svc.bits ∧ psrI t.cpsr = true ∧ psrF t.cpsr = true ∧
      psrT t.cpsr = false ∧ psrJ t.cpsr = false ∧
      t.pc = (if s.config.hiVecs then 0xFFFF0000#32 else 0x00000000#32) ∧
      t.dcc.w = false ∧ t.dcc.r = false ∧ t.dcc.dbgAbt = false ∧ t.config = s.config ∧ t.pins = s.pins.tail ∧
      s.sampled.memoryKept t

/-- With J = T = 1 the next instruction, whatever it is, takes the Undefined instruction exception, and SPSR_und shows
J = T = 1 to the handler; its fetch, of a halfword by the model's choice, is not aborted (log entry 12). The link value is
not stated by the spec: a free value (log entry 12), about which nothing is said here. -/
def Obligations.BothStatesUndefined : Prop :=
  ∀ s : State, s.quiet → s.legalMode → s.pastTop = false → psrJ s.cpsr = true → psrT s.cpsr = true →
    s.aborts .fetch .half (halfAlign s.pc) s.privileged = false →
    ∃ t link, step s = .next t ∧ s.sampled.tookException t .undefined link ∧
      (∃ p, t.spsr.get .und = some p ∧ psrJ p = true ∧ psrT p = true)

/-- Where a boundary stops, in ARM and in Thumb state, and under which name: an illegal mode, whatever interrupts are
pending; sequential execution past the top of memory; Jazelle state; bits that are no instruction; an instruction that the
program has stored; an instruction in a byte that holds no value; in ARM state, a banked register named after an LDM (2).
And a machine that is stuck (R405) stays as it is until a reset. The names are the model's; that these points stop is D1, D7,
D9, D22, R31, R402 and R412 (log entries 5, 7, 8, 13, 14, 23, 24). -/
def Obligations.StoppedBoundaries : Prop :=
  ∀ s u : State, u = s.sampled → s.sample.reset = false →
    (¬s.legalMode → step s = .fault .illegalMode) ∧
    (s.legalMode → s.pastTop = true → step s = .refused .sequentialWrap) ∧
    (s.legalMode → s.pastTop = false → s.quiet → psrJ s.cpsr = true → psrT s.cpsr = false →
      s.aborts .fetch .word (wordAlign s.pc) s.privileged = false → step s = .refused .jazelleState) ∧
    (s.legalMode → s.pastTop = false → s.quiet → psrJ s.cpsr = false → psrT s.cpsr = false →
      s.aborts .fetch .word (wordAlign s.pc) s.privileged = false →
      (u.wordAt (wordAlign s.pc) = none → step s = .fault .unwrittenByte) ∧
      (∀ w, u.wordAt (wordAlign s.pc) = some w →
        (overlaps u.stored (wordAlign s.pc).toNat 4 = true → step s = .refused .fetchOfStored) ∧
        (overlaps u.stored (wordAlign s.pc).toNat 4 = false →
          (∀ r, decodeArm w = .rejected r → step s = .refused (refusalOf r)) ∧
          (∀ i, decodeArm w = .instr i → bankedHazard i s = true → step s = .refused .bankedAfterUserLdm)))) ∧
    (s.legalMode → s.pastTop = false → s.quiet → psrJ s.cpsr = false → psrT s.cpsr = true →
      s.aborts .fetch .half (halfAlign s.pc) s.privileged = false →
      (u.halfAt (halfAlign s.pc) = none → step s = .fault .unwrittenByte) ∧
      (∀ h, u.halfAt (halfAlign s.pc) = some h →
        (overlaps u.stored (halfAlign s.pc).toNat 2 = true → step s = .refused .fetchOfStored) ∧
        (overlaps u.stored (halfAlign s.pc).toNat 2 = false →
          ∀ r, decodeThumb h = .rejected r → step s = .refused (refusalOf r)))) ∧
    (s.stuck = true → step s = .fault .illegalMode ∨
      ∃ t, step s = .next t ∧ t.pc = s.pc ∧ t.regs = s.regs ∧ t.cpsr = s.cpsr ∧ t.spsr = s.spsr ∧ t.cpSent = s.cpSent ∧
        t.cpWaiting = true ∧ u.memoryKept t)

/-! ### Exceptions -/

/-- Taking an exception: the link register and the SPSR of the new mode are written, the CPSR gets the mode, ARM state,
I and, for FIQ, F, the PC goes to the vector, the marks of a busy-wait and of an LDM (2) are taken away (R256; log entry
23); nothing else changes, the inputs and the coprocessors among it. Reset is the same for the CPSR and the PC, with F set;
the values it leaves elsewhere are indeterminate. The vector base, and the offset and the mode of each exception, are those of
Table 2-5 (R340). -/
def Obligations.ExceptionEntry : Prop :=
  (∀ s : State, s.vectorBase = if s.config.hiVecs then 0xFFFF0000#32 else 0x00000000#32) ∧
  [Exception.undefined, .swi, .prefetchAbort, .dataAbort, .irq, .fiq].map (fun e => (e.offset, e.mode)) =
    [(0x04#32, .und), (0x08#32, .svc), (0x0C#32, .abt), (0x10#32, .abt), (0x18#32, .irq), (0x1C#32, .fiq)] ∧
  (∀ (e : Exception) (link : Word) (s : State), s.tookException (takeException e link s) e link) ∧
  (∀ s : State, psrM (takeReset s).cpsr = Mode.svc.bits ∧ psrT (takeReset s).cpsr = false ∧
    psrJ (takeReset s).cpsr = false ∧ psrI (takeReset s).cpsr = true ∧ psrF (takeReset s).cpsr = true ∧
    (takeReset s).pc = s.vectorBase ∧ s.memoryKept (takeReset s))

/-- SWI, BKPT and the undefined patterns of both states take their exceptions, with the link value of Table 2-3, the
address of the next instruction for SWI and the undefined ones and PC + 4 for BKPT; the condition passes where the
instruction has one. -/
def Obligations.TrapInstructions : Prop :=
  ∀ (s : State) (c : Cond) (imm24 : BitVec 24) (p20 : BitVec 20) (p4 : BitVec 4) (b22 : Bool) (imm16 : BitVec 16)
    (imm8 : BitVec 8) (imm10 : BitVec 10) (i : Instr) (e : Exception) (link : Word),
    condPassed c s.cpsr = true →
    (i, e, link) ∈ [(.swi c imm24, .swi, s.nextPc), (.thumbSwi imm8, .swi, s.nextPc),
      (.undefSpace c p20 p4, .undefined, s.nextPc), (.undefImm c b22 p20, .undefined, s.nextPc),
      (.thumbUndefCond imm8, .undefined, s.nextPc), (.thumbUndefBlx imm10, .undefined, s.nextPc),
      (.bkpt imm16, .prefetchAbort, s.pc + 4), (.thumbBkpt imm8, .prefetchAbort, s.pc + 4)] →
    s.nextPc = s.pc + (if psrT s.cpsr then 2 else 4) ∧
    ∃ t, exec i s = .next t ∧ s.tookException t e link

/-- A data-processing instruction with S = 1 and r15 as its destination returns from an exception: the whole SPSR of the
current mode goes to the CPSR and the result to the PC, and nothing else changes. Without an SPSR, with an SPSR of J = 1 and
T = 0 (Jazelle state: D1, U23), and with a result not aligned for the restored state, it is refused. The format with a
register-specified shift does not allow r15. -/
def Obligations.ExceptionReturn : Prop :=
  ∀ (s : State) (c : Cond) (rn rm : Reg) (rot : BitVec 4) (imm8 : BitVec 8) (n : BitVec 5) (sh : Shift) (i : Instr)
    (v : Word),
    condPassed c s.cpsr = true →
    ((i, v) ∈ (logicalImm c true rn 15#4 rot imm8).zip (logicalValues (s.reg rn) (s.immOperand rot imm8).value) ∨
      (i, v) ∈ (logicalShift c true rn 15#4 n sh rm).zip (logicalValues (s.reg rn) (s.shiftOperand rm sh n).value) ∨
      (∃ r : Sum, r.value = v ∧
        ((i, r) ∈ (arithImm c true rn 15#4 rot imm8).zip
            (arithSums (s.reg rn) (s.immOperand rot imm8).value (psrC s.cpsr)) ∨
          (i, r) ∈ (arithShift c true rn 15#4 n sh rm).zip
            (arithSums (s.reg rn) (s.shiftOperand rm sh n).value (psrC s.cpsr))))) →
    (s.spsr.get s.mode = none → exec i s = .refused .noSpsr) ∧
    (∀ p, s.spsr.get s.mode = some p →
      (psrJ p = true → psrT p = false → exec i s = .refused .jazelleEntry) ∧
      (inJazelle p = false → returnAligned p v = false → exec i s = .refused .misalignedReturn) ∧
      (inJazelle p = false → returnAligned p v = true → ∃ t, exec i s = .next t ∧ t.cpsr = p ∧ t.pc = v ∧ t.regs = s.regs ∧
        s.systemKept t ∧ s.coprocessorsKept t ∧ s.memoryKept t))

/-- A data-processing instruction with S = 0 and r15 as its destination branches to its result where that is
word-aligned, and changes nothing else; otherwise it is refused. -/
def Obligations.BranchByDataProcessing : Prop :=
  ∀ (s : State) (c : Cond) (rn rm : Reg) (rot : BitVec 4) (imm8 : BitVec 8) (n : BitVec 5) (sh : Shift) (i : Instr)
    (v : Word),
    condPassed c s.cpsr = true →
    ((i, v) ∈ (logicalImm c false rn 15#4 rot imm8).zip (logicalValues (s.reg rn) (s.immOperand rot imm8).value) ∨
      (i, v) ∈ (logicalShift c false rn 15#4 n sh rm).zip (logicalValues (s.reg rn) (s.shiftOperand rm sh n).value) ∨
      (∃ r : Sum, r.value = v ∧
        ((i, r) ∈ (arithImm c false rn 15#4 rot imm8).zip
            (arithSums (s.reg rn) (s.immOperand rot imm8).value (psrC s.cpsr)) ∨
          (i, r) ∈ (arithShift c false rn 15#4 n sh rm).zip
            (arithSums (s.reg rn) (s.shiftOperand rm sh n).value (psrC s.cpsr))))) →
    (v.toNat % 4 = 0 → ∃ t, exec i s = .next t ∧ s.onlyJumps t v [] []) ∧
    (v.toNat % 4 ≠ 0 → exec i s = .refused .misalignedPcWrite)

/-! ### ARM data processing -/

/-- AND, EOR, ORR, BIC, MOV and MVN with a destination other than r15, in their three formats: the destination gets the
result; with S = 1 N and Z are those of the result and C is the shifter's carry; V, Q and everything else are kept. -/
def Obligations.LogicalToRegister : Prop :=
  ∀ (s : State) (c : Cond) (sb : Bool) (rn rd rs rm : Reg) (rot : BitVec 4) (imm8 : BitVec 8) (n : BitVec 5)
    (sh : Shift) (i : Instr) (o : Shifted) (v : Word),
    condPassed c s.cpsr = true → rd ≠ 15#4 →
    (o = s.immOperand rot imm8 ∧
        (i, v) ∈ (logicalImm c sb rn rd rot imm8).zip (logicalValues (s.reg rn) o.value) ∨
      o = s.shiftOperand rm sh n ∧
        (i, v) ∈ (logicalShift c sb rn rd n sh rm).zip (logicalValues (s.reg rn) o.value) ∨
      o = s.regShiftOperand rm rs sh ∧ rn ≠ 15#4 ∧ rs ≠ 15#4 ∧ rm ≠ 15#4 ∧
        (i, v) ∈ (logicalRegShift c sb rn rd rs sh rm).zip (logicalValues (s.reg rn) o.value)) →
    ∃ t, exec i s = .next t ∧ t.reg rd = v ∧ s.onlyWrites t [rd] (if sb then [31, 30, 29] else []) ∧
      (sb = true → flagsNZ t.cpsr v ∧ psrC t.cpsr = o.carry)

/-- ADD, ADC, SUB, SBC, RSB and RSC with a destination other than r15, in their three formats: the destination gets the
sum; with S = 1 N, Z, C and V are those of the sum; Q and everything else are kept. -/
def Obligations.ArithmeticToRegister : Prop :=
  ∀ (s : State) (c : Cond) (sb : Bool) (rn rd rs rm : Reg) (rot : BitVec 4) (imm8 : BitVec 8) (n : BitVec 5)
    (sh : Shift) (i : Instr) (r : Sum),
    condPassed c s.cpsr = true → rd ≠ 15#4 →
    ((i, r) ∈ (arithImm c sb rn rd rot imm8).zip
        (arithSums (s.reg rn) (s.immOperand rot imm8).value (psrC s.cpsr)) ∨
      (i, r) ∈ (arithShift c sb rn rd n sh rm).zip
        (arithSums (s.reg rn) (s.shiftOperand rm sh n).value (psrC s.cpsr)) ∨
      rn ≠ 15#4 ∧ rs ≠ 15#4 ∧ rm ≠ 15#4 ∧ (i, r) ∈ (arithRegShift c sb rn rd rs sh rm).zip
        (arithSums (s.reg rn) (s.regShiftOperand rm rs sh).value (psrC s.cpsr))) →
    ∃ t, exec i s = .next t ∧ t.reg rd = r.value ∧ s.onlyWrites t [rd] (if sb then [31, 30, 29, 28] else []) ∧
      (sb = true → flagsNZ t.cpsr r.value ∧ psrC t.cpsr = r.carry ∧ psrV t.cpsr = r.overflow)

/-- TST and TEQ write N, Z and the shifter's carry, CMP and CMN the four flags of the sum, in their three formats; no
register and nothing else changes. -/
def Obligations.TestsAndCompares : Prop :=
  ∀ (s : State) (c : Cond) (rn rs rm : Reg) (rot : BitVec 4) (imm8 : BitVec 8) (n : BitVec 5) (sh : Shift) (i : Instr)
    (o : Shifted) (v : Word) (r : Sum),
    condPassed c s.cpsr = true →
    ((o = s.immOperand rot imm8 ∧
          (i, v) ∈ [(.tstImm c rn rot imm8, s.reg rn &&& o.value), (.teqImm c rn rot imm8, s.reg rn ^^^ o.value)] ∨
        o = s.shiftOperand rm sh n ∧
          (i, v) ∈ [(.tstShift c rn n sh rm, s.reg rn &&& o.value), (.teqShift c rn n sh rm, s.reg rn ^^^ o.value)] ∨
        o = s.regShiftOperand rm rs sh ∧ rn ≠ 15#4 ∧ rs ≠ 15#4 ∧ rm ≠ 15#4 ∧
          (i, v) ∈ [(.tstRegShift c rn rs sh rm, s.reg rn &&& o.value),
            (.teqRegShift c rn rs sh rm, s.reg rn ^^^ o.value)]) →
      ∃ t, exec i s = .next t ∧ s.onlyWrites t [] [31, 30, 29] ∧ flagsNZ t.cpsr v ∧ psrC t.cpsr = o.carry) ∧
    ((o = s.immOperand rot imm8 ∧
          (i, r) ∈ [(.cmpImm c rn rot imm8, addWithCarry (s.reg rn) (~~~o.value) true),
            (.cmnImm c rn rot imm8, addWithCarry (s.reg rn) o.value false)] ∨
        o = s.shiftOperand rm sh n ∧
          (i, r) ∈ [(.cmpShift c rn n sh rm, addWithCarry (s.reg rn) (~~~o.value) true),
            (.cmnShift c rn n sh rm, addWithCarry (s.reg rn) o.value false)] ∨
        o = s.regShiftOperand rm rs sh ∧ rn ≠ 15#4 ∧ rs ≠ 15#4 ∧ rm ≠ 15#4 ∧
          (i, r) ∈ [(.cmpRegShift c rn rs sh rm, addWithCarry (s.reg rn) (~~~o.value) true),
            (.cmnRegShift c rn rs sh rm, addWithCarry (s.reg rn) o.value false)]) →
      ∃ t, exec i s = .next t ∧ s.onlyWrites t [] [31, 30, 29, 28] ∧ flagsNZ t.cpsr r.value ∧
        psrC t.cpsr = r.carry ∧ psrV t.cpsr = r.overflow)

/-- Where operands are UNPREDICTABLE the instruction is refused, under the model's names (U6, U9, U10; log entry 9). In
data processing: r15 in any field of the format with a register-specified shift, and as the register of MSR. In the
multiplies, the saturating instructions, CLZ and the swaps: r15 in any field, and registers that may not be equal. In the
single loads and stores: r15 in the forms that do not allow it, a base written back that is r15 or another register of the
instruction, an offset register r15, and a halfword at an odd address, in ARM and in Thumb state; in LDRD and STRD the same
of their pair. In the multiple ones: a base r15, an empty list, and a listed base that a load writes back. -/
def Obligations.UnpredictableRefused : Prop :=
  ∀ (s : State) (c : Cond) (sb : Bool) (rn rd rs rm : Reg) (sh : Shift) (i : Instr),
    condPassed c s.cpsr = true →
    ((rd = 15#4 ∨ rs = 15#4 ∨ rm = 15#4) → i ∈ logicalRegShift c sb rn rd rs sh rm ++ arithRegShift c sb rn rd rs sh rm →
      exec i s = .refused .r15Operand) ∧
    (rn = 15#4 → i ∈ (logicalRegShift c sb rn rd rs sh rm).take 4 ++ arithRegShift c sb rn rd rs sh rm →
      exec i s = .refused .r15Operand) ∧
    ((rn = 15#4 ∨ rs = 15#4 ∨ rm = 15#4) →
      i ∈ [.tstRegShift c rn rs sh rm, .teqRegShift c rn rs sh rm, .cmpRegShift c rn rs sh rm,
        .cmnRegShift c rn rs sh rm] → exec i s = .refused .r15Operand) ∧
    (∀ (r : Bool) (mask : BitVec 4), exec (.msrReg c r mask 15#4) s = .refused .r15Operand) ∧
    (∀ (x y : Bool) (regs : List Reg), 15#4 ∈ regs →
      (i, regs) ∈ [(.mul c sb rd rs rm, [rd, rs, rm]), (.mla c sb rd rn rs rm, [rd, rn, rs, rm]),
        (.umull c sb rd rn rs rm, [rd, rn, rs, rm]), (.umlal c sb rd rn rs rm, [rd, rn, rs, rm]),
        (.smull c sb rd rn rs rm, [rd, rn, rs, rm]), (.smlal c sb rd rn rs rm, [rd, rn, rs, rm]),
        (.smulXY c rd rs y x rm, [rd, rs, rm]), (.smlaXY c rd rn rs y x rm, [rd, rn, rs, rm]),
        (.smulWY c rd rs y rm, [rd, rs, rm]), (.smlaWY c rd rn rs y rm, [rd, rn, rs, rm]),
        (.smlalXY c rd rn rs y x rm, [rd, rn, rs, rm]), (.qadd c rn rd rm, [rn, rd, rm]), (.qsub c rn rd rm, [rn, rd, rm]),
        (.qdadd c rn rd rm, [rn, rd, rm]), (.qdsub c rn rd rm, [rn, rd, rm]), (.clz c rd rm, [rd, rm]),
        (.swp c rn rd rm, [rn, rd, rm]), (.swpb c rn rd rm, [rn, rd, rm])] →
      exec i s = .refused .r15Operand) ∧
    (∀ x y : Bool, 15#4 ∉ [rd, rn, rs, rm] →
      (rd = rm ∧ i ∈ [.mul c sb rd rs rm, .mla c sb rd rn rs rm] ∨
        (rd = rn ∨ rd = rm ∨ rn = rm) ∧ i ∈ [.umull c sb rd rn rs rm, .umlal c sb rd rn rs rm, .smull c sb rd rn rs rm,
          .smlal c sb rd rn rs rm] ∨
        rd = rn ∧ i = .smlalXY c rd rn rs y x rm ∨
        (rn = rm ∨ rn = rd) ∧ i ∈ [.swp c rn rd rm, .swpb c rn rd rm]) →
      exec i s = .refused .overlappingRegisters) ∧
    (∀ (idx : Index) (u : Bool) (off12 : BitVec 12) (off8 : BitVec 8) (k : Access) (w : Width) (priv : Bool) (a : Address),
      (i, k, w, priv, a) ∈ s.immTransfers c idx u rn rd off12 off8 →
      (a.writeBack = true → rn = 15#4 → exec i s = .refused .r15Operand) ∧
      (a.writeBack = true → rn ≠ 15#4 → rn = rd → exec i s = .refused .overlappingRegisters) ∧
      (baseOk a.writeBack rn rd →
        (rd = 15#4 → i ∉ [.ldrImm c idx u rn rd off12, .strImm c idx u rn rd off12] → exec i s = .refused .r15Operand) ∧
        (rd ≠ 15#4 → w = .half → a.address.toNat % 2 = 1 → exec i s = .refused .misalignedHalfword))) ∧
    (∀ (idx : Index) (u : Bool) (n : BitVec 5) (k : Access) (w : Width) (priv : Bool) (a : Address),
      (i, k, w, priv, a) ∈ s.regTransfers c idx u rn rd n sh rm →
      ((rm = 15#4 ∨ a.writeBack = true ∧ rn = 15#4) → exec i s = .refused .r15Operand) ∧
      (a.writeBack = true → rm ≠ 15#4 → rn ≠ 15#4 → (rn = rd ∨ rm = rn) → exec i s = .refused .overlappingRegisters) ∧
      (regBaseOk a.writeBack rn rd rm →
        (rd = 15#4 → i ∉ [.ldrReg c idx u rn rd n sh rm, .strReg c idx u rn rd n sh rm] →
          exec i s = .refused .r15Operand) ∧
        (rd ≠ 15#4 → w = .half → a.address.toNat % 2 = 1 → exec i s = .refused .misalignedHalfword))) ∧
    (∀ (ro rb rt : LowReg) (imm5 : BitVec 5) (imm8 : BitVec 8) (k : Access) (a : Word),
      (i, k, .half, a) ∈ s.thumbTransfers ro rb rt imm5 imm8 → a.toNat % 2 = 1 →
      exec i s = .refused .misalignedHalfword) ∧
    (∀ (idx : Index) (u : Bool) (off8 : BitVec 8),
      (i ∈ [.ldrdImm c idx u rn rd off8, .strdImm c idx u rn rd off8] → writesBack idx = true →
        (rn = 15#4 → exec i s = .refused .r15Operand) ∧
        (rn ≠ 15#4 → rn ∈ [rd, rd + 1] → exec i s = .refused .overlappingRegisters)) ∧
      (i ∈ [.ldrdReg c idx u rn rd rm, .strdReg c idx u rn rd rm] →
        (rm = 15#4 → exec i s = .refused .r15Operand) ∧
        (rm ≠ 15#4 → rm ∈ [rd, rd + 1] → exec i s = .refused .overlappingRegisters) ∧
        (rm ∉ [15#4, rd, rd + 1] → writesBack idx = true →
          (rn = 15#4 → exec i s = .refused .r15Operand) ∧
          (rn ≠ 15#4 → rn ∈ [rd, rd + 1, rm] → exec i s = .refused .overlappingRegisters)))) ∧
    (∀ (p u wb : Bool) (list : BitVec 16) (list15 : BitVec 15),
      (rn = 15#4 → i ∈ [.ldm c p u wb rn list, .ldmUser c p u rn list15, .ldmRestore c p u wb rn list15,
        .stm c p u wb rn list, .stmUser c p u rn list] → exec i s = .refused .r15Operand) ∧
      (rn ≠ 15#4 → i ∈ [.ldm c p u wb rn 0#16, .ldmUser c p u rn 0#15, .stm c p u wb rn 0#16, .stmUser c p u rn 0#16] →
        exec i s = .refused .emptyRegisterList) ∧
      (rn ≠ 15#4 → wb = true → (list.getLsbD rn.toNat = true ∧ i = .ldm c p u wb rn list ∨
        list15.getLsbD rn.toNat = true ∧ i = .ldmRestore c p u wb rn list15) → exec i s = .refused .baseInList))

/-- The shifter operand, format by format and amount by amount, with its carry. -/
def Obligations.ShifterOperands : Prop :=
  (∀ (s : State) (rot : BitVec 4) (imm8 : BitVec 8),
    (s.immOperand rot imm8).value = (imm8.setWidth 32).rotateRight (2 * rot.toNat) ∧
    (rot = 0#4 → (s.immOperand rot imm8).carry = psrC s.cpsr) ∧
    (rot ≠ 0#4 → (s.immOperand rot imm8).carry = (s.immOperand rot imm8).value.msb)) ∧
  (∀ s : State, psrT s.cpsr = false → s.reg 15#4 = s.pc + 8) ∧
  (∀ (s : State) (rm : Reg) (n : BitVec 5) (v : Word), v = s.reg rm →
    s.shiftOperand rm .lsl 0#5 = ⟨v, psrC s.cpsr⟩ ∧
    s.shiftOperand rm .lsr 0#5 = ⟨0#32, v.msb⟩ ∧
    s.shiftOperand rm .asr 0#5 = ⟨if v.msb then 0xFFFFFFFF#32 else 0#32, v.msb⟩ ∧
    s.shiftOperand rm .ror 0#5 =
      ⟨((BitVec.ofBool (psrC s.cpsr)).setWidth 32 <<< 31) ||| (v >>> 1), v.getLsbD 0⟩ ∧
    (n ≠ 0#5 →
      s.shiftOperand rm .lsl n = ⟨v <<< n.toNat, v.getLsbD (32 - n.toNat)⟩ ∧
      s.shiftOperand rm .lsr n = ⟨v >>> n.toNat, v.getLsbD (n.toNat - 1)⟩ ∧
      s.shiftOperand rm .asr n = ⟨v.sshiftRight n.toNat, v.getLsbD (n.toNat - 1)⟩ ∧
      s.shiftOperand rm .ror n = ⟨v.rotateRight n.toNat, v.getLsbD (n.toNat - 1)⟩)) ∧
  (∀ (s : State) (rm rs : Reg) (v : Word) (n : Nat), v = s.reg rm → n = (s.reg rs).toNat % 256 →
    (n = 0 → ∀ sh, s.regShiftOperand rm rs sh = ⟨v, psrC s.cpsr⟩) ∧
    (1 ≤ n ∧ n ≤ 31 →
      s.regShiftOperand rm rs .lsl = ⟨v <<< n, v.getLsbD (32 - n)⟩ ∧
      s.regShiftOperand rm rs .lsr = ⟨v >>> n, v.getLsbD (n - 1)⟩ ∧
      s.regShiftOperand rm rs .asr = ⟨v.sshiftRight n, v.getLsbD (n - 1)⟩) ∧
    (n = 32 → s.regShiftOperand rm rs .lsl = ⟨0#32, v.getLsbD 0⟩ ∧
      s.regShiftOperand rm rs .lsr = ⟨0#32, v.getLsbD 31⟩) ∧
    (33 ≤ n → s.regShiftOperand rm rs .lsl = ⟨0#32, false⟩ ∧ s.regShiftOperand rm rs .lsr = ⟨0#32, false⟩) ∧
    (32 ≤ n → s.regShiftOperand rm rs .asr = ⟨if v.msb then 0xFFFFFFFF#32 else 0#32, v.msb⟩) ∧
    (n ≠ 0 → n % 32 = 0 → s.regShiftOperand rm rs .ror = ⟨v, v.msb⟩) ∧
    (n % 32 ≠ 0 → s.regShiftOperand rm rs .ror = ⟨v.rotateRight (n % 32), v.getLsbD (n % 32 - 1)⟩))

/-- The arithmetic helper functions: AddWithCarry with the carry of a subtraction read as NOT borrow, SignedSat32 and the
five shifts, as numbers. -/
def Obligations.HelperFunctions : Prop :=
  (∀ (a b : Word) (cin : Bool),
    (addWithCarry a b cin).value.toNat = (a.toNat + b.toNat + cin.toNat) % 2 ^ 32 ∧
    ((addWithCarry a b cin).carry = true ↔ 2 ^ 32 ≤ a.toNat + b.toNat + cin.toNat) ∧
    ((addWithCarry a b cin).overflow = true ↔
      a.toInt + b.toInt + (cin.toNat : Int) ≠ (addWithCarry a b cin).value.toInt)) ∧
  (∀ (a b : Word) (cf : Bool),
    (subtract a b).value = a - b ∧ ((subtract a b).carry = true ↔ b.toNat ≤ a.toNat) ∧
    (subtractCarry a b cf).value = a - b - (if cf then 0 else 1) ∧
    ((subtractCarry a b cf).carry = true ↔ b.toNat + (if cf then 0 else 1) ≤ a.toNat)) ∧
  (∀ i : Int,
    (2 ^ 31 - 1 < i → signedSat32 i = (0x7FFFFFFF#32, true)) ∧
    (i < -2 ^ 31 → signedSat32 i = (0x80000000#32, true)) ∧
    (-2 ^ 31 ≤ i ∧ i ≤ 2 ^ 31 - 1 → signedSat32 i = (BitVec.ofInt 32 i, false) ∧ (signedSat32 i).1.toInt = i)) ∧
  (∀ (v : Word) (n : Nat) (cf : Bool), 1 ≤ n → n ≤ 32 →
    (shiftLsl v n cf).value.toNat = v.toNat * 2 ^ n % 2 ^ 32 ∧ (shiftLsl v n cf).carry = v.getLsbD (32 - n) ∧
    (shiftLsr v n cf).value.toNat = v.toNat / 2 ^ n ∧ (shiftLsr v n cf).carry = v.getLsbD (n - 1) ∧
    (shiftAsr v n cf).value.toInt = v.toInt / 2 ^ n ∧ (shiftAsr v n cf).carry = v.getLsbD (n - 1)) ∧
  (∀ (v : Word) (n : Nat) (cf : Bool), 1 ≤ n → n ≤ 31 →
    (shiftRor v n cf).value = (v >>> n) ||| (v <<< (32 - n)) ∧ (shiftRor v n cf).carry = v.getLsbD (n - 1)) ∧
  (∀ (v : Word) (cf : Bool),
    (shiftRrx v cf).value = ((BitVec.ofBool cf).setWidth 32 <<< 31) ||| (v >>> 1) ∧
    (shiftRrx v cf).carry = v.getLsbD 0)

/-! ### ARM multiplies, saturating arithmetic, CLZ -/

/-- MUL and MLA: the low 32 bits of the product, and of the product plus Rn; with S = 1 N and Z follow the result, C, V, Q
and everything else are kept. No register is r15, and Rd is not Rm. -/
def Obligations.Multiplies : Prop :=
  ∀ (s : State) (c : Cond) (sb : Bool) (rd rn rs rm : Reg) (i : Instr) (v : Word),
    condPassed c s.cpsr = true → 15#4 ∉ [rd, rn, rs, rm] → rd ≠ rm →
    (i, v) ∈ [(.mul c sb rd rs rm, s.reg rm * s.reg rs), (.mla c sb rd rn rs rm, s.reg rm * s.reg rs + s.reg rn)] →
    ∃ t, exec i s = .next t ∧ t.reg rd = v ∧ s.onlyWrites t [rd] (if sb then [31, 30] else []) ∧
      (sb = true → flagsNZ t.cpsr v)

/-- UMULL, UMLAL, SMULL and SMLAL: the high word of the 64-bit result goes to RdHi and the low word to RdLo; with S = 1 N
and Z follow the 64-bit result, everything else is kept. No register is r15; RdHi, RdLo and Rm differ. -/
def Obligations.LongMultiplies : Prop :=
  ∀ (s : State) (c : Cond) (sb : Bool) (hi lo rs rm : Reg) (i : Instr) (p : BitVec 64),
    condPassed c s.cpsr = true → 15#4 ∉ [hi, lo, rs, rm] → hi ≠ lo → hi ≠ rm → lo ≠ rm →
    (i = .umull c sb hi lo rs rm ∧ p.toNat = (s.reg rm).toNat * (s.reg rs).toNat ∨
      i = .umlal c sb hi lo rs rm ∧ p.toNat =
        ((s.reg rm).toNat * (s.reg rs).toNat + ((s.reg hi).toNat * 2 ^ 32 + (s.reg lo).toNat)) % 2 ^ 64 ∨
      i = .smull c sb hi lo rs rm ∧ p.toInt = (s.reg rm).toInt * (s.reg rs).toInt ∨
      i = .smlal c sb hi lo rs rm ∧
        p = BitVec.ofInt 64 ((s.reg rm).toInt * (s.reg rs).toInt + (s.reg hi).toInt * 2 ^ 32 + (s.reg lo).toNat)) →
    ∃ t, exec i s = .next t ∧ t.reg hi = p.extractLsb' 32 32 ∧ t.reg lo = p.extractLsb' 0 32 ∧
      s.onlyWrites t [hi, lo] (if sb then [31, 30] else []) ∧
      (sb = true → psrN t.cpsr = p.msb ∧ psrZ t.cpsr = (p == 0#64))

/-- The 16-bit signed multiplies. SMULxy and SMULWy write their product (the W forms bits [47:16] of it). SMLAxy and
SMLAWy add Rn, wrap, and set Q where the sum is no 32-bit signed number; they never clear Q. SMLALxy adds to a 64-bit
register pair and leaves Q alone. No register is r15. -/
def Obligations.HalfwordMultiplies : Prop :=
  ∀ (s : State) (c : Cond) (rd rn rs rm : Reg) (x y : Bool),
    condPassed c s.cpsr = true → 15#4 ∉ [rd, rn, rs, rm] →
    (∀ (i : Instr) (v : Word),
      (i, v) ∈ [(.smulXY c rd rs y x rm, BitVec.ofInt 32 (halfInt (s.reg rm) x * halfInt (s.reg rs) y)),
        (.smulWY c rd rs y rm, BitVec.ofInt 32 ((s.reg rm).toInt * halfInt (s.reg rs) y / 2 ^ 16))] →
      ∃ t, exec i s = .next t ∧ t.reg rd = v ∧ s.onlyWrites t [rd] []) ∧
    (∀ (i : Instr) (sum : Int),
      (i, sum) ∈ [(.smlaXY c rd rn rs y x rm, halfInt (s.reg rm) x * halfInt (s.reg rs) y + (s.reg rn).toInt),
        (.smlaWY c rd rn rs y rm, (s.reg rm).toInt * halfInt (s.reg rs) y / 2 ^ 16 + (s.reg rn).toInt)] →
      ∃ t, exec i s = .next t ∧ t.reg rd = BitVec.ofInt 32 sum ∧ s.onlyWrites t [rd] [27] ∧
        (psrQ t.cpsr = true ↔ psrQ s.cpsr = true ∨ sum < -2 ^ 31 ∨ 2 ^ 31 ≤ sum)) ∧
    (rd ≠ rn → ∃ t, exec (.smlalXY c rd rn rs y x rm) s = .next t ∧
      t.reg rd ++ t.reg rn = BitVec.ofInt 64 ((s.reg rd).toInt * 2 ^ 32 + (s.reg rn).toNat +
        halfInt (s.reg rm) x * halfInt (s.reg rs) y) ∧
      s.onlyWrites t [rd, rn] [])

/-- QADD, QSUB, QDADD and QDSUB: Rm plus or minus Rn, or Rn doubled, each time held between -2^31 and 2^31 - 1; Q is
set where a bound was used and kept otherwise. No register is r15. -/
def Obligations.SaturatingArithmetic : Prop :=
  ∀ (s : State) (c : Cond) (rn rd rm : Reg) (i : Instr) (b e : Int),
    condPassed c s.cpsr = true → 15#4 ∉ [rn, rd, rm] →
    (i = .qadd c rn rd rm ∧ b = (s.reg rn).toInt ∧ e = (s.reg rm).toInt + max (-2 ^ 31) (min (2 ^ 31 - 1) b) ∨
      i = .qsub c rn rd rm ∧ b = (s.reg rn).toInt ∧ e = (s.reg rm).toInt - max (-2 ^ 31) (min (2 ^ 31 - 1) b) ∨
      i = .qdadd c rn rd rm ∧ b = 2 * (s.reg rn).toInt ∧ e = (s.reg rm).toInt + max (-2 ^ 31) (min (2 ^ 31 - 1) b) ∨
      i = .qdsub c rn rd rm ∧ b = 2 * (s.reg rn).toInt ∧ e = (s.reg rm).toInt - max (-2 ^ 31) (min (2 ^ 31 - 1) b)) →
    ∃ t, exec i s = .next t ∧ (t.reg rd).toInt = max (-2 ^ 31) (min (2 ^ 31 - 1) e) ∧ s.onlyWrites t [rd] [27] ∧
      (psrQ t.cpsr = true ↔ psrQ s.cpsr = true ∨ b < -2 ^ 31 ∨ 2 ^ 31 ≤ b ∨ e < -2 ^ 31 ∨ 2 ^ 31 ≤ e)

/-- CLZ: the number of zero bits of Rm above its highest one, 32 where Rm is 0; no flag changes. No register is r15. -/
def Obligations.CountLeadingZeros : Prop :=
  ∀ (s : State) (c : Cond) (rd rm : Reg), condPassed c s.cpsr = true → rd ≠ 15#4 → rm ≠ 15#4 →
    ∃ t, exec (.clz c rd rm) s = .next t ∧ s.onlyWrites t [rd] [] ∧
      (t.reg rd).toNat ≤ 32 ∧ (∀ k, 32 ≤ k + (t.reg rd).toNat → (s.reg rm).getLsbD k = false) ∧
      ((t.reg rd).toNat < 32 → (s.reg rm).getLsbD (31 - (t.reg rd).toNat) = true)

/-! ### Status registers -/

/-- MRS: all 32 bits of the CPSR, in every mode, or of the SPSR of the current mode, go to Rd, and no flag changes.
Without an SPSR, and with Rd = 15, it is refused. -/
def Obligations.MrsReads : Prop :=
  ∀ (s : State) (c : Cond) (rd : Reg), condPassed c s.cpsr = true →
    (rd ≠ 15#4 → ∃ t, exec (.mrs c false rd) s = .next t ∧ t.reg rd = s.cpsr ∧ s.onlyWrites t [rd] []) ∧
    (∀ p, rd ≠ 15#4 → s.spsr.get s.mode = some p →
      ∃ t, exec (.mrs c true rd) s = .next t ∧ t.reg rd = p ∧ s.onlyWrites t [rd] []) ∧
    (rd ≠ 15#4 → (s.mode = .usr ∨ s.mode = .sys) → exec (.mrs c true rd) s = .refused .noSpsr) ∧
    (∀ r, rd = 15#4 → exec (.mrs c r rd) s = .refused .r15Operand)

/-- MSR, from a register other than r15 or from an immediate. To the CPSR in a privileged mode: the bits of the
selected bytes but J and T, and refused where the operand would set one of these (U7, log entry 9); in User mode: N, Z,
C, V and Q, with the flags byte selected. To the SPSR of the current mode: every bit of the selected bytes; refused
where there is none (U4). No register and nothing else changes. -/
def Obligations.MsrWrites : Prop :=
  ∀ (s : State) (c : Cond) (r : Bool) (mask rot : BitVec 4) (imm8 : BitVec 8) (rm : Reg) (i : Instr) (v : Word),
    condPassed c s.cpsr = true →
    (i = .msrReg c r mask rm ∧ rm ≠ 15#4 ∧ v = s.reg rm ∨
      i = .msrImm c r mask rot imm8 ∧ v = (imm8.setWidth 32).rotateRight (2 * rot.toNat)) →
    (r = false → s.privileged = true →
      ((mask.getLsbD 3 = true ∧ psrJ v = true ∨ mask.getLsbD 0 = true ∧ psrT v = true) →
        exec i s = .refused .msrSetsStateBits) ∧
      (¬(mask.getLsbD 3 = true ∧ psrJ v = true ∨ mask.getLsbD 0 = true ∧ psrT v = true) →
        ∃ t, exec i s = .next t ∧ t.pc = s.nextPc ∧ t.regs = s.regs ∧ s.systemKept t ∧ s.coprocessorsKept t ∧
          s.memoryKept t ∧ ∀ k < 32, t.cpsr.getLsbD k =
            if mask.getLsbD (k / 8) = true ∧ k ≠ 24 ∧ k ≠ 5 then v.getLsbD k else s.cpsr.getLsbD k)) ∧
    (r = false → s.privileged = false →
      ∃ t, exec i s = .next t ∧ t.pc = s.nextPc ∧ t.regs = s.regs ∧ s.systemKept t ∧ s.coprocessorsKept t ∧
        s.memoryKept t ∧ ∀ k < 32, t.cpsr.getLsbD k =
          if mask.getLsbD 3 = true ∧ 27 ≤ k then v.getLsbD k else s.cpsr.getLsbD k) ∧
    (r = true → s.spsr.get s.mode = none → exec i s = .refused .noSpsr) ∧
    (∀ p, r = true → s.spsr.get s.mode = some p →
      ∃ t q, exec i s = .next t ∧ t.pc = s.nextPc ∧ t.regs = s.regs ∧ t.cpsr = s.cpsr ∧ t.dcc = s.dcc ∧
        t.config = s.config ∧ t.pins = s.pins ∧ t.userLdm = s.userLdm ∧ t.fetched = s.fetched ∧
        s.coprocessorsKept t ∧ s.memoryKept t ∧ t.spsr.get s.mode = some q ∧
        (∀ m, m ≠ s.mode → t.spsr.get m = s.spsr.get m) ∧
        ∀ k < 32, q.getLsbD k = if mask.getLsbD (k / 8) = true then v.getLsbD k else p.getLsbD k)

/-! ### ARM branches -/

/-- B goes to the address of the instruction plus 8 plus four times the signed offset, modulo 2^32; BL also writes the
address of the next instruction to r14 of the current mode. No flag and nothing else changes. -/
def Obligations.ArmBranches : Prop :=
  ∀ (s : State) (c : Cond) (imm24 : BitVec 24) (target : Word), condPassed c s.cpsr = true →
    target = BitVec.ofInt 32 (s.pc.toNat + 8 + 4 * imm24.toInt) →
    (∃ t, exec (.b c imm24) s = .next t ∧ s.onlyJumps t target [] []) ∧
    (∃ t, exec (.bl c imm24) s = .next t ∧ t.reg 14#4 = s.pc + 4 ∧ s.onlyJumps t target [14#4] [])

/-- BX and BLX with a register take T from bit 0 of the register and the PC from the rest; BLX also writes the address of
the next instruction to r14, after the target is read. A target with bits [1:0] = 10 is refused, and so is BLX of r15. BLX
with an offset always goes to Thumb state. -/
def Obligations.BranchExchange : Prop :=
  ∀ (s : State) (c : Cond) (rm : Reg) (h : Bool) (imm24 : BitVec 24) (v : Word), v = s.reg rm →
    (condPassed c s.cpsr = true → v.toNat % 4 ≠ 2 →
      (∃ t, exec (.bx c rm) s = .next t ∧ psrT t.cpsr = v.getLsbD 0 ∧ s.onlyJumps t (v - v % 2) [] [5]) ∧
      (rm ≠ 15#4 → ∃ t, exec (.blxReg c rm) s = .next t ∧ t.reg 14#4 = s.pc + 4 ∧ psrT t.cpsr = v.getLsbD 0 ∧
        s.onlyJumps t (v - v % 2) [14#4] [5])) ∧
    (condPassed c s.cpsr = true → v.toNat % 4 = 2 → exec (.bx c rm) s = .refused .armTargetBit1 ∧
      (rm ≠ 15#4 → exec (.blxReg c rm) s = .refused .armTargetBit1)) ∧
    (condPassed c s.cpsr = true → rm = 15#4 → exec (.blxReg c rm) s = .refused .r15Operand) ∧
    (∃ t, exec (.blxImm h imm24) s = .next t ∧ t.reg 14#4 = s.pc + 4 ∧ psrT t.cpsr = true ∧
      s.onlyJumps t (BitVec.ofInt 32 (s.pc.toNat + 8 + 4 * imm24.toInt + 2 * (h.toNat : Int))) [14#4] [5])

/-- BXJ does nothing but go on where its condition fails, and is refused where it passes: the spec gives it no further
meaning (D1). -/
def Obligations.BxjByCondition : Prop :=
  ∀ (s : State) (c : Cond) (rm : Reg),
    (condPassed c s.cpsr = false → ∃ t, exec (.bxj c rm) s = .next t ∧ s.onlyWrites t [] []) ∧
    (condPassed c s.cpsr = true → exec (.bxj c rm) s = .refused .jazelleEntry)

/-! ### ARM loads and stores -/

/-- The single loads with a destination other than r15. LDR and LDRT load the aligned word, rotated right by eight times
the two low address bits; LDRB and LDRBT a byte, LDRH an even halfword, zero-extended; LDRSB and LDRSH sign-extended. The T
forms access with User privilege. The base is written back where the addressing mode says so. Addressing modes 2 and 3
(R223, R224), for these and the other single and doubleword transfers: the offset is the immediate, the shifted register
without its carry, or the register; it is added or subtracted; the offset and pre-indexed forms use the sum and the
post-indexed ones the base; and the last two write the sum back. -/
def Obligations.SingleLoads : Prop :=
  (∀ (s : State) (idx : Index) (u : Bool) (rn rm : Reg) (off12 : BitVec 12) (off8 : BitVec 8) (n : BitVec 5) (sh : Shift)
      (a : Address) (off : Word),
    (a, off) ∈ [(s.immAddress idx u rn off12, off12.setWidth 32), (s.immAddress idx u rn off8, off8.setWidth 32),
      (s.shiftAddress idx u rn n sh rm, (s.shiftOperand rm sh n).value), (s.regAddress idx u rn rm, s.reg rm)] →
    a.target = (if u then s.reg rn + off else s.reg rn - off) ∧
    a.address = (if idx = .post then s.reg rn else a.target) ∧ a.writeBack = decide (idx ≠ .offset) ∧
    writesBack idx = a.writeBack) ∧
  ∀ (s : State) (c : Cond) (idx : Index) (u : Bool) (rn rd rm : Reg) (off12 : BitVec 12) (off8 : BitVec 8)
    (n : BitVec 5) (sh : Shift) (i : Instr) (a : Address) (v w : Word) (h : Half) (b : Byte),
    condPassed c s.cpsr = true → rd ≠ 15#4 →
    ((s.readsWord s.privileged a.address w ∧ v = w.rotateRight (8 * (a.address.toNat % 4)) ∧
        (a = s.immAddress idx u rn off12 ∧ baseOk (writesBack idx) rn rd ∧ i = .ldrImm c idx u rn rd off12 ∨
          a = s.shiftAddress idx u rn n sh rm ∧ regBaseOk (writesBack idx) rn rd rm ∧
            i = .ldrReg c idx u rn rd n sh rm)) ∨
      (s.readsWord false a.address w ∧ v = w.rotateRight (8 * (a.address.toNat % 4)) ∧
        (a = s.immAddress .post u rn off12 ∧ baseOk true rn rd ∧ i = .ldrtImm c u rn rd off12 ∨
          a = s.shiftAddress .post u rn n sh rm ∧ regBaseOk true rn rd rm ∧ i = .ldrtReg c u rn rd n sh rm)) ∨
      (s.readsByte s.privileged a.address b ∧ v = b.setWidth 32 ∧
        (a = s.immAddress idx u rn off12 ∧ baseOk (writesBack idx) rn rd ∧ i = .ldrbImm c idx u rn rd off12 ∨
          a = s.shiftAddress idx u rn n sh rm ∧ regBaseOk (writesBack idx) rn rd rm ∧
            i = .ldrbReg c idx u rn rd n sh rm)) ∨
      (s.readsByte false a.address b ∧ v = b.setWidth 32 ∧
        (a = s.immAddress .post u rn off12 ∧ baseOk true rn rd ∧ i = .ldrbtImm c u rn rd off12 ∨
          a = s.shiftAddress .post u rn n sh rm ∧ regBaseOk true rn rd rm ∧ i = .ldrbtReg c u rn rd n sh rm)) ∨
      (s.readsByte s.privileged a.address b ∧ v = b.signExtend 32 ∧
        (a = s.immAddress idx u rn off8 ∧ baseOk (writesBack idx) rn rd ∧ i = .ldrsbImm c idx u rn rd off8 ∨
          a = s.regAddress idx u rn rm ∧ regBaseOk (writesBack idx) rn rd rm ∧ i = .ldrsbReg c idx u rn rd rm)) ∨
      (a.address.toNat % 2 = 0 ∧ s.readsHalf s.privileged a.address h ∧
        (a = s.immAddress idx u rn off8 ∧ baseOk (writesBack idx) rn rd ∧
            (i = .ldrhImm c idx u rn rd off8 ∧ v = h.setWidth 32 ∨
              i = .ldrshImm c idx u rn rd off8 ∧ v = h.signExtend 32) ∨
          a = s.regAddress idx u rn rm ∧ regBaseOk (writesBack idx) rn rd rm ∧
            (i = .ldrhReg c idx u rn rd rm ∧ v = h.setWidth 32 ∨
              i = .ldrshReg c idx u rn rd rm ∧ v = h.signExtend 32)))) →
    ∃ t, exec i s = .next t ∧ t.reg rd = v ∧ (a.writeBack = true → t.reg rn = a.target) ∧
      s.onlyWrites t (withBase a rn [rd]) []

/-- LDR to r15 from a word-aligned address branches to the word loaded and takes T from its bit 0; a word with bits
[1:0] = 10 is refused, and so is an address that is not word-aligned. The addressing modes are those of SingleLoads. -/
def Obligations.LoadToPc : Prop :=
  ∀ (s : State) (c : Cond) (idx : Index) (u : Bool) (rn rm : Reg) (off12 : BitVec 12) (n : BitVec 5) (sh : Shift)
    (i : Instr) (a : Address) (w : Word),
    condPassed c s.cpsr = true → s.readsWord s.privileged a.address w →
    (a = s.immAddress idx u rn off12 ∧ baseOk (writesBack idx) rn 15#4 ∧ i = .ldrImm c idx u rn 15#4 off12 ∨
      a = s.shiftAddress idx u rn n sh rm ∧ regBaseOk (writesBack idx) rn 15#4 rm ∧
        i = .ldrReg c idx u rn 15#4 n sh rm) →
    (a.address.toNat % 4 ≠ 0 → exec i s = .refused .misalignedPcLoad) ∧
    (a.address.toNat % 4 = 0 → w.toNat % 4 = 2 → exec i s = .refused .armTargetBit1) ∧
    (a.address.toNat % 4 = 0 → w.toNat % 4 ≠ 2 →
      ∃ t, exec i s = .next t ∧ psrT t.cpsr = w.getLsbD 0 ∧ (a.writeBack = true → t.reg rn = a.target) ∧
        s.onlyJumps t (w - w % 2) (withBase a rn []) [5])

/-- The single stores. STR stores the register, or for r15 the address of the instruction plus STORE_PC_OFFSET, at the
address with its two low bits ignored; STRT the same with User privilege and not for r15; STRB and STRBT the low byte, STRH
the low halfword at an even address. The base is written back where the addressing mode says so; no other byte and no
flag changes. A store to a byte that has been executed as an instruction is refused (R80, D7). -/
def Obligations.SingleStores : Prop :=
  ∀ (s : State) (c : Cond) (idx : Index) (u : Bool) (rn rd rm : Reg) (off12 : BitVec 12) (off8 : BitVec 8)
    (n : BitVec 5) (sh : Shift) (i : Instr) (a : Address) (v : Word) (w : Width) (priv : Bool),
    condPassed c s.cpsr = true →
    (v = (if rd = 15#4 then s.pc + (if s.config.storePc12 then 12 else 8) else s.reg rd)) →
    ((s.storesWord s.privileged a.address ∧
        (a = s.immAddress idx u rn off12 ∧ baseOk (writesBack idx) rn rd ∧ i = .strImm c idx u rn rd off12 ∨
          a = s.shiftAddress idx u rn n sh rm ∧ regBaseOk (writesBack idx) rn rd rm ∧
            i = .strReg c idx u rn rd n sh rm) ∨
      s.storesWord false a.address ∧ rd ≠ 15#4 ∧
        (a = s.immAddress .post u rn off12 ∧ baseOk true rn rd ∧ i = .strtImm c u rn rd off12 ∨
          a = s.shiftAddress .post u rn n sh rm ∧ regBaseOk true rn rd rm ∧ i = .strtReg c u rn rd n sh rm)) →
      ∃ t, exec i s = .next t ∧ t.wordAt (a.address - a.address % 4) = some v ∧
        (a.writeBack = true → t.reg rn = a.target) ∧
        s.onlyStores t (withBase a rn []) (a.address - a.address % 4) 4) ∧
    (rd ≠ 15#4 → (s.stores .byte s.privileged a.address ∧
        (a = s.immAddress idx u rn off12 ∧ baseOk (writesBack idx) rn rd ∧ i = .strbImm c idx u rn rd off12 ∨
          a = s.shiftAddress idx u rn n sh rm ∧ regBaseOk (writesBack idx) rn rd rm ∧
            i = .strbReg c idx u rn rd n sh rm) ∨
      s.stores .byte false a.address ∧
        (a = s.immAddress .post u rn off12 ∧ baseOk true rn rd ∧ i = .strbtImm c u rn rd off12 ∨
          a = s.shiftAddress .post u rn n sh rm ∧ regBaseOk true rn rd rm ∧ i = .strbtReg c u rn rd n sh rm)) →
      ∃ t, exec i s = .next t ∧ t.byteAt a.address = some (v.setWidth 8) ∧
        (a.writeBack = true → t.reg rn = a.target) ∧ s.onlyStores t (withBase a rn []) a.address 1) ∧
    (rd ≠ 15#4 → a.address.toNat % 2 = 0 → s.stores .half s.privileged a.address →
      (a = s.immAddress idx u rn off8 ∧ baseOk (writesBack idx) rn rd ∧ i = .strhImm c idx u rn rd off8 ∨
        a = s.regAddress idx u rn rm ∧ regBaseOk (writesBack idx) rn rd rm ∧ i = .strhReg c idx u rn rd rm) →
      ∃ t, exec i s = .next t ∧ t.halfAt a.address = some (v.setWidth 16) ∧
        (a.writeBack = true → t.reg rn = a.target) ∧ s.onlyStores t (withBase a rn []) a.address 2) ∧
    ((rd = 15#4 → i ∈ [.strImm c idx u rn rd off12, .strReg c idx u rn rd n sh rm]) → accessAllowed w a.address →
      ((i, .write, w, priv, a) ∈ s.immTransfers c idx u rn rd off12 off8 ∧ baseOk a.writeBack rn rd ∨
        (i, .write, w, priv, a) ∈ s.regTransfers c idx u rn rd n sh rm ∧ regBaseOk a.writeBack rn rd rm) →
      s.aborts .write w (accessPlace w a.address) priv = false →
      overlaps s.fetched (accessPlace w a.address).toNat w.bytes = true → exec i s = .refused .storeToFetched)

/-- LDRD and STRD of an even pair below r14 at an address that is a multiple of 8: the even register and the word at the
lower address go together. An odd register or r14, and another address, are refused. -/
def Obligations.DoublewordTransfers : Prop :=
  ∀ (s : State) (c : Cond) (idx : Index) (u : Bool) (rn rd rm : Reg) (off8 : BitVec 8) (i j : Instr) (a : Address),
    condPassed c s.cpsr = true →
    (a = s.immAddress idx u rn off8 ∧ i = .ldrdImm c idx u rn rd off8 ∧ j = .strdImm c idx u rn rd off8 ∧
        (writesBack idx = true → 15#4 ≠ rn ∧ rn ≠ rd ∧ rn ≠ rd + 1) ∨
      a = s.regAddress idx u rn rm ∧ i = .ldrdReg c idx u rn rd rm ∧ j = .strdReg c idx u rn rd rm ∧
        15#4 ≠ rm ∧ rm ≠ rd ∧ rm ≠ rd + 1 ∧
        (writesBack idx = true → 15#4 ≠ rn ∧ rn ≠ rd ∧ rn ≠ rd + 1 ∧ rm ≠ rn)) →
    ((rd.toNat % 2 = 1 ∨ rd = 14#4) → exec i s = .refused .badRegisterPair ∧ exec j s = .refused .badRegisterPair) ∧
    (rd.toNat % 2 = 0 → rd ≠ 14#4 → a.address.toNat % 8 ≠ 0 →
      exec i s = .refused .misalignedDoubleword ∧ exec j s = .refused .misalignedDoubleword) ∧
    (rd.toNat % 2 = 0 → rd ≠ 14#4 → a.address.toNat % 8 = 0 →
      (∀ w0 w1, s.readsWord s.privileged a.address w0 → s.readsWord s.privileged (a.address + 4) w1 →
        ∃ t, exec i s = .next t ∧ t.reg rd = w0 ∧ t.reg (rd + 1) = w1 ∧ (a.writeBack = true → t.reg rn = a.target) ∧
          s.onlyWrites t (withBase a rn [rd, rd + 1]) []) ∧
      (s.storesWord s.privileged a.address → s.storesWord s.privileged (a.address + 4) →
        ∃ t, exec j s = .next t ∧ t.wordAt a.address = some (s.reg rd) ∧
          t.wordAt (a.address + 4) = some (s.reg (rd + 1)) ∧ (a.writeBack = true → t.reg rn = a.target) ∧
          s.onlyStores t (withBase a rn []) a.address 8))

/-! ### ARM multiple transfers, swaps, PLD -/

/-- LDM (1): the listed registers, in rising order, get the words at rising addresses from the start address on, the low
two address bits ignored and nothing rotated; the base is written back with W = 1 (and is then not listed). With r15 in
the list the last word is a branch that takes T from its bit 0; bits [1:0] = 10 are refused. The base is not r15 and the
list is not empty. Addressing mode 4 (R121, R225), for all the multiple transfers: bit r of the list is register r, rising;
the start address and the base written back in the four submodes, for n registers and the base b. -/
def Obligations.LoadMultiple : Prop :=
  (∀ list : BitVec 16, (∀ r, r ∈ listed list ↔ list.getLsbD r.toNat = true) ∧
    (listed list).Pairwise fun q r => q.toNat < r.toNat) ∧
  (∀ (b : Word) (n : Nat),
    multipleStart false true b n = b ∧ multipleStart true true b n = b + 4#32 ∧
    multipleStart false false b n = b - BitVec.ofNat 32 (4 * n) + 4#32 ∧
    multipleStart true false b n = b - BitVec.ofNat 32 (4 * n) ∧
    multipleBase true b n = b + BitVec.ofNat 32 (4 * n) ∧ multipleBase false b n = b - BitVec.ofNat 32 (4 * n)) ∧
  ∀ (s : State) (c : Cond) (p u wb : Bool) (rn : Reg) (list : BitVec 16) (start last : Word) (words : Nat → Word)
    (n : Nat),
    condPassed c s.cpsr = true → rn ≠ 15#4 → list ≠ 0#16 → (wb = true → list.getLsbD rn.toNat = false) →
    n = (listed list).length → start = multipleStart p u (s.reg rn) n →
    (∀ k < n, s.readsWord s.privileged (wordPlace start k) (words k)) → last = words (n - 1) →
    (list.getLsbD 15 = true → last.toNat % 4 = 2 → exec (.ldm c p u wb rn list) s = .refused .armTargetBit1) ∧
    ((list.getLsbD 15 = true → last.toNat % 4 ≠ 2) → ∃ t, exec (.ldm c p u wb rn list) s = .next t ∧
      (∀ k r, (listed list)[k]? = some r → r ≠ 15#4 → t.reg r = words k) ∧
      (wb = true → t.reg rn = multipleBase u (s.reg rn) n) ∧
      (list.getLsbD 15 = false → s.onlyWrites t (if wb then rn :: listed list else listed list) []) ∧
      (list.getLsbD 15 = true → psrT t.cpsr = last.getLsbD 0 ∧
        s.onlyJumps t (last - last % 2) (if wb then rn :: listed list else listed list) [5]))

/-- LDM (2), in a mode with an SPSR: the User-bank registers listed get the words at rising addresses; the base is that
of the current mode, is not r15 and is not written; no other register, no flag and no byte changes. The model marks that
the next instruction may not name a banked register (R412). In User and System mode it is refused (U4). -/
def Obligations.LoadMultipleUser : Prop :=
  ∀ (s : State) (c : Cond) (p u : Bool) (rn : Reg) (list : BitVec 15) (start : Word) (words : Nat → Word) (n : Nat),
    condPassed c s.cpsr = true → rn ≠ 15#4 → list ≠ 0#15 →
    n = (listed (list.setWidth 16)).length → start = multipleStart p u (s.reg rn) n →
    (s.spsr.get s.mode = none → exec (.ldmUser c p u rn list) s = .refused .userBankInUserMode) ∧
    (s.spsr.get s.mode ≠ none → (∀ k < n, s.readsWord s.privileged (wordPlace start k) (words k)) →
      ∃ t, exec (.ldmUser c p u rn list) s = .next t ∧ t.pc = s.nextPc ∧ t.cpsr = s.cpsr ∧ t.userLdm = true ∧
        (∀ k r, (listed (list.setWidth 16))[k]? = some r → t.userReg r = words k) ∧
        (∀ q, q ∉ (listed (list.setWidth 16)).filterMap (bank .usr) → t.regs.get q = s.regs.get q) ∧
        t.spsr = s.spsr ∧ t.dcc = s.dcc ∧ t.config = s.config ∧ t.pins = s.pins ∧ t.fetched = s.fetched ∧
        s.coprocessorsKept t ∧ s.memoryKept t)

/-- LDM (3), in a mode with an SPSR: an exception return. The listed registers of the mode it leaves get their words, the
base is written back there with W = 1, the SPSR goes to the CPSR and the last word to the PC, which must be aligned for
the restored state. Without an SPSR it is refused, and so is a return into Jazelle state, J = 1 and T = 0 (D1, U23). -/
def Obligations.LoadMultipleReturn : Prop :=
  ∀ (s : State) (c : Cond) (p u wb : Bool) (rn : Reg) (list : BitVec 15) (start last : Word) (words : Nat → Word)
    (n : Nat),
    condPassed c s.cpsr = true → rn ≠ 15#4 → (wb = true → list.getLsbD rn.toNat = false) →
    n = (listed (withPc list)).length → start = multipleStart p u (s.reg rn) n → last = words (n - 1) →
    (s.spsr.get s.mode = none → exec (.ldmRestore c p u wb rn list) s = .refused .noSpsr) ∧
    (∀ q, s.spsr.get s.mode = some q → (∀ k < n, s.readsWord s.privileged (wordPlace start k) (words k)) →
      (psrJ q = true → psrT q = false → exec (.ldmRestore c p u wb rn list) s = .refused .jazelleEntry) ∧
      (inJazelle q = false → returnAligned q last = false →
        exec (.ldmRestore c p u wb rn list) s = .refused .misalignedReturn) ∧
      (inJazelle q = false → returnAligned q last = true → ∃ t, exec (.ldmRestore c p u wb rn list) s = .next t ∧
        t.cpsr = q ∧ t.pc = last ∧
        (∀ k r x, (listed (withPc list))[k]? = some r → bank s.mode r = some x → t.regs.get x = words k) ∧
        (∀ x, wb = true → bank s.mode rn = some x → t.regs.get x = multipleBase u (s.reg rn) n) ∧
        s.onlyRegs t (if wb then rn :: listed (withPc list) else listed (withPc list)) ∧
        s.systemKept t ∧ s.coprocessorsKept t ∧ s.memoryKept t))

/-- STM (1) and STM (2): the words at rising addresses from the start address on, the low two address bits ignored, are
the listed registers in rising order: those of the current mode for STM (1), those of the User bank for STM (2), and for
r15 the address of the instruction plus STORE_PC_OFFSET. STM (1) with write-back of a listed base that is the lowest
register stores the base as it was; where it is not the lowest the instruction is refused (U9, log entry 10). STM (2) does
not write its base, and is refused in User and System mode. No other byte, no flag and no other register changes. -/
def Obligations.StoreMultiple : Prop :=
  ∀ (s : State) (c : Cond) (p u wb : Bool) (rn : Reg) (list : BitVec 16) (start : Word) (n : Nat),
    condPassed c s.cpsr = true → rn ≠ 15#4 → list ≠ 0#16 →
    n = (listed list).length → start = multipleStart p u (s.reg rn) n →
    (∀ k < n, s.storesWord s.privileged (wordPlace start k)) →
    (wb = true → ¬ lowestIfListed rn (listed list) → exec (.stm c p u wb rn list) s = .refused .baseInList) ∧
    ((wb = true → lowestIfListed rn (listed list)) → ∃ t, exec (.stm c p u wb rn list) s = .next t ∧
      (∀ k r, (listed list)[k]? = some r →
        t.wordAt (wordAlign (wordPlace start k)) =
          some (if r = 15#4 then s.pc + (if s.config.storePc12 then 12 else 8) else s.reg r)) ∧
      (wb = true → t.reg rn = multipleBase u (s.reg rn) n) ∧
      s.onlyStores t (if wb then [rn] else []) (wordAlign start) (4 * n)) ∧
    (s.spsr.get s.mode ≠ none → ∃ t, exec (.stmUser c p u rn list) s = .next t ∧
      (∀ k r, (listed list)[k]? = some r →
        t.wordAt (wordAlign (wordPlace start k)) =
          some (if r = 15#4 then s.pc + (if s.config.storePc12 then 12 else 8) else s.userReg r)) ∧
      s.onlyStores t [] (wordAlign start) (4 * n)) ∧
    (s.spsr.get s.mode = none → exec (.stmUser c p u rn list) s = .refused .userBankInUserMode)

/-- SWP and SWPB: the register Rd gets what memory held and memory gets Rm; the word is read rotated as LDR does and
stored as STR does; both accesses are locked. No flag, no other register and no other byte changes. No register is r15,
and Rn differs from the others. -/
def Obligations.Swaps : Prop :=
  ∀ (s : State) (c : Cond) (rn rd rm : Reg) (a : Word), condPassed c s.cpsr = true → 15#4 ∉ [rn, rd, rm] →
    rn ≠ rm → rn ≠ rd → a = s.reg rn →
    (∀ w, s.readsWord s.privileged a w true → s.storesWord s.privileged a true →
      ∃ t, exec (.swp c rn rd rm) s = .next t ∧ t.reg rd = w.rotateRight (8 * (a.toNat % 4)) ∧
        t.wordAt (a - a % 4) = some (s.reg rm) ∧ s.onlyStores t [rd] (a - a % 4) 4) ∧
    (∀ b, s.readsByte s.privileged a b true → s.stores .byte s.privileged a true →
      ∃ t, exec (.swpb c rn rd rm) s = .next t ∧ t.reg rd = b.setWidth 32 ∧
        t.byteAt a = some ((s.reg rm).setWidth 8) ∧ s.onlyStores t [rd] a 1)

/-- PLD changes nothing but the PC, whatever its address, also where the memory system would abort an access to it; an
offset register of r15 is refused. -/
def Obligations.PreloadNoEffect : Prop :=
  ∀ (s : State) (u : Bool) (rn rm : Reg) (off12 : BitVec 12) (n : BitVec 5) (sh : Shift),
    (∃ t, exec (.pldImm u rn off12) s = .next t ∧ s.onlyWrites t [] []) ∧
    (rm ≠ 15#4 → ∃ t, exec (.pldReg u rn n sh rm) s = .next t ∧ s.onlyWrites t [] []) ∧
    (rm = 15#4 → exec (.pldReg u rn n sh rm) s = .refused .r15Operand)

/-! ### Data Aborts -/

/-- A single load or store, ARM or Thumb, whose access the memory system aborts takes the Data Abort with the link value
PC + 8: its base, its destination and every other register but the link register are as before, and so is memory. Of the
ARM forms those that allow it also have r15 as their register. SWP and SWPB take it for an abort of their read and of
their write. -/
def Obligations.DataAbortKeepsState : Prop :=
  (∀ (s : State) (c : Cond) (idx : Index) (u : Bool) (rn rd rm : Reg) (off12 : BitVec 12) (off8 : BitVec 8)
      (n : BitVec 5) (sh : Shift) (i : Instr) (k : Access) (w : Width) (priv : Bool) (a : Address),
    condPassed c s.cpsr = true →
    (rd = 15#4 → i ∈ [.ldrImm c idx u rn rd off12, .ldrReg c idx u rn rd n sh rm, .strImm c idx u rn rd off12,
      .strReg c idx u rn rd n sh rm]) →
    ((i, k, w, priv, a) ∈ s.immTransfers c idx u rn rd off12 off8 ∧ baseOk a.writeBack rn rd ∨
      (i, k, w, priv, a) ∈ s.regTransfers c idx u rn rd n sh rm ∧ regBaseOk a.writeBack rn rd rm) →
    accessAllowed w a.address → s.aborts k w (accessPlace w a.address) priv = true →
    ∃ t, exec i s = .next t ∧ s.tookException t .dataAbort (s.pc + 8)) ∧
  (∀ (s : State) (ro rb rd : LowReg) (imm5 : BitVec 5) (imm8 : BitVec 8) (i : Instr) (k : Access) (w : Width) (a : Word),
    (i, k, w, a) ∈ s.thumbTransfers ro rb rd imm5 imm8 → accessAllowed w a →
    s.aborts k w (accessPlace w a) s.privileged = true →
    ∃ t, exec i s = .next t ∧ s.tookException t .dataAbort (s.pc + 8)) ∧
  (∀ (s : State) (c : Cond) (rn rd rm : Reg) (i : Instr) (w : Width), condPassed c s.cpsr = true →
    15#4 ∉ [rn, rd, rm] → rn ≠ rm → rn ≠ rd →
    (i, w) ∈ [(.swp c rn rd rm, .word), (.swpb c rn rd rm, .byte)] →
    (s.aborts .read w (accessPlace w (s.reg rn)) s.privileged true = true ∨
      ((∃ v, s.readsWord s.privileged (s.reg rn) v true ∧ w = .word) ∨
        (∃ v, s.readsByte s.privileged (s.reg rn) v true ∧ w = .byte)) ∧
      s.aborts .write w (accessPlace w (s.reg rn)) s.privileged true = true) →
    ∃ t, exec i s = .next t ∧ s.tookException t .dataAbort (s.pc + 8))

/-- A transfer of several words, the one numbered j being the first whose access is aborted, takes the Data Abort. A load
(LDM in its three forms, LDRD, POP, LDMIA) does not load the PC or restore the CPSR; its base, every register not listed but
r14_abt, and memory are as before. What its other listed registers hold is not said: the spec gives them no value (D24,
log entry 11). A store (STM in both forms, STRD, PUSH, STMIA, with the bases they allow) has stored the words before word j and
not that one; no other register than r14_abt changes; of the words after it nothing is said (log entry 11). LDC and STC keep
all registers too, and the coprocessor is told that the transfer is not complete. -/
def Obligations.MultipleTransferAborts : Prop :=
  ∀ (s : State) (c : Cond) (idx : Index) (p u r wb l : Bool) (rn rd rm : Reg) (rb : LowReg) (list : BitVec 16)
    (list15 : BitVec 15) (list8 off8 : BitVec 8) (crd cp : BitVec 4) (a : Address) (i : Instr) (start : Word) (j n : Nat),
    condPassed c s.cpsr = true →
    (∀ (words : Nat → Word) (base : Reg) (regs : List PhysReg), s.readAborts start n j words →
      (rn ≠ 15#4 ∧ base = rn ∧ (wb = true → list.getLsbD rn.toNat = false) ∧ n = (listed list).length ∧
          start = multipleStart p u (s.reg rn) n ∧ regs = s.physical (listed list) ∧ i = .ldm c p u wb rn list ∨
        rn ≠ 15#4 ∧ base = rn ∧ s.spsr.get s.mode ≠ none ∧ n = (listed (list15.setWidth 16)).length ∧
          start = multipleStart p u (s.reg rn) n ∧ regs = (listed (list15.setWidth 16)).filterMap (bank .usr) ∧
          i = .ldmUser c p u rn list15 ∨
        rn ≠ 15#4 ∧ base = rn ∧ (wb = true → list15.getLsbD rn.toNat = false) ∧ s.spsr.get s.mode ≠ none ∧
          n = (listed (withPc list15)).length ∧ start = multipleStart p u (s.reg rn) n ∧
          regs = s.physical (listed (withPc list15)) ∧ i = .ldmRestore c p u wb rn list15 ∨
        s.pairTransfer c idx u rn rd rm off8 a i true ∧ base = rn ∧ n = 2 ∧ start = a.address ∧
          regs = s.physical [rd, rd + 1] ∨
        base = 13#4 ∧ n = (thumbListed list8 r 15#4).length ∧ start = s.reg 13#4 ∧
          regs = s.physical (thumbListed list8 r 15#4) ∧ i = .thumbPop r list8 ∨
        base = lowReg rb ∧ n = (thumbListed list8 false 0#4).length ∧ start = s.reg (lowReg rb) ∧
          regs = s.physical (thumbListed list8 false 0#4) ∧ i = .thumbLdmia rb list8) →
      ∃ t, exec i s = .next t ∧ s.loadAborted t base regs) ∧
    (∀ words : Nat → Option Word, s.writeAborts start n j →
      (rn ≠ 15#4 ∧ (wb = true → lowestIfListed rn (listed list)) ∧ n = (listed list).length ∧
          start = multipleStart p u (s.reg rn) n ∧
          (words = fun k => ((listed list)[k]?).map s.storeReg) ∧ i = .stm c p u wb rn list ∨
        rn ≠ 15#4 ∧ s.spsr.get s.mode ≠ none ∧ n = (listed list).length ∧ start = multipleStart p u (s.reg rn) n ∧
          (words = fun k => ((listed list)[k]?).map s.storeUserReg) ∧ i = .stmUser c p u rn list ∨
        s.pairTransfer c idx u rn rd rm off8 a i false ∧ n = 2 ∧ start = a.address ∧
          (words = fun k => [s.reg rd, s.reg (rd + 1)][k]?) ∨
        n = (thumbListed list8 r 14#4).length ∧ start = s.reg 13#4 - BitVec.ofNat 32 (4 * n) ∧
          (words = fun k => ((thumbListed list8 r 14#4)[k]?).map s.reg) ∧ i = .thumbPush r list8 ∨
        lowestIfListed (lowReg rb) (thumbListed list8 false 0#4) ∧ n = (thumbListed list8 false 0#4).length ∧
          start = s.reg (lowReg rb) ∧ (words = fun k => ((thumbListed list8 false 0#4)[k]?).map s.reg) ∧
          i = .thumbStmia rb list8) →
      ∃ t, exec i s = .next t ∧ s.storeAborted t start n j words ∧ t.cpAnswers = s.cpAnswers ∧ t.cpSent = s.cpSent) ∧
    (∀ (first second : Word) (more : List Word) (v : State) (words : Nat → Word), cp ≠ 14#4 →
      s.coprocessor i = (.accept first second more, v) → (wb = true → rn ≠ 15#4) → n = more.length + 1 → n < 2 ^ 29 →
      start = s.cpAddress p u rn off8 →
      ((i = .ldc c p u l wb rn crd cp off8 ∨ i = .ldc2 p u l wb rn crd cp off8) → s.readAborts start n j words →
        ∃ t, exec i s = .next t ∧ s.loadAborted { t with cpAnswers := s.cpAnswers, cpSent := s.cpSent } rn [] ∧
          t.cpAnswers = v.cpAnswers ∧ t.cpSent = s.cpSent ++ [⟨i, s.privileged, (List.range j).map words, false⟩]) ∧
      ((i = .stc c p u l wb rn crd cp off8 ∨ i = .stc2 p u l wb rn crd cp off8) → s.writeAborts start n j →
        ∃ t, exec i s = .next t ∧ s.storeAborted t start n j (fun k => (first :: more)[k]?) ∧
          t.cpAnswers = v.cpAnswers ∧ t.cpSent = s.cpSent ++ [⟨i, s.privileged, [], false⟩]))

/-! ### Coprocessors -/

/-- COPROC: of the rules of the configuration the first that covers the word of an instruction and its privilege counts. It
gives the answer, or leaves it to the coprocessors' own state, the next entry of `cpAnswers`; where no rule covers the
instruction the answer is Absent. A coprocessor instruction other than one of coprocessor 14 that is answered Absent takes
the Undefined instruction exception; one that is answered Wait stays where it is, with no effect, and one that waits for
ever leaves the state as it is. The condition passes where it has one. -/
def Obligations.CoprocessorAbsentOrWaiting : Prop :=
  (∀ (s : State) (i : Instr) (rule : Option CpRule),
    rule = s.config.coprocessors.find? (fun r => (armWord i &&& r.mask == r.pattern) &&
      r.privileged.all (· == s.privileged)) →
    (rule = none → s.coprocessor i = (.absent, s)) ∧
    (∀ r a, rule = some r → r.answer = some a → s.coprocessor i = (a, s)) ∧
    (∀ r a rest, rule = some r → r.answer = none → s.cpAnswers = a :: rest →
      s.coprocessor i = (a, { s with cpAnswers := rest }))) ∧
  (∀ (s v : State) (c : Cond) (o1 crn crd cp crm : BitVec 4) (p1 p2 : BitVec 3) (rd rn : Reg) (p u l wb : Bool)
      (off8 : BitVec 8) (i : Instr),
    condPassed c s.cpsr = true → cp ≠ 14#4 →
    i ∈ [.cdp c o1 crn crd cp p2 crm, .mcr c p1 crn rd cp p2 crm, .mrc c p1 crn rd cp p2 crm, .mcrr c rn rd cp o1 crm,
      .mrrc c rn rd cp o1 crm, .ldc c p u l wb rn crd cp off8, .stc c p u l wb rn crd cp off8,
      .cdp2 o1 crn crd cp p2 crm, .mcr2 p1 crn rd cp p2 crm, .mrc2 p1 crn rd cp p2 crm, .ldc2 p u l wb rn crd cp off8,
      .stc2 p u l wb rn crd cp off8] →
    (s.coprocessor i = (.absent, v) → ∃ t, exec i s = .next t ∧ v.tookException t .undefined s.nextPc ∧
      (∀ q, q ≠ .r14und → t.regs.get q = s.regs.get q) ∧ s.memoryKept t ∧ t.cpSent = s.cpSent) ∧
    (s.coprocessor i = (.wait, v) → ∃ t, exec i s = .next t ∧ t.cpAnswers = v.cpAnswers ∧ t.cpSent = s.cpSent ∧
      t.cpWaiting = true ∧ t.pc = s.pc ∧ t.regs = s.regs ∧ t.cpsr = s.cpsr ∧ s.systemKept t ∧ s.memoryKept t) ∧
    (s.waitsForEver i = true → exec i s = .next { s with cpWaiting := true }))

/-- An accepted coprocessor instruction that accesses no memory. CDP and CDP2 change nothing of the core. MRC and MRC2 give
the coprocessor's word to Rd, or its top four bits to N, Z, C and V for Rd = 15; MRRC its two words to Rd and Rn. MCR and
MCR2 hand Rd over, MCRR Rd and then Rn. The coprocessor gets the instruction with its privilege. With r15 in another
register field, and for an MRRC to one register twice (U14), they are refused, once accepted (log entry 16). -/
def Obligations.CoprocessorAccepted : Prop :=
  (∀ (s : State) (c : Cond) (o1 crn cp crm : BitVec 4) (p1 p2 : BitVec 3) (rd rn : Reg) (first second : Word)
      (more : List Word) (v : State) (i : Instr) (regs : List Reg),
    condPassed c s.cpsr = true → cp ≠ 14#4 → s.coprocessor i = (.accept first second more, v) →
    (15#4 ∈ regs → (i, regs) ∈ [(.mcr c p1 crn rd cp p2 crm, [rd]), (.mcr2 p1 crn rd cp p2 crm, [rd]),
      (.mcrr c rn rd cp o1 crm, [rn, rd]), (.mrrc c rn rd cp o1 crm, [rn, rd])] → exec i s = .refused .r15Operand) ∧
    (rd ≠ 15#4 → rd = rn → i = .mrrc c rn rd cp o1 crm → exec i s = .refused .overlappingRegisters)) ∧
  ∀ (s : State) (c : Cond) (o1 crn crd cp crm : BitVec 4) (p1 p2 : BitVec 3) (rd rn : Reg) (first second : Word)
    (more : List Word) (v : State) (i : Instr) (data : List Word) (regs : List Reg) (bits : List Nat),
    condPassed c s.cpsr = true → cp ≠ 14#4 → s.coprocessor i = (.accept first second more, v) →
    ((i, data, regs, bits) ∈ [(.cdp c o1 crn crd cp p2 crm, [], [], []), (.cdp2 o1 crn crd cp p2 crm, [], [], [])] ∨
      rd ≠ 15#4 ∧ (i, data, regs, bits) ∈ [(.mcr c p1 crn rd cp p2 crm, [s.reg rd], [], []),
        (.mcr2 p1 crn rd cp p2 crm, [s.reg rd], [], []), (.mrc c p1 crn rd cp p2 crm, [], [rd], []),
        (.mrc2 p1 crn rd cp p2 crm, [], [rd], [])] ∨
      rd = 15#4 ∧ (i, data, regs, bits) ∈ [(.mrc c p1 crn rd cp p2 crm, [], [], [31, 30, 29, 28]),
        (.mrc2 p1 crn rd cp p2 crm, [], [], [31, 30, 29, 28])] ∨
      rd ≠ 15#4 ∧ rn ≠ 15#4 ∧ (i, data, regs, bits) ∈ [(.mcrr c rn rd cp o1 crm, [s.reg rd, s.reg rn], [], [])] ∨
      rd ≠ 15#4 ∧ rn ≠ 15#4 ∧ rd ≠ rn ∧ (i, data, regs, bits) ∈ [(.mrrc c rn rd cp o1 crm, [], [rd, rn], [])]) →
    ∃ t, exec i s = .next t ∧ t.pc = s.nextPc ∧ s.onlyRegs t regs ∧ s.onlyBits t bits ∧ s.systemKept t ∧
      s.memoryKept t ∧ t.cpAnswers = v.cpAnswers ∧ t.cpWaiting = false ∧
      t.cpSent = s.cpSent ++ [⟨i, s.privileged, data, true⟩] ∧
      (regs ≠ [] → t.reg rd = first) ∧ (regs = [rd, rn] → t.reg rn = second) ∧
      (bits ≠ [] → ∀ k, 28 ≤ k → t.cpsr.getLsbD k = first.getLsbD k)

/-- An accepted LDC or LDC2 gives the coprocessor as many words as it asked for, from rising addresses, and stores
nothing; an accepted STC or STC2 stores the words the coprocessor supplies, and changes no other byte. The base is written
back with W = 1; one that is r15 is then refused (U14, log entry 16). The first address is the base, or with P = 1 the base
plus or minus the offset. -/
def Obligations.CoprocessorTransfers : Prop :=
  ∀ (s : State) (c : Cond) (crd cp : BitVec 4) (rn : Reg) (p u l wb : Bool) (off8 : BitVec 8) (first second : Word)
    (more : List Word) (v : State) (i : Instr) (target start : Word) (words : Nat → Word),
    condPassed c s.cpsr = true → cp ≠ 14#4 → s.coprocessor i = (.accept first second more, v) →
    (wb = true → rn = 15#4 → i ∈ [.ldc c p u l wb rn crd cp off8, .stc c p u l wb rn crd cp off8,
      .ldc2 p u l wb rn crd cp off8, .stc2 p u l wb rn crd cp off8] → exec i s = .refused .r15Operand) ∧
    ((wb = true → rn ≠ 15#4) → more.length < 2 ^ 29 →
    target = (if u then s.reg rn + 4 * off8.setWidth 32 else s.reg rn - 4 * off8.setWidth 32) →
    start = (if p then target else s.reg rn) →
    ((i = .ldc c p u l wb rn crd cp off8 ∨ i = .ldc2 p u l wb rn crd cp off8) →
      (∀ k ≤ more.length, s.readsWord s.privileged (wordPlace start k) (words k)) →
      ∃ t, exec i s = .next t ∧ t.pc = s.nextPc ∧ s.onlyRegs t (if wb then [rn] else []) ∧ t.cpsr = s.cpsr ∧
        (wb = true → t.reg rn = target) ∧ s.systemKept t ∧ s.memoryKept t ∧ t.cpAnswers = v.cpAnswers ∧
        t.cpSent = s.cpSent ++ [⟨i, s.privileged, (List.range (more.length + 1)).map words, true⟩]) ∧
    ((i = .stc c p u l wb rn crd cp off8 ∨ i = .stc2 p u l wb rn crd cp off8) →
      (∀ k ≤ more.length, s.storesWord s.privileged (wordPlace start k)) →
      ∃ t, exec i s = .next t ∧ t.pc = s.nextPc ∧ s.onlyRegs t (if wb then [rn] else []) ∧ t.cpsr = s.cpsr ∧
        (wb = true → t.reg rn = target) ∧ s.systemKept t ∧
        s.memoryKeptOutside t (wordAlign start) (4 * (more.length + 1)) ∧
        (∀ k, k ≤ more.length → t.wordAt (wordAlign (wordPlace start k)) = (first :: more)[k]?) ∧
        t.cpAnswers = v.cpAnswers ∧ t.cpSent = s.cpSent ++ [⟨i, s.privileged, [], true⟩]))

/-- Coprocessor 14 in every mode. MRC of c0 reads the version 0110 in bits [31:28], W in bit 1, R in bit 0 and zeros
elsewhere; MRC of c1 reads the data read register and clears R; MCR of c1 writes the data write register and sets W; c2
holds DbgAbt in bit 0 and reads zeros elsewhere. The reserved bits that read as zero are D17 (log entry 17). An MRC with
Rd = 15 writes the top four bits it reads to N, Z, C and V. An MCR with Rd = 15 (U14) and the accesses to which the spec
gives no meaning (U15) are refused, under the model's names (log entry 17): MCR of c0, another register number, an opcode
or CRm that is not zero, and every other coprocessor instruction. Nothing else changes. -/
def Obligations.CommsChannel : Prop :=
  (∀ (s : State) (c : Cond), condPassed c s.cpsr = true →
    (∃ t, exec (.mrc c 0#3 0#4 15#4 14#4 0#3 0#4) s = .next t ∧ s.onlyWrites t [] [31, 30, 29, 28] ∧
      t.cpsr.extractLsb' 28 4 = 0b0110#4) ∧
    (∃ t, exec (.mrc c 0#3 1#4 15#4 14#4 0#3 0#4) s = .next t ∧ t.dcc = { s.dcc with r := false } ∧
      s.onlyWrites { t with dcc := s.dcc } [] [31, 30, 29, 28] ∧
      t.cpsr.extractLsb' 28 4 = s.dcc.readData.extractLsb' 28 4) ∧
    (∃ t, exec (.mrc c 0#3 2#4 15#4 14#4 0#3 0#4) s = .next t ∧ s.onlyWrites t [] [31, 30, 29, 28] ∧
      t.cpsr.extractLsb' 28 4 = 0#4)) ∧
  (∀ (s : State) (c : Cond) (o1 crn crd crm : BitVec 4) (p1 p2 : BitVec 3) (rd rn : Reg) (p u l wb : Bool)
      (off8 : BitVec 8) (i : Instr), condPassed c s.cpsr = true →
    (rd = 15#4 → exec (.mcr c p1 crn rd 14#4 p2 crm) s = .refused .r15Operand) ∧
    ((i = .mrc c p1 crn rd 14#4 p2 crm ∧ (p1 ≠ 0#3 ∨ p2 ≠ 0#3 ∨ crm ≠ 0#4 ∨ 3 ≤ crn.toNat) ∨
        i = .mcr c p1 crn rd 14#4 p2 crm ∧ rd ≠ 15#4 ∧
          (p1 ≠ 0#3 ∨ p2 ≠ 0#3 ∨ crm ≠ 0#4 ∨ crn = 0#4 ∨ 3 ≤ crn.toNat) ∨
        i ∈ [.cdp c o1 crn crd 14#4 p2 crm, .mcrr c rn rd 14#4 o1 crm, .mrrc c rn rd 14#4 o1 crm,
          .ldc c p u l wb rn crd 14#4 off8, .stc c p u l wb rn crd 14#4 off8, .cdp2 o1 crn crd 14#4 p2 crm,
          .mcr2 p1 crn rd 14#4 p2 crm, .mrc2 p1 crn rd 14#4 p2 crm, .ldc2 p u l wb rn crd 14#4 off8,
          .stc2 p u l wb rn crd 14#4 off8]) →
      exec i s = .refused .cp14Undocumented)) ∧
  ∀ (s : State) (c : Cond) (rd : Reg), condPassed c s.cpsr = true → rd ≠ 15#4 →
    (∃ t, exec (.mrc c 0#3 0#4 rd 14#4 0#3 0#4) s = .next t ∧ s.onlyWrites t [rd] [] ∧
      (t.reg rd).getLsbD 0 = s.dcc.r ∧ (t.reg rd).getLsbD 1 = s.dcc.w ∧ (t.reg rd).extractLsb' 2 26 = 0#26 ∧
      (t.reg rd).extractLsb' 28 4 = 0b0110#4) ∧
    (∃ t, exec (.mrc c 0#3 1#4 rd 14#4 0#3 0#4) s = .next t ∧ t.reg rd = s.dcc.readData ∧
      t.dcc = { s.dcc with r := false } ∧ s.onlyWrites { t with dcc := s.dcc } [rd] []) ∧
    (∃ t, exec (.mrc c 0#3 2#4 rd 14#4 0#3 0#4) s = .next t ∧ s.onlyWrites t [rd] [] ∧
      (t.reg rd).getLsbD 0 = s.dcc.dbgAbt ∧ (t.reg rd).extractLsb' 1 31 = 0#31) ∧
    (∃ t, exec (.mcr c 0#3 1#4 rd 14#4 0#3 0#4) s = .next t ∧ t.dcc = { s.dcc with writeData := s.reg rd, w := true } ∧
      s.onlyWrites { t with dcc := s.dcc } [] []) ∧
    (∃ t, exec (.mcr c 0#3 2#4 rd 14#4 0#3 0#4) s = .next t ∧ t.dcc = { s.dcc with dbgAbt := (s.reg rd).getLsbD 0 } ∧
      s.onlyWrites { t with dcc := s.dcc } [] [])

/-! ### Thumb -/

/-- The Thumb shifts: LSL, LSR and ASR by an immediate (0 stands for 32 in the last two) and LSL, LSR, ASR and ROR by the
low byte of a register. The destination gets the shifted word, N and Z follow it, C is the shifter's carry; V, Q and
everything else are kept. -/
def Obligations.ThumbShifts : Prop :=
  ∀ (s : State) (imm5 : BitVec 5) (rm rd : LowReg) (i : Instr) (o : Shifted),
    (i, o) ∈ [(.thumbLslImm imm5 rm rd, shiftByImm .lsl (s.reg (lowReg rm)) imm5 (psrC s.cpsr)),
      (.thumbLsrImm imm5 rm rd, shiftByImm .lsr (s.reg (lowReg rm)) imm5 (psrC s.cpsr)),
      (.thumbAsrImm imm5 rm rd, shiftByImm .asr (s.reg (lowReg rm)) imm5 (psrC s.cpsr)),
      (.thumbLslReg rm rd, shiftByReg .lsl (s.reg (lowReg rd)) (s.reg (lowReg rm)) (psrC s.cpsr)),
      (.thumbLsrReg rm rd, shiftByReg .lsr (s.reg (lowReg rd)) (s.reg (lowReg rm)) (psrC s.cpsr)),
      (.thumbAsrReg rm rd, shiftByReg .asr (s.reg (lowReg rd)) (s.reg (lowReg rm)) (psrC s.cpsr)),
      (.thumbRorReg rm rd, shiftByReg .ror (s.reg (lowReg rd)) (s.reg (lowReg rm)) (psrC s.cpsr))] →
    ∃ t, exec i s = .next t ∧ t.reg (lowReg rd) = o.value ∧ s.onlyWrites t [lowReg rd] [31, 30, 29] ∧
      flagsNZ t.cpsr o.value ∧ psrC t.cpsr = o.carry

/-- The Thumb arithmetic and logic on low registers. The sums write their destination and the four flags, CMP and CMN the
flags alone; MOV, AND, EOR, ORR, BIC, MVN and MUL (of two different registers) write their destination, N and Z, and TST N
and Z alone. Everything else is kept; MUL of a register with itself is refused (U6). -/
def Obligations.ThumbArithmetic : Prop :=
  ∀ (s : State) (rm rn rd : LowReg) (imm3 : BitVec 3) (imm8 : BitVec 8) (x y z : Word),
    x = s.reg (lowReg rd) → y = s.reg (lowReg rm) → z = s.reg (lowReg rn) →
    (∀ (i : Instr) (r : Sum),
      (i, r) ∈ [(.thumbAddReg rm rn rd, addWithCarry z y false), (.thumbSubReg rm rn rd, addWithCarry z (~~~y) true),
        (.thumbAddImm3 imm3 rn rd, addWithCarry z (imm3.setWidth 32) false),
        (.thumbSubImm3 imm3 rn rd, addWithCarry z (~~~imm3.setWidth 32) true),
        (.thumbAddImm8 rd imm8, addWithCarry x (imm8.setWidth 32) false),
        (.thumbSubImm8 rd imm8, addWithCarry x (~~~imm8.setWidth 32) true),
        (.thumbAdc rm rd, addWithCarry x y (psrC s.cpsr)), (.thumbSbc rm rd, addWithCarry x (~~~y) (psrC s.cpsr)),
        (.thumbNeg rm rd, addWithCarry 0#32 (~~~y) true)] →
      ∃ t, exec i s = .next t ∧ t.reg (lowReg rd) = r.value ∧ s.onlyWrites t [lowReg rd] [31, 30, 29, 28] ∧
        flagsNZ t.cpsr r.value ∧ psrC t.cpsr = r.carry ∧ psrV t.cpsr = r.overflow) ∧
    (∀ (i : Instr) (r : Sum),
      (i, r) ∈ [(.thumbCmpImm rn imm8, addWithCarry z (~~~imm8.setWidth 32) true),
        (.thumbCmp rm rn, addWithCarry z (~~~y) true), (.thumbCmn rm rn, addWithCarry z y false)] →
      ∃ t, exec i s = .next t ∧ s.onlyWrites t [] [31, 30, 29, 28] ∧
        flagsNZ t.cpsr r.value ∧ psrC t.cpsr = r.carry ∧ psrV t.cpsr = r.overflow) ∧
    (∀ (i : Instr) (v : Word),
      ((i, v) ∈ [(.thumbMovImm rd imm8, imm8.setWidth 32), (.thumbAnd rm rd, x &&& y), (.thumbEor rm rd, x ^^^ y),
        (.thumbOrr rm rd, x ||| y), (.thumbBic rm rd, x &&& ~~~y), (.thumbMvn rm rd, ~~~y)] ∨
        rd ≠ rm ∧ (i, v) = (.thumbMul rm rd, x * y)) →
      ∃ t, exec i s = .next t ∧ t.reg (lowReg rd) = v ∧ s.onlyWrites t [lowReg rd] [31, 30] ∧ flagsNZ t.cpsr v) ∧
    (∃ t, exec (.thumbTst rm rn) s = .next t ∧ s.onlyWrites t [] [31, 30] ∧ flagsNZ t.cpsr (z &&& y)) ∧
    exec (.thumbMul rd rd) s = .refused .overlappingRegisters

/-- The Thumb forms that name high registers or compute addresses. ADD and MOV of high registers change no flag, and with
r15 as the destination branch in Thumb state; CMP of high registers writes the four flags, and its first register is not
r15 (U12). ADD of the PC uses it rounded down to a word; ADD and SUB of the stack pointer scale by four. -/
def Obligations.ThumbHighAndAddress : Prop :=
  ∀ (s : State) (rm rd : Reg) (r : LowReg) (imm7 : BitVec 7) (imm8 : BitVec 8),
    (∀ (i : Instr) (v : Word),
      (i, v) ∈ [(.thumbAddHigh rm rd, s.reg rd + s.reg rm), (.thumbMovHigh rm rd, s.reg rm)] →
      (rd ≠ 15#4 → ∃ t, exec i s = .next t ∧ t.reg rd = v ∧ s.onlyWrites t [rd] []) ∧
      (rd = 15#4 → ∃ t, exec i s = .next t ∧ s.onlyJumps t (v - v % 2) [] [])) ∧
    (rd ≠ 15#4 → ∃ t, exec (.thumbCmpHigh rm rd) s = .next t ∧ s.onlyWrites t [] [31, 30, 29, 28] ∧
      flagsNZ t.cpsr (s.reg rd - s.reg rm) ∧ (psrC t.cpsr = true ↔ (s.reg rm).toNat ≤ (s.reg rd).toNat) ∧
      psrV t.cpsr = (addWithCarry (s.reg rd) (~~~s.reg rm) true).overflow) ∧
    (rd = 15#4 → exec (.thumbCmpHigh rm rd) s = .refused .r15Operand) ∧
    (∀ (i : Instr) (d : Reg) (v : Word),
      (i, d, v) ∈ [(.thumbAddPc r imm8, lowReg r, (s.pc + 4) - (s.pc + 4) % 4 + 4 * imm8.setWidth 32),
        (.thumbAddSp r imm8, lowReg r, s.reg 13#4 + 4 * imm8.setWidth 32),
        (.thumbIncSp imm7, 13#4, s.reg 13#4 + 4 * imm7.setWidth 32),
        (.thumbDecSp imm7, 13#4, s.reg 13#4 - 4 * imm7.setWidth 32)] →
      ∃ t, exec i s = .next t ∧ t.reg d = v ∧ s.onlyWrites t [d] [])

/-- The Thumb branches. B goes to the address of the instruction plus 4 plus twice the signed offset, if its condition
passes. The BL prefix puts PC + 4 plus the high part of the offset in r14; the suffixes go to r14 plus twice the low part,
in Thumb state or, for BLX, at a word in ARM state, and leave the next address with bit 0 set in r14. BX and BLX of a
register take T from bit 0; bits [1:0] = 10 are refused, and so is BLX of r15. -/
def Obligations.ThumbBranches : Prop :=
  ∀ (s : State) (c : Cond) (imm8 : BitVec 8) (imm11 : BitVec 11) (imm10 : BitVec 10) (rm : Reg) (v : Word),
    v = s.reg rm →
    (condPassed c s.cpsr = true → ∃ t, exec (.thumbBCond c imm8) s = .next t ∧
      s.onlyJumps t (BitVec.ofInt 32 (s.pc.toNat + 4 + 2 * imm8.toInt)) [] []) ∧
    (condPassed c s.cpsr = false → ∃ t, exec (.thumbBCond c imm8) s = .next t ∧ s.onlyWrites t [] []) ∧
    (∃ t, exec (.thumbB imm11) s = .next t ∧
      s.onlyJumps t (BitVec.ofInt 32 (s.pc.toNat + 4 + 2 * imm11.toInt)) [] []) ∧
    (∃ t, exec (.thumbBlPrefix imm11) s = .next t ∧ s.onlyWrites t [14#4] [] ∧
      t.reg 14#4 = BitVec.ofInt 32 (s.pc.toNat + 4 + 2 ^ 12 * imm11.toInt)) ∧
    (∃ t d, exec (.thumbBlSuffix imm11) s = .next t ∧ d = s.reg 14#4 + 2 * imm11.setWidth 32 ∧
      s.onlyJumps t (d - d % 2) [14#4] [] ∧ t.reg 14#4 = (s.pc + 2) ||| 1#32) ∧
    (∃ t d, exec (.thumbBlxSuffix imm10) s = .next t ∧ d = s.reg 14#4 + 4 * imm10.setWidth 32 ∧
      s.onlyJumps t (d - d % 4) [14#4] [5] ∧ psrT t.cpsr = false ∧ t.reg 14#4 = (s.pc + 2) ||| 1#32) ∧
    (v.toNat % 4 ≠ 2 →
      (∃ t, exec (.thumbBx rm) s = .next t ∧ psrT t.cpsr = v.getLsbD 0 ∧ s.onlyJumps t (v - v % 2) [] [5]) ∧
      (rm ≠ 15#4 → ∃ t, exec (.thumbBlxReg rm) s = .next t ∧ psrT t.cpsr = v.getLsbD 0 ∧
        s.onlyJumps t (v - v % 2) [14#4] [5] ∧ t.reg 14#4 = (s.pc + 2) ||| 1#32)) ∧
    (v.toNat % 4 = 2 → exec (.thumbBx rm) s = .refused .armTargetBit1 ∧
      (rm ≠ 15#4 → exec (.thumbBlxReg rm) s = .refused .armTargetBit1)) ∧
    (rm = 15#4 → exec (.thumbBlxReg rm) s = .refused .r15Operand)

/-- The Thumb loads: words (rotated by the two low address bits, but for the PC-relative form, whose address is aligned),
bytes and even halfwords, zero- or sign-extended, with register, scaled immediate, PC- and SP-relative addresses. Only the
destination changes. -/
def Obligations.ThumbLoads : Prop :=
  ∀ (s : State) (ro rb rd : LowReg) (imm5 : BitVec 5) (imm8 : BitVec 8) (i : Instr) (a v w : Word) (h : Half) (b : Byte)
    (base : Word),
    base = s.reg (lowReg rb) →
    ((s.readsWord s.privileged a w ∧ v = w.rotateRight (8 * (a.toNat % 4)) ∧
        (i, a) ∈ [(.thumbLdrReg ro rb rd, base + s.reg (lowReg ro)),
          (.thumbLdrImm imm5 rb rd, base + 4 * imm5.setWidth 32), (.thumbLdrSp rd imm8, s.reg 13#4 + 4 * imm8.setWidth 32),
          (.thumbLdrPc rd imm8, (s.pc + 4) - (s.pc + 4) % 4 + 4 * imm8.setWidth 32)]) ∨
      (s.readsByte s.privileged a b ∧ (i, a, v) ∈ [(.thumbLdrbReg ro rb rd, base + s.reg (lowReg ro), b.setWidth 32),
        (.thumbLdrsbReg ro rb rd, base + s.reg (lowReg ro), b.signExtend 32),
        (.thumbLdrbImm imm5 rb rd, base + imm5.setWidth 32, b.setWidth 32)]) ∨
      (a.toNat % 2 = 0 ∧ s.readsHalf s.privileged a h ∧
        (i, a, v) ∈ [(.thumbLdrhReg ro rb rd, base + s.reg (lowReg ro), h.setWidth 32),
          (.thumbLdrshReg ro rb rd, base + s.reg (lowReg ro), h.signExtend 32),
          (.thumbLdrhImm imm5 rb rd, base + 2 * imm5.setWidth 32, h.setWidth 32)])) →
    ∃ t, exec i s = .next t ∧ t.reg (lowReg rd) = v ∧ s.onlyWrites t [lowReg rd] []

/-- The Thumb stores: words at the address with its two low bits ignored, low bytes, and low halfwords at even addresses,
with register, scaled immediate and SP-relative addresses. No register, no flag and no other byte changes. A store to a byte
that has been executed as an instruction is refused (R80, D7). -/
def Obligations.ThumbStores : Prop :=
  ∀ (s : State) (ro rb rd : LowReg) (imm5 : BitVec 5) (imm8 : BitVec 8) (i : Instr) (a v base : Word)
    (w : Width), base = s.reg (lowReg rb) → v = s.reg (lowReg rd) →
    (s.storesWord s.privileged a → (i, a) ∈ [(.thumbStrReg ro rb rd, base + s.reg (lowReg ro)),
        (.thumbStrImm imm5 rb rd, base + 4 * imm5.setWidth 32),
        (.thumbStrSp rd imm8, s.reg 13#4 + 4 * imm8.setWidth 32)] →
      ∃ t, exec i s = .next t ∧ t.wordAt (a - a % 4) = some v ∧ s.onlyStores t [] (a - a % 4) 4) ∧
    (s.stores .byte s.privileged a → (i, a) ∈ [(.thumbStrbReg ro rb rd, base + s.reg (lowReg ro)),
        (.thumbStrbImm imm5 rb rd, base + imm5.setWidth 32)] →
      ∃ t, exec i s = .next t ∧ t.byteAt a = some (v.setWidth 8) ∧ s.onlyStores t [] a 1) ∧
    (a.toNat % 2 = 0 → s.stores .half s.privileged a →
      (i, a) ∈ [(.thumbStrhReg ro rb rd, base + s.reg (lowReg ro)),
        (.thumbStrhImm imm5 rb rd, base + 2 * imm5.setWidth 32)] →
      ∃ t, exec i s = .next t ∧ t.halfAt a = some (v.setWidth 16) ∧ s.onlyStores t [] a 2) ∧
    ((i, .write, w, a) ∈ s.thumbTransfers ro rb rd imm5 imm8 → accessAllowed w a →
      s.aborts .write w (accessPlace w a) s.privileged = false →
      overlaps s.fetched (accessPlace w a).toNat w.bytes = true → exec i s = .refused .storeToFetched)

/-- PUSH, STMIA, POP and LDMIA, with a list that is not empty: the registers, in rising order, go to or come from rising
addresses. PUSH lowers the stack pointer, the others raise their base, but for an LDMIA whose base is listed: it keeps
the word loaded. PUSH adds r14 to its list and POP r15, whose word branches and takes T from bit 0. Refused, under the
model's names (log entries 9, 10), are STMIA of a listed base that is not the lowest register, an empty list in each of them
(U9), and POP of a word with bits [1:0] = 10 to r15 (U8). The list is that of the low registers, with r14 or r15 above them
where the instruction names it. -/
def Obligations.ThumbStack : Prop :=
  (∀ (list : BitVec 8) (r : Bool) (q : Reg),
    thumbListed list r q = listed (list.setWidth 16) ++ (if r then [q] else [])) ∧
  (∀ (s : State) (rb : LowReg) (i : Instr),
    i ∈ [.thumbPush false 0#8, .thumbPop false 0#8, .thumbStmia rb 0#8, .thumbLdmia rb 0#8] →
    exec i s = .refused .emptyRegisterList) ∧
  ∀ (s : State) (r : Bool) (rb : LowReg) (list : BitVec 8) (regs : List Reg) (start last : Word) (words : Nat → Word)
    (n : Nat), regs ≠ [] → n = regs.length → last = words (n - 1) →
    (regs = thumbListed list r 14#4 → start = s.reg 13#4 - BitVec.ofNat 32 (4 * n) →
      (∀ k < n, s.storesWord s.privileged (wordPlace start k)) →
      ∃ t, exec (.thumbPush r list) s = .next t ∧ t.reg 13#4 = start ∧
        (∀ (k : Nat) (q : Reg), regs[k]? = some q → t.wordAt (wordAlign (wordPlace start k)) = some (s.reg q)) ∧
        s.onlyStores t [13#4] (wordAlign start) (4 * n)) ∧
    (regs = thumbListed list r 15#4 → start = s.reg 13#4 →
      (∀ k < n, s.readsWord s.privileged (wordPlace start k) (words k)) → (r = true → last.toNat % 4 ≠ 2) →
      ∃ t, exec (.thumbPop r list) s = .next t ∧ t.reg 13#4 = start + BitVec.ofNat 32 (4 * n) ∧
        (∀ (k : Nat) (q : Reg), regs[k]? = some q → q ≠ 15#4 → t.reg q = words k) ∧
        (r = false → s.onlyWrites t (13#4 :: regs) []) ∧
        (r = true → psrT t.cpsr = last.getLsbD 0 ∧ s.onlyJumps t (last - last % 2) (13#4 :: regs) [5])) ∧
    (regs = thumbListed list true 15#4 → start = s.reg 13#4 →
      (∀ k < n, s.readsWord s.privileged (wordPlace start k) (words k)) → last.toNat % 4 = 2 →
      exec (.thumbPop true list) s = .refused .armTargetBit1) ∧
    (regs = thumbListed list false 0#4 → ¬ lowestIfListed (lowReg rb) regs →
      exec (.thumbStmia rb list) s = .refused .baseInList) ∧
    (regs = thumbListed list false 0#4 → lowestIfListed (lowReg rb) regs → start = s.reg (lowReg rb) →
      (∀ k < n, s.storesWord s.privileged (wordPlace start k)) →
      ∃ t, exec (.thumbStmia rb list) s = .next t ∧ t.reg (lowReg rb) = start + BitVec.ofNat 32 (4 * n) ∧
        (∀ (k : Nat) (q : Reg), regs[k]? = some q → t.wordAt (wordAlign (wordPlace start k)) = some (s.reg q)) ∧
        s.onlyStores t [lowReg rb] (wordAlign start) (4 * n)) ∧
    (regs = thumbListed list false 0#4 → start = s.reg (lowReg rb) →
      (∀ k < n, s.readsWord s.privileged (wordPlace start k) (words k)) →
      ∃ t, exec (.thumbLdmia rb list) s = .next t ∧
        (∀ (k : Nat) (q : Reg), regs[k]? = some q → t.reg q = words k) ∧
        (lowReg rb ∉ regs → t.reg (lowReg rb) = start + BitVec.ofNat 32 (4 * n)) ∧
        s.onlyWrites t (lowReg rb :: regs) [])

/-! ### The machine as a whole -/

/-- Every step keeps the canonical form of memory and of the lists of stored and of executed addresses, and the parameters
of the run. -/
def Obligations.MemoryFormKept : Prop :=
  ∀ s t : State, s.memoryWf → step s = .next t → t.memoryWf ∧ t.config = s.config

/-- Every step keeps the PC aligned for the operating state, a word in ARM state, a halfword in Thumb state; and no step
leads into Jazelle state, J = 1 and T = 0 (D1). -/
def Obligations.PcAlignedKept : Prop :=
  ∀ s t : State, s.pcAligned → step s = .next t →
    t.pcAligned ∧ (inJazelle s.cpsr = false → inJazelle t.cpsr = false)

/-- An instruction executed in User mode stays there, with I, F and the other bits below the flags (but T) as they were
and with every SPSR and every register of the other banks kept; or it takes one of the four synchronous exceptions, which
saves the User-mode CPSR and goes to its vector. Nothing else leaves User mode. -/
def Obligations.UserModeConfined : Prop :=
  ∀ (i : Instr) (s t : State), psrM s.cpsr = Mode.usr.bits → exec i s = .next t →
    ((∀ k < 27, k ≠ 5 → t.cpsr.getLsbD k = s.cpsr.getLsbD k) ∧ t.spsr = s.spsr ∧
      ∀ p, (∀ r, bank .usr r ≠ some p) → t.regs.get p = s.regs.get p) ∨
    (∃ e : Exception, e ≠ .irq ∧ e ≠ .fiq ∧ t.pc = s.vectorBase + e.offset ∧ psrM t.cpsr = e.mode.bits ∧
      psrI t.cpsr = true ∧ t.spsr = s.spsr.set e.mode s.cpsr ∧
      ∀ p, p ≠ e.mode.lr → (∀ r, bank .usr r ≠ some p) → t.regs.get p = s.regs.get p)

/-- The sticky flag: an instruction that is no MSR and no exception return (data processing with S = 1 and Rd = 15, LDM (3):
these restore the SPSR) never clears Q, and sets it only if it is one of QADD, QSUB, QDADD, QDSUB, SMLAxy and SMLAWy. -/
def Obligations.StickyFlag : Prop :=
  ∀ (i : Instr) (s t : State), exec i s = .next t →
    (∀ c r mask rm, i ≠ .msrReg c r mask rm) → (∀ c r mask rot imm8, i ≠ .msrImm c r mask rot imm8) →
    (isExceptionReturn i ∧ ∃ p, s.spsr.get s.mode = some p ∧ t.cpsr = p) ∨
    ((psrQ s.cpsr = true → psrQ t.cpsr = true) ∧
      (psrQ s.cpsr = false → psrQ t.cpsr = true →
        (∃ c rn rd rm, i = .qadd c rn rd rm ∨ i = .qsub c rn rd rm ∨ i = .qdadd c rn rd rm ∨ i = .qdsub c rn rd rm) ∨
        (∃ c rd rn rs y x rm, i = .smlaXY c rd rn rs y x rm ∨ i = .smlaWY c rd rn rs y rm)))

/-- Conditional execution: the fifteen conditions as tests of the flags, with their numbers, and an instruction whose
condition fails does nothing but go on. -/
def Obligations.ConditionalExecution : Prop :=
  (∀ p : Word,
    (condPassed .eq p = true ↔ psrZ p = true) ∧ (condPassed .ne p = true ↔ psrZ p = false) ∧
    (condPassed .cs p = true ↔ psrC p = true) ∧ (condPassed .cc p = true ↔ psrC p = false) ∧
    (condPassed .mi p = true ↔ psrN p = true) ∧ (condPassed .pl p = true ↔ psrN p = false) ∧
    (condPassed .vs p = true ↔ psrV p = true) ∧ (condPassed .vc p = true ↔ psrV p = false) ∧
    (condPassed .hi p = true ↔ psrC p = true ∧ psrZ p = false) ∧
    (condPassed .ls p = true ↔ psrC p = false ∨ psrZ p = true) ∧
    (condPassed .ge p = true ↔ psrN p = psrV p) ∧ (condPassed .lt p = true ↔ psrN p ≠ psrV p) ∧
    (condPassed .gt p = true ↔ psrZ p = false ∧ psrN p = psrV p) ∧
    (condPassed .le p = true ↔ psrZ p = true ∨ psrN p ≠ psrV p) ∧ condPassed .al p = true) ∧
  [Cond.eq, .ne, .cs, .cc, .mi, .pl, .vs, .vc, .hi, .ls, .ge, .lt, .gt, .le, .al].map Cond.bits =
    [0#4, 1#4, 2#4, 3#4, 4#4, 5#4, 6#4, 7#4, 8#4, 9#4, 10#4, 11#4, 12#4, 13#4, 14#4] ∧
  (∀ b c, Cond.ofBits b = some c ↔ c.bits = b) ∧
  (∀ (i : Instr) (s : State), condPassed (conditionOf i) s.cpsr = false →
    ∃ t, exec i s = .next t ∧ s.onlyWrites t [] [])

/-- The state after reset, for any parameters: Supervisor mode, I = F = 1, T = J = 0, the PC at the vector base; and it
satisfies the invariants. State.reset is the one for the default parameters (log entry 3). -/
def Obligations.ResetState : Prop :=
  (∀ c : Config, psrM (State.resetWith c).cpsr = Mode.svc.bits ∧ psrI (State.resetWith c).cpsr = true ∧
    psrF (State.resetWith c).cpsr = true ∧ psrT (State.resetWith c).cpsr = false ∧
    psrJ (State.resetWith c).cpsr = false ∧
    (State.resetWith c).pc = (if c.hiVecs then 0xFFFF0000#32 else 0x00000000#32) ∧
    (State.resetWith c).memoryWf ∧ (State.resetWith c).pcAligned ∧ (State.resetWith c).legalMode) ∧
  State.reset = State.resetWith defaultConfig

/-- Which physical register each number names in each mode, and which SPSR; a change of mode moves no data, and a write of
a register is read back by its number alone. The mode is the one that CPSR[4:0] numbers, as in Table 2-2 (R31), and every
mode but User is privileged. -/
def Obligations.RegisterBanks : Prop :=
  [0#4, 1#4, 2#4, 3#4, 4#4, 5#4, 6#4, 7#4, 8#4, 9#4, 10#4, 11#4, 12#4].map (bank .usr) =
    [some .r0, some .r1, some .r2, some .r3, some .r4, some .r5, some .r6, some .r7, some .r8, some .r9, some .r10,
      some .r11, some .r12] ∧
  (∀ m i, i.toNat < 8 → bank m i = bank .usr i) ∧
  (∀ m i, m ≠ .fiq → 8 ≤ i.toNat → i.toNat ≤ 12 → bank m i = bank .usr i) ∧
  [8#4, 9#4, 10#4, 11#4, 12#4].map (bank .fiq) =
    [some .r8fiq, some .r9fiq, some .r10fiq, some .r11fiq, some .r12fiq] ∧
  [Mode.usr, .sys, .fiq, .irq, .svc, .abt, .und].map (bank · 13#4) =
    [some .r13, some .r13, some .r13fiq, some .r13irq, some .r13svc, some .r13abt, some .r13und] ∧
  [Mode.usr, .sys, .fiq, .irq, .svc, .abt, .und].map (bank · 14#4) =
    [some .r14, some .r14, some .r14fiq, some .r14irq, some .r14svc, some .r14abt, some .r14und] ∧
  (∀ m, bank m 15#4 = none) ∧
  (∀ p : Spsrs, [Mode.usr, .sys, .fiq, .irq, .svc, .abt, .und].map p.get =
    [none, none, some p.fiq, some p.irq, some p.svc, some p.abt, some p.und]) ∧
  [Mode.usr, .fiq, .irq, .svc, .abt, .und, .sys].map Mode.bits =
    [0b10000#5, 0b10001#5, 0b10010#5, 0b10011#5, 0b10111#5, 0b11011#5, 0b11111#5] ∧
  (∀ (b : BitVec 5) (m : Mode), Mode.ofBits b = some m ↔ b = m.bits) ∧
  (∀ (s : State) (m : Mode), s.cpsr.extractLsb' 0 5 = m.bits → s.mode = m) ∧
  (∀ s : State, s.privileged = true ↔ s.cpsr.extractLsb' 0 5 ≠ 0b10000#5) ∧
  (∀ (s : State) (v : Word), (s.setCpsr v).regs = s.regs ∧ (s.setCpsr v).spsr = s.spsr) ∧
  (∀ (s : State) (i j : Reg) (v : Word), i ≠ 15#4 → (s.setReg i v).reg j = if j = i then v else s.reg j)

/-- The memory primitives in both byte orders: what the bytes of a halfword and a word are, for reads and for writes. -/
def Obligations.MemoryBytes : Prop :=
  ∀ (s : State) (a : Word),
    (∀ b0 b1, s.byteAt a = some b0 → s.byteAt (a + 1) = some b1 →
      s.halfAt a = some (if s.config.bigEndian then b0 ++ b1 else b1 ++ b0)) ∧
    (∀ b0 b1 b2 b3, s.byteAt a = some b0 → s.byteAt (a + 1) = some b1 → s.byteAt (a + 2) = some b2 →
      s.byteAt (a + 3) = some b3 →
      s.wordAt a = some (if s.config.bigEndian then b0 ++ b1 ++ b2 ++ b3 else b3 ++ b2 ++ b1 ++ b0)) ∧
    (∀ b : Byte, (s.putByte a b).byteAt a = some b ∧ s.memoryKeptOutside (s.putByte a b) a 1) ∧
    (∀ h : Half, (s.putHalf a h).halfAt a = some h ∧ s.memoryKeptOutside (s.putHalf a h) a 2 ∧
      (s.putHalf a h).byteAt a = some (h.extractLsb' (if s.config.bigEndian then 8 else 0) 8) ∧
      (s.putHalf a h).byteAt (a + 1) = some (h.extractLsb' (if s.config.bigEndian then 0 else 8) 8)) ∧
    (∀ w : Word, (s.putWord a w).wordAt a = some w ∧ s.memoryKeptOutside (s.putWord a w) a 4 ∧
      ∀ k < 4, (s.putWord a w).byteAt (a + BitVec.ofNat 32 k) =
        some (w.extractLsb' (if s.config.bigEndian then 24 - 8 * k else 8 * k) 8))

end
end

