-- ==== Sys2Proof/Laws/Decode.lean ====
section
/-!
SUPPORT. Lemmas about the decoder and the encoder: no word selects two rows of a table, so a row that a word selects is
the row the decoder takes; and what masking an encoding or reading one of its fields gives.
-/
namespace Sys2Proof

/-- Two rows that no word selects both: their patterns differ under both masks, or one of them excludes every word that
has both patterns. -/
def Row.clash {n : Nat} (a b : Row n) : Bool :=
  (a.mask &&& b.mask &&& (a.pattern ^^^ b.pattern)) != 0#n ||
  (a.exclude ++ b.exclude).any fun e =>
    e.1 &&& (a.mask ||| b.mask) == e.1 && (a.pattern ||| b.pattern) &&& e.1 == e.2

/-- Each row of a table clashes with every row after it. -/
def disjointRows {n : Nat} : List (Row n) → Bool
  | [] => true
  | r :: rs => rs.all (fun q => r.clash q) && disjointRows rs

theorem armRows_disjoint : disjointRows armRows = true := by decide +kernel

theorem unconditionalRows_disjoint : disjointRows unconditionalRows = true := by decide +kernel

theorem thumbRows_disjoint : disjointRows thumbRows = true := by decide +kernel

/-- Rows that clash are not both selected. -/
theorem Row.not_both {n : Nat} {a b : Row n} {w : BitVec n} (hc : a.clash b = true) (ha : a.accepts w = true)
    (hb : b.accepts w = true) : False := by
  simp only [Row.clash, Bool.or_eq_true, bne_iff_ne, ne_eq, List.any_eq_true, Bool.and_eq_true, beq_iff_eq,
    List.mem_append] at hc
  simp only [Row.accepts, Bool.and_eq_true, beq_iff_eq, List.all_eq_true, bne_iff_ne, ne_eq] at ha hb
  obtain ⟨ha, hax⟩ := ha
  obtain ⟨hb, hbx⟩ := hb
  rcases hc with hc | ⟨e, he, hm, hv⟩
  · apply hc
    rw [← ha, ← hb]
    apply BitVec.eq_of_getElem_eq
    intro i hi
    simp only [BitVec.getElem_and, BitVec.getElem_xor, BitVec.getElem_zero]
    cases a.mask[i] <;> cases b.mask[i] <;> simp
  · have hw : w &&& e.1 = e.2 := by
      rw [← hv, ← hm, ← ha, ← hb]
      apply BitVec.eq_of_getElem_eq
      intro i hi
      simp only [BitVec.getElem_and, BitVec.getElem_or]
      cases a.mask[i] <;> cases b.mask[i] <;> cases w[i] <;> simp
    rcases he with he | he
    · exact hax e he hw
    · exact hbx e he hw

/-- A row of a table without overlaps that a word selects is the row `selectRow` finds. -/
theorem selectRow_eq {n : Nat} {rows : List (Row n)} {w : BitVec n} {r : Row n} (hd : disjointRows rows = true)
    (hr : r ∈ rows) (ha : r.accepts w = true) : selectRow rows w = some r := by
  induction rows with
  | nil => cases hr
  | cons q qs ih =>
    simp only [disjointRows, Bool.and_eq_true, List.all_eq_true] at hd
    rcases List.mem_cons.mp hr with rfl | hq
    · simp [selectRow, ha]
    · have hn : q.accepts w = false := by
        cases h : q.accepts w with
        | false => rfl
        | true => exact (Row.not_both (hd.1 r hq) h ha).elim
      simpa [selectRow, hn] using ih hd.2 hq

/-- The decoder on a word with a condition that selects a row of ARM state. -/
theorem decodeArm_of_row {w : Word} {c : Cond} {r : Row 32} (k : Nat) (hr : armRows[k]? = some r)
    (hc : Cond.ofBits (w.extractLsb' 28 4) = some c) (ha : r.accepts w = true) :
    decodeArm w = .instr (r.build c w) := by
  simp only [decodeArm, hc, selectRow_eq armRows_disjoint (List.mem_of_getElem? hr) ha]

/-- The decoder on a word that selects a row of the unconditional space. -/
theorem decodeArm_of_unconditional {w : Word} {r : Row 32} (k : Nat) (hr : unconditionalRows[k]? = some r)
    (hc : Cond.ofBits (w.extractLsb' 28 4) = none) (ha : r.accepts w = true) :
    decodeArm w = .instr (r.build .al w) := by
  simp only [decodeArm, hc, selectRow_eq unconditionalRows_disjoint (List.mem_of_getElem? hr) ha]

/-- The decoder on a halfword that selects a row of Thumb state. -/
theorem decodeThumb_of_row {w : Half} {r : Row 16} (k : Nat) (hr : thumbRows[k]? = some r)
    (ha : r.accepts w = true) : decodeThumb w = .instr (r.build .al w) := by
  simp only [decodeThumb, selectRow_eq thumbRows_disjoint (List.mem_of_getElem? hr) ha]

/-- Reading the field that was placed. -/
theorem extract_place_same {m n : Nat} (f : BitVec m) (lo : Nat) (h : lo + m ≤ n) :
    (place n f lo).extractLsb' lo m = f := by
  apply BitVec.eq_of_getElem_eq
  intro i hi
  have h1 : lo + i < n := by omega
  simp [place, h1, BitVec.getLsbD_eq_getElem, hi]

/-- Reading bits away from the field that was placed. -/
theorem extract_place_away {m n : Nat} (f : BitVec m) (lo l len : Nat) (h : l + len ≤ lo ∨ lo + m ≤ l) :
    (place n f lo).extractLsb' l len = 0#len := by
  apply BitVec.eq_of_getElem_eq
  intro i hi
  simp only [place, BitVec.getElem_extractLsb', BitVec.getLsbD_shiftLeft, BitVec.getLsbD_setWidth,
    BitVec.getElem_zero]
  by_cases h1 : l + i < lo
  · simp [h1]
  · have : f.getLsbD (l + i - lo) = false := BitVec.getLsbD_of_ge _ _ (by omega)
    simp [this]

/-- A bit away from the field that was placed. -/
theorem getLsbD_place_away {m n : Nat} (f : BitVec m) (lo i : Nat) (h : i < lo ∨ lo + m ≤ i) :
    (place n f lo).getLsbD i = false := by
  simp only [place, BitVec.getLsbD_shiftLeft, BitVec.getLsbD_setWidth]
  by_cases h1 : i < lo
  · simp [h1]
  · have : f.getLsbD (i - lo) = false := BitVec.getLsbD_of_ge _ _ (by omega)
    simp [this]

/-- The bit that was placed. -/
theorem getLsbD_place_bit {n : Nat} (b : Bool) (i : Nat) (h : i < n) : (place n (bit b) i).getLsbD i = b := by
  cases b <;> simp [place, bit, h]

/-- A bit away from the field that was placed, read as an element. -/
theorem getElem_place_away {m n : Nat} (f : BitVec m) (lo i : Nat) (hi : i < n) (h : i < lo ∨ lo + m ≤ i) :
    (place n f lo)[i] = false := by
  rw [← BitVec.getLsbD_eq_getElem, getLsbD_place_away f lo i h]

/-- The bit that was placed, read as an element. -/
theorem getElem_place_bit {n : Nat} (b : Bool) (i : Nat) (h : i < n) : (place n (bit b) i)[i] = b := by
  rw [← BitVec.getLsbD_eq_getElem, getLsbD_place_bit b i h]

/-- A mask that is zero where the field lies takes nothing of the field. -/
theorem place_and_mask {m n : Nat} (f : BitVec m) (lo : Nat) (k : BitVec n) (h : k.extractLsb' lo m = 0#m) :
    place n f lo &&& k = 0#n := by
  apply BitVec.eq_of_getLsbD_eq
  intro i hi
  simp only [place, BitVec.getLsbD_and, BitVec.getLsbD_shiftLeft, BitVec.getLsbD_setWidth, BitVec.getLsbD_zero]
  by_cases h1 : i < lo
  · simp [h1]
  · by_cases h2 : i - lo < m
    · have h3 := congrArg (fun v => v.getLsbD (i - lo)) h
      simp only [BitVec.getLsbD_extractLsb', h2, decide_true, Bool.true_and, BitVec.getLsbD_zero,
        show lo + (i - lo) = i by omega] at h3
      simp [h3]
    · simp [BitVec.getLsbD_of_ge f (i - lo) (by omega)]

/-- Masking the union of two fields masks both. -/
theorem or_and_mask {n : Nat} (a b k : BitVec n) : (a ||| b) &&& k = a &&& k ||| b &&& k := by
  apply BitVec.eq_of_getElem_eq
  intro i hi
  simp only [BitVec.getElem_and, BitVec.getElem_or]
  cases a[i] <;> cases b[i] <;> simp

/-- The sixteen bits of a breakpoint's number from their two fields. -/
theorem append_extract_16 (v : BitVec 16) : v.extractLsb' 4 12 ++ v.extractLsb' 0 4 = v := by
  rw [BitVec.extractLsb'_append_extractLsb'_eq_extractLsb' (by omega)]
  simp

/-- The eight bits of an offset from their two fields. -/
theorem append_extract_8 (v : BitVec 8) : v.extractLsb' 4 4 ++ v.extractLsb' 0 4 = v := by
  rw [BitVec.extractLsb'_append_extractLsb'_eq_extractLsb' (by omega)]
  simp

/-- The four bits of a register number from their two fields. -/
theorem append_extract_4 (v : BitVec 4) : v.extractLsb' 3 1 ++ v.extractLsb' 0 3 = v := by
  rw [BitVec.extractLsb'_append_extractLsb'_eq_extractLsb' (by omega)]
  simp

@[simp] theorem Cond.ofBits_bits (c : Cond) : Cond.ofBits c.bits = some c := by cases c <;> rfl

@[simp] theorem Shift.ofBits_bits (t : Shift) : Shift.ofBits t.bits = t := by cases t <;> rfl

@[simp] theorem Index.ofBits_bits (i : Index) : Index.ofBits i.p i.w = i := by cases i <;> rfl

end Sys2Proof
end

