-- ==== Sys2Proof/Laws/State.lean ====
section
/-!
SUPPORT. What each update of a state does to each of its fields: a field it does not change reads as before, and a field
it sets reads as set. Later proofs rewrite with these and unfold no update.
-/
namespace Sys2Proof.Machine

/-! `State.setPc` -/

@[simp] theorem State.setPc_regs (s : State) (v : Word) : (s.setPc v).regs = s.regs := rfl
@[simp] theorem State.setPc_pc (s : State) (v : Word) : (s.setPc v).pc = v := rfl
@[simp] theorem State.setPc_cpsr (s : State) (v : Word) : (s.setPc v).cpsr = s.cpsr := rfl
@[simp] theorem State.setPc_spsr (s : State) (v : Word) : (s.setPc v).spsr = s.spsr := rfl
@[simp] theorem State.setPc_dcc (s : State) (v : Word) : (s.setPc v).dcc = s.dcc := rfl
@[simp] theorem State.setPc_mem (s : State) (v : Word) : (s.setPc v).mem = s.mem := rfl
@[simp] theorem State.setPc_stored (s : State) (v : Word) : (s.setPc v).stored = s.stored := rfl
@[simp] theorem State.setPc_fetched (s : State) (v : Word) : (s.setPc v).fetched = s.fetched := rfl
@[simp] theorem State.setPc_config (s : State) (v : Word) : (s.setPc v).config = s.config := rfl
@[simp] theorem State.setPc_pins (s : State) (v : Word) : (s.setPc v).pins = s.pins := rfl
@[simp] theorem State.setPc_cpAnswers (s : State) (v : Word) : (s.setPc v).cpAnswers = s.cpAnswers := rfl
@[simp] theorem State.setPc_cpSent (s : State) (v : Word) : (s.setPc v).cpSent = s.cpSent := rfl
@[simp] theorem State.setPc_cpWaiting (s : State) (v : Word) : (s.setPc v).cpWaiting = s.cpWaiting := rfl
@[simp] theorem State.setPc_userLdm (s : State) (v : Word) : (s.setPc v).userLdm = s.userLdm := rfl
@[simp] theorem State.setPc_pastTop (s : State) (v : Word) : (s.setPc v).pastTop = false := rfl
@[simp] theorem State.setPc_freeCount (s : State) (v : Word) : (s.setPc v).freeCount = s.freeCount := rfl

/-! `State.setCpsr` -/

@[simp] theorem State.setCpsr_regs (s : State) (v : Word) : (s.setCpsr v).regs = s.regs := rfl
@[simp] theorem State.setCpsr_pc (s : State) (v : Word) : (s.setCpsr v).pc = s.pc := rfl
@[simp] theorem State.setCpsr_cpsr (s : State) (v : Word) : (s.setCpsr v).cpsr = v := rfl
@[simp] theorem State.setCpsr_spsr (s : State) (v : Word) : (s.setCpsr v).spsr = s.spsr := rfl
@[simp] theorem State.setCpsr_dcc (s : State) (v : Word) : (s.setCpsr v).dcc = s.dcc := rfl
@[simp] theorem State.setCpsr_mem (s : State) (v : Word) : (s.setCpsr v).mem = s.mem := rfl
@[simp] theorem State.setCpsr_stored (s : State) (v : Word) : (s.setCpsr v).stored = s.stored := rfl
@[simp] theorem State.setCpsr_fetched (s : State) (v : Word) : (s.setCpsr v).fetched = s.fetched := rfl
@[simp] theorem State.setCpsr_config (s : State) (v : Word) : (s.setCpsr v).config = s.config := rfl
@[simp] theorem State.setCpsr_pins (s : State) (v : Word) : (s.setCpsr v).pins = s.pins := rfl
@[simp] theorem State.setCpsr_cpAnswers (s : State) (v : Word) : (s.setCpsr v).cpAnswers = s.cpAnswers := rfl
@[simp] theorem State.setCpsr_cpSent (s : State) (v : Word) : (s.setCpsr v).cpSent = s.cpSent := rfl
@[simp] theorem State.setCpsr_cpWaiting (s : State) (v : Word) : (s.setCpsr v).cpWaiting = s.cpWaiting := rfl
@[simp] theorem State.setCpsr_userLdm (s : State) (v : Word) : (s.setCpsr v).userLdm = s.userLdm := rfl
@[simp] theorem State.setCpsr_pastTop (s : State) (v : Word) : (s.setCpsr v).pastTop = s.pastTop := rfl
@[simp] theorem State.setCpsr_freeCount (s : State) (v : Word) : (s.setCpsr v).freeCount = s.freeCount := rfl

/-! `State.advance` -/

@[simp] theorem State.advance_regs (s : State) : (s.advance).regs = s.regs := rfl
@[simp] theorem State.advance_pc (s : State) : (s.advance).pc = s.nextPc := rfl
@[simp] theorem State.advance_cpsr (s : State) : (s.advance).cpsr = s.cpsr := rfl
@[simp] theorem State.advance_spsr (s : State) : (s.advance).spsr = s.spsr := rfl
@[simp] theorem State.advance_dcc (s : State) : (s.advance).dcc = s.dcc := rfl
@[simp] theorem State.advance_mem (s : State) : (s.advance).mem = s.mem := rfl
@[simp] theorem State.advance_stored (s : State) : (s.advance).stored = s.stored := rfl
@[simp] theorem State.advance_fetched (s : State) : (s.advance).fetched = s.fetched := rfl
@[simp] theorem State.advance_config (s : State) : (s.advance).config = s.config := rfl
@[simp] theorem State.advance_pins (s : State) : (s.advance).pins = s.pins := rfl
@[simp] theorem State.advance_cpAnswers (s : State) : (s.advance).cpAnswers = s.cpAnswers := rfl
@[simp] theorem State.advance_cpSent (s : State) : (s.advance).cpSent = s.cpSent := rfl
@[simp] theorem State.advance_cpWaiting (s : State) : (s.advance).cpWaiting = s.cpWaiting := rfl
@[simp] theorem State.advance_userLdm (s : State) : (s.advance).userLdm = s.userLdm := rfl
@[simp] theorem State.advance_pastTop (s : State) : (s.advance).pastTop = decide (2 ^ 32 ≤ s.pc.toNat + s.size) := rfl
@[simp] theorem State.advance_freeCount (s : State) : (s.advance).freeCount = s.freeCount := rfl

/-! `State.takeFree` -/

@[simp] theorem State.takeFree_regs (s : State) : (s.takeFree).regs = s.regs := rfl
@[simp] theorem State.takeFree_pc (s : State) : (s.takeFree).pc = s.pc := rfl
@[simp] theorem State.takeFree_cpsr (s : State) : (s.takeFree).cpsr = s.cpsr := rfl
@[simp] theorem State.takeFree_spsr (s : State) : (s.takeFree).spsr = s.spsr := rfl
@[simp] theorem State.takeFree_dcc (s : State) : (s.takeFree).dcc = s.dcc := rfl
@[simp] theorem State.takeFree_mem (s : State) : (s.takeFree).mem = s.mem := rfl
@[simp] theorem State.takeFree_stored (s : State) : (s.takeFree).stored = s.stored := rfl
@[simp] theorem State.takeFree_fetched (s : State) : (s.takeFree).fetched = s.fetched := rfl
@[simp] theorem State.takeFree_config (s : State) : (s.takeFree).config = s.config := rfl
@[simp] theorem State.takeFree_pins (s : State) : (s.takeFree).pins = s.pins := rfl
@[simp] theorem State.takeFree_cpAnswers (s : State) : (s.takeFree).cpAnswers = s.cpAnswers := rfl
@[simp] theorem State.takeFree_cpSent (s : State) : (s.takeFree).cpSent = s.cpSent := rfl
@[simp] theorem State.takeFree_cpWaiting (s : State) : (s.takeFree).cpWaiting = s.cpWaiting := rfl
@[simp] theorem State.takeFree_userLdm (s : State) : (s.takeFree).userLdm = s.userLdm := rfl
@[simp] theorem State.takeFree_pastTop (s : State) : (s.takeFree).pastTop = s.pastTop := rfl
@[simp] theorem State.takeFree_freeCount (s : State) : (s.takeFree).freeCount = s.freeCount + 1 := rfl

/-! `State.putByte` -/

@[simp] theorem State.putByte_regs (s : State) (a : Word) (v : Byte) : (s.putByte a v).regs = s.regs := rfl
@[simp] theorem State.putByte_pc (s : State) (a : Word) (v : Byte) : (s.putByte a v).pc = s.pc := rfl
@[simp] theorem State.putByte_cpsr (s : State) (a : Word) (v : Byte) : (s.putByte a v).cpsr = s.cpsr := rfl
@[simp] theorem State.putByte_spsr (s : State) (a : Word) (v : Byte) : (s.putByte a v).spsr = s.spsr := rfl
@[simp] theorem State.putByte_dcc (s : State) (a : Word) (v : Byte) : (s.putByte a v).dcc = s.dcc := rfl
@[simp] theorem State.putByte_mem (s : State) (a : Word) (v : Byte) :
    (s.putByte a v).mem = writeCell s.mem a.toNat v := rfl
@[simp] theorem State.putByte_stored (s : State) (a : Word) (v : Byte) :
    (s.putByte a v).stored = insertAddr s.stored a.toNat := rfl
@[simp] theorem State.putByte_fetched (s : State) (a : Word) (v : Byte) : (s.putByte a v).fetched = s.fetched := rfl
@[simp] theorem State.putByte_config (s : State) (a : Word) (v : Byte) : (s.putByte a v).config = s.config := rfl
@[simp] theorem State.putByte_pins (s : State) (a : Word) (v : Byte) : (s.putByte a v).pins = s.pins := rfl
@[simp] theorem State.putByte_cpAnswers (s : State) (a : Word) (v : Byte) :
    (s.putByte a v).cpAnswers = s.cpAnswers := rfl
@[simp] theorem State.putByte_cpSent (s : State) (a : Word) (v : Byte) : (s.putByte a v).cpSent = s.cpSent := rfl
@[simp] theorem State.putByte_cpWaiting (s : State) (a : Word) (v : Byte) :
    (s.putByte a v).cpWaiting = s.cpWaiting := rfl
@[simp] theorem State.putByte_userLdm (s : State) (a : Word) (v : Byte) : (s.putByte a v).userLdm = s.userLdm := rfl
@[simp] theorem State.putByte_pastTop (s : State) (a : Word) (v : Byte) : (s.putByte a v).pastTop = s.pastTop := rfl
@[simp] theorem State.putByte_freeCount (s : State) (a : Word) (v : Byte) :
    (s.putByte a v).freeCount = s.freeCount := rfl

/-! `State.send` -/

@[simp] theorem State.send_regs (s : State) (i : Instr) (d : List Word) (c : Bool) :
    (s.send i d c).regs = s.regs := rfl
@[simp] theorem State.send_pc (s : State) (i : Instr) (d : List Word) (c : Bool) : (s.send i d c).pc = s.pc := rfl
@[simp] theorem State.send_cpsr (s : State) (i : Instr) (d : List Word) (c : Bool) :
    (s.send i d c).cpsr = s.cpsr := rfl
@[simp] theorem State.send_spsr (s : State) (i : Instr) (d : List Word) (c : Bool) :
    (s.send i d c).spsr = s.spsr := rfl
@[simp] theorem State.send_dcc (s : State) (i : Instr) (d : List Word) (c : Bool) : (s.send i d c).dcc = s.dcc := rfl
@[simp] theorem State.send_mem (s : State) (i : Instr) (d : List Word) (c : Bool) : (s.send i d c).mem = s.mem := rfl
@[simp] theorem State.send_stored (s : State) (i : Instr) (d : List Word) (c : Bool) :
    (s.send i d c).stored = s.stored := rfl
@[simp] theorem State.send_fetched (s : State) (i : Instr) (d : List Word) (c : Bool) :
    (s.send i d c).fetched = s.fetched := rfl
@[simp] theorem State.send_config (s : State) (i : Instr) (d : List Word) (c : Bool) :
    (s.send i d c).config = s.config := rfl
@[simp] theorem State.send_pins (s : State) (i : Instr) (d : List Word) (c : Bool) :
    (s.send i d c).pins = s.pins := rfl
@[simp] theorem State.send_cpAnswers (s : State) (i : Instr) (d : List Word) (c : Bool) :
    (s.send i d c).cpAnswers = s.cpAnswers := rfl
@[simp] theorem State.send_cpWaiting (s : State) (i : Instr) (d : List Word) (c : Bool) :
    (s.send i d c).cpWaiting = s.cpWaiting := rfl
@[simp] theorem State.send_userLdm (s : State) (i : Instr) (d : List Word) (c : Bool) :
    (s.send i d c).userLdm = s.userLdm := rfl
@[simp] theorem State.send_pastTop (s : State) (i : Instr) (d : List Word) (c : Bool) :
    (s.send i d c).pastTop = s.pastTop := rfl
@[simp] theorem State.send_freeCount (s : State) (i : Instr) (d : List Word) (c : Bool) :
    (s.send i d c).freeCount = s.freeCount := rfl

/-! `State.setReg` -/

@[simp] theorem State.setReg_pc (s : State) (i : Reg) (v : Word) :
    (s.setReg i v).pc = s.pc := by unfold State.setReg; split <;> rfl
@[simp] theorem State.setReg_cpsr (s : State) (i : Reg) (v : Word) :
    (s.setReg i v).cpsr = s.cpsr := by unfold State.setReg; split <;> rfl
@[simp] theorem State.setReg_spsr (s : State) (i : Reg) (v : Word) :
    (s.setReg i v).spsr = s.spsr := by unfold State.setReg; split <;> rfl
@[simp] theorem State.setReg_dcc (s : State) (i : Reg) (v : Word) :
    (s.setReg i v).dcc = s.dcc := by unfold State.setReg; split <;> rfl
@[simp] theorem State.setReg_mem (s : State) (i : Reg) (v : Word) :
    (s.setReg i v).mem = s.mem := by unfold State.setReg; split <;> rfl
@[simp] theorem State.setReg_stored (s : State) (i : Reg) (v : Word) :
    (s.setReg i v).stored = s.stored := by unfold State.setReg; split <;> rfl
@[simp] theorem State.setReg_fetched (s : State) (i : Reg) (v : Word) :
    (s.setReg i v).fetched = s.fetched := by unfold State.setReg; split <;> rfl
@[simp] theorem State.setReg_config (s : State) (i : Reg) (v : Word) :
    (s.setReg i v).config = s.config := by unfold State.setReg; split <;> rfl
@[simp] theorem State.setReg_pins (s : State) (i : Reg) (v : Word) :
    (s.setReg i v).pins = s.pins := by unfold State.setReg; split <;> rfl
@[simp] theorem State.setReg_cpAnswers (s : State) (i : Reg) (v : Word) :
    (s.setReg i v).cpAnswers = s.cpAnswers := by unfold State.setReg; split <;> rfl
@[simp] theorem State.setReg_cpSent (s : State) (i : Reg) (v : Word) :
    (s.setReg i v).cpSent = s.cpSent := by unfold State.setReg; split <;> rfl
@[simp] theorem State.setReg_cpWaiting (s : State) (i : Reg) (v : Word) :
    (s.setReg i v).cpWaiting = s.cpWaiting := by unfold State.setReg; split <;> rfl
@[simp] theorem State.setReg_userLdm (s : State) (i : Reg) (v : Word) :
    (s.setReg i v).userLdm = s.userLdm := by unfold State.setReg; split <;> rfl
@[simp] theorem State.setReg_pastTop (s : State) (i : Reg) (v : Word) :
    (s.setReg i v).pastTop = s.pastTop := by unfold State.setReg; split <;> rfl
@[simp] theorem State.setReg_freeCount (s : State) (i : Reg) (v : Word) :
    (s.setReg i v).freeCount = s.freeCount := by unfold State.setReg; split <;> rfl

/-! `State.setUserReg` -/

@[simp] theorem State.setUserReg_pc (s : State) (i : Reg) (v : Word) :
    (s.setUserReg i v).pc = s.pc := by unfold State.setUserReg; split <;> rfl
@[simp] theorem State.setUserReg_cpsr (s : State) (i : Reg) (v : Word) :
    (s.setUserReg i v).cpsr = s.cpsr := by unfold State.setUserReg; split <;> rfl
@[simp] theorem State.setUserReg_spsr (s : State) (i : Reg) (v : Word) :
    (s.setUserReg i v).spsr = s.spsr := by unfold State.setUserReg; split <;> rfl
@[simp] theorem State.setUserReg_dcc (s : State) (i : Reg) (v : Word) :
    (s.setUserReg i v).dcc = s.dcc := by unfold State.setUserReg; split <;> rfl
@[simp] theorem State.setUserReg_mem (s : State) (i : Reg) (v : Word) :
    (s.setUserReg i v).mem = s.mem := by unfold State.setUserReg; split <;> rfl
@[simp] theorem State.setUserReg_stored (s : State) (i : Reg) (v : Word) :
    (s.setUserReg i v).stored = s.stored := by unfold State.setUserReg; split <;> rfl
@[simp] theorem State.setUserReg_fetched (s : State) (i : Reg) (v : Word) :
    (s.setUserReg i v).fetched = s.fetched := by unfold State.setUserReg; split <;> rfl
@[simp] theorem State.setUserReg_config (s : State) (i : Reg) (v : Word) :
    (s.setUserReg i v).config = s.config := by unfold State.setUserReg; split <;> rfl
@[simp] theorem State.setUserReg_pins (s : State) (i : Reg) (v : Word) :
    (s.setUserReg i v).pins = s.pins := by unfold State.setUserReg; split <;> rfl
@[simp] theorem State.setUserReg_cpAnswers (s : State) (i : Reg) (v : Word) :
    (s.setUserReg i v).cpAnswers = s.cpAnswers := by unfold State.setUserReg; split <;> rfl
@[simp] theorem State.setUserReg_cpSent (s : State) (i : Reg) (v : Word) :
    (s.setUserReg i v).cpSent = s.cpSent := by unfold State.setUserReg; split <;> rfl
@[simp] theorem State.setUserReg_cpWaiting (s : State) (i : Reg) (v : Word) :
    (s.setUserReg i v).cpWaiting = s.cpWaiting := by unfold State.setUserReg; split <;> rfl
@[simp] theorem State.setUserReg_userLdm (s : State) (i : Reg) (v : Word) :
    (s.setUserReg i v).userLdm = s.userLdm := by unfold State.setUserReg; split <;> rfl
@[simp] theorem State.setUserReg_pastTop (s : State) (i : Reg) (v : Word) :
    (s.setUserReg i v).pastTop = s.pastTop := by unfold State.setUserReg; split <;> rfl
@[simp] theorem State.setUserReg_freeCount (s : State) (i : Reg) (v : Word) :
    (s.setUserReg i v).freeCount = s.freeCount := by unfold State.setUserReg; split <;> rfl

/-! `State.writeBase` -/

@[simp] theorem State.writeBase_pc (s : State) (a : Address) (i : Reg) :
    (s.writeBase a i).pc = s.pc := by unfold State.writeBase; split <;> simp
@[simp] theorem State.writeBase_cpsr (s : State) (a : Address) (i : Reg) :
    (s.writeBase a i).cpsr = s.cpsr := by unfold State.writeBase; split <;> simp
@[simp] theorem State.writeBase_spsr (s : State) (a : Address) (i : Reg) :
    (s.writeBase a i).spsr = s.spsr := by unfold State.writeBase; split <;> simp
@[simp] theorem State.writeBase_dcc (s : State) (a : Address) (i : Reg) :
    (s.writeBase a i).dcc = s.dcc := by unfold State.writeBase; split <;> simp
@[simp] theorem State.writeBase_mem (s : State) (a : Address) (i : Reg) :
    (s.writeBase a i).mem = s.mem := by unfold State.writeBase; split <;> simp
@[simp] theorem State.writeBase_stored (s : State) (a : Address) (i : Reg) :
    (s.writeBase a i).stored = s.stored := by unfold State.writeBase; split <;> simp
@[simp] theorem State.writeBase_fetched (s : State) (a : Address) (i : Reg) :
    (s.writeBase a i).fetched = s.fetched := by unfold State.writeBase; split <;> simp
@[simp] theorem State.writeBase_config (s : State) (a : Address) (i : Reg) :
    (s.writeBase a i).config = s.config := by unfold State.writeBase; split <;> simp
@[simp] theorem State.writeBase_pins (s : State) (a : Address) (i : Reg) :
    (s.writeBase a i).pins = s.pins := by unfold State.writeBase; split <;> simp
@[simp] theorem State.writeBase_cpAnswers (s : State) (a : Address) (i : Reg) :
    (s.writeBase a i).cpAnswers = s.cpAnswers := by unfold State.writeBase; split <;> simp
@[simp] theorem State.writeBase_cpSent (s : State) (a : Address) (i : Reg) :
    (s.writeBase a i).cpSent = s.cpSent := by unfold State.writeBase; split <;> simp
@[simp] theorem State.writeBase_cpWaiting (s : State) (a : Address) (i : Reg) :
    (s.writeBase a i).cpWaiting = s.cpWaiting := by unfold State.writeBase; split <;> simp
@[simp] theorem State.writeBase_userLdm (s : State) (a : Address) (i : Reg) :
    (s.writeBase a i).userLdm = s.userLdm := by unfold State.writeBase; split <;> simp
@[simp] theorem State.writeBase_pastTop (s : State) (a : Address) (i : Reg) :
    (s.writeBase a i).pastTop = s.pastTop := by unfold State.writeBase; split <;> simp
@[simp] theorem State.writeBase_freeCount (s : State) (a : Address) (i : Reg) :
    (s.writeBase a i).freeCount = s.freeCount := by unfold State.writeBase; split <;> simp

@[simp] theorem State.send_cpSent (s : State) (i : Instr) (d : List Word) (c : Bool) :
    (s.send i d c).cpSent = s.cpSent ++ [{ instr := i, privileged := s.privileged, data := d, complete := c }] := rfl

/-! `takeException` -/

@[simp] theorem takeException_regs (e : Exception) (l : Word) (s : State) :
    (takeException e l s).regs = s.regs.set e.mode.lr l := rfl
@[simp] theorem takeException_pc (e : Exception) (l : Word) (s : State) :
    (takeException e l s).pc = s.vectorBase + e.offset := rfl
@[simp] theorem takeException_cpsr (e : Exception) (l : Word) (s : State) :
    (takeException e l s).cpsr = exceptionCpsr e s.cpsr := rfl
@[simp] theorem takeException_spsr (e : Exception) (l : Word) (s : State) :
    (takeException e l s).spsr = s.spsr.set e.mode s.cpsr := rfl
@[simp] theorem takeException_dcc (e : Exception) (l : Word) (s : State) : (takeException e l s).dcc = s.dcc := rfl
@[simp] theorem takeException_mem (e : Exception) (l : Word) (s : State) : (takeException e l s).mem = s.mem := rfl
@[simp] theorem takeException_stored (e : Exception) (l : Word) (s : State) :
    (takeException e l s).stored = s.stored := rfl
@[simp] theorem takeException_fetched (e : Exception) (l : Word) (s : State) :
    (takeException e l s).fetched = s.fetched := rfl
@[simp] theorem takeException_config (e : Exception) (l : Word) (s : State) :
    (takeException e l s).config = s.config := rfl
@[simp] theorem takeException_pins (e : Exception) (l : Word) (s : State) : (takeException e l s).pins = s.pins := rfl
@[simp] theorem takeException_cpAnswers (e : Exception) (l : Word) (s : State) :
    (takeException e l s).cpAnswers = s.cpAnswers := rfl
@[simp] theorem takeException_cpSent (e : Exception) (l : Word) (s : State) :
    (takeException e l s).cpSent = s.cpSent := rfl
@[simp] theorem takeException_cpWaiting (e : Exception) (l : Word) (s : State) :
    (takeException e l s).cpWaiting = false := rfl
@[simp] theorem takeException_userLdm (e : Exception) (l : Word) (s : State) :
    (takeException e l s).userLdm = false := rfl
@[simp] theorem takeException_pastTop (e : Exception) (l : Word) (s : State) :
    (takeException e l s).pastTop = false := rfl
@[simp] theorem takeException_freeCount (e : Exception) (l : Word) (s : State) :
    (takeException e l s).freeCount = s.freeCount := rfl

/-! Stores of several bytes and register transfers, by induction over their lists -/

@[simp] theorem State.putBytes_regs (s : State) (a : Word) (bs : List Byte) : (s.putBytes a bs).regs = s.regs := by
  induction bs generalizing s a with
  | nil => rfl
  | cons b bs ih => rw [State.putBytes, ih]; rfl

@[simp] theorem State.putBytes_pc (s : State) (a : Word) (bs : List Byte) : (s.putBytes a bs).pc = s.pc := by
  induction bs generalizing s a with
  | nil => rfl
  | cons b bs ih => rw [State.putBytes, ih]; rfl

@[simp] theorem State.putBytes_cpsr (s : State) (a : Word) (bs : List Byte) : (s.putBytes a bs).cpsr = s.cpsr := by
  induction bs generalizing s a with
  | nil => rfl
  | cons b bs ih => rw [State.putBytes, ih]; rfl

@[simp] theorem State.putBytes_spsr (s : State) (a : Word) (bs : List Byte) : (s.putBytes a bs).spsr = s.spsr := by
  induction bs generalizing s a with
  | nil => rfl
  | cons b bs ih => rw [State.putBytes, ih]; rfl

@[simp] theorem State.putBytes_dcc (s : State) (a : Word) (bs : List Byte) : (s.putBytes a bs).dcc = s.dcc := by
  induction bs generalizing s a with
  | nil => rfl
  | cons b bs ih => rw [State.putBytes, ih]; rfl

@[simp] theorem State.putBytes_config (s : State) (a : Word) (bs : List Byte) :
    (s.putBytes a bs).config = s.config := by
  induction bs generalizing s a with
  | nil => rfl
  | cons b bs ih => rw [State.putBytes, ih]; rfl

@[simp] theorem State.putBytes_fetched (s : State) (a : Word) (bs : List Byte) :
    (s.putBytes a bs).fetched = s.fetched := by
  induction bs generalizing s a with
  | nil => rfl
  | cons b bs ih => rw [State.putBytes, ih]; rfl

@[simp] theorem State.putBytes_pins (s : State) (a : Word) (bs : List Byte) : (s.putBytes a bs).pins = s.pins := by
  induction bs generalizing s a with
  | nil => rfl
  | cons b bs ih => rw [State.putBytes, ih]; rfl

@[simp] theorem State.putBytes_cpAnswers (s : State) (a : Word) (bs : List Byte) :
    (s.putBytes a bs).cpAnswers = s.cpAnswers := by
  induction bs generalizing s a with
  | nil => rfl
  | cons b bs ih => rw [State.putBytes, ih]; rfl

@[simp] theorem State.putBytes_cpSent (s : State) (a : Word) (bs : List Byte) :
    (s.putBytes a bs).cpSent = s.cpSent := by
  induction bs generalizing s a with
  | nil => rfl
  | cons b bs ih => rw [State.putBytes, ih]; rfl

@[simp] theorem State.putBytes_cpWaiting (s : State) (a : Word) (bs : List Byte) :
    (s.putBytes a bs).cpWaiting = s.cpWaiting := by
  induction bs generalizing s a with
  | nil => rfl
  | cons b bs ih => rw [State.putBytes, ih]; rfl

@[simp] theorem State.putBytes_userLdm (s : State) (a : Word) (bs : List Byte) :
    (s.putBytes a bs).userLdm = s.userLdm := by
  induction bs generalizing s a with
  | nil => rfl
  | cons b bs ih => rw [State.putBytes, ih]; rfl

@[simp] theorem State.putBytes_pastTop (s : State) (a : Word) (bs : List Byte) :
    (s.putBytes a bs).pastTop = s.pastTop := by
  induction bs generalizing s a with
  | nil => rfl
  | cons b bs ih => rw [State.putBytes, ih]; rfl

@[simp] theorem State.putBytes_freeCount (s : State) (a : Word) (bs : List Byte) :
    (s.putBytes a bs).freeCount = s.freeCount := by
  induction bs generalizing s a with
  | nil => rfl
  | cons b bs ih => rw [State.putBytes, ih]; rfl

@[simp] theorem State.putWord_regs (s : State) (a : Word) (v : Word) : (s.putWord a v).regs = s.regs := by
  simp [State.putWord]

@[simp] theorem State.putWord_pc (s : State) (a : Word) (v : Word) : (s.putWord a v).pc = s.pc := by
  simp [State.putWord]

@[simp] theorem State.putWord_cpsr (s : State) (a : Word) (v : Word) : (s.putWord a v).cpsr = s.cpsr := by
  simp [State.putWord]

@[simp] theorem State.putWord_spsr (s : State) (a : Word) (v : Word) : (s.putWord a v).spsr = s.spsr := by
  simp [State.putWord]

@[simp] theorem State.putWord_dcc (s : State) (a : Word) (v : Word) : (s.putWord a v).dcc = s.dcc := by
  simp [State.putWord]

@[simp] theorem State.putWord_config (s : State) (a : Word) (v : Word) : (s.putWord a v).config = s.config := by
  simp [State.putWord]

@[simp] theorem State.putWord_fetched (s : State) (a : Word) (v : Word) : (s.putWord a v).fetched = s.fetched := by
  simp [State.putWord]

@[simp] theorem State.putWord_pins (s : State) (a : Word) (v : Word) : (s.putWord a v).pins = s.pins := by
  simp [State.putWord]

@[simp] theorem State.putWord_cpAnswers (s : State) (a : Word) (v : Word) :
    (s.putWord a v).cpAnswers = s.cpAnswers := by
  simp [State.putWord]

@[simp] theorem State.putWord_cpSent (s : State) (a : Word) (v : Word) : (s.putWord a v).cpSent = s.cpSent := by
  simp [State.putWord]

@[simp] theorem State.putWord_cpWaiting (s : State) (a : Word) (v : Word) :
    (s.putWord a v).cpWaiting = s.cpWaiting := by
  simp [State.putWord]

@[simp] theorem State.putWord_userLdm (s : State) (a : Word) (v : Word) : (s.putWord a v).userLdm = s.userLdm := by
  simp [State.putWord]

@[simp] theorem State.putWord_pastTop (s : State) (a : Word) (v : Word) : (s.putWord a v).pastTop = s.pastTop := by
  simp [State.putWord]

@[simp] theorem State.putWord_freeCount (s : State) (a : Word) (v : Word) :
    (s.putWord a v).freeCount = s.freeCount := by
  simp [State.putWord]

@[simp] theorem State.putHalf_regs (s : State) (a : Word) (v : Half) : (s.putHalf a v).regs = s.regs := by
  simp [State.putHalf]

@[simp] theorem State.putHalf_pc (s : State) (a : Word) (v : Half) : (s.putHalf a v).pc = s.pc := by
  simp [State.putHalf]

@[simp] theorem State.putHalf_cpsr (s : State) (a : Word) (v : Half) : (s.putHalf a v).cpsr = s.cpsr := by
  simp [State.putHalf]

@[simp] theorem State.putHalf_spsr (s : State) (a : Word) (v : Half) : (s.putHalf a v).spsr = s.spsr := by
  simp [State.putHalf]

@[simp] theorem State.putHalf_dcc (s : State) (a : Word) (v : Half) : (s.putHalf a v).dcc = s.dcc := by
  simp [State.putHalf]

@[simp] theorem State.putHalf_config (s : State) (a : Word) (v : Half) : (s.putHalf a v).config = s.config := by
  simp [State.putHalf]

@[simp] theorem State.putHalf_fetched (s : State) (a : Word) (v : Half) : (s.putHalf a v).fetched = s.fetched := by
  simp [State.putHalf]

@[simp] theorem State.putHalf_pins (s : State) (a : Word) (v : Half) : (s.putHalf a v).pins = s.pins := by
  simp [State.putHalf]

@[simp] theorem State.putHalf_cpAnswers (s : State) (a : Word) (v : Half) :
    (s.putHalf a v).cpAnswers = s.cpAnswers := by
  simp [State.putHalf]

@[simp] theorem State.putHalf_cpSent (s : State) (a : Word) (v : Half) : (s.putHalf a v).cpSent = s.cpSent := by
  simp [State.putHalf]

@[simp] theorem State.putHalf_cpWaiting (s : State) (a : Word) (v : Half) :
    (s.putHalf a v).cpWaiting = s.cpWaiting := by
  simp [State.putHalf]

@[simp] theorem State.putHalf_userLdm (s : State) (a : Word) (v : Half) : (s.putHalf a v).userLdm = s.userLdm := by
  simp [State.putHalf]

@[simp] theorem State.putHalf_pastTop (s : State) (a : Word) (v : Half) : (s.putHalf a v).pastTop = s.pastTop := by
  simp [State.putHalf]

@[simp] theorem State.putHalf_freeCount (s : State) (a : Word) (v : Half) :
    (s.putHalf a v).freeCount = s.freeCount := by
  simp [State.putHalf]

@[simp] theorem State.scramble_regs (s : State) (n : Nat) (a : Word) : (s.scramble n a).regs = s.regs := by
  induction n generalizing s a with
  | zero => rfl
  | succ n ih => simp [State.scramble, ih]

@[simp] theorem State.scramble_pc (s : State) (n : Nat) (a : Word) : (s.scramble n a).pc = s.pc := by
  induction n generalizing s a with
  | zero => rfl
  | succ n ih => simp [State.scramble, ih]

@[simp] theorem State.scramble_cpsr (s : State) (n : Nat) (a : Word) : (s.scramble n a).cpsr = s.cpsr := by
  induction n generalizing s a with
  | zero => rfl
  | succ n ih => simp [State.scramble, ih]

@[simp] theorem State.scramble_spsr (s : State) (n : Nat) (a : Word) : (s.scramble n a).spsr = s.spsr := by
  induction n generalizing s a with
  | zero => rfl
  | succ n ih => simp [State.scramble, ih]

@[simp] theorem State.scramble_dcc (s : State) (n : Nat) (a : Word) : (s.scramble n a).dcc = s.dcc := by
  induction n generalizing s a with
  | zero => rfl
  | succ n ih => simp [State.scramble, ih]

@[simp] theorem State.scramble_config (s : State) (n : Nat) (a : Word) : (s.scramble n a).config = s.config := by
  induction n generalizing s a with
  | zero => rfl
  | succ n ih => simp [State.scramble, ih]

@[simp] theorem State.scramble_fetched (s : State) (n : Nat) (a : Word) : (s.scramble n a).fetched = s.fetched := by
  induction n generalizing s a with
  | zero => rfl
  | succ n ih => simp [State.scramble, ih]

@[simp] theorem State.scramble_pins (s : State) (n : Nat) (a : Word) : (s.scramble n a).pins = s.pins := by
  induction n generalizing s a with
  | zero => rfl
  | succ n ih => simp [State.scramble, ih]

@[simp] theorem State.scramble_cpAnswers (s : State) (n : Nat) (a : Word) :
    (s.scramble n a).cpAnswers = s.cpAnswers := by
  induction n generalizing s a with
  | zero => rfl
  | succ n ih => simp [State.scramble, ih]

@[simp] theorem State.scramble_cpSent (s : State) (n : Nat) (a : Word) : (s.scramble n a).cpSent = s.cpSent := by
  induction n generalizing s a with
  | zero => rfl
  | succ n ih => simp [State.scramble, ih]

@[simp] theorem State.scramble_cpWaiting (s : State) (n : Nat) (a : Word) :
    (s.scramble n a).cpWaiting = s.cpWaiting := by
  induction n generalizing s a with
  | zero => rfl
  | succ n ih => simp [State.scramble, ih]

@[simp] theorem State.scramble_userLdm (s : State) (n : Nat) (a : Word) : (s.scramble n a).userLdm = s.userLdm := by
  induction n generalizing s a with
  | zero => rfl
  | succ n ih => simp [State.scramble, ih]

@[simp] theorem State.scramble_pastTop (s : State) (n : Nat) (a : Word) : (s.scramble n a).pastTop = s.pastTop := by
  induction n generalizing s a with
  | zero => rfl
  | succ n ih => simp [State.scramble, ih]

@[simp] theorem State.setRegs_pc (s : State) (rs : List Reg) (ws : List Word) : (s.setRegs rs ws).pc = s.pc := by
  induction rs generalizing s ws with
  | nil => simp [State.setRegs]
  | cons r rs ih => cases ws <;> simp [State.setRegs, ih]

@[simp] theorem State.setRegs_cpsr (s : State) (rs : List Reg) (ws : List Word) :
    (s.setRegs rs ws).cpsr = s.cpsr := by
  induction rs generalizing s ws with
  | nil => simp [State.setRegs]
  | cons r rs ih => cases ws <;> simp [State.setRegs, ih]

@[simp] theorem State.setRegs_spsr (s : State) (rs : List Reg) (ws : List Word) :
    (s.setRegs rs ws).spsr = s.spsr := by
  induction rs generalizing s ws with
  | nil => simp [State.setRegs]
  | cons r rs ih => cases ws <;> simp [State.setRegs, ih]

@[simp] theorem State.setRegs_dcc (s : State) (rs : List Reg) (ws : List Word) : (s.setRegs rs ws).dcc = s.dcc := by
  induction rs generalizing s ws with
  | nil => simp [State.setRegs]
  | cons r rs ih => cases ws <;> simp [State.setRegs, ih]

@[simp] theorem State.setRegs_mem (s : State) (rs : List Reg) (ws : List Word) : (s.setRegs rs ws).mem = s.mem := by
  induction rs generalizing s ws with
  | nil => simp [State.setRegs]
  | cons r rs ih => cases ws <;> simp [State.setRegs, ih]

@[simp] theorem State.setRegs_stored (s : State) (rs : List Reg) (ws : List Word) :
    (s.setRegs rs ws).stored = s.stored := by
  induction rs generalizing s ws with
  | nil => simp [State.setRegs]
  | cons r rs ih => cases ws <;> simp [State.setRegs, ih]

@[simp] theorem State.setRegs_fetched (s : State) (rs : List Reg) (ws : List Word) :
    (s.setRegs rs ws).fetched = s.fetched := by
  induction rs generalizing s ws with
  | nil => simp [State.setRegs]
  | cons r rs ih => cases ws <;> simp [State.setRegs, ih]

@[simp] theorem State.setRegs_config (s : State) (rs : List Reg) (ws : List Word) :
    (s.setRegs rs ws).config = s.config := by
  induction rs generalizing s ws with
  | nil => simp [State.setRegs]
  | cons r rs ih => cases ws <;> simp [State.setRegs, ih]

@[simp] theorem State.setRegs_pins (s : State) (rs : List Reg) (ws : List Word) :
    (s.setRegs rs ws).pins = s.pins := by
  induction rs generalizing s ws with
  | nil => simp [State.setRegs]
  | cons r rs ih => cases ws <;> simp [State.setRegs, ih]

@[simp] theorem State.setRegs_cpAnswers (s : State) (rs : List Reg) (ws : List Word) :
    (s.setRegs rs ws).cpAnswers = s.cpAnswers := by
  induction rs generalizing s ws with
  | nil => simp [State.setRegs]
  | cons r rs ih => cases ws <;> simp [State.setRegs, ih]

@[simp] theorem State.setRegs_cpSent (s : State) (rs : List Reg) (ws : List Word) :
    (s.setRegs rs ws).cpSent = s.cpSent := by
  induction rs generalizing s ws with
  | nil => simp [State.setRegs]
  | cons r rs ih => cases ws <;> simp [State.setRegs, ih]

@[simp] theorem State.setRegs_cpWaiting (s : State) (rs : List Reg) (ws : List Word) :
    (s.setRegs rs ws).cpWaiting = s.cpWaiting := by
  induction rs generalizing s ws with
  | nil => simp [State.setRegs]
  | cons r rs ih => cases ws <;> simp [State.setRegs, ih]

@[simp] theorem State.setRegs_userLdm (s : State) (rs : List Reg) (ws : List Word) :
    (s.setRegs rs ws).userLdm = s.userLdm := by
  induction rs generalizing s ws with
  | nil => simp [State.setRegs]
  | cons r rs ih => cases ws <;> simp [State.setRegs, ih]

@[simp] theorem State.setRegs_pastTop (s : State) (rs : List Reg) (ws : List Word) :
    (s.setRegs rs ws).pastTop = s.pastTop := by
  induction rs generalizing s ws with
  | nil => simp [State.setRegs]
  | cons r rs ih => cases ws <;> simp [State.setRegs, ih]

@[simp] theorem State.setRegs_freeCount (s : State) (rs : List Reg) (ws : List Word) :
    (s.setRegs rs ws).freeCount = s.freeCount := by
  induction rs generalizing s ws with
  | nil => simp [State.setRegs]
  | cons r rs ih => cases ws <;> simp [State.setRegs, ih]

@[simp] theorem State.setUserRegs_pc (s : State) (rs : List Reg) (ws : List Word) :
    (s.setUserRegs rs ws).pc = s.pc := by
  induction rs generalizing s ws with
  | nil => simp [State.setUserRegs]
  | cons r rs ih => cases ws <;> simp [State.setUserRegs, ih]

@[simp] theorem State.setUserRegs_cpsr (s : State) (rs : List Reg) (ws : List Word) :
    (s.setUserRegs rs ws).cpsr = s.cpsr := by
  induction rs generalizing s ws with
  | nil => simp [State.setUserRegs]
  | cons r rs ih => cases ws <;> simp [State.setUserRegs, ih]

@[simp] theorem State.setUserRegs_spsr (s : State) (rs : List Reg) (ws : List Word) :
    (s.setUserRegs rs ws).spsr = s.spsr := by
  induction rs generalizing s ws with
  | nil => simp [State.setUserRegs]
  | cons r rs ih => cases ws <;> simp [State.setUserRegs, ih]

@[simp] theorem State.setUserRegs_dcc (s : State) (rs : List Reg) (ws : List Word) :
    (s.setUserRegs rs ws).dcc = s.dcc := by
  induction rs generalizing s ws with
  | nil => simp [State.setUserRegs]
  | cons r rs ih => cases ws <;> simp [State.setUserRegs, ih]

@[simp] theorem State.setUserRegs_mem (s : State) (rs : List Reg) (ws : List Word) :
    (s.setUserRegs rs ws).mem = s.mem := by
  induction rs generalizing s ws with
  | nil => simp [State.setUserRegs]
  | cons r rs ih => cases ws <;> simp [State.setUserRegs, ih]

@[simp] theorem State.setUserRegs_stored (s : State) (rs : List Reg) (ws : List Word) :
    (s.setUserRegs rs ws).stored = s.stored := by
  induction rs generalizing s ws with
  | nil => simp [State.setUserRegs]
  | cons r rs ih => cases ws <;> simp [State.setUserRegs, ih]

@[simp] theorem State.setUserRegs_fetched (s : State) (rs : List Reg) (ws : List Word) :
    (s.setUserRegs rs ws).fetched = s.fetched := by
  induction rs generalizing s ws with
  | nil => simp [State.setUserRegs]
  | cons r rs ih => cases ws <;> simp [State.setUserRegs, ih]

@[simp] theorem State.setUserRegs_config (s : State) (rs : List Reg) (ws : List Word) :
    (s.setUserRegs rs ws).config = s.config := by
  induction rs generalizing s ws with
  | nil => simp [State.setUserRegs]
  | cons r rs ih => cases ws <;> simp [State.setUserRegs, ih]

@[simp] theorem State.setUserRegs_pins (s : State) (rs : List Reg) (ws : List Word) :
    (s.setUserRegs rs ws).pins = s.pins := by
  induction rs generalizing s ws with
  | nil => simp [State.setUserRegs]
  | cons r rs ih => cases ws <;> simp [State.setUserRegs, ih]

@[simp] theorem State.setUserRegs_cpAnswers (s : State) (rs : List Reg) (ws : List Word) :
    (s.setUserRegs rs ws).cpAnswers = s.cpAnswers := by
  induction rs generalizing s ws with
  | nil => simp [State.setUserRegs]
  | cons r rs ih => cases ws <;> simp [State.setUserRegs, ih]

@[simp] theorem State.setUserRegs_cpSent (s : State) (rs : List Reg) (ws : List Word) :
    (s.setUserRegs rs ws).cpSent = s.cpSent := by
  induction rs generalizing s ws with
  | nil => simp [State.setUserRegs]
  | cons r rs ih => cases ws <;> simp [State.setUserRegs, ih]

@[simp] theorem State.setUserRegs_cpWaiting (s : State) (rs : List Reg) (ws : List Word) :
    (s.setUserRegs rs ws).cpWaiting = s.cpWaiting := by
  induction rs generalizing s ws with
  | nil => simp [State.setUserRegs]
  | cons r rs ih => cases ws <;> simp [State.setUserRegs, ih]

@[simp] theorem State.setUserRegs_userLdm (s : State) (rs : List Reg) (ws : List Word) :
    (s.setUserRegs rs ws).userLdm = s.userLdm := by
  induction rs generalizing s ws with
  | nil => simp [State.setUserRegs]
  | cons r rs ih => cases ws <;> simp [State.setUserRegs, ih]

@[simp] theorem State.setUserRegs_pastTop (s : State) (rs : List Reg) (ws : List Word) :
    (s.setUserRegs rs ws).pastTop = s.pastTop := by
  induction rs generalizing s ws with
  | nil => simp [State.setUserRegs]
  | cons r rs ih => cases ws <;> simp [State.setUserRegs, ih]

@[simp] theorem State.setUserRegs_freeCount (s : State) (rs : List Reg) (ws : List Word) :
    (s.setUserRegs rs ws).freeCount = s.freeCount := by
  induction rs generalizing s ws with
  | nil => simp [State.setUserRegs]
  | cons r rs ih => cases ws <;> simp [State.setUserRegs, ih]

@[simp] theorem State.clobber_pc (s : State) (rs : List Reg) : (s.clobber rs).pc = s.pc := by
  induction rs generalizing s with
  | nil => rfl
  | cons r rs ih => simp [State.clobber, ih]

@[simp] theorem State.clobber_cpsr (s : State) (rs : List Reg) : (s.clobber rs).cpsr = s.cpsr := by
  induction rs generalizing s with
  | nil => rfl
  | cons r rs ih => simp [State.clobber, ih]

@[simp] theorem State.clobber_spsr (s : State) (rs : List Reg) : (s.clobber rs).spsr = s.spsr := by
  induction rs generalizing s with
  | nil => rfl
  | cons r rs ih => simp [State.clobber, ih]

@[simp] theorem State.clobber_dcc (s : State) (rs : List Reg) : (s.clobber rs).dcc = s.dcc := by
  induction rs generalizing s with
  | nil => rfl
  | cons r rs ih => simp [State.clobber, ih]

@[simp] theorem State.clobber_mem (s : State) (rs : List Reg) : (s.clobber rs).mem = s.mem := by
  induction rs generalizing s with
  | nil => rfl
  | cons r rs ih => simp [State.clobber, ih]

@[simp] theorem State.clobber_stored (s : State) (rs : List Reg) : (s.clobber rs).stored = s.stored := by
  induction rs generalizing s with
  | nil => rfl
  | cons r rs ih => simp [State.clobber, ih]

@[simp] theorem State.clobber_fetched (s : State) (rs : List Reg) : (s.clobber rs).fetched = s.fetched := by
  induction rs generalizing s with
  | nil => rfl
  | cons r rs ih => simp [State.clobber, ih]

@[simp] theorem State.clobber_config (s : State) (rs : List Reg) : (s.clobber rs).config = s.config := by
  induction rs generalizing s with
  | nil => rfl
  | cons r rs ih => simp [State.clobber, ih]

@[simp] theorem State.clobber_pins (s : State) (rs : List Reg) : (s.clobber rs).pins = s.pins := by
  induction rs generalizing s with
  | nil => rfl
  | cons r rs ih => simp [State.clobber, ih]

@[simp] theorem State.clobber_cpAnswers (s : State) (rs : List Reg) : (s.clobber rs).cpAnswers = s.cpAnswers := by
  induction rs generalizing s with
  | nil => rfl
  | cons r rs ih => simp [State.clobber, ih]

@[simp] theorem State.clobber_cpSent (s : State) (rs : List Reg) : (s.clobber rs).cpSent = s.cpSent := by
  induction rs generalizing s with
  | nil => rfl
  | cons r rs ih => simp [State.clobber, ih]

@[simp] theorem State.clobber_cpWaiting (s : State) (rs : List Reg) : (s.clobber rs).cpWaiting = s.cpWaiting := by
  induction rs generalizing s with
  | nil => rfl
  | cons r rs ih => simp [State.clobber, ih]

@[simp] theorem State.clobber_userLdm (s : State) (rs : List Reg) : (s.clobber rs).userLdm = s.userLdm := by
  induction rs generalizing s with
  | nil => rfl
  | cons r rs ih => simp [State.clobber, ih]

@[simp] theorem State.clobber_pastTop (s : State) (rs : List Reg) : (s.clobber rs).pastTop = s.pastTop := by
  induction rs generalizing s with
  | nil => rfl
  | cons r rs ih => simp [State.clobber, ih]

@[simp] theorem State.clobberUser_pc (s : State) (rs : List Reg) : (s.clobberUser rs).pc = s.pc := by
  induction rs generalizing s with
  | nil => rfl
  | cons r rs ih => simp [State.clobberUser, ih]

@[simp] theorem State.clobberUser_cpsr (s : State) (rs : List Reg) : (s.clobberUser rs).cpsr = s.cpsr := by
  induction rs generalizing s with
  | nil => rfl
  | cons r rs ih => simp [State.clobberUser, ih]

@[simp] theorem State.clobberUser_spsr (s : State) (rs : List Reg) : (s.clobberUser rs).spsr = s.spsr := by
  induction rs generalizing s with
  | nil => rfl
  | cons r rs ih => simp [State.clobberUser, ih]

@[simp] theorem State.clobberUser_dcc (s : State) (rs : List Reg) : (s.clobberUser rs).dcc = s.dcc := by
  induction rs generalizing s with
  | nil => rfl
  | cons r rs ih => simp [State.clobberUser, ih]

@[simp] theorem State.clobberUser_mem (s : State) (rs : List Reg) : (s.clobberUser rs).mem = s.mem := by
  induction rs generalizing s with
  | nil => rfl
  | cons r rs ih => simp [State.clobberUser, ih]

@[simp] theorem State.clobberUser_stored (s : State) (rs : List Reg) : (s.clobberUser rs).stored = s.stored := by
  induction rs generalizing s with
  | nil => rfl
  | cons r rs ih => simp [State.clobberUser, ih]

@[simp] theorem State.clobberUser_fetched (s : State) (rs : List Reg) : (s.clobberUser rs).fetched = s.fetched := by
  induction rs generalizing s with
  | nil => rfl
  | cons r rs ih => simp [State.clobberUser, ih]

@[simp] theorem State.clobberUser_config (s : State) (rs : List Reg) : (s.clobberUser rs).config = s.config := by
  induction rs generalizing s with
  | nil => rfl
  | cons r rs ih => simp [State.clobberUser, ih]

@[simp] theorem State.clobberUser_pins (s : State) (rs : List Reg) : (s.clobberUser rs).pins = s.pins := by
  induction rs generalizing s with
  | nil => rfl
  | cons r rs ih => simp [State.clobberUser, ih]

@[simp] theorem State.clobberUser_cpAnswers (s : State) (rs : List Reg) :
    (s.clobberUser rs).cpAnswers = s.cpAnswers := by
  induction rs generalizing s with
  | nil => rfl
  | cons r rs ih => simp [State.clobberUser, ih]

@[simp] theorem State.clobberUser_cpSent (s : State) (rs : List Reg) : (s.clobberUser rs).cpSent = s.cpSent := by
  induction rs generalizing s with
  | nil => rfl
  | cons r rs ih => simp [State.clobberUser, ih]

@[simp] theorem State.clobberUser_cpWaiting (s : State) (rs : List Reg) :
    (s.clobberUser rs).cpWaiting = s.cpWaiting := by
  induction rs generalizing s with
  | nil => rfl
  | cons r rs ih => simp [State.clobberUser, ih]

@[simp] theorem State.clobberUser_userLdm (s : State) (rs : List Reg) : (s.clobberUser rs).userLdm = s.userLdm := by
  induction rs generalizing s with
  | nil => rfl
  | cons r rs ih => simp [State.clobberUser, ih]

@[simp] theorem State.clobberUser_pastTop (s : State) (rs : List Reg) : (s.clobberUser rs).pastTop = s.pastTop := by
  induction rs generalizing s with
  | nil => rfl
  | cons r rs ih => simp [State.clobberUser, ih]

end Sys2Proof.Machine
end

