-- ==== Sys2Proof/Laws/Registers.lean ====
section
/-!
SUPPORT. The register file: reading after writing, which registers a mode names (R22), and what a write of a register
does to a read of any register.
-/
namespace Sys2Proof.Machine

/-- Reading a physical register after writing one. -/
theorem Regs.get_set (r : Regs) (p q : PhysReg) (v : Word) :
    (r.set p v).get q = if q = p then v else r.get q := by
  cases p <;> cases q <;> rfl

@[simp] theorem Regs.get_set_same (r : Regs) (p : PhysReg) (v : Word) : (r.set p v).get p = v := by
  simp [Regs.get_set]

theorem Regs.get_set_ne (r : Regs) {p q : PhysReg} (v : Word) (h : q ≠ p) : (r.set p v).get q = r.get q := by
  simp [Regs.get_set, h]

/-- Only r15 is none of the thirty registers. -/
theorem bank_eq_none (m : Mode) : ∀ i : Reg, bank m i = none ↔ i = 15#4 := by
  cases m <;> decide +kernel

/-- In one mode two register numbers never name the same register. -/
theorem bank_inj (m : Mode) : ∀ i j : Reg, bank m i = bank m j → i = j := by
  cases m <;> decide +kernel

/-- Every register number but 15 names a register. -/
theorem bank_some (m : Mode) (i : Reg) (h : i ≠ 15#4) : ∃ p, bank m i = some p := by
  cases hb : bank m i with
  | none => exact absurd ((bank_eq_none m i).mp hb) h
  | some p => exact ⟨p, rfl⟩

@[simp] theorem bank_pc (m : Mode) : bank m 15#4 = none := (bank_eq_none m 15#4).mpr rfl

/-- The link register is x[14]. -/
@[simp] theorem bank_lr (m : Mode) : bank m 14#4 = some m.lr := rfl

/-- The stack pointer is x[13]. -/
@[simp] theorem bank_sp (m : Mode) : bank m 13#4 = some m.sp := rfl

/-- The registers r0 to r7 are not banked. -/
theorem bank_low (m n : Mode) : ∀ i : Reg, i.toNat < 8 → bank m i = bank n i := by
  cases m <;> cases n <;> decide +kernel

theorem State.mode_of_cpsr {s t : State} (h : t.cpsr = s.cpsr) : t.mode = s.mode := by
  simp [State.mode, h]

@[simp] theorem State.setReg_mode (s : State) (i : Reg) (v : Word) : (s.setReg i v).mode = s.mode := by
  simp [State.mode]

@[simp] theorem State.setPc_mode (s : State) (v : Word) : (s.setPc v).mode = s.mode := rfl

@[simp] theorem State.advance_mode (s : State) : s.advance.mode = s.mode := rfl

@[simp] theorem State.takeFree_mode (s : State) : s.takeFree.mode = s.mode := rfl

@[simp] theorem State.setReg_privileged (s : State) (i : Reg) (v : Word) :
    (s.setReg i v).privileged = s.privileged := by
  simp [State.privileged]

@[simp] theorem State.setReg_pcRead (s : State) (i : Reg) (v : Word) : (s.setReg i v).pcRead = s.pcRead := by
  simp [State.pcRead]

@[simp] theorem State.setReg_nextPc (s : State) (i : Reg) (v : Word) : (s.setReg i v).nextPc = s.nextPc := by
  simp [State.nextPc, State.size]

/-- A write of x[15] through the register operation changes nothing. -/
@[simp] theorem State.setReg_pc_discarded (s : State) (v : Word) : s.setReg 15#4 v = s := by
  simp [State.setReg]

@[simp] theorem State.reg_pc (s : State) : s.reg 15#4 = s.pcRead := by
  simp [State.reg]

/-- The registers after a write of one. -/
theorem State.setReg_regs (s : State) (i : Reg) (v : Word) :
    (s.setReg i v).regs = match bank s.mode i with
      | some p => s.regs.set p v
      | none => s.regs := by
  unfold State.setReg
  cases bank s.mode i <;> rfl

/-- A physical register after a write of x[i]: the written value in the register that `i` names, the old value in any
other. -/
theorem State.get_setReg (s : State) (i : Reg) (v : Word) (p : PhysReg) :
    (s.setReg i v).regs.get p = if bank s.mode i = some p then v else s.regs.get p := by
  rw [State.setReg_regs]
  cases hb : bank s.mode i with
  | none => simp
  | some q => simp only [Regs.get_set, Option.some.injEq, eq_comm (a := q)]

/-- A read of x[j] after a write of x[i], for `i` other than 15. -/
theorem State.reg_setReg (s : State) (i j : Reg) (v : Word) (hi : i ≠ 15#4) :
    (s.setReg i v).reg j = if j = i then v else s.reg j := by
  obtain ⟨p, hp⟩ := bank_some s.mode i hi
  unfold State.reg
  rw [State.setReg_mode]
  by_cases hj : j = 15#4
  · subst hj
    simp [Ne.symm hi]
  · obtain ⟨q, hq⟩ := bank_some s.mode j hj
    simp only [hq, State.get_setReg, hp, Option.some.injEq]
    by_cases hij : j = i
    · subst hij
      simp_all
    · have : p ≠ q := by
        rintro rfl
        exact hij (bank_inj s.mode j i (hq.trans hp.symm))
      simp [this, hij]

@[simp] theorem State.reg_setReg_same (s : State) (i : Reg) (v : Word) (hi : i ≠ 15#4) : (s.setReg i v).reg i = v := by
  simp [State.reg_setReg s i i v hi]

theorem State.reg_setReg_ne (s : State) {i j : Reg} (v : Word) (h : j ≠ i) : (s.setReg i v).reg j = s.reg j := by
  by_cases hi : i = 15#4
  · subst hi
    simp
  · simp [State.reg_setReg s i j v hi, h]

/-- A register reads the same in two states that agree on the registers, the mode, the PC and the operating state. -/
theorem State.reg_congr {s t : State} (hr : t.regs = s.regs) (hc : t.cpsr = s.cpsr) (hp : t.pc = s.pc) (i : Reg) :
    t.reg i = s.reg i := by
  simp [State.reg, State.mode, State.pcRead, hr, hc, hp]

/-- A register other than the PC reads the same in two states that agree on the registers and the mode. -/
theorem State.reg_congr_mode {s t : State} (hr : t.regs = s.regs) (hm : t.mode = s.mode) {i : Reg} (hi : i ≠ 15#4) :
    t.reg i = s.reg i := by
  obtain ⟨p, hp⟩ := bank_some s.mode i hi
  simp [State.reg, hm, hp, hr]

/-- The low registers of Thumb state are r0 to r7, never the PC. -/
theorem lowReg_ne_pc : ∀ r : LowReg, lowReg r ≠ 15#4 := by decide

theorem lowReg_inj : ∀ r q : LowReg, lowReg r = lowReg q → r = q := by decide

/-- The SPSR of a mode after the SPSR of a mode is written. -/
theorem Spsrs.get_set (p : Spsrs) (m n : Mode) (v : Word) :
    (p.set m v).get n = if n = m then (p.get n).map (fun _ => v) else p.get n := by
  cases m <;> cases n <;> rfl

/-- User and System mode are the modes without an SPSR (R32). -/
theorem Spsrs.get_eq_none (p : Spsrs) (m : Mode) : p.get m = none ↔ m = .usr ∨ m = .sys := by
  cases m <;> simp [Spsrs.get]

/-- User-bank registers: the write of one, read back through any physical register. -/
theorem State.get_setUserReg (s : State) (i : Reg) (v : Word) (p : PhysReg) :
    (s.setUserReg i v).regs.get p = if bank .usr i = some p then v else s.regs.get p := by
  unfold State.setUserReg
  cases hb : bank .usr i with
  | none => simp
  | some q => simp only [Regs.get_set, Option.some.injEq, eq_comm (a := q)]

end Sys2Proof.Machine
end

