-- ==== Sys2Proof/Laws/Flags.lean ====
section
/-!
SUPPORT. The status register bit by bit: what setting a bit and replacing the mode do to each bit, and the CPSR that taking
an exception leaves.
-/
namespace Sys2Proof.Machine

/-- A bit of a word after one bit is set. -/
@[simp] theorem getLsbD_setBit (v : Word) (i j : Nat) (b : Bool) :
    (setBit v i b).getLsbD j = if j = i ∧ i < 32 then b else v.getLsbD j := by
  unfold setBit
  simp only [BitVec.getLsbD_or, BitVec.getLsbD_and, BitVec.getLsbD_not, BitVec.getLsbD_shiftLeft,
    BitVec.getLsbD_setWidth, BitVec.getLsbD_ofBool, BitVec.getLsbD_one]
  by_cases hj : j < 32
  · by_cases h : j = i
    · subst h
      simp [hj]
    · have h' : ¬(j - i = 0 ∧ ¬j < i) := by omega
      by_cases hji : j < i
      · simp [hj, h, hji]
      · have : j - i ≠ 0 := by omega
        simp [hj, h, hji, this]
  · have : v.getLsbD j = false := BitVec.getLsbD_of_ge v j (by omega)
    by_cases h : j = i
    · subst h
      simp [hj, this]
    · simp [hj, h, this]

/-- The five mode bits of a word whose mode is replaced, and its other bits. -/
theorem getLsbD_setMode (p : Word) (m : Mode) (j : Nat) :
    (setMode p m).getLsbD j = if j < 5 then m.bits.getLsbD j else p.getLsbD j := by
  unfold setMode
  have hmask : (0xFFFFFFE0#32).getLsbD j = (decide (5 ≤ j) && decide (j < 32)) := by
    by_cases hj : j < 32
    · interval_cases j <;> rfl
    · rw [BitVec.getLsbD_of_ge _ _ (by omega)]
      simp [hj]
  simp only [BitVec.getLsbD_or, BitVec.getLsbD_and, BitVec.getLsbD_setWidth, hmask]
  by_cases h5 : j < 5
  · have : j < 32 := by omega
    have : ¬5 ≤ j := by omega
    simp [*]
  · have h5' : 5 ≤ j := by omega
    by_cases hj : j < 32
    · simp [h5, h5', hj]
    · simp [h5, h5', BitVec.getLsbD_of_ge p j (by omega)]

/-- The mode number of a word whose mode is replaced. -/
@[simp] theorem psrM_setMode (p : Word) (m : Mode) : psrM (setMode p m) = m.bits := by
  ext j hj
  simp only [psrM, BitVec.getElem_extractLsb', Nat.zero_add, getLsbD_setMode, hj, if_true, BitVec.getLsbD_eq_getElem]

/-- Setting a bit above the mode field keeps the mode number. -/
theorem psrM_setBit (p : Word) (i : Nat) (b : Bool) (hi : 5 ≤ i) : psrM (setBit p i b) = psrM p := by
  ext j hj
  have : j ≠ i := by omega
  simp [psrM, BitVec.getElem_extractLsb', this]

@[simp] theorem Mode.ofBits_bits (m : Mode) : Mode.ofBits m.bits = some m := by cases m <;> rfl

theorem Mode.bits_of_ofBits : ∀ (b : BitVec 5) (m : Mode), Mode.ofBits b = some m → b = m.bits := by
  intro b m
  revert b
  cases m <;> decide +kernel

@[simp] theorem psrM_withLogic (p v : Word) (c : Bool) : psrM (withLogic p v c) = psrM p := by
  simp [withLogic, withNZ, psrM_setBit]

@[simp] theorem psrM_withNZ (p v : Word) : psrM (withNZ p v) = psrM p := by
  simp [withNZ, psrM_setBit]

@[simp] theorem psrM_withArith (p : Word) (r : Sum) : psrM (withArith p r) = psrM p := by
  simp [withArith, psrM_setBit]

@[simp] theorem psrM_withLongNZ (p : Word) (v : BitVec 64) : psrM (withLongNZ p v) = psrM p := by
  simp [withLongNZ, psrM_setBit]

@[simp] theorem psrM_withSticky (p : Word) (b : Bool) : psrM (withSticky p b) = psrM p := by
  unfold withSticky
  split <;> simp [psrM_setBit]

/-- A bit of the flags that a logical instruction leaves. -/
theorem getLsbD_withLogic (p v : Word) (c : Bool) (j : Nat) :
    (withLogic p v c).getLsbD j =
      if j = 31 then v.getLsbD 31 else if j = 30 then v == 0#32 else if j = 29 then c else p.getLsbD j := by
  simp only [withLogic, withNZ, getLsbD_setBit]
  split_ifs <;> simp_all

/-- A bit of the flags that a shift, multiply or Thumb logical instruction leaves. -/
theorem getLsbD_withNZ (p v : Word) (j : Nat) :
    (withNZ p v).getLsbD j = if j = 31 then v.getLsbD 31 else if j = 30 then v == 0#32 else p.getLsbD j := by
  simp only [withNZ, getLsbD_setBit]
  split_ifs <;> simp_all

/-- A bit of the flags that an arithmetic instruction leaves. -/
theorem getLsbD_withArith (p : Word) (r : Sum) (j : Nat) :
    (withArith p r).getLsbD j =
      if j = 31 then r.value.getLsbD 31 else if j = 30 then r.value == 0#32 else if j = 29 then r.carry
      else if j = 28 then r.overflow else p.getLsbD j := by
  simp only [withArith, getLsbD_setBit, getLsbD_withLogic]
  split_ifs <;> simp_all

/-- A bit of the flags that a 64-bit product leaves. -/
theorem getLsbD_withLongNZ (p : Word) (v : BitVec 64) (j : Nat) :
    (withLongNZ p v).getLsbD j = if j = 31 then v.getLsbD 63 else if j = 30 then v == 0#64 else p.getLsbD j := by
  simp only [withLongNZ, getLsbD_setBit]
  split_ifs <;> simp_all

/-- A bit of the PSR after the sticky flag is set or kept. -/
theorem getLsbD_withSticky (p : Word) (b : Bool) (j : Nat) :
    (withSticky p b).getLsbD j = if j = 27 then b || p.getLsbD 27 else p.getLsbD j := by
  unfold withSticky
  by_cases h : j = 27
  · subst h
    cases b <;> simp
  · cases b <;> simp [h]

/-- Each bit of the CPSR that an exception leaves (R342). -/
theorem getLsbD_exceptionCpsr (e : Exception) (p : Word) (j : Nat) :
    (exceptionCpsr e p).getLsbD j =
      if j < 5 then e.mode.bits.getLsbD j
      else if j = 5 ∨ j = 24 then false
      else if j = 7 then true
      else if j = 6 ∧ e = .fiq then true
      else p.getLsbD j := by
  have h : ∀ q : Word, (setBit (setBit (setBit (setMode q e.mode) 5 false) 24 false) 7 true).getLsbD j =
      if j < 5 then e.mode.bits.getLsbD j else if j = 5 ∨ j = 24 then false else if j = 7 then true
      else q.getLsbD j := by
    intro q
    simp only [getLsbD_setBit, getLsbD_setMode]
    split_ifs <;> first | rfl | omega
  have h6 : exceptionCpsr e p =
      if e = .fiq then setBit (setBit (setBit (setBit (setMode p e.mode) 5 false) 24 false) 7 true) 6 true
      else setBit (setBit (setBit (setMode p e.mode) 5 false) 24 false) 7 true := rfl
  rw [h6]
  by_cases he : e = .fiq
  · rw [if_pos he, getLsbD_setBit, h p]
    split_ifs <;> first | rfl | omega | simp_all
  · rw [if_neg he, h p]
    simp only [he, and_false, if_false]

/-- Each bit of a status register whose top four bits a coprocessor's word gives (R242). -/
theorem getLsbD_withTopFlags (p value : Word) (j : Nat) :
    (withTopFlags p value).getLsbD j = if 28 ≤ j then value.getLsbD j else p.getLsbD j := by
  unfold withTopFlags
  simp only [BitVec.getLsbD_or, BitVec.getLsbD_and]
  by_cases hj : j < 32
  · have h1 : (0x0FFFFFFF#32).getLsbD j = decide (j < 28) := by interval_cases j <;> rfl
    have h2 : (0xF0000000#32).getLsbD j = decide (28 ≤ j) := by interval_cases j <;> rfl
    rw [h1, h2]
    by_cases h : 28 ≤ j <;> simp [h]; omega
  · simp [BitVec.getLsbD_of_ge _ _ (Nat.not_lt.mp hj)]

/-- The mode that an exception leaves. -/
@[simp] theorem psrM_exceptionCpsr (e : Exception) (p : Word) : psrM (exceptionCpsr e p) = e.mode.bits := by
  unfold exceptionCpsr
  dsimp only
  split <;> simp [psrM_setBit]

@[simp] theorem takeException_mode (e : Exception) (l : Word) (s : State) : (takeException e l s).mode = e.mode := by
  simp [State.mode]

end Sys2Proof.Machine
end

