-- ==== Sys2Proof/Laws/Memory.lean ====
section
/-!
SUPPORT. Memory: reading a byte after writing one, every memory operation keeps the canonical form, a word or halfword
reads back as stored in either byte order, and the state after reset has the canonical form.
-/
namespace Sys2Proof.Machine

/-- Reading a byte after writing one. -/
theorem readCell_writeCell (m : List Host.Cell) (a b : Nat) (v : Byte) :
    readCell (writeCell m a v) b = if b = a then some v else readCell m b := by
  induction m with
  | nil =>
    simp only [writeCell, readCell, eq_comm (a := a)]
  | cons c rest ih =>
    obtain ⟨k, w⟩ := c
    unfold writeCell
    by_cases h1 : a < k
    · rw [if_pos h1]
      simp only [readCell, eq_comm (a := a)]
    · rw [if_neg h1]
      by_cases h2 : a = k
      · rw [if_pos h2]
        simp only [readCell, ← h2, eq_comm (a := a)]
        split_ifs <;> rfl
      · rw [if_neg h2]
        simp only [readCell, ih]
        by_cases h3 : k = b
        · simp only [h3, if_true, if_neg (show ¬b = a by omega)]
        · simp only [if_neg h3]

/-- The addresses listed after a write. -/
theorem map_fst_writeCell (m : List Host.Cell) (a : Nat) (v : Byte) :
    (writeCell m a v).map Prod.fst = insertAddr (m.map Prod.fst) a := by
  induction m with
  | nil => rfl
  | cons c rest ih =>
    obtain ⟨k, w⟩ := c
    simp only [writeCell, List.map_cons, insertAddr]
    split_ifs with h1 h2
    · rfl
    · simp [h2]
    · simp [ih]

/-- The addresses of a list with one added. -/
theorem mem_insertAddr (l : List Nat) (a b : Nat) : b ∈ insertAddr l a ↔ b = a ∨ b ∈ l := by
  induction l with
  | nil => simp [insertAddr]
  | cons k rest ih =>
    unfold insertAddr
    split_ifs with h1 h2
    · simp
    · subst h2
      simp
    · simp only [List.mem_cons, ih]
      tauto

/-- What a rising list is. -/
theorem rising_iff (l : List Nat) : rising l = true ↔ l.Pairwise (· < ·) ∧ ∀ k ∈ l, k < 2 ^ 32 := by
  induction l with
  | nil => simp [rising]
  | cons k rest ih =>
    cases rest with
    | nil => simp [rising]
    | cons j tail =>
      simp only [rising, Bool.and_eq_true, decide_eq_true_eq, ih, List.pairwise_cons, List.mem_cons,
        forall_eq_or_imp]
      constructor
      · rintro ⟨h, ⟨h1, h2⟩, h3, h4⟩
        exact ⟨⟨⟨h, fun x hx => Nat.lt_trans h (h1 x hx)⟩, h1, h2⟩, Nat.lt_trans h h3, h3, h4⟩
      · rintro ⟨⟨⟨h, _⟩, h1, h2⟩, _, h3, h4⟩
        exact ⟨h, ⟨h1, h2⟩, h3, h4⟩

/-- A rising list stays rising when an address is added. -/
theorem rising_insertAddr (l : List Nat) (a : Nat) (hl : rising l = true) (ha : a < 2 ^ 32) :
    rising (insertAddr l a) = true := by
  rw [rising_iff] at hl ⊢
  obtain ⟨hp, hb⟩ := hl
  refine ⟨?_, fun k hk => ?_⟩
  · clear hb
    induction l with
    | nil => simp [insertAddr]
    | cons k rest ih =>
      have hrest := List.pairwise_cons.mp hp
      unfold insertAddr
      split_ifs with h1 h2
      · refine List.pairwise_cons.mpr ⟨fun x hx => ?_, hp⟩
        rcases List.mem_cons.mp hx with rfl | hx
        · exact h1
        · exact Nat.lt_trans h1 (hrest.1 x hx)
      · exact hp
      · refine List.pairwise_cons.mpr ⟨fun x hx => ?_, ih hrest.2⟩
        rcases (mem_insertAddr rest a x).mp hx with rfl | hx
        · omega
        · exact hrest.1 x hx
  · rcases (mem_insertAddr l a k).mp hk with rfl | hk
    · exact ha
    · exact hb k hk

/-- Writing a byte keeps the canonical form of memory. -/
theorem Memory.wf_writeCell (m : List Host.Cell) (a : Nat) (v : Byte) (hm : Memory.wf m = true) (ha : a < 2 ^ 32) :
    Memory.wf (writeCell m a v) = true := by
  unfold Memory.wf at *
  rw [map_fst_writeCell]
  exact rising_insertAddr _ _ hm ha

/-- The addresses of a list with several added. -/
theorem mem_insertAddrs (l : List Nat) (a n b : Nat) : b ∈ insertAddrs l a n ↔ (a ≤ b ∧ b < a + n) ∨ b ∈ l := by
  induction n generalizing l a with
  | zero =>
    rw [insertAddrs]
    constructor
    · exact .inr
    · rintro (h | h)
      · omega
      · exact h
  | succ n ih =>
    rw [insertAddrs, ih, mem_insertAddr]
    constructor
    · rintro (h | rfl | h)
      · exact .inl ⟨by omega, by omega⟩
      · exact .inl ⟨by omega, by omega⟩
      · exact .inr h
    · rintro (h | h)
      · by_cases hb : b = a
        · exact .inr (.inl hb)
        · exact .inl ⟨by omega, by omega⟩
      · exact .inr (.inr h)

/-- A rising list stays rising when several addresses are added. -/
theorem rising_insertAddrs (l : List Nat) (a n : Nat) (hl : rising l = true) (ha : a + n ≤ 2 ^ 32) :
    rising (insertAddrs l a n) = true := by
  induction n generalizing l a with
  | zero => exact hl
  | succ n ih => exact ih _ _ (rising_insertAddr l a hl (by omega)) (by omega)

/-- Memory after reset has the canonical form. -/
theorem Memory.wf_reset : Memory.wf State.reset.mem = true := rfl

/-- Reading a byte after storing one. -/
theorem State.byteAt_putByte (s : State) (a b : Word) (v : Byte) :
    (s.putByte a v).byteAt b = if b = a then some v else s.byteAt b := by
  simp only [State.byteAt, State.putByte_mem, readCell_writeCell, BitVec.toNat_inj]

/-- Storing a byte keeps the canonical form. -/
theorem State.memoryWf_putByte (s : State) (a : Word) (v : Byte) (h : s.memoryWf) : (s.putByte a v).memoryWf :=
  ⟨Memory.wf_writeCell _ _ _ h.1 a.isLt, rising_insertAddr _ _ h.2.1 a.isLt, h.2.2⟩

/-- What devices write keeps the canonical form of memory. -/
theorem Memory.wf_deviceWrites (m : List Host.Cell) (ws : List (Word × Byte)) (hm : Memory.wf m = true) :
    Memory.wf (deviceWrites m ws) = true := by
  induction ws generalizing m with
  | nil => exact hm
  | cons w ws ih => exact ih _ (Memory.wf_writeCell m _ _ hm w.1.isLt)

/-- The executed bytes that devices rewrite are added to the stored ones. -/
theorem mem_rewritten (f l : List Nat) (ws : List (Word × Byte)) (k : Nat) :
    k ∈ rewritten f l ws ↔ k ∈ l ∨ k ∈ f ∧ ∃ w ∈ ws, w.1.toNat = k := by
  induction ws generalizing l with
  | nil => simp [rewritten]
  | cons w ws ih =>
    rw [rewritten, ih]
    split_ifs with h
    · rw [List.contains_iff_mem] at h
      rw [mem_insertAddr]
      constructor
      · rintro ((rfl | h') | ⟨h1, x, hx, rfl⟩)
        · exact .inr ⟨h, w, by simp, rfl⟩
        · exact .inl h'
        · exact .inr ⟨h1, x, by simp [hx], rfl⟩
      · rintro (h' | ⟨h1, x, hx, rfl⟩)
        · exact .inl (.inr h')
        · rcases List.mem_cons.mp hx with rfl | hx
          · exact .inl (.inl rfl)
          · exact .inr ⟨h1, x, hx, rfl⟩
    · rw [List.contains_iff_mem] at h
      constructor
      · rintro (h' | ⟨h1, x, hx, rfl⟩)
        · exact .inl h'
        · exact .inr ⟨h1, x, by simp [hx], rfl⟩
      · rintro (h' | ⟨h1, x, hx, rfl⟩)
        · exact .inl h'
        · rcases List.mem_cons.mp hx with rfl | hx
          · exact absurd h1 h
          · exact .inr ⟨h1, x, hx, rfl⟩

theorem rising_rewritten (f l : List Nat) (ws : List (Word × Byte)) (h : rising l = true) :
    rising (rewritten f l ws) = true := by
  induction ws generalizing l with
  | nil => exact h
  | cons w ws ih =>
    rw [rewritten]
    split
    · exact ih _ (rising_insertAddr _ _ h w.1.isLt)
    · exact ih _ h

/-- Taking the sample of a boundary keeps the canonical form. -/
theorem State.memoryWf_sampled (s : State) (h : s.memoryWf) : s.sampled.memoryWf :=
  ⟨Memory.wf_deviceWrites _ _ h.1, rising_rewritten _ _ _ h.2.1, h.2.2⟩

/-- Remembering the bytes of an instruction keeps the canonical form. -/
theorem State.memoryWf_fetching (s : State) (a : Word) (n : Nat) (ha : a.toNat + n ≤ 2 ^ 32) (h : s.memoryWf) :
    (s.fetching a n).memoryWf :=
  ⟨h.1, h.2.1, rising_insertAddrs _ _ _ h.2.2 ha⟩

/-- A byte that no device writes at a boundary reads as before. -/
theorem readCell_deviceWrites_of_ne (m : List Host.Cell) (ws : List (Word × Byte)) (a : Word)
    (h : ∀ v, (a, v) ∉ ws) : readCell (deviceWrites m ws) a.toNat = readCell m a.toNat := by
  induction ws generalizing m with
  | nil => rfl
  | cons w ws ih =>
    rw [deviceWrites, ih _ (fun v hv => h v (by simp [hv])), readCell_writeCell, if_neg]
    intro he
    exact h w.2 (by rw [BitVec.eq_of_toNat_eq he]; simp)

/-- Storing bytes keeps the canonical form. -/
theorem State.memoryWf_putBytes (s : State) (a : Word) (bs : List Byte) (h : s.memoryWf) :
    (s.putBytes a bs).memoryWf := by
  induction bs generalizing s a with
  | nil => exact h
  | cons b bs ih => exact ih _ _ (State.memoryWf_putByte s a b h)

theorem State.memoryWf_putWord (s : State) (a v : Word) (h : s.memoryWf) : (s.putWord a v).memoryWf :=
  State.memoryWf_putBytes _ _ _ h

theorem State.memoryWf_putHalf (s : State) (a : Word) (v : Half) (h : s.memoryWf) : (s.putHalf a v).memoryWf :=
  State.memoryWf_putBytes _ _ _ h

/-- The canonical form depends on memory and the stored and executed addresses only. -/
theorem State.memoryWf_congr {s t : State} (hm : t.mem = s.mem) (hs : t.stored = s.stored)
    (hf : t.fetched = s.fetched) (h : s.memoryWf) : t.memoryWf := by
  unfold State.memoryWf at *
  rwa [hm, hs, hf]

/-- Words that become free values keep the canonical form. -/
theorem State.memoryWf_scramble (s : State) (n : Nat) (a : Word) (h : s.memoryWf) : (s.scramble n a).memoryWf := by
  induction n generalizing s a with
  | zero => exact h
  | succ n ih => exact ih _ _ (State.memoryWf_putWord _ _ _ (State.memoryWf_congr rfl rfl rfl h))

/-- A write is made where the memory system does not abort it and no byte of it has been executed. -/
theorem State.store_of_stores {s t : State} {w : Width} {priv locked : Bool} {a : Word}
    (h : s.stores w priv a locked) : s.store w priv a locked t = .done t := by
  simp [State.store, h.1, h.2]

theorem State.store_of_aborts {s t : State} {w : Width} {priv locked : Bool} {a : Word}
    (h : s.aborts .write w a priv locked = true) : s.store w priv a locked t = .abort := by
  simp [State.store, h]

theorem State.store_of_overlaps {s t : State} {w : Width} {priv locked : Bool} {a : Word}
    (h : s.aborts .write w a priv locked = false) (ho : overlaps s.fetched a.toNat w.bytes = true) :
    s.store w priv a locked t = .toFetched := by
  simp [State.store, h, ho]

theorem State.store_done {s t u : State} {w : Width} {priv locked : Bool} {a : Word}
    (h : s.store w priv a locked t = .done u) : s.stores w priv a locked ∧ u = t := by
  unfold State.store at h
  unfold State.stores
  split_ifs at h with h1 h2
  cases h
  exact ⟨⟨by simpa using h1, by simpa using h2⟩, rfl⟩

theorem State.storeWord_done {s t : State} {priv locked : Bool} {a v : Word}
    (h : s.storeWord priv a v locked = .done t) :
    s.storesWord priv a locked ∧ t = s.putWord (wordAlign a) v := State.store_done h

theorem State.storeHalf_done {s t : State} {priv : Bool} {a : Word} {v : Half}
    (h : s.storeHalf priv a v = .done t) : s.stores .half priv a ∧ t = s.putHalf a v := State.store_done h

theorem State.storeByte_done {s t : State} {priv locked : Bool} {a : Word} {v : Byte}
    (h : s.storeByte priv a v locked = .done t) : s.stores .byte priv a locked ∧ t = s.putByte a v :=
  State.store_done h

/-- What holds before a store of several words, is kept by the store of a word and by taking a free value, holds where
the store ends, aborted or not. -/
theorem State.storeWords_keeps {P : State → Prop} (hw : ∀ u a v, P u → P (u.putWord a v))
    (hf : ∀ u, P u → P u.takeFree) {s t : State} {priv : Bool} {a : Word} {ws : List Word} (h : P s)
    (ht : s.storeWords priv a ws = .done t ∨ s.storeWords priv a ws = .abort t) : P t := by
  have hs : ∀ (n : Nat) (u : State) (b : Word), P u → P (u.scramble n b) := by
    intro n
    induction n with
    | zero => exact fun u b hu => hu
    | succ n ih => exact fun u b hu => ih _ _ (hw _ _ _ (hf u hu))
  induction ws generalizing s a with
  | nil =>
    rcases ht with ht | ht <;> cases ht
    exact h
  | cons v vs ih =>
    unfold State.storeWords at ht
    cases hc : s.storeWord priv a v with
    | done u =>
      rw [hc] at ht
      obtain ⟨-, rfl⟩ := State.storeWord_done hc
      exact ih (hw _ _ _ h) ht
    | abort =>
      rw [hc] at ht
      rcases ht with ht | ht <;> cases ht
      exact hs _ _ _ h
    | toFetched =>
      rw [hc] at ht
      rcases ht with ht | ht <;> cases ht

/-- A store of several words keeps the canonical form, aborted or not. -/
theorem State.memoryWf_storeWords {s t : State} {priv : Bool} {a : Word} {ws : List Word} (h : s.memoryWf)
    (ht : s.storeWords priv a ws = .done t ∨ s.storeWords priv a ws = .abort t) : t.memoryWf :=
  State.storeWords_keeps (fun u a v hu => State.memoryWf_putWord u a v hu) (fun _ hu => State.memoryWf_congr rfl rfl rfl hu)
    h ht

/-- A byte outside the bytes stored reads as before. -/
theorem State.byteAt_putBytes_of_ne (s : State) (a b : Word) (bs : List Byte)
    (h : ∀ k < bs.length, b ≠ a + BitVec.ofNat 32 k) : (s.putBytes a bs).byteAt b = s.byteAt b := by
  induction bs generalizing s a with
  | nil => rfl
  | cons v vs ih =>
    have h0 : b ≠ a := by simpa using h 0 (by simp)
    rw [State.putBytes, ih (s.putByte a v) (a + 1) (fun k hk => ?_), State.byteAt_putByte, if_neg h0]
    have := h (k + 1) (by simpa using hk)
    rwa [show a + 1 + BitVec.ofNat 32 k = a + BitVec.ofNat 32 (k + 1) by
      rw [BitVec.add_assoc, Nat.add_comm k 1, BitVec.ofNat_add]; rfl]

/-- The bytes of a word in memory order, put together again. -/
theorem wordOfBytes_bytesOfWord (big : Bool) (v : Word) : ∃ b0 b1 b2 b3,
    bytesOfWord big v = [b0, b1, b2, b3] ∧ wordOfBytes big b0 b1 b2 b3 = v := by
  cases big <;> refine ⟨_, _, _, _, rfl, BitVec.eq_of_getLsbD_eq fun i hi => ?_⟩ <;>
    simp only [wordOfBytes, Bool.false_eq_true, if_false, if_true, BitVec.getLsbD_append,
      BitVec.getLsbD_extractLsb'] <;>
    interval_cases i <;> rfl

/-- The bytes of a halfword in memory order, put together again. -/
theorem halfOfBytes_bytesOfHalf (big : Bool) (v : Half) : ∃ b0 b1,
    bytesOfHalf big v = [b0, b1] ∧ halfOfBytes big b0 b1 = v := by
  cases big <;> refine ⟨_, _, rfl, BitVec.eq_of_getLsbD_eq fun i hi => ?_⟩ <;>
    simp only [halfOfBytes, Bool.false_eq_true, if_false, if_true, BitVec.getLsbD_append,
      BitVec.getLsbD_extractLsb'] <;>
    interval_cases i <;> rfl

/-- A word reads back as it was stored. -/
theorem State.wordAt_putWord (s : State) (a v : Word) : (s.putWord a v).wordAt a = some v := by
  obtain ⟨b0, b1, b2, b3, hb, hw⟩ := wordOfBytes_bytesOfWord s.config.bigEndian v
  have h1 : a + 1 ≠ a := by bv_omega
  have h2 : a + 2 ≠ a := by bv_omega
  have h3 : a + 3 ≠ a := by bv_omega
  have e2 : a + 1 + 1 = a + 2 := by bv_omega
  have e3 : a + 2 + 1 = a + 3 := by bv_omega
  have n12 : a + 1 ≠ a + 2 := by bv_omega
  have n13 : a + 1 ≠ a + 3 := by bv_omega
  have n23 : a + 2 ≠ a + 3 := by bv_omega
  simp only [State.wordAt, State.putWord, hb, State.putBytes, State.byteAt_putByte, e2, e3, h1,
    h2, h3, n12, n13, n23, h1.symm, h2.symm, h3.symm, n12.symm, n13.symm, n23.symm, if_true, if_false]
  exact congrArg some hw

/-- A halfword reads back as it was stored. -/
theorem State.halfAt_putHalf (s : State) (a : Word) (v : Half) : (s.putHalf a v).halfAt a = some v := by
  obtain ⟨b0, b1, hb, hw⟩ := halfOfBytes_bytesOfHalf s.config.bigEndian v
  have h1 : a + 1 ≠ a := by bv_omega
  simp only [State.halfAt, State.putHalf, hb, State.putBytes, State.byteAt_putByte, h1, h1.symm,
    if_true, if_false]
  exact congrArg some hw

/-- A byte outside the word stored reads as before. -/
theorem State.byteAt_putWord_of_ne (s : State) (a b v : Word) (h : ∀ k < 4, b ≠ a + BitVec.ofNat 32 k) :
    (s.putWord a v).byteAt b = s.byteAt b := by
  obtain ⟨b0, b1, b2, b3, hb, -⟩ := wordOfBytes_bytesOfWord s.config.bigEndian v
  exact State.byteAt_putBytes_of_ne s a b _ (by rw [hb]; exact h)

/-- A byte outside the halfword stored reads as before. -/
theorem State.byteAt_putHalf_of_ne (s : State) (a b : Word) (v : Half) (h : ∀ k < 2, b ≠ a + BitVec.ofNat 32 k) :
    (s.putHalf a v).byteAt b = s.byteAt b := by
  obtain ⟨b0, b1, hb, -⟩ := halfOfBytes_bytesOfHalf s.config.bigEndian v
  exact State.byteAt_putBytes_of_ne s a b _ (by rw [hb]; exact h)

end Sys2Proof.Machine
end

