-- ==== Sys2Proof/Laws/Ops.lean ====
section
/-!
SUPPORT. For each shared operation, once, everything it can do when it answers a next state; and the equation for the
case in which it goes on. Later proofs cite these and unfold no operation.
-/
namespace Sys2Proof.Machine

/-- A conditional instruction runs, or it only advances. -/
theorem whenPassed_next {c : Cond} {s t : State} {k : Result} (h : whenPassed c s k = .next t) :
    (condPassed c s.cpsr = true ∧ k = .next t) ∨ (condPassed c s.cpsr = false ∧ t = s.advance) := by
  unfold whenPassed at h
  cases hc : condPassed c s.cpsr <;> simp_all

@[simp] theorem whenPassed_of_passed {c : Cond} {s : State} (k : Result) (h : condPassed c s.cpsr = true) :
    whenPassed c s k = k := by
  simp [whenPassed, h]

@[simp] theorem whenPassed_of_failed {c : Cond} {s : State} (k : Result) (h : condPassed c s.cpsr = false) :
    whenPassed c s k = .next s.advance := by
  simp [whenPassed, h]

/-- The check against r15 passes, or it refuses. -/
theorem noPc_next {regs : List Reg} {k : Result} {t : State} (h : noPc regs k = .next t) :
    15#4 ∉ regs ∧ k = .next t := by
  unfold noPc at h
  split at h <;> simp_all

theorem noPc_of_not_mem {regs : List Reg} (k : Result) (h : 15#4 ∉ regs) : noPc regs k = k := by
  simp [noPc, h]

theorem noPc_of_mem {regs : List Reg} (k : Result) (h : 15#4 ∈ regs) : noPc regs k = .refused .r15Operand := by
  simp [noPc, h]

/-- The check that registers differ passes, or it refuses. -/
theorem distinct_next {pairs : List (Reg × Reg)} {k : Result} {t : State} (h : distinct pairs k = .next t) :
    (∀ e ∈ pairs, e.1 ≠ e.2) ∧ k = .next t := by
  unfold distinct at h
  split at h
  · cases h
  · rename_i hp
    exact ⟨fun e he heq => hp (List.any_eq_true.mpr ⟨e, he, by simpa using heq⟩), h⟩

theorem distinct_of_ne {pairs : List (Reg × Reg)} (k : Result) (h : ∀ e ∈ pairs, e.1 ≠ e.2) :
    distinct pairs k = k := by
  unfold distinct
  rw [if_neg]
  intro he
  obtain ⟨e, hm, heq⟩ := List.any_eq_true.mp he
  exact h e hm (by simpa using heq)

theorem distinct_of_eq {pairs : List (Reg × Reg)} (k : Result) (h : ∃ e ∈ pairs, e.1 = e.2) :
    distinct pairs k = .refused .overlappingRegisters := by
  obtain ⟨e, he, h⟩ := h
  exact if_pos (List.any_eq_true.mpr ⟨e, he, by simp [h]⟩)

/-- An exception return: the SPSR, which is not one of Jazelle state, goes to the CPSR and the aligned value to the PC. -/
theorem exceptionReturn_next {v : Word} {s t : State} (h : exceptionReturn v s = .next t) :
    ∃ p, s.spsr.get s.mode = some p ∧ inJazelle p = false ∧ returnAligned p v = true ∧
      t = (s.setCpsr p).setPc v := by
  unfold exceptionReturn at h
  split at h
  · cases h
  · rename_i p hp
    split_ifs at h with h1 h2
    cases h
    exact ⟨p, hp, by simpa using h1, h2, rfl⟩

theorem exceptionReturn_of_spsr {v p : Word} {s : State} (hp : s.spsr.get s.mode = some p)
    (hj : inJazelle p = false) (ha : returnAligned p v = true) :
    exceptionReturn v s = .next ((s.setCpsr p).setPc v) := by
  simp [exceptionReturn, hp, hj, ha]

/-- A load to the PC, BX and BLX: T takes bit 0, the PC the rest. -/
theorem branchExchange_next {v : Word} {s t : State} (h : branchExchange v s = .next t) :
    v.extractLsb' 0 2 ≠ 0b10#2 ∧ t = (s.setCpsr (setBit s.cpsr 5 (v.getLsbD 0))).setPc (v &&& 0xFFFFFFFE#32) := by
  unfold branchExchange at h
  split at h <;> simp_all

theorem branchExchange_of_ne {v : Word} (s : State) (h : v.extractLsb' 0 2 ≠ 0b10#2) :
    branchExchange v s = .next ((s.setCpsr (setBit s.cpsr 5 (v.getLsbD 0))).setPc (v &&& 0xFFFFFFFE#32)) := by
  simp [branchExchange, h]

/-- The destination of a data-processing instruction. -/
theorem dataResult_next {sb : Bool} {rd : Reg} {psr value : Word} {s t : State}
    (h : dataResult sb rd psr value s = .next t) :
    (rd = 15#4 ∧ sb = true ∧ exceptionReturn value s = .next t) ∨
    (rd = 15#4 ∧ sb = false ∧ value.extractLsb' 0 2 = 0#2 ∧ t = s.setPc value) ∨
    (rd ≠ 15#4 ∧ t = ((s.setReg rd value).setCpsr (if sb then psr else s.cpsr)).advance) := by
  unfold dataResult at h
  by_cases h1 : rd = 15#4
  · rw [if_pos h1] at h
    split_ifs at h with h2 h3
    · exact .inl ⟨h1, h2, h⟩
    · cases h
      exact .inr (.inl ⟨h1, by simpa using h2, h3, rfl⟩)
  · rw [if_neg h1] at h
    cases h
    exact .inr (.inr ⟨h1, rfl⟩)

theorem dataResult_of_reg {sb : Bool} {rd : Reg} {psr value : Word} (s : State) (h : rd ≠ 15#4) :
    dataResult sb rd psr value s = .next ((s.setReg rd value).setCpsr (if sb then psr else s.cpsr)).advance := by
  simp [dataResult, h]

/-- A load goes on with its value, or takes the Data Abort. -/
theorem withLoad_next {α : Type} {l : Load α} {s t : State} {k : α → Result} (h : withLoad l s k = .next t) :
    (∃ v, l = .value v ∧ k v = .next t) ∨ (l = .abort ∧ t = takeDataAbort s) := by
  unfold withLoad at h
  split at h
  · exact .inl ⟨_, rfl, h⟩
  · cases h
    exact .inr ⟨rfl, rfl⟩
  · cases h

/-- A store goes on in the state after it, or takes the Data Abort. -/
theorem withStore_next {o : Store} {s t : State} {k : State → Result} (h : withStore o s k = .next t) :
    (∃ u, o = .done u ∧ k u = .next t) ∨ (o = .abort ∧ t = takeDataAbort s) := by
  unfold withStore at h
  split at h
  · exact .inl ⟨_, rfl, h⟩
  · cases h
    exact .inr ⟨rfl, rfl⟩
  · cases h

/-- The load half of a multiple transfer goes on with the words in the registers, or takes the Data Abort. -/
theorem loadRegs_next {s t : State} {regs : List Reg} {start : Word} {base : Reg} {k : List Word → State → Result}
    (h : loadRegs s regs start base k = .next t) :
    (∃ ws, s.loadWords s.privileged regs.length start = .all ws ∧ k ws (s.setRegs regs ws) = .next t) ∨
    ((∃ ws, s.loadWords s.privileged regs.length start = .abort ws) ∧
      t = takeDataAbort (s.clobber (regs.filter fun r => r != base && r != 15#4))) := by
  unfold loadRegs at h
  split at h
  · exact .inl ⟨_, ‹_›, h⟩
  · cases h
    exact .inr ⟨⟨_, ‹_›⟩, rfl⟩
  · cases h

/-- The store half of a multiple transfer goes on, or takes the Data Abort after what it stored. -/
theorem storeList_next {s t : State} {start : Word} {ws : List Word} {k : State → Result}
    (h : storeList s start ws k = .next t) :
    (∃ u, s.storeWords s.privileged start ws = .done u ∧ k u = .next t) ∨
    (∃ u, s.storeWords s.privileged start ws = .abort u ∧ t = takeDataAbort u) := by
  unfold storeList at h
  split at h
  · exact .inl ⟨_, ‹_›, h⟩
  · cases h
    exact .inr ⟨_, ‹_›, rfl⟩
  · cases h

/-- Asking the attached coprocessors uses up an answer or free values, and changes nothing else. -/
theorem State.coprocessor_state (s : State) (i : Instr) :
    ∃ as n, (s.coprocessor i).2 = { s with cpAnswers := as, freeCount := n } := by
  unfold State.coprocessor
  split
  · exact ⟨_, _, rfl⟩
  · split <;> exact ⟨_, _, rfl⟩

/-- A coprocessor instruction is undefined, waits, or goes on with what the coprocessor supplies. -/
theorem offer_next {i : Instr} {s t : State} {k : Word → Word → List Word → State → Result}
    (h : offer i s k = .next t) :
    (∃ u, s.coprocessor i = (.absent, u) ∧ t = takeUndefined u) ∨
    (∃ u, s.coprocessor i = (.wait, u) ∧ t = { u with cpWaiting := true }) ∨
    (∃ first second more u, s.coprocessor i = (.accept first second more, u) ∧
      k first second more { u with cpWaiting := false } = .next t) := by
  unfold offer at h
  split at h
  · cases h
    exact .inl ⟨_, ‹_›, rfl⟩
  · cases h
    exact .inr (.inl ⟨_, ‹_›, rfl⟩)
  · exact .inr (.inr ⟨_, _, _, _, ‹_›, h⟩)

/-- The check of a coprocessor other than 14. -/
theorem notCp14_next {cp : BitVec 4} {k : Result} {t : State} (h : notCp14 cp k = .next t) :
    cp ≠ 14#4 ∧ k = .next t := by
  unfold notCp14 at h
  split at h <;> simp_all

/-- The check of the base of a coprocessor transfer. -/
theorem cpBaseAllowed_next {wb : Bool} {rn : Reg} {k : Result} {t : State} (h : cpBaseAllowed wb rn k = .next t) :
    (wb = true → rn ≠ 15#4) ∧ k = .next t := by
  unfold cpBaseAllowed at h
  split at h
  · have := noPc_next h
    refine ⟨fun _ he => this.1 (by simp [he]), this.2⟩
  · exact ⟨fun hw => absurd hw ‹_›, h⟩

/-- The checks of an immediate addressing mode. -/
theorem baseAllowed_next {wb : Bool} {rn rd : Reg} {k : Result} {t : State} (h : baseAllowed wb rn rd k = .next t) :
    (wb = true → rn ≠ 15#4 ∧ rn ≠ rd) ∧ k = .next t := by
  unfold baseAllowed at h
  split at h
  · have h1 := noPc_next h
    have h2 := distinct_next h1.2
    exact ⟨fun _ => ⟨fun he => h1.1 (by simp [he]), h2.1 (rn, rd) (by simp)⟩, h2.2⟩
  · exact ⟨fun hw => absurd hw ‹_›, h⟩

theorem baseAllowed_of_ne {wb : Bool} {rn rd : Reg} (k : Result) (h : wb = true → rn ≠ 15#4 ∧ rn ≠ rd) :
    baseAllowed wb rn rd k = k := by
  unfold baseAllowed
  split
  · rename_i hw
    rw [noPc_of_not_mem _ (by simpa using Ne.symm (h hw).1), distinct_of_ne _ (by simpa using (h hw).2)]
  · rfl

theorem baseAllowed_of_pc {rd : Reg} (k : Result) : baseAllowed true 15#4 rd k = .refused .r15Operand :=
  (if_pos rfl).trans (noPc_of_mem _ (by simp))

theorem baseAllowed_of_eq {rd : Reg} (k : Result) (h : rd ≠ 15#4) :
    baseAllowed true rd rd k = .refused .overlappingRegisters :=
  (if_pos rfl).trans ((noPc_of_not_mem _ (by simpa using h.symm)).trans (distinct_of_eq _ ⟨(rd, rd), by simp, rfl⟩))

/-- The checks of a register addressing mode. -/
theorem regBaseAllowed_next {wb : Bool} {rn rd rm : Reg} {k : Result} {t : State}
    (h : regBaseAllowed wb rn rd rm k = .next t) :
    rm ≠ 15#4 ∧ (wb = true → rn ≠ 15#4 ∧ rn ≠ rd ∧ rm ≠ rn) ∧ k = .next t := by
  unfold regBaseAllowed at h
  have h0 := noPc_next h
  refine ⟨fun he => h0.1 (by simp [he]), ?_⟩
  replace h := h0.2
  split at h
  · have h1 := noPc_next h
    have h2 := distinct_next h1.2
    exact ⟨fun _ => ⟨fun he => h1.1 (by simp [he]), h2.1 (rn, rd) (by simp), h2.1 (rm, rn) (by simp)⟩, h2.2⟩
  · exact ⟨fun hw => absurd hw ‹_›, h⟩

theorem regBaseAllowed_of_ne {wb : Bool} {rn rd rm : Reg} (k : Result) (hm : rm ≠ 15#4)
    (h : wb = true → rn ≠ 15#4 ∧ rn ≠ rd ∧ rm ≠ rn) : regBaseAllowed wb rn rd rm k = k := by
  unfold regBaseAllowed
  rw [noPc_of_not_mem _ (by simpa using Ne.symm hm)]
  split
  · rename_i hw
    obtain ⟨h1, h2, h3⟩ := h hw
    rw [noPc_of_not_mem _ (by simpa using Ne.symm h1), distinct_of_ne _ (by simp [h2, h3])]
  · rfl

theorem regBaseAllowed_of_pc {wb : Bool} {rn rd rm : Reg} (k : Result) (h : rm = 15#4 ∨ wb = true ∧ rn = 15#4) :
    regBaseAllowed wb rn rd rm k = .refused .r15Operand := by
  by_cases hm : rm = 15#4
  · exact noPc_of_mem _ (by simp [hm])
  · obtain ⟨rfl, rfl⟩ := h.resolve_left hm
    exact (noPc_of_not_mem _ (by simpa using Ne.symm hm)).trans ((if_pos rfl).trans (noPc_of_mem _ (by simp)))

theorem regBaseAllowed_of_eq {rn rd rm : Reg} (k : Result) (hm : rm ≠ 15#4) (hn : rn ≠ 15#4) (h : rn = rd ∨ rm = rn) :
    regBaseAllowed true rn rd rm k = .refused .overlappingRegisters :=
  (noPc_of_not_mem _ (by simpa using hm.symm)).trans ((if_pos rfl).trans
    ((noPc_of_not_mem _ (by simpa using hn.symm)).trans (distinct_of_eq _ (by simpa using h))))

/-- The checks of a multiple transfer. -/
theorem multipleAllowed_next {rn : Reg} {regs : List Reg} {k : Result} {t : State}
    (h : multipleAllowed rn regs k = .next t) : rn ≠ 15#4 ∧ regs ≠ [] ∧ k = .next t := by
  unfold multipleAllowed at h
  have h0 := noPc_next h
  refine ⟨fun he => h0.1 (by simp [he]), ?_⟩
  replace h := h0.2
  split at h
  · cases h
  · rename_i he
    exact ⟨by simpa using he, h⟩

theorem multipleAllowed_of_ne {rn : Reg} {regs : List Reg} (k : Result) (h : rn ≠ 15#4) (hl : regs ≠ []) :
    multipleAllowed rn regs k = k := by
  unfold multipleAllowed
  rw [noPc_of_not_mem _ (by simpa using Ne.symm h), if_neg (by simpa using hl)]

theorem multipleAllowed_of_pc (regs : List Reg) (k : Result) : multipleAllowed 15#4 regs k = .refused .r15Operand :=
  noPc_of_mem _ (by simp)

theorem multipleAllowed_of_nil {rn : Reg} (k : Result) (h : rn ≠ 15#4) :
    multipleAllowed rn [] k = .refused .emptyRegisterList :=
  noPc_of_not_mem _ (by simpa using h.symm)

/-- The check of a load multiple with write-back. -/
theorem baseNotListed_next {wb : Bool} {rn : Reg} {regs : List Reg} {k : Result} {t : State}
    (h : baseNotListed wb rn regs k = .next t) : (wb = true → rn ∉ regs) ∧ k = .next t := by
  unfold baseNotListed at h
  split at h
  · cases h
  · rename_i hw
    exact ⟨fun hb hm => hw (by simp [hb, hm]), h⟩

theorem baseNotListed_of_not_mem {wb : Bool} {rn : Reg} {regs : List Reg} (k : Result)
    (h : wb = true → rn ∉ regs) : baseNotListed wb rn regs k = k := by
  unfold baseNotListed
  rw [if_neg]
  simp only [Bool.and_eq_true, List.contains_iff_mem, not_and]
  exact h

theorem baseNotListed_of_mem {rn : Reg} {regs : List Reg} (k : Result) (h : rn ∈ regs) :
    baseNotListed true rn regs k = .refused .baseInList :=
  if_pos (by simpa using h)

/-- The check of a store multiple with write-back. -/
theorem baseLowest_next {wb : Bool} {rn : Reg} {regs : List Reg} {k : Result} {t : State}
    (h : baseLowest wb rn regs k = .next t) :
    (wb = true → rn ∈ regs → ∀ r ∈ regs, rn.toNat ≤ r.toNat) ∧ k = .next t := by
  unfold baseLowest at h
  split at h
  · cases h
  · rename_i hw
    refine ⟨fun hb hm r hr => Nat.le_of_not_lt fun hlt => hw ?_, h⟩
    simp only [Bool.and_eq_true, List.contains_iff_mem, List.any_eq_true, decide_eq_true_eq]
    exact ⟨⟨hb, hm⟩, r, hr, hlt⟩

theorem baseLowest_of_le {wb : Bool} {rn : Reg} {regs : List Reg} (k : Result)
    (h : wb = true → rn ∈ regs → ∀ r ∈ regs, rn.toNat ≤ r.toNat) : baseLowest wb rn regs k = k := by
  unfold baseLowest
  rw [if_neg]
  simp only [Bool.and_eq_true, List.contains_iff_mem, List.any_eq_true, decide_eq_true_eq]
  rintro ⟨⟨hb, hm⟩, r, hr, hlt⟩
  exact absurd (h hb hm r hr) (Nat.not_le.mpr hlt)

theorem baseLowest_of_lt {rn r : Reg} {regs : List Reg} (k : Result) (hm : rn ∈ regs) (hr : r ∈ regs)
    (h : r.toNat < rn.toNat) : baseLowest true rn regs k = .refused .baseInList := by
  refine if_pos ?_
  simp only [Bool.and_eq_true, List.contains_iff_mem, List.any_eq_true, decide_eq_true_eq]
  exact ⟨⟨trivial, hm⟩, r, hr, h⟩

theorem evenAddress_of_odd {a : Word} (k : Result) (h : a.getLsbD 0 = true) :
    evenAddress a k = .refused .misalignedHalfword := if_pos h

/-- The alignment check of a halfword access. -/
theorem evenAddress_next {a : Word} {k : Result} {t : State} (h : evenAddress a k = .next t) :
    a.getLsbD 0 = false ∧ k = .next t := by
  unfold evenAddress at h
  split at h <;> simp_all

/-- The alignment check of a doubleword access. -/
theorem doubleAligned_next {a : Word} {k : Result} {t : State} (h : doubleAligned a k = .next t) :
    a.extractLsb' 0 3 = 0#3 ∧ k = .next t := by
  unfold doubleAligned at h
  split at h <;> simp_all

/-- The check of the register pair of a doubleword access. -/
theorem evenPair_next {rd : Reg} {k : Result} {t : State} (h : evenPair rd k = .next t) :
    rd.getLsbD 0 = false ∧ rd ≠ 14#4 ∧ k = .next t := by
  unfold evenPair at h
  split at h
  · cases h
  · rename_i hr
    simp only [Bool.or_eq_true, not_or, Bool.not_eq_true] at hr
    exact ⟨hr.1, by simpa using hr.2, h⟩

/-- The end of a load to the PC of a data transfer. -/
theorem ldrWith_next {a : Address} {rn rd : Reg} {s t : State} (h : ldrWith a rn rd s = .next t) :
    (∃ v, s.loadWord s.privileged a.address = .value v ∧
      ((rd = 15#4 ∧ a.address.extractLsb' 0 2 = 0#2 ∧ branchExchange v (s.writeBase a rn) = .next t) ∨
        (rd ≠ 15#4 ∧ t = ((s.writeBase a rn).setReg rd v).advance))) ∨
    (s.loadWord s.privileged a.address = .abort ∧ t = takeDataAbort s) := by
  rcases withLoad_next h with ⟨v, hv, hk⟩ | ha
  · refine .inl ⟨v, hv, ?_⟩
    split_ifs at hk with h1 h2
    · exact .inl ⟨h1, h2, hk⟩
    · cases hk
      exact .inr ⟨h1, rfl⟩
  · exact .inr ha

/-- At a boundary at which nothing is pending the instruction is fetched, in the state that the sample leaves. -/
theorem boundary_of_quiet {s : State} (hq : s.quiet) (hm : s.legalMode) (hp : s.pastTop = false) :
    boundary s = fetch s.sampled := by
  obtain ⟨h1, h2, h3⟩ := hq
  have hm' : ¬ Mode.ofBits (psrM s.sampled.cpsr) = none := hm
  have hp' : s.sampled.pastTop = false := hp
  have hf : (s.sample.fiq && !psrF s.sampled.cpsr) = false := by
    rcases h2 with h | h
    · simp [h]
    · rw [show psrF s.sampled.cpsr = true from h]; simp
  have hi : (s.sample.irq && !psrI s.sampled.cpsr) = false := by
    rcases h3 with h | h
    · simp [h]
    · rw [show psrI s.sampled.cpsr = true from h]; simp
  simp only [boundary, h1, hm', hp', hf, hi, if_false, Bool.false_eq_true]

/-- What stands at an instruction boundary that leads to a next state. -/
theorem step_next {s t : State} (h : step s = .next t) :
    boundary s = .entered t ∨ ∃ i u, boundary s = .run i u ∧ exec i u = .next t := by
  unfold step at h
  split at h
  · cases h
    exact .inl ‹_›
  · exact .inr ⟨_, _, ‹_›, h⟩
  · cases h
  · cases h

end Sys2Proof.Machine
end

