-- ==== Sys2Proof/Laws/Frames.lean ====
section
/-!
SUPPORT. The frame predicates of Sys2Proof/Safety.lean for the updates that the meanings make: what a state in which a
register, the flags or the PC was written shares with the state before.
-/
namespace Sys2Proof.Machine

theorem State.mode_of_psrM {s t : State} (h : psrM t.cpsr = psrM s.cpsr) : t.mode = s.mode := by
  simp only [State.mode, h]

/-- A register written reads as written, in a state that differs in nothing else that a register's number depends on. -/
theorem State.reg_of_regs {s t : State} {rd : Reg} {v : Word} (hm : psrM t.cpsr = psrM s.cpsr)
    (hr : t.regs = (s.setReg rd v).regs) (hd : rd ≠ 15#4) : t.reg rd = v := by
  rw [State.reg_congr_mode (s := s.setReg rd v) hr (by rw [State.setReg_mode, State.mode_of_psrM hm]) hd,
    State.reg_setReg_same s rd v hd]

theorem State.onlyRegs_of_eq {s t : State} (rs : List Reg) (h : t.regs = s.regs) : s.onlyRegs t rs :=
  fun p _ => by rw [h]

theorem State.onlyRegs_trans {s u t : State} {rs : List Reg} (h1 : s.onlyRegs u rs) (h2 : u.onlyRegs t rs)
    (hm : u.mode = s.mode) : s.onlyRegs t rs :=
  fun p hp => (h2 p (by rwa [State.physical, hm])).trans (h1 p hp)

theorem State.onlyRegs_setReg (s : State) {rd : Reg} (v : Word) {rs : List Reg} (h : rd ∈ rs) :
    s.onlyRegs (s.setReg rd v) rs := by
  intro p hp
  rw [State.get_setReg]
  split
  · exact absurd (List.mem_filterMap.mpr ⟨rd, h, ‹_›⟩) hp
  · rfl

theorem State.onlyRegs_congr {s t u : State} {rs : List Reg} (h : s.onlyRegs t rs) (hr : u.regs = t.regs) :
    s.onlyRegs u rs := fun p hp => by rw [hr, h p hp]

theorem State.onlyRegs_mono {s t : State} {rs qs : List Reg} (h : s.onlyRegs t rs) (hs : ∀ r ∈ rs, r ∈ qs) :
    s.onlyRegs t qs := by
  intro p hp
  refine h p fun hm => hp ?_
  obtain ⟨r, hr, hb⟩ := List.mem_filterMap.mp hm
  exact List.mem_filterMap.mpr ⟨r, hs r hr, hb⟩

theorem State.onlyBits_of_eq {s t : State} (bits : List Nat) (h : t.cpsr = s.cpsr) : s.onlyBits t bits :=
  fun i _ => by rw [h]

theorem State.memoryKept_of_eq {s t : State} (hm : t.mem = s.mem) (hs : t.stored = s.stored) : s.memoryKept t :=
  ⟨hs, fun a => by rw [State.byteAt, State.byteAt, hm]⟩

theorem State.systemKept_refl (s : State) : s.systemKept s := ⟨rfl, rfl, rfl, rfl, rfl, rfl⟩

theorem State.nextPc_congr {s t : State} (hp : t.pc = s.pc) (hT : psrT t.cpsr = psrT s.cpsr) :
    t.nextPc = s.nextPc := by
  simp only [State.nextPc, State.size, hp, hT]

theorem State.onlyBits_psrT {s t : State} {bits : List Nat} (h : s.onlyBits t bits) (h5 : 5 ∉ bits) :
    psrT t.cpsr = psrT s.cpsr := h 5 h5

theorem flags_withLogic (p v : Word) (c : Bool) : flagsNZ (withLogic p v c) v ∧ psrC (withLogic p v c) = c := by
  refine ⟨⟨?_, ?_⟩, ?_⟩
  · rw [psrN, getLsbD_withLogic, BitVec.msb_eq_getLsbD_last]; rfl
  · rw [psrZ, getLsbD_withLogic]; rfl
  · rw [psrC, getLsbD_withLogic]; rfl

theorem flags_withNZ (p v : Word) : flagsNZ (withNZ p v) v := by
  refine ⟨?_, ?_⟩
  · rw [psrN, getLsbD_withNZ, BitVec.msb_eq_getLsbD_last]; rfl
  · rw [psrZ, getLsbD_withNZ]; rfl

theorem flags_withArith (p : Word) (r : Sum) : flagsNZ (withArith p r) r.value ∧ psrC (withArith p r) = r.carry ∧
    psrV (withArith p r) = r.overflow := by
  refine ⟨⟨?_, ?_⟩, ?_, ?_⟩
  · rw [psrN, getLsbD_withArith, BitVec.msb_eq_getLsbD_last]; rfl
  · rw [psrZ, getLsbD_withArith]; rfl
  · rw [psrC, getLsbD_withArith]; rfl
  · rw [psrV, getLsbD_withArith]; rfl

theorem onlyBits_withLogic (p v : Word) (c : Bool) {i : Nat} (h : i ∉ [31, 30, 29]) :
    (withLogic p v c).getLsbD i = p.getLsbD i := by
  rw [getLsbD_withLogic]; simp at h; simp [h]

theorem onlyBits_withNZ (p v : Word) {i : Nat} (h : i ∉ [31, 30]) : (withNZ p v).getLsbD i = p.getLsbD i := by
  rw [getLsbD_withNZ]; simp at h; simp [h]

theorem onlyBits_withLongNZ (p : Word) (v : BitVec 64) {i : Nat} (h : i ∉ [31, 30]) :
    (withLongNZ p v).getLsbD i = p.getLsbD i := by
  rw [getLsbD_withLongNZ]; simp at h; simp [h]

theorem onlyBits_withArith (p : Word) (r : Sum) {i : Nat} (h : i ∉ [31, 30, 29, 28]) :
    (withArith p r).getLsbD i = p.getLsbD i := by
  rw [getLsbD_withArith]; simp at h; simp [h]

theorem onlyBits_withSticky (p : Word) (b : Bool) {i : Nat} (h : i ∉ [27]) :
    (withSticky p b).getLsbD i = p.getLsbD i := by
  rw [getLsbD_withSticky]; simp at h; simp [h]

/-- An instruction that writes registers and the CPSR and goes on: its frame, from what it did to each. -/
theorem State.onlyWrites_advance {s u : State} {rs : List Reg} {bits : List Nat} (hr : s.onlyRegs u rs)
    (hb : s.onlyBits u bits) (h5 : 5 ∉ bits) (hp : u.pc = s.pc) (hs : s.systemKept u) (hc : s.coprocessorsKept u)
    (hm : s.memoryKept u) : s.onlyWrites u.advance rs bits :=
  ⟨State.nextPc_congr hp (State.onlyBits_psrT hb h5), hr, hb, hs, hc, hm⟩

/-- The frame of an instruction that writes one register and the CPSR. -/
theorem State.onlyWrites_reg_cpsr (s : State) (rd : Reg) (v p : Word) {bits : List Nat}
    (hb : ∀ i, i ∉ bits → p.getLsbD i = s.cpsr.getLsbD i) (h5 : 5 ∉ bits) :
    s.onlyWrites ((s.setReg rd v).setCpsr p).advance [rd] bits := by
  refine State.onlyWrites_advance ?_ hb h5 ?_ ?_ ?_ ?_
  · exact State.onlyRegs_congr (State.onlyRegs_setReg s v (by simp)) rfl
  · simp
  · exact ⟨by simp, by simp, by simp, by simp, by simp, by simp⟩
  · exact ⟨by simp, by simp, by simp⟩
  · exact State.memoryKept_of_eq (by simp) (by simp)

theorem State.onlyWrites_reg (s : State) (rd : Reg) (v : Word) : s.onlyWrites (s.setReg rd v).advance [rd] [] := by
  refine State.onlyWrites_advance ?_ ?_ (by simp) ?_ ?_ ?_ ?_
  · exact State.onlyRegs_setReg s v (by simp)
  · exact State.onlyBits_of_eq _ (by simp)
  · simp
  · exact ⟨by simp, by simp, by simp, by simp, by simp, by simp⟩
  · exact ⟨by simp, by simp, by simp⟩
  · exact State.memoryKept_of_eq (by simp) (by simp)

/-- The frame of an instruction that writes the CPSR only. -/
theorem State.onlyWrites_cpsr (s : State) (p : Word) {bits : List Nat}
    (hb : ∀ i, i ∉ bits → p.getLsbD i = s.cpsr.getLsbD i) (h5 : 5 ∉ bits) :
    s.onlyWrites (s.setCpsr p).advance [] bits :=
  State.onlyWrites_advance (State.onlyRegs_of_eq _ rfl) hb h5 rfl ⟨rfl, rfl, rfl, rfl, rfl, rfl⟩ ⟨rfl, rfl, rfl⟩
    (State.memoryKept_of_eq rfl rfl)

/-- The frame of an instruction that does nothing but go on. -/
theorem State.onlyWrites_advance_only (s : State) : s.onlyWrites s.advance [] [] :=
  State.onlyWrites_advance (State.onlyRegs_of_eq _ rfl) (State.onlyBits_of_eq _ rfl) (by simp) rfl
    ⟨rfl, rfl, rfl, rfl, rfl, rfl⟩ ⟨rfl, rfl, rfl⟩ (State.memoryKept_of_eq rfl rfl)

end Sys2Proof.Machine
end

