-- ==== Sys2Proof/Laws/Outcomes.lean ====
section
/-!
SUPPORT. For statements about every next state of an instruction: `Leads Q r` says that `Q` holds of the next state if `r`
answers one, and one lemma for each shared operation says what is left to show of its continuation.
-/
namespace Sys2Proof.Machine
open Sys2Proof

/-! ### What the stores of several words leave alone -/

/-- `t` differs from `s` at most in memory, the list of stored addresses and the count of free values. -/
structure SameCore (s t : State) : Prop where
  regs : t.regs = s.regs
  pc : t.pc = s.pc
  cpsr : t.cpsr = s.cpsr
  spsr : t.spsr = s.spsr
  dcc : t.dcc = s.dcc
  config : t.config = s.config
  pins : t.pins = s.pins
  fetched : t.fetched = s.fetched
  cpAnswers : t.cpAnswers = s.cpAnswers
  cpSent : t.cpSent = s.cpSent
  cpWaiting : t.cpWaiting = s.cpWaiting
  userLdm : t.userLdm = s.userLdm
  pastTop : t.pastTop = s.pastTop

theorem SameCore.refl (s : State) : SameCore s s :=
  ⟨rfl, rfl, rfl, rfl, rfl, rfl, rfl, rfl, rfl, rfl, rfl, rfl, rfl⟩

theorem SameCore.trans {s t u : State} (h : SameCore s t) (g : SameCore t u) : SameCore s u :=
  ⟨g.regs.trans h.regs, g.pc.trans h.pc, g.cpsr.trans h.cpsr, g.spsr.trans h.spsr, g.dcc.trans h.dcc,
    g.config.trans h.config, g.pins.trans h.pins, g.fetched.trans h.fetched, g.cpAnswers.trans h.cpAnswers,
    g.cpSent.trans h.cpSent, g.cpWaiting.trans h.cpWaiting, g.userLdm.trans h.userLdm, g.pastTop.trans h.pastTop⟩

theorem SameCore.putWord (s : State) (a v : Word) : SameCore s (s.putWord a v) := by
  constructor <;> simp

theorem SameCore.takeFree (s : State) : SameCore s s.takeFree := by constructor <;> rfl

theorem SameCore.storeWords {s t : State} {p : Bool} {a : Word} {ws : List Word}
    (h : s.storeWords p a ws = .done t ∨ s.storeWords p a ws = .abort t) : SameCore s t :=
  State.storeWords_keeps (fun _ _ _ hu => hu.trans (SameCore.putWord _ _ _)) (fun _ hu => hu.trans (SameCore.takeFree _))
    (SameCore.refl s) h

/-! ### The next state, if there is one -/

/-- If the result is a next state, `Q` holds of it. -/
def Leads (Q : State → Prop) (r : Result) : Prop := ∀ t, r = .next t → Q t

variable {Q : State → Prop} {s : State} {k : Result}

theorem Leads.next {t : State} (h : Q t) : Leads Q (.next t) := fun u hu => by cases hu; exact h

theorem Leads.refused {r : Refusal} : Leads Q (.refused r) := fun u hu => by cases hu

theorem Leads.fault {f : Fault} : Leads Q (.fault f) := fun u hu => by cases hu

theorem Leads.whenPassed {c : Cond} (h1 : Q s.advance) (h : condPassed c s.cpsr = true → Leads Q k) :
    Leads Q (whenPassed c s k) := fun t ht => by
  rcases whenPassed_next ht with ⟨hc, h2⟩ | ⟨-, rfl⟩
  · exact h hc t h2
  · exact h1

theorem Leads.noPc {rs : List Reg} (h : 15#4 ∉ rs → Leads Q k) : Leads Q (noPc rs k) :=
  fun t ht => h (noPc_next ht).1 t (noPc_next ht).2

theorem Leads.distinct {ps : List (Reg × Reg)} (h : Leads Q k) : Leads Q (distinct ps k) :=
  fun t ht => h t (distinct_next ht).2

theorem Leads.evenAddress {a : Word} (h : Leads Q k) : Leads Q (evenAddress a k) :=
  fun t ht => h t (evenAddress_next ht).2

theorem Leads.doubleAligned {a : Word} (h : Leads Q k) : Leads Q (doubleAligned a k) :=
  fun t ht => h t (doubleAligned_next ht).2

theorem Leads.evenPair {rd : Reg} (h : Leads Q k) : Leads Q (evenPair rd k) :=
  fun t ht => h t (evenPair_next ht).2.2

theorem Leads.baseAllowed {wb : Bool} {rn rd : Reg} (h : Leads Q k) : Leads Q (baseAllowed wb rn rd k) :=
  fun t ht => h t (baseAllowed_next ht).2

theorem Leads.regBaseAllowed {wb : Bool} {rn rd rm : Reg} (h : Leads Q k) : Leads Q (regBaseAllowed wb rn rd rm k) :=
  fun t ht => h t (regBaseAllowed_next ht).2.2

theorem Leads.multipleAllowed {rn : Reg} {rs : List Reg} (h : Leads Q k) : Leads Q (multipleAllowed rn rs k) :=
  fun t ht => h t (multipleAllowed_next ht).2.2

theorem Leads.baseNotListed {wb : Bool} {rn : Reg} {rs : List Reg} (h : Leads Q k) :
    Leads Q (baseNotListed wb rn rs k) := fun t ht => h t (baseNotListed_next ht).2

theorem Leads.baseLowest {wb : Bool} {rn : Reg} {rs : List Reg} (h : Leads Q k) : Leads Q (baseLowest wb rn rs k) :=
  fun t ht => h t (baseLowest_next ht).2

theorem Leads.notCp14 {cp : BitVec 4} (h : Leads Q k) : Leads Q (notCp14 cp k) := fun t ht => h t (notCp14_next ht).2

theorem Leads.cpBaseAllowed {wb : Bool} {rn : Reg} (h : Leads Q k) : Leads Q (cpBaseAllowed wb rn k) :=
  fun t ht => h t (cpBaseAllowed_next ht).2

theorem Leads.pairBaseAllowed {wb : Bool} {rn rd : Reg} (h : Leads Q k) : Leads Q (pairBaseAllowed wb rn rd k) := by
  unfold Machine.pairBaseAllowed
  split
  · exact Leads.noPc fun _ => Leads.distinct h
  · exact h

theorem Leads.pairRegBaseAllowed {wb : Bool} {rn rd rm : Reg} (h : Leads Q k) :
    Leads Q (pairRegBaseAllowed wb rn rd rm k) := by
  unfold Machine.pairRegBaseAllowed
  refine Leads.noPc fun _ => Leads.distinct (Leads.pairBaseAllowed ?_)
  split
  · exact Leads.distinct h
  · exact h

theorem Leads.longAllowed {a b c d : Reg} (h : Leads Q k) : Leads Q (longAllowed a b c d k) :=
  Leads.noPc fun _ => Leads.distinct h

theorem Leads.ite {p : Prop} [Decidable p] {l : Result} (h1 : p → Leads Q k) (h2 : ¬p → Leads Q l) :
    Leads Q (if p then k else l) := by
  split
  · exact h1 ‹_›
  · exact h2 ‹_›

theorem Leads.withLoad {α : Type} {l : Load α} {f : α → Result} (h1 : Q (takeDataAbort s)) (h : ∀ v, Leads Q (f v)) :
    Leads Q (withLoad l s f) := fun t ht => by
  rcases withLoad_next ht with ⟨v, -, h2⟩ | ⟨-, rfl⟩
  · exact h v t h2
  · exact h1

theorem Leads.storeWord {p locked : Bool} {a v : Word} {f : State → Result} (h1 : Q (takeDataAbort s))
    (h : Leads Q (f (s.putWord (wordAlign a) v))) : Leads Q (withStore (s.storeWord p a v locked) s f) := fun t ht => by
  rcases withStore_next ht with ⟨u, hu, h2⟩ | ⟨-, rfl⟩
  · obtain ⟨-, rfl⟩ := State.storeWord_done hu; exact h t h2
  · exact h1

theorem Leads.storeHalf {p : Bool} {a : Word} {v : Half} {f : State → Result} (h1 : Q (takeDataAbort s))
    (h : Leads Q (f (s.putHalf a v))) : Leads Q (withStore (s.storeHalf p a v) s f) := fun t ht => by
  rcases withStore_next ht with ⟨u, hu, h2⟩ | ⟨-, rfl⟩
  · obtain ⟨-, rfl⟩ := State.storeHalf_done hu; exact h t h2
  · exact h1

theorem Leads.storeByte {p locked : Bool} {a : Word} {v : Byte} {f : State → Result} (h1 : Q (takeDataAbort s))
    (h : Leads Q (f (s.putByte a v))) : Leads Q (withStore (s.storeByte p a v locked) s f) := fun t ht => by
  rcases withStore_next ht with ⟨u, hu, h2⟩ | ⟨-, rfl⟩
  · obtain ⟨-, rfl⟩ := State.storeByte_done hu; exact h t h2
  · exact h1

theorem Leads.loadRegs {rs : List Reg} {a : Word} {rn : Reg} {f : List Word → State → Result}
    (h1 : ∀ l, Q (takeDataAbort (s.clobber l))) (h : ∀ ws, Leads Q (f ws (s.setRegs rs ws))) :
    Leads Q (loadRegs s rs a rn f) := fun t ht => by
  rcases loadRegs_next ht with ⟨v, -, h2⟩ | ⟨-, rfl⟩
  · exact h v t h2
  · exact h1 _

theorem Leads.storeList {a : Word} {ws : List Word} {f : State → Result}
    (h1 : ∀ u, SameCore s u → s.storeWords s.privileged a ws = .abort u → Q (takeDataAbort u))
    (h : ∀ u, SameCore s u → s.storeWords s.privileged a ws = .done u → Leads Q (f u)) :
    Leads Q (storeList s a ws f) := fun t ht => by
  rcases storeList_next ht with ⟨u, hu, h2⟩ | ⟨u, hu, rfl⟩
  · exact h u (SameCore.storeWords (.inl hu)) hu t h2
  · exact h1 u (SameCore.storeWords (.inr hu)) hu

theorem Leads.offer {i : Instr} {f : Word → Word → List Word → State → Result}
    (h1 : ∀ as n, Q (takeUndefined { s with cpAnswers := as, freeCount := n }))
    (h2 : ∀ as n, Q { s with cpAnswers := as, freeCount := n, cpWaiting := true })
    (h : ∀ a b m as n, Leads Q (f a b m { s with cpAnswers := as, freeCount := n, cpWaiting := false })) :
    Leads Q (offer i s f) := fun t ht => by
  obtain ⟨as, n, hu⟩ := State.coprocessor_state s i
  rcases offer_next ht with ⟨u, he, rfl⟩ | ⟨u, he, rfl⟩ | ⟨a, b, m, u, he, h3⟩ <;> rw [he] at hu <;> subst hu
  · exact h1 as n
  · exact h2 as n
  · exact h _ _ _ _ _ t h3

theorem Leads.branchExchange {v : Word} (h : v.extractLsb' 0 2 ≠ 2#2 →
    Q ((s.setCpsr (setBit s.cpsr 5 (v.getLsbD 0))).setPc (v &&& 0xFFFFFFFE#32))) :
    Leads Q (branchExchange v s) := fun t ht => by
  obtain ⟨h1, rfl⟩ := branchExchange_next ht
  exact h h1

theorem Leads.exceptionReturn {v : Word} (h : ∀ p, s.spsr.get s.mode = some p → inJazelle p = false →
    returnAligned p v = true → Q ((s.setCpsr p).setPc v)) : Leads Q (exceptionReturn v s) := fun t ht => by
  obtain ⟨p, h1, h2, h3, rfl⟩ := exceptionReturn_next ht
  exact h p h1 h2 h3

theorem Leads.dataResult {sb : Bool} {rd : Reg} {psr v : Word}
    (h1 : rd = 15#4 → sb = true → ∀ p, s.spsr.get s.mode = some p → inJazelle p = false → returnAligned p v = true →
      Q ((s.setCpsr p).setPc v))
    (h2 : v.extractLsb' 0 2 = 0#2 → Q (s.setPc v)) (h3 : Q ((s.setReg rd v).setCpsr psr).advance)
    (h4 : Q ((s.setReg rd v).setCpsr s.cpsr).advance) : Leads Q (dataResult sb rd psr v s) := fun t ht => by
  rcases dataResult_next ht with ⟨hd, hb, h⟩ | ⟨-, -, h, rfl⟩ | ⟨-, rfl⟩
  · exact Leads.exceptionReturn (h1 hd hb) t h
  · exact h2 h
  · cases sb
    · exact h4
    · exact h3

theorem Leads.finishStore {a : Address} {rn : Reg} (h : Q (s.writeBase a rn).advance) :
    Leads Q (finishStore a rn s) := Leads.next h

theorem Leads.finishLoad {a : Address} {rn rd : Reg} {v : Word} (h : Q ((s.writeBase a rn).setReg rd v).advance) :
    Leads Q (finishLoad a rn rd v s) := Leads.next h

end Sys2Proof.Machine
end

