-- ==== Sys2Proof/Laws/Transfers.lean ====
section
/-!
SUPPORT. Addresses as numbers, and what the transfers between registers and memory do: one lemma for each shared
operation, under the conditions on memory that Sys2Proof/Safety.lean names, with the frame of the registers or bytes it
leaves alone.
-/
namespace Sys2Proof.Machine
open Sys2Proof

/-! ### Low bits of an address -/

theorem extract_two_zero (v : Word) : v.extractLsb' 0 2 = 0#2 ↔ v.toNat % 4 = 0 := by
  rw [← BitVec.toNat_inj]; simp [BitVec.extractLsb'_toNat]

theorem extract_two_two (v : Word) : v.extractLsb' 0 2 = 2#2 ↔ v.toNat % 4 = 2 := by
  rw [← BitVec.toNat_inj]; simp [BitVec.extractLsb'_toNat]

theorem extract_three_zero (v : Word) : v.extractLsb' 0 3 = 0#3 ↔ v.toNat % 8 = 0 := by
  rw [← BitVec.toNat_inj]; simp [BitVec.extractLsb'_toNat]

theorem bit_zero_odd (v : Word) : v.getLsbD 0 = true ↔ v.toNat % 2 = 1 := by
  rw [BitVec.getLsbD, Nat.testBit_zero]; simp

/-- An address with its low bit cleared. -/
theorem clear_low_bit (v : Word) : v &&& 0xFFFFFFFE#32 = v - v % 2 := by
  have h : v &&& 0xFFFFFFFE#32 = (v >>> 1) <<< 1 := by
    apply BitVec.eq_of_getLsbD_eq
    intro i hi
    interval_cases i <;> simp
  rw [h]; apply BitVec.eq_of_toNat_eq
  simp [Nat.shiftRight_eq_div_pow, Nat.shiftLeft_eq]
  have := v.isLt
  bv_omega

/-- An address with its two low bits cleared. -/
theorem wordAlign_eq (v : Word) : wordAlign v = v - v % 4 := by
  unfold wordAlign
  have h : v &&& 0xFFFFFFFC#32 = (v >>> 2) <<< 2 := by
    apply BitVec.eq_of_getLsbD_eq
    intro i hi
    interval_cases i <;> simp
  rw [h]; apply BitVec.eq_of_toNat_eq
  simp [Nat.shiftRight_eq_div_pow, Nat.shiftLeft_eq]
  have := v.isLt
  bv_omega

theorem wordAlign_add_four (a : Word) : wordAlign (a + 4) = wordAlign a + 4 := by
  apply BitVec.eq_of_toNat_eq
  have h1 := a.isLt
  rw [wordAlign_eq, wordAlign_eq]
  simp only [BitVec.toNat_sub, BitVec.toNat_add, BitVec.toNat_umod,
    show (4 : Word).toNat = 4 from rfl]
  omega

theorem wordAlign_add_words (a : Word) (k : Nat) :
    wordAlign (wordPlace a k) = wordAlign a + BitVec.ofNat 32 (4 * k) := by
  induction k with
  | zero => simp [wordPlace]
  | succ k ih =>
    rw [show wordPlace a (k + 1) = wordPlace a k + 4 by
      unfold wordPlace; rw [Nat.mul_succ, BitVec.ofNat_add, BitVec.add_assoc]; rfl, wordAlign_add_four,
      ih, Nat.mul_succ, BitVec.ofNat_add, BitVec.add_assoc]; rfl

theorem wordPlace_zero (a : Word) : wordPlace a 0 = a := by simp [wordPlace]

theorem wordPlace_succ (a : Word) (k : Nat) : wordPlace a (k + 1) = wordPlace (a + 4) k := by
  unfold wordPlace
  rw [Nat.mul_add, BitVec.ofNat_add, BitVec.add_comm (BitVec.ofNat 32 (4 * k)), ← BitVec.add_assoc]; rfl

/-! ### Exchange of state -/

/-- BX from a state that differs from `s` in some registers only. -/
theorem branchExchange_jumps (s u : State) (v : Word) (rs : List Reg) (hv : v.toNat % 4 ≠ 2) (hr : s.onlyRegs u rs)
    (hc : u.cpsr = s.cpsr) (hs : s.systemKept u) (hcp : s.coprocessorsKept u) (hm : s.memoryKept u) :
    ∃ t, branchExchange v u = .next t ∧ psrT t.cpsr = v.getLsbD 0 ∧ t.regs = u.regs ∧ t.mode = u.mode ∧
      s.onlyJumps t (v - v % 2) rs [5] := by
  rw [Ne, ← extract_two_two] at hv
  refine ⟨_, branchExchange_of_ne u hv, ?_, rfl, ?_, ?_, hr, fun i hi => ?_, hs, hcp, hm⟩
  · simp only [State.setPc_cpsr, State.setCpsr_cpsr, psrT, getLsbD_setBit]; simp
  · exact State.mode_of_psrM (psrM_setBit _ _ _ (by omega))
  · exact clear_low_bit v
  · simp only [State.setPc_cpsr, State.setCpsr_cpsr, getLsbD_setBit, hc]; simp at hi; simp [hi]

/-! ### Register frames -/

/-- `u` differs from `s` at most in the registers that the fields `rs` name. -/
structure RegOnly (s u : State) (rs : List Reg) : Prop where
  pc : u.pc = s.pc
  cpsr : u.cpsr = s.cpsr
  sys : s.systemKept u
  cp : s.coprocessorsKept u
  mem : u.mem = s.mem
  stored : u.stored = s.stored
  regs : s.onlyRegs u rs

theorem RegOnly.refl (s : State) (rs : List Reg) : RegOnly s s rs :=
  ⟨rfl, rfl, ⟨rfl, rfl, rfl, rfl, rfl, rfl⟩, ⟨rfl, rfl, rfl⟩, rfl, rfl, State.onlyRegs_of_eq _ rfl⟩

theorem RegOnly.set {s u : State} {rs : List Reg} (h : RegOnly s u rs) {r : Reg} (v : Word) (hr : r ∈ rs) :
    RegOnly s (u.setReg r v) rs := by
  obtain ⟨a, b, c, d, e, f, g⟩ := h
  refine ⟨by simp [a], by simp [b], ?_, ?_, by simp [e], by simp [f],
    State.onlyRegs_trans g (State.onlyRegs_setReg _ _ hr) (State.mode_of_cpsr b)⟩
  · simpa [State.systemKept] using c
  · simpa [State.coprocessorsKept] using d

theorem RegOnly.mono {s u : State} {rs qs : List Reg} (h : RegOnly s u rs) (hq : ∀ r ∈ rs, r ∈ qs) :
    RegOnly s u qs := by
  obtain ⟨a, b, c, d, e, f, g⟩ := h
  exact ⟨a, b, c, d, e, f, State.onlyRegs_mono g hq⟩

theorem RegOnly.writeBase (s : State) (a : Address) (rn : Reg) (rs : List Reg) :
    RegOnly s (s.writeBase a rn) (withBase a rn rs) := by
  unfold State.writeBase withBase
  split
  · exact (RegOnly.refl s _).set _ (by simp)
  · exact RegOnly.refl s _

theorem RegOnly.advance {s u : State} {rs : List Reg} (h : RegOnly s u rs) : s.onlyWrites u.advance rs [] :=
  State.onlyWrites_advance h.regs (State.onlyBits_of_eq _ h.cpsr) (by simp) h.pc h.sys h.cp
    (State.memoryKept_of_eq h.mem h.stored)

theorem RegOnly.setRegs {s u : State} {qs : List Reg} (rs : List Reg) (ws : List Word) (h : RegOnly s u qs)
    (hq : ∀ r ∈ rs, r ∈ qs) : RegOnly s (u.setRegs rs ws) qs := by
  induction rs generalizing u ws with
  | nil => exact h
  | cons r rs ih =>
    cases ws with
    | nil => exact h
    | cons w ws => exact ih _ (h.set w (hq r (by simp))) (fun r hr => hq r (by simp [hr]))

/-! ### Lists of registers -/

theorem listed_nodup (l : BitVec 16) : (listed l).Nodup := List.Nodup.filter _ (by decide)

theorem listed_length_le (l : BitVec 16) : (listed l).length ≤ 16 :=
  (List.length_filter_le _ _).trans (by decide)

theorem mem_listed (l : BitVec 16) (r : Reg) : r ∈ listed l ↔ l.getLsbD r.toNat = true := by
  unfold listed
  rw [List.mem_filter]
  have : ∀ r : Reg, r ∈ allRegs := by decide
  simp [this]

theorem listed_ne_nil (l : BitVec 16) (h : l ≠ 0#16) : listed l ≠ [] := by
  intro hn
  apply h
  apply BitVec.eq_of_getLsbD_eq
  intro i hi
  have := (mem_listed l (BitVec.ofNat 4 i)).not
  rw [hn] at this
  simp [Nat.mod_eq_of_lt hi] at this
  simpa using this

theorem State.setRegs_mode (u : State) (rs : List Reg) (ws : List Word) : (u.setRegs rs ws).mode = u.mode := by
  induction rs generalizing u ws with
  | nil => rfl
  | cons r rs ih =>
    cases ws with
    | nil => rfl
    | cons w ws => rw [State.setRegs, ih]; simp

/-- A register that is not listed keeps its word. -/
theorem State.get_setRegs_of_ne (u : State) (rs : List Reg) (ws : List Word) (p : PhysReg)
    (h : ∀ r ∈ rs, bank u.mode r ≠ some p) : (u.setRegs rs ws).regs.get p = u.regs.get p := by
  induction rs generalizing u ws with
  | nil => rfl
  | cons r rs ih =>
    cases ws with
    | nil => rfl
    | cons w ws =>
      rw [State.setRegs, ih]
      · rw [State.get_setReg, if_neg (h r (by simp))]
      · intro q hq; rw [State.setReg_mode]; exact h q (by simp [hq])

/-- Each register listed gets its word. -/
theorem State.get_setRegs (u : State) (rs : List Reg) (ws : List Word) (hn : rs.Nodup) (k : Nat) (r : Reg) (w : Word)
    (p : PhysReg) (hr : rs[k]? = some r) (hw : ws[k]? = some w) (hp : bank u.mode r = some p) :
    (u.setRegs rs ws).regs.get p = w := by
  induction rs generalizing u ws k with
  | nil => simp at hr
  | cons q rs ih =>
    cases ws with
    | nil => simp at hw
    | cons x ws =>
      rw [List.nodup_cons] at hn
      cases k with
      | zero =>
        simp at hr hw; subst hr hw
        rw [State.setRegs, State.get_setRegs_of_ne, State.get_setReg, if_pos hp]
        intro z hz he
        rw [State.setReg_mode, ← hp] at he
        exact hn.1 (bank_inj _ _ _ he ▸ hz)
      | succ k => exact ih _ ws hn.2 k hr hw (by rw [State.setReg_mode]; exact hp)

theorem State.reg_of_get {s : State} {r : Reg} {p : PhysReg} {v : Word} (hp : bank s.mode r = some p)
    (h : s.regs.get p = v) : s.reg r = v := by
  simp [State.reg, hp, h]

/-- What loading User-bank registers writes, and all it leaves alone. -/
theorem State.setUserRegs_spec (s : State) (rs : List Reg) (ws : List Word) :
    (s.setUserRegs rs ws).cpsr = s.cpsr ∧ (s.setUserRegs rs ws).pc = s.pc ∧ (s.setUserRegs rs ws).spsr = s.spsr ∧
    (s.setUserRegs rs ws).dcc = s.dcc ∧ (s.setUserRegs rs ws).config = s.config ∧
    (s.setUserRegs rs ws).pins = s.pins ∧ s.coprocessorsKept (s.setUserRegs rs ws) ∧
    (s.setUserRegs rs ws).mem = s.mem ∧ (s.setUserRegs rs ws).stored = s.stored ∧
    (∀ q, (∀ r ∈ rs, bank .usr r ≠ some q) → (s.setUserRegs rs ws).regs.get q = s.regs.get q) ∧
    (rs.Nodup → ∀ (k : Nat) (r : Reg) (w : Word) (p : PhysReg), rs[k]? = some r → ws[k]? = some w →
      bank .usr r = some p → (s.setUserRegs rs ws).regs.get p = w) := by
  induction rs generalizing s ws with
  | nil => simp [State.setUserRegs, State.coprocessorsKept]
  | cons r rs ih =>
    cases ws with
    | nil => simp [State.setUserRegs, State.coprocessorsKept]
    | cons w ws =>
      obtain ⟨a, b, c, d, e, f, g, h, i, j, l⟩ := ih (s.setUserReg r w) ws
      rw [State.setUserRegs]
      refine ⟨by simp, by simp, by simp, by simp, by simp, by simp, ⟨by simp, by simp, by simp⟩, by simp, by simp,
        fun q hq => ?_, fun hn k x y p hx hy hp => ?_⟩
      · rw [j, State.get_setUserReg, if_neg]
        · exact hq r (by simp)
        · intro x hx; simpa using hq x (by simp [hx])
      · rw [List.nodup_cons] at hn
        cases k with
        | zero =>
          simp at hx hy; subst hx hy
          rw [j, State.get_setUserReg, if_pos hp]
          intro z hz he
          rw [← hp] at he
          exact hn.1 (bank_inj _ _ _ he ▸ hz)
        | succ k => exact l hn.2 k x y p hx hy hp

/-- Registers that an aborted transfer leaves with free values, and all it leaves alone. -/
theorem State.clobber_spec (s : State) (rs : List Reg) :
    (s.clobber rs).cpsr = s.cpsr ∧ (s.clobber rs).pc = s.pc ∧ (s.clobber rs).spsr = s.spsr ∧
    (s.clobber rs).config = s.config ∧ (s.clobber rs).mem = s.mem ∧ (s.clobber rs).stored = s.stored ∧
    (∀ q, (∀ r ∈ rs, bank s.mode r ≠ some q) → (s.clobber rs).regs.get q = s.regs.get q) := by
  induction rs generalizing s with
  | nil => simp [State.clobber]
  | cons r rs ih =>
    obtain ⟨a, b, c, d, e, f, g⟩ := ih (s.takeFree.setReg r s.freeWord)
    rw [State.clobber]
    refine ⟨by simp, by simp, by simp, by simp, by simp, by simp, fun q hq => ?_⟩
    rw [g, State.get_setReg, if_neg]; rfl
    · exact hq r (by simp)
    · intro x hx; simpa using hq x (by simp [hx])

/-! ### Loads -/

theorem State.loadWord_of_reads {s : State} {priv locked : Bool} {a w : Word} (h : s.readsWord priv a w locked) :
    s.loadWord priv a locked = .value (w.rotateRight (8 * (a.toNat % 4))) := by
  obtain ⟨h1, h2⟩ := h
  simp [State.loadWord, State.loadAligned, h1, h2, Load.ofOption, BitVec.extractLsb'_toNat]

theorem State.loadAligned_of_reads {s : State} {priv locked : Bool} {a w : Word} (h : s.readsWord priv a w locked) :
    s.loadAligned priv a locked = .value w := by
  obtain ⟨h1, h2⟩ := h
  simp [State.loadAligned, h1, h2, Load.ofOption]

theorem State.loadHalf_of_reads {s : State} {priv : Bool} {a : Word} {w : Half} (h : s.readsHalf priv a w) :
    s.loadHalf priv a = .value w := by
  obtain ⟨h1, h2⟩ := h
  simp [State.loadHalf, h1, h2, Load.ofOption]

theorem State.loadByte_of_reads {s : State} {priv locked : Bool} {a : Word} {w : Byte}
    (h : s.readsByte priv a w locked) : s.loadByte priv a locked = .value w := by
  obtain ⟨h1, h2⟩ := h
  simp [State.loadByte, h1, h2, Load.ofOption]

theorem State.loadWords_of_reads {s : State} {priv : Bool} {n : Nat} {start : Word} {words : Nat → Word}
    (h : ∀ k < n, s.readsWord priv (wordPlace start k) (words k)) :
    s.loadWords priv n start = .all ((List.range n).map words) := by
  induction n generalizing start words with
  | zero => rfl
  | succ n ih =>
    have h0 := h 0 (by omega)
    rw [wordPlace_zero] at h0
    have := ih (start := start + 4) (words := fun k => words (k + 1))
      (fun k hk => by rw [← wordPlace_succ]; exact h (k + 1) (by omega))
    rw [State.loadWords, State.loadAligned_of_reads h0]
    simp only [this, Words.cons, List.range_succ_eq_map, List.map_cons, List.map_map]; rfl

theorem State.loadWords_of_aborts {s : State} {priv : Bool} {n : Nat} {start : Word} {words : Nat → Word} {j : Nat}
    (hj : j < n) (h : ∀ k < j, s.readsWord priv (wordPlace start k) (words k))
    (ha : s.aborts .read .word (wordAlign (wordPlace start j)) priv = true) :
    s.loadWords priv n start = .abort ((List.range j).map words) := by
  induction n generalizing start words j with
  | zero => omega
  | succ n ih =>
    cases j with
    | zero =>
      rw [wordPlace_zero] at ha
      simp [State.loadWords, State.loadAligned, ha]
    | succ j =>
      have h0 := h 0 (by omega)
      rw [wordPlace_zero] at h0
      have := ih (start := start + 4) (words := fun k => words (k + 1)) (j := j) (by omega)
        (fun k hk => by rw [← wordPlace_succ]; exact h (k + 1) (by omega)) (by rw [← wordPlace_succ]; exact ha)
      rw [State.loadWords, State.loadAligned_of_reads h0]
      simp only [this, Words.cons, List.range_succ_eq_map, List.map_cons, List.map_map]; rfl

theorem getLastD_range_map (n : Nat) (words : Nat → Word) (hn : n ≠ 0) :
    ((List.range n).map words).getLastD 0 = words (n - 1) := by
  obtain ⟨m, rfl⟩ := Nat.exists_eq_succ_of_ne_zero hn
  rw [List.getLastD_eq_getLast?, List.getLast?_map, List.getLast?_range]; simp

/-- The end of a load: the destination and, with write-back, the base. -/
theorem finishLoad_spec (a : Address) (rn rd : Reg) (v : Word) (s : State) (hrd : rd ≠ 15#4)
    (hw : a.writeBack = true → rn ≠ 15#4 ∧ rn ≠ rd) :
    ∃ t, finishLoad a rn rd v s = .next t ∧ t.reg rd = v ∧ (a.writeBack = true → t.reg rn = a.target) ∧
      s.onlyWrites t (withBase a rn [rd]) [] := by
  have hB := RegOnly.writeBase s a rn [rd]
  refine ⟨_, rfl, ?_, fun h => ?_, RegOnly.advance (hB.set v ?_)⟩
  · exact State.reg_of_regs (s := s.writeBase a rn) (by simp) rfl hrd
  · obtain ⟨h1, h2⟩ := hw h
    refine (State.reg_congr_mode (t := ((s.writeBase a rn).setReg rd v).advance)
      (s := (s.writeBase a rn).setReg rd v) rfl rfl h1).trans ?_
    rw [State.reg_setReg_ne _ _ h2, State.writeBase, if_pos h, State.reg_setReg_same _ _ _ h1]
  · unfold withBase; split <;> simp

theorem State.immAddress_writeBack {n : Nat} (s : State) (idx : Index) (u : Bool) (rn : Reg) (off : BitVec n) :
    (s.immAddress idx u rn off).writeBack = writesBack idx := by cases idx <;> rfl

theorem State.shiftAddress_writeBack (s : State) (idx : Index) (u : Bool) (rn : Reg) (n : BitVec 5) (sh : Shift)
    (rm : Reg) : (s.shiftAddress idx u rn n sh rm).writeBack = writesBack idx := by cases idx <;> rfl

theorem State.regAddress_writeBack (s : State) (idx : Index) (u : Bool) (rn rm : Reg) :
    (s.regAddress idx u rn rm).writeBack = writesBack idx := by cases idx <;> rfl

/-! ### Memory frames and stores -/

/-- `u` differs from `s` at most in the `n` bytes from `a` on. -/
structure MemOnly (s u : State) (a : Word) (n : Nat) : Prop where
  pc : u.pc = s.pc
  cpsr : u.cpsr = s.cpsr
  sys : s.systemKept u
  cp : s.coprocessorsKept u
  regs : u.regs = s.regs
  mem : s.memoryKeptOutside u a n

theorem MemOnly.trans {s u t : State} {a b c : Word} {n m l : Nat} (h1 : MemOnly s u a n) (h2 : MemOnly u t b m)
    (hs : ∀ x, (∀ k < l, x ≠ c + BitVec.ofNat 32 k) →
      (∀ k < n, x ≠ a + BitVec.ofNat 32 k) ∧ (∀ k < m, x ≠ b + BitVec.ofNat 32 k)) : MemOnly s t c l := by
  obtain ⟨a1, a2, ⟨a3, a4, a5, a6, a7, a13⟩, ⟨a8, a9, a10⟩, a11, a12⟩ := h1
  obtain ⟨b1, b2, ⟨b3, b4, b5, b6, b7, b13⟩, ⟨b8, b9, b10⟩, b11, b12⟩ := h2
  exact ⟨b1.trans a1, b2.trans a2,
    ⟨b3.trans a3, b4.trans a4, b5.trans a5, b6.trans a6, b7.trans a7, b13.trans a13⟩,
    ⟨b8.trans a8, b9.trans a9, b10.trans a10⟩, b11.trans a11,
    fun x hx => (b12 x (hs x hx).2).trans (a12 x (hs x hx).1)⟩

theorem MemOnly.putBytes (s : State) (a : Word) (bs : List Byte) (n : Nat)
    (h : ∀ b, (∀ k < n, b ≠ a + BitVec.ofNat 32 k) → (s.putBytes a bs).byteAt b = s.byteAt b) :
    MemOnly s (s.putBytes a bs) a n :=
  ⟨by simp, by simp, ⟨by simp, by simp, by simp, by simp, by simp, by simp⟩, ⟨by simp, by simp, by simp⟩, by simp, h⟩

theorem MemOnly.putWord (s : State) (a v : Word) : MemOnly s (s.putWord a v) a 4 :=
  MemOnly.putBytes s a _ 4 (State.byteAt_putWord_of_ne s a · v)

theorem MemOnly.putHalf (s : State) (a : Word) (v : Half) : MemOnly s (s.putHalf a v) a 2 :=
  MemOnly.putBytes s a _ 2 (State.byteAt_putHalf_of_ne s a · v)

theorem MemOnly.putByte (s : State) (a : Word) (v : Byte) : MemOnly s (s.putByte a v) a 1 :=
  ⟨by simp, by simp, ⟨by simp, by simp, by simp, by simp, by simp, by simp⟩, ⟨by simp, by simp, by simp⟩, by simp,
    fun b hb => by rw [State.byteAt_putByte, if_neg (by simpa using hb 0 (by omega))]⟩

theorem MemOnly.takeFree (s : State) : MemOnly s s.takeFree 0 0 :=
  ⟨rfl, rfl, ⟨rfl, rfl, rfl, rfl, rfl, rfl⟩, ⟨rfl, rfl, rfl⟩, rfl, fun _ _ => rfl⟩

theorem State.wordAt_congr {s t : State} (h : t.mem = s.mem) (hc : t.config = s.config) (a : Word) :
    t.wordAt a = s.wordAt a := by
  simp [State.wordAt, State.byteAt, h, hc]

theorem State.halfAt_congr {s t : State} (h : t.mem = s.mem) (hc : t.config = s.config) (a : Word) :
    t.halfAt a = s.halfAt a := by
  simp [State.halfAt, State.byteAt, h, hc]

/-- A word reads as before where its four bytes do. -/
theorem State.wordAt_of_bytes {s t : State} (hc : t.config = s.config) (a : Word)
    (h : ∀ k < 4, t.byteAt (a + BitVec.ofNat 32 k) = s.byteAt (a + BitVec.ofNat 32 k)) : t.wordAt a = s.wordAt a := by
  have h0 := h 0 (by omega)
  have h1 := h 1 (by omega)
  have h2 := h 2 (by omega)
  have h3 := h 3 (by omega)
  simp only [BitVec.add_zero] at h0
  unfold State.wordAt
  rw [show t.byteAt (a + 1) = s.byteAt (a + 1) from h1, show t.byteAt (a + 2) = s.byteAt (a + 2) from h2,
    show t.byteAt (a + 3) = s.byteAt (a + 3) from h3, h0, hc]

/-- The end of a store: the base with write-back. -/
theorem finishStore_spec {s u : State} {p : Word} {n : Nat} (h : MemOnly s u p n) (a : Address) (rn : Reg)
    (hw : a.writeBack = true → rn ≠ 15#4) :
    ∃ t, finishStore a rn u = .next t ∧ t.mem = u.mem ∧ t.config = u.config ∧
      (a.writeBack = true → t.reg rn = a.target) ∧ s.onlyStores t (withBase a rn []) p n := by
  have hB := RegOnly.writeBase u a rn []
  refine ⟨_, rfl, hB.mem, hB.sys.2.2.1, fun hwb => ?_, ?_, ?_, ?_, ?_, ?_, ?_⟩
  · refine (State.reg_congr_mode (t := (u.writeBase a rn).advance) (s := u.writeBase a rn) rfl rfl (hw hwb)).trans ?_
    rw [State.writeBase, if_pos hwb, State.reg_setReg_same _ _ _ (hw hwb)]
  · exact State.nextPc_congr (hB.pc.trans h.pc) (by rw [hB.cpsr, h.cpsr])
  · exact State.onlyRegs_trans (State.onlyRegs_of_eq _ h.regs) hB.regs (State.mode_of_cpsr h.cpsr)
  · exact hB.cpsr.trans h.cpsr
  · obtain ⟨a1, a2, a3, a4, a5, a6⟩ := hB.sys
    obtain ⟨b1, b2, b3, b4, b5, b6⟩ := h.sys
    exact ⟨a1.trans b1, a2.trans b2, a3.trans b3, a4.trans b4, a5.trans b5, a6.trans b6⟩
  · obtain ⟨a1, a2, a3⟩ := hB.cp
    obtain ⟨b1, b2, b3⟩ := h.cp
    exact ⟨a1.trans b1, a2.trans b2, a3.trans b3⟩
  · intro b hb
    rw [← h.mem b hb]
    simp only [State.byteAt, State.advance_mem, hB.mem]

/-- Words stored at rising addresses, none of them aborted. -/
theorem State.storeWords_of_stores {s : State} {priv : Bool} {a : Word} (ws : List Word) (hl : ws.length ≤ 2 ^ 30)
    (h : ∀ k < ws.length, s.storesWord priv (wordPlace a k)) :
    ∃ t, s.storeWords priv a ws = .done t ∧ MemOnly s t (wordAlign a) (4 * ws.length) ∧
      ∀ k, k < ws.length → t.wordAt (wordAlign (wordPlace a k)) = ws[k]? := by
  induction ws generalizing s a with
  | nil =>
    exact ⟨s, rfl, ⟨rfl, rfl, ⟨rfl, rfl, rfl, rfl, rfl, rfl⟩, ⟨rfl, rfl, rfl⟩, rfl, fun _ _ => rfl⟩,
      fun k hk => by simp at hk⟩
  | cons v vs ih =>
    simp only [List.length_cons] at hl h
    have h0 : s.storesWord priv a := by
      have := h 0 (by omega); rwa [wordPlace_zero] at this
    have hM := MemOnly.putWord s (wordAlign a) v
    obtain ⟨t, h1, h2, h3⟩ := ih (s := s.putWord (wordAlign a) v) (a := a + 4) (by omega) (fun k hk => by
      have := h (k + 1) (by omega)
      rw [wordPlace_succ] at this
      unfold State.storesWord State.stores State.aborts at *
      rw [hM.sys.2.2.1, hM.sys.2.2.2.2.2]; exact this)
    refine ⟨t, by rw [State.storeWords, State.storeWord, State.store_of_stores h0]; exact h1, MemOnly.trans hM h2 ?_,
      fun k hk => ?_⟩
    · intro x hx
      simp only [List.length_cons] at hx
      refine ⟨fun k hk => hx k (by omega), fun k hk => ?_⟩
      have := hx (k + 4) (by omega)
      rw [wordAlign_add_four]
      rw [BitVec.ofNat_add, BitVec.add_comm (BitVec.ofNat 32 k), ← BitVec.add_assoc] at this
      exact this
    · cases k with
      | zero =>
        rw [wordPlace_zero, State.wordAt_of_bytes (s := s.putWord (wordAlign a) v) h2.sys.2.2.1,
          State.wordAt_putWord]; rfl
        intro k hk
        apply h2.mem
        intro j hj
        rw [wordAlign_add_four]
        have : (BitVec.ofNat 32 k).toNat = k := by rw [BitVec.toNat_ofNat]; omega
        have : (BitVec.ofNat 32 j).toNat = j := by rw [BitVec.toNat_ofNat]; omega
        bv_omega
      | succ k =>
        rw [wordPlace_succ]; simp only [List.length_cons] at hk
        rw [h3 k (by omega)]; simp

/-- Words that become free values: nothing else changes. -/
theorem State.scramble_spec (s : State) (n : Nat) (a : Word) : MemOnly s (s.scramble n a) (wordAlign a) (4 * n) := by
  induction n generalizing s a with
  | zero => exact ⟨rfl, rfl, State.systemKept_refl s, ⟨rfl, rfl, rfl⟩, rfl, fun _ _ => rfl⟩
  | succ n ih =>
    have h1 := (MemOnly.takeFree s).trans (MemOnly.putWord s.takeFree (wordAlign a) s.freeWord)
      (c := wordAlign a) (l := 4) (fun x hx => ⟨fun k hk => by omega, hx⟩)
    refine h1.trans (ih _ (a + 4)) fun x hx => ⟨fun k hk => hx k (by omega), fun k hk => ?_⟩
    have := hx (k + 4) (by omega)
    rw [wordAlign_add_four]
    rwa [BitVec.ofNat_add, BitVec.add_comm (BitVec.ofNat 32 k), ← BitVec.add_assoc] at this

/-- Words stored to rising addresses, the one numbered `j` aborted: those before it are stored, it is not, and of the
bytes of the transfer only those after it may differ otherwise. -/
theorem State.storeWords_of_aborts {s : State} {priv : Bool} {a : Word} (ws : List Word) (hl : ws.length < 2 ^ 29)
    {j : Nat} (hj : j < ws.length) (h : ∀ k < j, s.storesWord priv (wordPlace a k))
    (ha : s.aborts .write .word (wordAlign (wordPlace a j)) priv = true) :
    ∃ t, s.storeWords priv a ws = .abort t ∧ MemOnly s t (wordAlign a) (4 * ws.length) ∧
      (∀ k < j, t.wordAt (wordAlign (wordPlace a k)) = ws[k]?) ∧
      ∀ k < 4, t.byteAt (wordAlign (wordPlace a j) + BitVec.ofNat 32 k) =
        s.byteAt (wordAlign (wordPlace a j) + BitVec.ofNat 32 k) := by
  induction ws generalizing s a j with
  | nil => simp at hj
  | cons v vs ih =>
    simp only [List.length_cons] at hl hj
    have wide : ∀ x, (∀ k < 4 * (v :: vs).length, x ≠ wordAlign a + BitVec.ofNat 32 k) →
        ∀ k < 4 * vs.length, x ≠ wordAlign (a + 4) + BitVec.ofNat 32 k := by
      intro x hx k hk
      have := hx (k + 4) (by simp only [List.length_cons]; omega)
      rw [wordAlign_add_four]
      rwa [BitVec.ofNat_add, BitVec.add_comm (BitVec.ofNat 32 k), ← BitVec.add_assoc] at this
    have below : ∀ k < 4, ∀ i < 4 * vs.length,
        wordAlign a + BitVec.ofNat 32 k ≠ wordAlign (a + 4) + BitVec.ofNat 32 i := by
      intro k hk i hi
      rw [wordAlign_add_four]
      have : (BitVec.ofNat 32 k).toNat = k := by rw [BitVec.toNat_ofNat]; omega
      have : (BitVec.ofNat 32 i).toNat = i := by rw [BitVec.toNat_ofNat]; omega
      bv_omega
    cases j with
    | zero =>
      rw [wordPlace_zero] at ha
      have hS := State.scramble_spec s vs.length (a + 4)
      refine ⟨s.scramble vs.length (a + 4), ?_, ?_, fun k hk => by omega, fun k hk => ?_⟩
      · rw [State.storeWords, State.storeWord, State.store_of_aborts ha]
      · exact ⟨hS.pc, hS.cpsr, hS.sys, hS.cp, hS.regs, fun x hx => hS.mem x (wide x hx)⟩
      · rw [wordPlace_zero]
        exact hS.mem _ (below k hk)
    | succ j =>
      have h0 : s.storesWord priv a := by
        have := h 0 (by omega); rwa [wordPlace_zero] at this
      have hM := MemOnly.putWord s (wordAlign a) v
      rw [wordPlace_succ] at ha
      obtain ⟨t, h1, h2, h3, h4⟩ := ih (s := s.putWord (wordAlign a) v) (a := a + 4) (j := j) (by omega) (by omega)
        (fun k hk => by
          have := h (k + 1) (by omega)
          rw [wordPlace_succ] at this
          unfold State.storesWord State.stores State.aborts at *
          rw [hM.sys.2.2.1, hM.sys.2.2.2.2.2]; exact this)
        (by unfold State.aborts at *; rw [hM.sys.2.2.1]; exact ha)
      refine ⟨t, by rw [State.storeWords, State.storeWord, State.store_of_stores h0]; exact h1,
        hM.trans h2 fun x hx => ⟨fun k hk => hx k (by simp only [List.length_cons]; omega), wide x hx⟩,
        fun k hk => ?_, fun k hk => ?_⟩
      · cases k with
        | zero =>
          rw [wordPlace_zero, State.wordAt_of_bytes (s := s.putWord (wordAlign a) v) h2.sys.2.2.1, State.wordAt_putWord]
          · rfl
          · exact fun k hk => h2.mem _ (below k hk)
        | succ k => rw [wordPlace_succ, h3 k (by omega)]; simp
      · rw [wordPlace_succ, h4 k hk]
        refine hM.mem _ fun i hi => ?_
        rw [wordAlign_add_words, wordAlign_add_four]
        have : (BitVec.ofNat 32 k).toNat = k := by rw [BitVec.toNat_ofNat]; omega
        have : (BitVec.ofNat 32 i).toNat = i := by rw [BitVec.toNat_ofNat]; omega
        have : (BitVec.ofNat 32 (4 * j)).toNat = 4 * j := by rw [BitVec.toNat_ofNat]; omega
        bv_omega

/-- The base written after the words of a store multiple. -/
theorem storeMultiple_base {s u : State} {p : Word} {n : Nat} (h : MemOnly s u p n) (wb : Bool) (rn : Reg) (v : Word)
    (h15 : rn ≠ 15#4) :
    s.onlyStores (if wb then u.setReg rn v else u).advance (if wb then [rn] else []) p n ∧
    (if wb then u.setReg rn v else u).advance.mem = u.mem ∧
    (if wb then u.setReg rn v else u).advance.config = u.config ∧
    (wb = true → (if wb then u.setReg rn v else u).advance.reg rn = v) := by
  obtain ⟨t, h1, h2, h3, h4, h5⟩ := finishStore_spec h ⟨0, wb, v⟩ rn (fun _ => h15)
  simp only [finishStore, State.writeBase, withBase] at h1 h5 h4
  cases h1
  exact ⟨h5, h2, h3, h4⟩

end Sys2Proof.Machine
end

