-- ==== Sys2Proof/Tests/Slice0.lean ====
section
/-!
SUPPORT. Tests of the model: what well-formedness refuses, the decoding of a word for every row of the opcode table,
single steps from spec/95_test_vectors.md, reset, and for every obligation with hypotheses a state and operands that meet
them.
-/
set_option Elab.async false

namespace Sys2Proof.Tests
open Sys2Proof Sys2Proof.Machine

/-! ### Helpers -/

/-- Every word decodes to its instruction, and is that instruction's encoding. -/
def decodes (rows : List (Encoded × Instr)) : Bool :=
  rows.all fun r => decode r.1 == .instr r.2 && encode r.2 == r.1

/-- Words placed in little-endian memory. -/
def placed (m : List Host.Cell) : List (Nat × Word) → List Host.Cell
  | [] => m
  | (a, w) :: rest => placed (placeBytes m a (bytesOfWord false w)) rest

/-- The data words that the vectors of spec/95_test_vectors.md sections 2.5, 2.6 and 2.10 start with. -/
def data : List Host.Cell :=
  placed [] [(0x100, 0x11223344), (0x104, 0x55667788), (0x108, 0x99AABBCC), (0x10C, 0xDDEEFF00)]

/-- Registers that are zero but for those given. -/
def regsOf (rs : List (PhysReg × Word)) : Regs := rs.foldl (fun r p => r.set p.1 p.2) Regs.zero

/-- A state with an ARM instruction at an address, about to execute it. -/
def armAt (pc cpsr w : Word) (rs : List (PhysReg × Word)) : State :=
  { State.reset with
    pc := pc, cpsr := cpsr, regs := regsOf rs, mem := placeBytes data pc.toNat (bytesOfWord false w) }

/-- A state with a Thumb instruction at an address, about to execute it. -/
def thumbAt (pc cpsr : Word) (h : Half) (rs : List (PhysReg × Word)) : State :=
  { State.reset with
    pc := pc, cpsr := cpsr, regs := regsOf rs, mem := placeBytes data pc.toNat (bytesOfHalf false h) }

/-- The state with words placed in its memory. -/
def withWords (ws : List (Nat × Word)) (s : State) : State := { s with mem := placed s.mem ws }

/-- The state with saved status registers set. -/
def withSpsrs (ps : List (Mode × Word)) (s : State) : State :=
  { s with spsr := ps.foldl (fun x p => x.set p.1 p.2) s.spsr }

/-- The step goes on, with this CPSR, PC and these registers, memory words and saved status registers. -/
def ends (o : Result) (cpsr pc : Word) (rs : List (PhysReg × Word)) (ws : List (Word × Word))
    (ps : List (Mode × Word)) : Bool :=
  match o with
  | .next t =>
    t.cpsr == cpsr && t.pc == pc && rs.all (fun p => t.regs.get p.1 == p.2) &&
      ws.all (fun p => t.wordAt p.1 == some p.2) && ps.all (fun p => t.spsr.get p.1 == some p.2)
  | _ => false

/-! ### Well-formedness: one ill-formed term for each check -/

theorem test_illformed_thumbAddHigh : (Instr.thumbAddHigh 1#4 2#4).wellFormed = false := by decide
theorem test_illformed_thumbCmpHigh : (Instr.thumbCmpHigh 7#4 0#4).wellFormed = false := by decide
theorem test_illformed_thumbMovHigh : (Instr.thumbMovHigh 3#4 7#4).wellFormed = false := by decide
theorem test_illformed_thumbBCond : (Instr.thumbBCond .al 0#8).wellFormed = false := by decide
theorem test_illformed_ldc :
    (Instr.ldc .al false false true false 1#4 2#4 3#4 4#8).wellFormed = false := by decide
theorem test_illformed_stc :
    (Instr.stc .al false false false false 1#4 2#4 3#4 4#8).wellFormed = false := by decide
theorem test_illformed_ldc2 : (Instr.ldc2 false false true false 1#4 2#4 3#4 4#8).wellFormed = false := by decide
theorem test_illformed_stc2 : (Instr.stc2 false false false false 1#4 2#4 3#4 4#8).wellFormed = false := by decide

/-! ### Decoding: a word for every row of the opcode table, its fixed bits and fields written out from the row -/

theorem test_decode_arm_and_eor_sub :
  decodes [(.arm 0xE20129A5#32, .andImm .al false 1#4 2#4 0x9#4 0xA5#8),
    (.arm 0x101129A4#32, .andShift .ne true 1#4 2#4 0x13#5 .lsr 4#4),
    (.arm 0xA0012354#32, .andRegShift .ge false 1#4 2#4 3#4 .asr 4#4),
    (.arm 0x323129A5#32, .eorImm .cc true 1#4 2#4 0x9#4 0xA5#8),
    (.arm 0xE0212984#32, .eorShift .al false 1#4 2#4 0x13#5 .lsl 4#4),
    (.arm 0x10312334#32, .eorRegShift .ne true 1#4 2#4 3#4 .lsr 4#4),
    (.arm 0xA24129A5#32, .subImm .ge false 1#4 2#4 0x9#4 0xA5#8),
    (.arm 0x305129E4#32, .subShift .cc true 1#4 2#4 0x13#5 .ror 4#4),
    (.arm 0xE0412314#32, .subRegShift .al false 1#4 2#4 3#4 .lsl 4#4)] = true := by decide +kernel

theorem test_decode_arm_rsb_to_rsc :
  decodes [(.arm 0x127129A5#32, .rsbImm .ne true 1#4 2#4 0x9#4 0xA5#8),
    (.arm 0xA06129C4#32, .rsbShift .ge false 1#4 2#4 0x13#5 .asr 4#4),
    (.arm 0x30712374#32, .rsbRegShift .cc true 1#4 2#4 3#4 .ror 4#4),
    (.arm 0xE28129A5#32, .addImm .al false 1#4 2#4 0x9#4 0xA5#8),
    (.arm 0x109129A4#32, .addShift .ne true 1#4 2#4 0x13#5 .lsr 4#4),
    (.arm 0xA0812354#32, .addRegShift .ge false 1#4 2#4 3#4 .asr 4#4),
    (.arm 0x32B129A5#32, .adcImm .cc true 1#4 2#4 0x9#4 0xA5#8),
    (.arm 0xE0A12984#32, .adcShift .al false 1#4 2#4 0x13#5 .lsl 4#4),
    (.arm 0x10B12334#32, .adcRegShift .ne true 1#4 2#4 3#4 .lsr 4#4),
    (.arm 0xA2C129A5#32, .sbcImm .ge false 1#4 2#4 0x9#4 0xA5#8),
    (.arm 0x30D129E4#32, .sbcShift .cc true 1#4 2#4 0x13#5 .ror 4#4),
    (.arm 0xE0C12314#32, .sbcRegShift .al false 1#4 2#4 3#4 .lsl 4#4),
    (.arm 0x12F129A5#32, .rscImm .ne true 1#4 2#4 0x9#4 0xA5#8),
    (.arm 0xA0E129C4#32, .rscShift .ge false 1#4 2#4 0x13#5 .asr 4#4),
    (.arm 0x30F12374#32, .rscRegShift .cc true 1#4 2#4 3#4 .ror 4#4)] = true := by decide +kernel

theorem test_decode_arm_tests :
  decodes [(.arm 0xE31109A5#32, .tstImm .al 1#4 0x9#4 0xA5#8),
    (.arm 0x111109A4#32, .tstShift .ne 1#4 0x13#5 .lsr 4#4), (.arm 0xA1110354#32, .tstRegShift .ge 1#4 3#4 .asr 4#4),
    (.arm 0x333109A5#32, .teqImm .cc 1#4 0x9#4 0xA5#8), (.arm 0xE1310984#32, .teqShift .al 1#4 0x13#5 .lsl 4#4),
    (.arm 0x11310334#32, .teqRegShift .ne 1#4 3#4 .lsr 4#4), (.arm 0xA35109A5#32, .cmpImm .ge 1#4 0x9#4 0xA5#8),
    (.arm 0x315109E4#32, .cmpShift .cc 1#4 0x13#5 .ror 4#4), (.arm 0xE1510314#32, .cmpRegShift .al 1#4 3#4 .lsl 4#4),
    (.arm 0x137109A5#32, .cmnImm .ne 1#4 0x9#4 0xA5#8), (.arm 0xA17109C4#32, .cmnShift .ge 1#4 0x13#5 .asr 4#4),
    (.arm 0x31710374#32, .cmnRegShift .cc 1#4 3#4 .ror 4#4)] = true := by decide +kernel

theorem test_decode_arm_orr_to_mvn :
  decodes [(.arm 0xE38129A5#32, .orrImm .al false 1#4 2#4 0x9#4 0xA5#8),
    (.arm 0x119129A4#32, .orrShift .ne true 1#4 2#4 0x13#5 .lsr 4#4),
    (.arm 0xA1812354#32, .orrRegShift .ge false 1#4 2#4 3#4 .asr 4#4),
    (.arm 0x33B029A5#32, .movImm .cc true 2#4 0x9#4 0xA5#8),
    (.arm 0xE1A02984#32, .movShift .al false 2#4 0x13#5 .lsl 4#4),
    (.arm 0x11B02334#32, .movRegShift .ne true 2#4 3#4 .lsr 4#4),
    (.arm 0xA3C129A5#32, .bicImm .ge false 1#4 2#4 0x9#4 0xA5#8),
    (.arm 0x31D129E4#32, .bicShift .cc true 1#4 2#4 0x13#5 .ror 4#4),
    (.arm 0xE1C12314#32, .bicRegShift .al false 1#4 2#4 3#4 .lsl 4#4),
    (.arm 0x13F029A5#32, .mvnImm .ne true 2#4 0x9#4 0xA5#8),
    (.arm 0xA1E029C4#32, .mvnShift .ge false 2#4 0x13#5 .asr 4#4),
    (.arm 0x31F02374#32, .mvnRegShift .cc true 2#4 3#4 .ror 4#4)] = true := by decide +kernel

theorem test_decode_arm_multiply_and_swap :
  decodes [(.arm 0xE0020394#32, .mul .al false 2#4 3#4 4#4), (.arm 0x10321394#32, .mla .ne true 2#4 1#4 3#4 4#4),
    (.arm 0xA0856394#32, .umull .ge false 5#4 6#4 3#4 4#4), (.arm 0x30B56394#32, .umlal .cc true 5#4 6#4 3#4 4#4),
    (.arm 0xE0C56394#32, .smull .al false 5#4 6#4 3#4 4#4), (.arm 0x10F56394#32, .smlal .ne true 5#4 6#4 3#4 4#4),
    (.arm 0xA1012094#32, .swp .ge 1#4 2#4 4#4), (.arm 0x31412094#32, .swpb .cc 1#4 2#4 4#4)] = true := by decide +kernel

theorem test_decode_arm_halfword_multiply :
  decodes [(.arm 0xE10213C4#32, .smlaXY .al 2#4 1#4 3#4 true false 4#4),
    (.arm 0x112213C4#32, .smlaWY .ne 2#4 1#4 3#4 true 4#4), (.arm 0xA12203E4#32, .smulWY .ge 2#4 3#4 true 4#4),
    (.arm 0x314563C4#32, .smlalXY .cc 5#4 6#4 3#4 true false 4#4),
    (.arm 0xE16203C4#32, .smulXY .al 2#4 3#4 true false 4#4)] = true := by decide +kernel

theorem test_decode_arm_status_and_branch_exchange :
  decodes [(.arm 0x114F2000#32, .mrs .ne true 2#4), (.arm 0xA169F004#32, .msrReg .ge true 0x9#4 4#4),
    (.arm 0x3369F9A5#32, .msrImm .cc true 0x9#4 0x9#4 0xA5#8), (.arm 0xE12FFF14#32, .bx .al 4#4),
    (.arm 0x112FFF24#32, .bxj .ne 4#4), (.arm 0xA12FFF34#32, .blxReg .ge 4#4)] = true := by decide +kernel

theorem test_decode_arm_clz_saturating_bkpt :
  decodes [(.arm 0x316F2F14#32, .clz .cc 2#4 4#4), (.arm 0xE1012054#32, .qadd .al 1#4 2#4 4#4),
    (.arm 0x11212054#32, .qsub .ne 1#4 2#4 4#4), (.arm 0xA1412054#32, .qdadd .ge 1#4 2#4 4#4),
    (.arm 0x31612054#32, .qdsub .cc 1#4 2#4 4#4), (.arm 0xE12ABC7D#32, .bkpt 0xABCD#16)] = true := by decide +kernel

theorem test_decode_arm_word_and_byte :
  decodes [(.arm 0x15312A53#32, .ldrImm .ne .pre false 1#4 2#4 0xA53#12),
    (.arm 0xA69129C4#32, .ldrReg .ge .post true 1#4 2#4 0x13#5 .asr 4#4),
    (.arm 0x35D12A53#32, .ldrbImm .cc .offset true 1#4 2#4 0xA53#12),
    (.arm 0xE7712984#32, .ldrbReg .al .pre false 1#4 2#4 0x13#5 .lsl 4#4),
    (.arm 0x14012A53#32, .strImm .ne .post false 1#4 2#4 0xA53#12),
    (.arm 0xA78129C4#32, .strReg .ge .offset true 1#4 2#4 0x13#5 .asr 4#4),
    (.arm 0x35E12A53#32, .strbImm .cc .pre true 1#4 2#4 0xA53#12),
    (.arm 0xE6412984#32, .strbReg .al .post false 1#4 2#4 0x13#5 .lsl 4#4)] = true := by decide +kernel

theorem test_decode_arm_user_access_and_pld :
  decodes [(.arm 0x14312A53#32, .ldrtImm .ne false 1#4 2#4 0xA53#12),
    (.arm 0xA6B129C4#32, .ldrtReg .ge true 1#4 2#4 0x13#5 .asr 4#4),
    (.arm 0x34F12A53#32, .ldrbtImm .cc true 1#4 2#4 0xA53#12),
    (.arm 0xE6712984#32, .ldrbtReg .al false 1#4 2#4 0x13#5 .lsl 4#4),
    (.arm 0x14212A53#32, .strtImm .ne false 1#4 2#4 0xA53#12),
    (.arm 0xA6A129C4#32, .strtReg .ge true 1#4 2#4 0x13#5 .asr 4#4),
    (.arm 0x34E12A53#32, .strbtImm .cc true 1#4 2#4 0xA53#12),
    (.arm 0xE6612984#32, .strbtReg .al false 1#4 2#4 0x13#5 .lsl 4#4),
    (.arm 0xF551FA53#32, .pldImm false 1#4 0xA53#12), (.arm 0xF7D1F9C4#32, .pldReg true 1#4 0x13#5 .asr 4#4)] = true := by decide +kernel

theorem test_decode_arm_halfword_and_doubleword :
  decodes [(.arm 0x31E12AB5#32, .strhImm .cc .pre true 1#4 2#4 0xA5#8),
    (.arm 0xE00120B4#32, .strhReg .al .post false 1#4 2#4 4#4),
    (.arm 0x11512AB5#32, .ldrhImm .ne .offset false 1#4 2#4 0xA5#8),
    (.arm 0xA1B120B4#32, .ldrhReg .ge .pre true 1#4 2#4 4#4),
    (.arm 0x30D12AD5#32, .ldrsbImm .cc .post true 1#4 2#4 0xA5#8),
    (.arm 0xE11120D4#32, .ldrsbReg .al .offset false 1#4 2#4 4#4),
    (.arm 0x11712AF5#32, .ldrshImm .ne .pre false 1#4 2#4 0xA5#8),
    (.arm 0xA09120F4#32, .ldrshReg .ge .post true 1#4 2#4 4#4),
    (.arm 0x31C12AD5#32, .ldrdImm .cc .offset true 1#4 2#4 0xA5#8),
    (.arm 0xE12120D4#32, .ldrdReg .al .pre false 1#4 2#4 4#4),
    (.arm 0x10412AF5#32, .strdImm .ne .post false 1#4 2#4 0xA5#8),
    (.arm 0xA18120F4#32, .strdReg .ge .offset true 1#4 2#4 4#4)] = true := by decide +kernel

theorem test_decode_arm_multiple :
  decodes [(.arm 0x39918421#32, .ldm .cc true true false 1#4 0x8421#16),
    (.arm 0xE9514211#32, .ldmUser .al true false 1#4 0x4211#15),
    (.arm 0x1971C211#32, .ldmRestore .ne true false true 1#4 0x4211#15),
    (.arm 0xA9A18421#32, .stm .ge true true true 1#4 0x8421#16),
    (.arm 0x39C18421#32, .stmUser .cc true true 1#4 0x8421#16)] = true := by decide +kernel

theorem test_decode_arm_branch :
  decodes [(.arm 0xEA800001#32, .b .al 0x800001#24), (.arm 0x1B800001#32, .bl .ne 0x800001#24),
    (.arm 0xFB800001#32, .blxImm true 0x800001#24)] = true := by decide +kernel

theorem test_decode_arm_coprocessor :
  decodes [(.arm 0x3ED79DCB#32, .cdp .cc 0xD#4 0x7#4 0x9#4 0xD#4 0x6#3 0xB#4),
    (.arm 0xEEA72DDB#32, .mcr .al 0x5#3 0x7#4 2#4 0xD#4 0x6#3 0xB#4),
    (.arm 0x1EB72DDB#32, .mrc .ne 0x5#3 0x7#4 2#4 0xD#4 0x6#3 0xB#4),
    (.arm 0xAC412DAB#32, .mcrr .ge 1#4 2#4 0xD#4 0xA#4 0xB#4),
    (.arm 0x3C512DAB#32, .mrrc .cc 1#4 2#4 0xD#4 0xA#4 0xB#4),
    (.arm 0xED519DC3#32, .ldc .al true false true false 1#4 0x9#4 0xD#4 0xC3#8),
    (.arm 0x1D619DC3#32, .stc .ne true false true true 1#4 0x9#4 0xD#4 0xC3#8),
    (.arm 0xFED79DCB#32, .cdp2 0xD#4 0x7#4 0x9#4 0xD#4 0x6#3 0xB#4),
    (.arm 0xFEA72DDB#32, .mcr2 0x5#3 0x7#4 2#4 0xD#4 0x6#3 0xB#4),
    (.arm 0xFEB72DDB#32, .mrc2 0x5#3 0x7#4 2#4 0xD#4 0x6#3 0xB#4),
    (.arm 0xFD519DC3#32, .ldc2 true false true false 1#4 0x9#4 0xD#4 0xC3#8),
    (.arm 0xFDC19DC3#32, .stc2 true true true false 1#4 0x9#4 0xD#4 0xC3#8)] = true := by decide +kernel

theorem test_decode_arm_swi_and_undefined :
  decodes [(.arm 0x3F800001#32, .swi .cc 0x800001#24), (.arm 0xE7579BD3#32, .undefSpace .al 0xABCDE#20 0x3#4),
    (.arm 0x134ABCDE#32, .undefImm .ne true 0xABCDE#20)] = true := by decide +kernel

theorem test_decode_thumb_shift_add_subtract :
  decodes [(.thumb 0x056E#16, .thumbLslImm 0x15#5 5#3 6#3), (.thumb 0x0D6E#16, .thumbLsrImm 0x15#5 5#3 6#3),
    (.thumb 0x156E#16, .thumbAsrImm 0x15#5 5#3 6#3), (.thumb 0x195E#16, .thumbAddReg 5#3 3#3 6#3),
    (.thumb 0x1B5E#16, .thumbSubReg 5#3 3#3 6#3), (.thumb 0x1D5E#16, .thumbAddImm3 0x5#3 3#3 6#3),
    (.thumb 0x1F5E#16, .thumbSubImm3 0x5#3 3#3 6#3), (.thumb 0x26A5#16, .thumbMovImm 6#3 0xA5#8),
    (.thumb 0x2BA5#16, .thumbCmpImm 3#3 0xA5#8), (.thumb 0x36A5#16, .thumbAddImm8 6#3 0xA5#8),
    (.thumb 0x3EA5#16, .thumbSubImm8 6#3 0xA5#8)] = true := by decide +kernel

theorem test_decode_thumb_alu :
  decodes [(.thumb 0x402E#16, .thumbAnd 5#3 6#3), (.thumb 0x406E#16, .thumbEor 5#3 6#3),
    (.thumb 0x40AE#16, .thumbLslReg 5#3 6#3), (.thumb 0x40EE#16, .thumbLsrReg 5#3 6#3),
    (.thumb 0x412E#16, .thumbAsrReg 5#3 6#3), (.thumb 0x416E#16, .thumbAdc 5#3 6#3),
    (.thumb 0x41AE#16, .thumbSbc 5#3 6#3), (.thumb 0x41EE#16, .thumbRorReg 5#3 6#3),
    (.thumb 0x422E#16, .thumbTst 5#3 6#3), (.thumb 0x426E#16, .thumbNeg 5#3 6#3),
    (.thumb 0x42AE#16, .thumbCmp 5#3 6#3), (.thumb 0x42EE#16, .thumbCmn 5#3 6#3),
    (.thumb 0x432E#16, .thumbOrr 5#3 6#3), (.thumb 0x436E#16, .thumbMul 5#3 6#3),
    (.thumb 0x43AE#16, .thumbBic 5#3 6#3), (.thumb 0x43EE#16, .thumbMvn 5#3 6#3)] = true := by decide +kernel

theorem test_decode_thumb_high_registers :
  decodes [(.thumb 0x44AE#16, .thumbAddHigh 5#4 14#4), (.thumb 0x456B#16, .thumbCmpHigh 13#4 3#4),
    (.thumb 0x46AE#16, .thumbMovHigh 5#4 14#4), (.thumb 0x4728#16, .thumbBx 5#4),
    (.thumb 0x47E8#16, .thumbBlxReg 13#4)] = true := by decide +kernel

theorem test_decode_thumb_load_store_register :
  decodes [(.thumb 0x4EA5#16, .thumbLdrPc 6#3 0xA5#8), (.thumb 0x512E#16, .thumbStrReg 4#3 5#3 6#3),
    (.thumb 0x532E#16, .thumbStrhReg 4#3 5#3 6#3), (.thumb 0x552E#16, .thumbStrbReg 4#3 5#3 6#3),
    (.thumb 0x572E#16, .thumbLdrsbReg 4#3 5#3 6#3), (.thumb 0x592E#16, .thumbLdrReg 4#3 5#3 6#3),
    (.thumb 0x5B2E#16, .thumbLdrhReg 4#3 5#3 6#3), (.thumb 0x5D2E#16, .thumbLdrbReg 4#3 5#3 6#3),
    (.thumb 0x5F2E#16, .thumbLdrshReg 4#3 5#3 6#3)] = true := by decide +kernel

theorem test_decode_thumb_load_store_immediate :
  decodes [(.thumb 0x656E#16, .thumbStrImm 0x15#5 5#3 6#3), (.thumb 0x6D6E#16, .thumbLdrImm 0x15#5 5#3 6#3),
    (.thumb 0x756E#16, .thumbStrbImm 0x15#5 5#3 6#3), (.thumb 0x7D6E#16, .thumbLdrbImm 0x15#5 5#3 6#3),
    (.thumb 0x856E#16, .thumbStrhImm 0x15#5 5#3 6#3), (.thumb 0x8D6E#16, .thumbLdrhImm 0x15#5 5#3 6#3),
    (.thumb 0x96A5#16, .thumbStrSp 6#3 0xA5#8), (.thumb 0x9EA5#16, .thumbLdrSp 6#3 0xA5#8)] = true := by decide +kernel

theorem test_decode_thumb_address_and_stack :
  decodes [(.thumb 0xA6A5#16, .thumbAddPc 6#3 0xA5#8), (.thumb 0xAEA5#16, .thumbAddSp 6#3 0xA5#8),
    (.thumb 0xB053#16, .thumbIncSp 0x53#7), (.thumb 0xB0D3#16, .thumbDecSp 0x53#7),
    (.thumb 0xB5A5#16, .thumbPush true 0xA5#8), (.thumb 0xBDA5#16, .thumbPop true 0xA5#8),
    (.thumb 0xBEA5#16, .thumbBkpt 0xA5#8), (.thumb 0xC5A5#16, .thumbStmia 5#3 0xA5#8),
    (.thumb 0xCDA5#16, .thumbLdmia 5#3 0xA5#8)] = true := by decide +kernel

theorem test_decode_thumb_branch_and_swi :
  decodes [(.thumb 0xDBA5#16, .thumbBCond .lt 0xA5#8), (.thumb 0xDEA5#16, .thumbUndefCond 0xA5#8),
    (.thumb 0xDFA5#16, .thumbSwi 0xA5#8), (.thumb 0xE5A3#16, .thumbB 0x5A3#11),
    (.thumb 0xECB4#16, .thumbBlxSuffix 0x25A#10), (.thumb 0xECB5#16, .thumbUndefBlx 0x25A#10),
    (.thumb 0xF5A3#16, .thumbBlPrefix 0x5A3#11), (.thumb 0xFDA3#16, .thumbBlSuffix 0x5A3#11)] = true := by decide +kernel

/-- Words that are no instruction are rejected, each by its name (R126, R127, R129, R250, R262). -/
theorem test_decode_rejects :
  decode (.arm 0xE1200010#32) = .rejected .shouldBeBits ∧ decode (.arm 0x11200070#32) = .rejected .bkptCondition ∧
    decode (.arm 0xE8F00001#32) = .rejected .userBankWriteBack ∧
    decode (.thumb 0x4408#16) = .rejected .lowLowHighForm ∧ decode (.thumb 0xB100#16) = .rejected .unallocated ∧
    decode (.arm 0xF0000000#32) = .rejected .unallocated := by decide +kernel

/-- The table's numbering of the bits of an instruction. -/
theorem test_decodeTableWord :
  decodeTableWord 32 0xE3A00001 = some (.movImm .al false 0#4 0#4 1#8) ∧
    decodeTableWord 16 0x20FF = some (.thumbMovImm 0#3 0xFF#8) := by decide +kernel

/-! ### Single steps: vectors of spec/95_test_vectors.md section 2 -/

/-- Section 2.3: AND r0,r1,#0xFF. -/
theorem test_andImm : ends (step (armAt 0x1000 0x10 0xE20100FF [(.r1, 0x12345678)]))
    0x10 0x1004 [(.r0, 0x78)] [] [] = true := by decide +kernel
/-- Section 2.3: ANDS r0,r1,r2,LSR #4. -/
theorem test_andShift : ends (step (armAt 0x1000 0x10 0xE0110222 [(.r1, 0xFFFFFFFF), (.r2, 0x18)]))
    0x20000010 0x1004 [(.r0, 0x1)] [] [] = true := by decide +kernel
/-- Section 2.3: EORS r0,r1,r2. -/
theorem test_eorShift : ends (step (armAt 0x1000 0x20000010 0xE0310002 [(.r1, 0x80000000), (.r2, 0x1)]))
    0xA0000010 0x1004 [(.r0, 0x80000001)] [] [] = true := by decide +kernel
/-- Section 2.2: SUB pc,pc,#20. -/
theorem test_subImm : ends (step (armAt 0x1000 0x10 0xE24FF014 []))
    0x10 0xFF4 [] [] [] = true := by decide +kernel
/-- Section 2.2: SUBS pc,lr,#4. -/
theorem test_subImm_more :
    ends (step (withSpsrs [(.irq, 0x60000010)] (armAt 0x1000 0x12 0xE25EF004 [(.r14irq, 0x804C)])))
      0x60000010 0x8048 [] [] [] = true := by decide +kernel
/-- Section 2.2: SUBS r0,r1,r2 r1=80000000 r2=1. -/
theorem test_subShift : ends (step (armAt 0x1000 0x10 0xE0510002 [(.r1, 0x80000000), (.r2, 0x1)]))
    0x30000010 0x1004 [(.r0, 0x7FFFFFFF)] [] [] = true := by decide +kernel
/-- Section 2.2: RSBS r0,r1,#0. -/
theorem test_rsbImm : ends (step (armAt 0x1000 0x10 0xE2710000 [(.r1, 0x80000000)]))
    0x90000010 0x1004 [(.r0, 0x80000000)] [] [] = true := by decide +kernel
/-- Section 2.2: ADDS r0,r1,#1 r1=7FFFFFFF. -/
theorem test_addImm : ends (step (armAt 0x1000 0x10 0xE2910001 [(.r1, 0x7FFFFFFF)]))
    0x90000010 0x1004 [(.r0, 0x80000000)] [] [] = true := by decide +kernel
/-- Section 2.2: ADD r0,r1,r2. -/
theorem test_addShift : ends (step (armAt 0x1000 0x10 0xE0810002 [(.r1, 0xFFFFFFFF), (.r2, 0x1)]))
    0x10 0x1004 [(.r0, 0x0)] [] [] = true := by decide +kernel
/-- Section 2.2: ADDNE r0,r0,r1,LSL r2. -/
theorem test_addRegShift : ends (step (armAt 0x1000 0x10 0x10800211 [(.r0, 0x1), (.r1, 0x1), (.r2, 0x4)]))
    0x10 0x1004 [(.r0, 0x11)] [] [] = true := by decide +kernel
/-- Section 2.2: ADCS r3,r3,#0. -/
theorem test_adcImm : ends (step (armAt 0x1000 0x20000010 0xE2B33000 [(.r3, 0xFFFFFFFF)]))
    0x60000010 0x1004 [(.r3, 0x0)] [] [] = true := by decide +kernel
/-- Section 2.2: ADC r0,r1,r2. -/
theorem test_adcShift : ends (step (armAt 0x1000 0x20000010 0xE0A10002 [(.r1, 0x1), (.r2, 0x2)]))
    0x20000010 0x1004 [(.r0, 0x4)] [] [] = true := by decide +kernel
/-- Section 2.2: SBCS r0,r1,r2 r1=0 r2=0 C=0. -/
theorem test_sbcShift : ends (step (armAt 0x1000 0x10 0xE0D10002 [(.r1, 0x0), (.r2, 0x0)]))
    0x80000010 0x1004 [(.r0, 0xFFFFFFFF)] [] [] = true := by decide +kernel
/-- Section 2.2: RSCS r1,r2,#0. -/
theorem test_rscImm : ends (step (armAt 0x1000 0x20000010 0xE2F21000 [(.r2, 0x0)]))
    0x60000010 0x1004 [(.r1, 0x0)] [] [] = true := by decide +kernel
/-- Section 2.2: RSC r0,r1,r2. -/
theorem test_rscShift : ends (step (armAt 0x1000 0x10 0xE0E10002 [(.r1, 0x1), (.r2, 0x3)]))
    0x10 0x1004 [(.r0, 0x1)] [] [] = true := by decide +kernel
/-- Section 2.3: TST r0,#1. -/
theorem test_tstImm : ends (step (armAt 0x1000 0x20000010 0xE3100001 [(.r0, 0x2)]))
    0x60000010 0x1004 [] [] [] = true := by decide +kernel
/-- Section 2.3: TST r1,r2,LSL #1. -/
theorem test_tstShift : ends (step (armAt 0x1000 0x10 0xE1110082 [(.r1, 0x1), (.r2, 0x80000000)]))
    0x60000010 0x1004 [] [] [] = true := by decide +kernel
/-- Section 2.3: TEQ r0,#0x80000000. -/
theorem test_teqImm : ends (step (armAt 0x1000 0x10 0xE3300102 [(.r0, 0x0)]))
    0xA0000010 0x1004 [] [] [] = true := by decide +kernel
/-- Section 2.3: TEQ r0,r1. -/
theorem test_teqShift : ends (step (armAt 0x1000 0x10000010 0xE1300001 [(.r0, 0x5), (.r1, 0x5)]))
    0x50000010 0x1004 [] [] [] = true := by decide +kernel
/-- Section 2.2: CMP r0,#0. -/
theorem test_cmpImm : ends (step (armAt 0x1000 0x10 0xE3500000 [(.r0, 0x0)]))
    0x60000010 0x1004 [] [] [] = true := by decide +kernel
/-- Section 2.2: CMP r1,r2 r1=7FFFFFFF r2=FFFFFFFF. -/
theorem test_cmpShift : ends (step (armAt 0x1000 0x10 0xE1510002 [(.r1, 0x7FFFFFFF), (.r2, 0xFFFFFFFF)]))
    0x90000010 0x1004 [] [] [] = true := by decide +kernel
/-- Section 2.2: CMN r0,#1. -/
theorem test_cmnImm : ends (step (armAt 0x1000 0x10 0xE3700001 [(.r0, 0xFFFFFFFF)]))
    0x60000010 0x1004 [] [] [] = true := by decide +kernel
/-- Section 2.2: CMN r1,r2,LSL #2. -/
theorem test_cmnShift : ends (step (armAt 0x1000 0x10 0xE1710102 [(.r1, 0x4), (.r2, 0x1)]))
    0x10 0x1004 [] [] [] = true := by decide +kernel
/-- Section 2.3: ORR r0,r1,#0x80000000. -/
theorem test_orrImm : ends (step (armAt 0x1000 0x10 0xE3810102 [(.r1, 0x1)]))
    0x10 0x1004 [(.r0, 0x80000001)] [] [] = true := by decide +kernel
/-- Section 2.3: ORRS r0,r1,r2. -/
theorem test_orrShift : ends (step (armAt 0x1000 0x90000010 0xE1910002 [(.r1, 0x0), (.r2, 0x0)]))
    0x50000010 0x1004 [(.r0, 0x0)] [] [] = true := by decide +kernel
/-- Section 2.1: MOVS r4,#0xFF000000. -/
theorem test_movImm : ends (step (armAt 0x1000 0x10 0xE3B044FF []))
    0xA0000010 0x1004 [(.r4, 0xFF000000)] [] [] = true := by decide +kernel
/-- Section 2.1: MOVS r1,r2,LSL #3. -/
theorem test_movShift : ends (step (armAt 0x1000 0x10 0xE1B01182 [(.r2, 0x30000001)]))
    0xA0000010 0x1004 [(.r1, 0x80000008)] [] [] = true := by decide +kernel
/-- Section 2.1: MOVS pc,lr. -/
theorem test_movShift_more : ends (step (withSpsrs [(.svc, 0x30)] (armAt 0x1000 0x13 0xE1B0F00E [(.r14svc, 0x2000)])))
    0x30 0x2000 [] [] [] = true := by decide +kernel
/-- Section 2.1: MOVS r0,r1,LSL r2 r1=1 r2=21 (shift by 33). -/
theorem test_movRegShift : ends (step (armAt 0x1000 0x10 0xE1B00211 [(.r1, 0x1), (.r2, 0x21)]))
    0x40000010 0x1004 [(.r0, 0x0)] [] [] = true := by decide +kernel
/-- Section 2.1: MOVS r0,r1,LSL r2 r1=1 r2=100 C=1. -/
theorem test_movRegShift_more : ends (step (armAt 0x1000 0x20000010 0xE1B00211 [(.r1, 0x1), (.r2, 0x100)]))
    0x20000010 0x1004 [(.r0, 0x1)] [] [] = true := by decide +kernel
/-- Section 2.3: BIC r0,r1,#3. -/
theorem test_bicImm : ends (step (armAt 0x1000 0x10 0xE3C10003 [(.r1, 0x1007)]))
    0x10 0x1004 [(.r0, 0x1004)] [] [] = true := by decide +kernel
/-- Section 2.3: BICS r0,r1,r2. -/
theorem test_bicShift : ends (step (armAt 0x1000 0x10 0xE1D10002 [(.r1, 0xFF), (.r2, 0xFF)]))
    0x40000010 0x1004 [(.r0, 0x0)] [] [] = true := by decide +kernel
/-- Section 2.1: MVN r0,#0. -/
theorem test_mvnImm : ends (step (armAt 0x1000 0x10 0xE3E00000 []))
    0x10 0x1004 [(.r0, 0xFFFFFFFF)] [] [] = true := by decide +kernel
/-- Section 2.1: MVNS r3,r4,ROR r5. -/
theorem test_mvnRegShift : ends (step (armAt 0x1000 0x10 0xE1F03574 [(.r4, 0xFF), (.r5, 0x4)]))
    0x20000010 0x1004 [(.r3, 0xFFFFFF0)] [] [] = true := by decide +kernel
/-- Section 2.2: MULS r0,r1,r2. -/
theorem test_mul : ends (step (armAt 0x1000 0x30000010 0xE0100291 [(.r1, 0xFFFFFFFF), (.r2, 0x2)]))
    0xB0000010 0x1004 [(.r0, 0xFFFFFFFE)] [] [] = true := by decide +kernel
/-- Section 2.2: MLAS r4,r5,r6,r7. -/
theorem test_mla : ends (step (armAt 0x1000 0x10 0xE0347695 [(.r5, 0x2), (.r6, 0x80000000), (.r7, 0x0)]))
    0x40000010 0x1004 [(.r4, 0x0)] [] [] = true := by decide +kernel
/-- Section 2.2: UMULL r0,r1,r2,r3. -/
theorem test_umull : ends (step (armAt 0x1000 0x10 0xE0810392 [(.r2, 0xFFFFFFFF), (.r3, 0xFFFFFFFF)]))
    0x10 0x1004 [(.r0, 0x1), (.r1, 0xFFFFFFFE)] [] [] = true := by decide +kernel
/-- Section 2.2: UMLAL r0,r1,r2,r3. -/
theorem test_umlal :
    ends (step (armAt 0x1000 0x10 0xE0A10392 [(.r0, 0xFFFFFFFF), (.r2, 0x1), (.r3, 0x1), (.r1, 0x1)]))
    0x10 0x1004 [(.r0, 0x0), (.r1, 0x2)] [] [] = true := by decide +kernel
/-- Section 2.2: SMULL r0,r1,r2,r3. -/
theorem test_smull : ends (step (armAt 0x1000 0x10 0xE0C10392 [(.r2, 0xFFFFFFFF), (.r3, 0x2)]))
    0x10 0x1004 [(.r0, 0xFFFFFFFE), (.r1, 0xFFFFFFFF)] [] [] = true := by decide +kernel
/-- Section 2.2: SMLALS r0,r1,r2,r3. -/
theorem test_smlal :
    ends (step (armAt 0x1000 0x10 0xE0F10392 [(.r0, 0x0), (.r2, 0xFFFFFFFF), (.r3, 0x1), (.r1, 0x0)]))
    0x80000010 0x1004 [(.r0, 0xFFFFFFFF), (.r1, 0xFFFFFFFF)] [] [] = true := by decide +kernel
/-- Section 2.6: SWP r0,r1,[r2] r2=101 (load rotated, store aligned). -/
theorem test_swp : ends (step (armAt 0x1000 0x10 0xE1020091 [(.r2, 0x101), (.r1, 0xAAAAAAAA)]))
    0x10 0x1004 [(.r0, 0x44112233)] [(0x100, 0xAAAAAAAA)] [] = true := by decide +kernel
/-- Section 2.6: SWPB r0,r1,[r2]. -/
theorem test_swpb : ends (step (armAt 0x1000 0x10 0xE1420091 [(.r1, 0xAAAAAABB), (.r2, 0x101)]))
    0x10 0x1004 [(.r0, 0x33)] [(0x100, 0x1122BB44)] [] = true := by decide +kernel
/-- Section 2.2: SMLABB r0,r1,r2,r3. -/
theorem test_smlaXY : ends (step (armAt 0x1000 0x10 0xE1003281 [(.r1, 0x2), (.r2, 0x3), (.r3, 0x7FFFFFFF)]))
    0x8000010 0x1004 [(.r0, 0x80000005)] [] [] = true := by decide +kernel
/-- Section 2.2: SMLAWT r0,r1,r2,r3. -/
theorem test_smlaWY :
    ends (step (armAt 0x1000 0x10 0xE12032C1 [(.r1, 0x80000000), (.r2, 0x80000000), (.r3, 0x40000000)]))
      0x8000010 0x1004 [(.r0, 0x80000000)] [] [] = true := by decide +kernel
/-- Section 2.2: SMULWT r0,r1,r2. -/
theorem test_smulWY : ends (step (armAt 0x1000 0x10 0xE12002E1 [(.r1, 0x80000000), (.r2, 0x80000000)]))
    0x10 0x1004 [(.r0, 0x40000000)] [] [] = true := by decide +kernel
/-- Section 2.2: SMLALTT r0,r1,r2,r3. -/
theorem test_smlalXY :
    ends (step (armAt 0x1000 0x10 0xE14103E2 [(.r0, 0x0), (.r2, 0xFFFF0000), (.r3, 0x10000), (.r1, 0x0)]))
      0x10 0x1004 [(.r0, 0xFFFFFFFF), (.r1, 0xFFFFFFFF)] [] [] = true := by decide +kernel
/-- Section 2.2: SMULBT r0,r1,r2. -/
theorem test_smulXY : ends (step (armAt 0x1000 0x10 0xE16002C1 [(.r1, 0xFFFF), (.r2, 0x30000)]))
    0x10 0x1004 [(.r0, 0xFFFFFFFD)] [] [] = true := by decide +kernel
/-- Section 2.1: MRS r1,SPSR. -/
theorem test_mrs : ends (step (withSpsrs [(.svc, 0x600000D0)] (armAt 0x1000 0x13 0xE14F1000 [])))
    0x13 0x1004 [(.r1, 0x600000D0)] [] [] = true := by decide +kernel
/-- Section 2.1: MSR CPSR_fc,r3. -/
theorem test_msrReg : ends (step (armAt 0x1000 0x13 0xE129F003 [(.r3, 0xF00000DF)]))
    0xF00000DF 0x1004 [] [] [] = true := by decide +kernel
/-- Section 2.1: MSR SPSR_fsxc,r2. -/
theorem test_msrReg_more : ends (step (armAt 0x1000 0x12 0xE16FF002 [(.r2, 0x12345678)]))
    0x12 0x1004 [] [] [(.irq, 0x12345678)] = true := by decide +kernel
/-- Section 2.1: MSR CPSR_f,#0xF0000000. -/
theorem test_msrImm : ends (step (armAt 0x1000 0x10 0xE328F20F []))
    0xF0000010 0x1004 [] [] [] = true := by decide +kernel
/-- Section 2.4: BX r0. -/
theorem test_bx : ends (step (armAt 0x1000 0x10 0xE12FFF10 [(.r0, 0x2001)]))
    0x30 0x2000 [] [] [] = true := by decide +kernel
/-- Section 2.4: BLX r3. -/
theorem test_blxReg : ends (step (armAt 0x1000 0x10 0xE12FFF33 [(.r3, 0x3001)]))
    0x30 0x3000 [(.r14, 0x1004)] [] [] = true := by decide +kernel
/-- Section 2.2: CLZ r0,r1. -/
theorem test_clz : ends (step (armAt 0x1000 0x10 0xE16F0F11 [(.r1, 0x10000)]))
    0x10 0x1004 [(.r0, 0xF)] [] [] = true := by decide +kernel
/-- Section 2.2: QADD r0,r1,r2 r1=80000000 r2=FFFFFFFF. -/
theorem test_qadd : ends (step (armAt 0x1000 0x10 0xE1020051 [(.r1, 0x80000000), (.r2, 0xFFFFFFFF)]))
    0x8000010 0x1004 [(.r0, 0x80000000)] [] [] = true := by decide +kernel
/-- Section 2.2: QSUB r0,r1,r2. -/
theorem test_qsub : ends (step (armAt 0x1000 0x10 0xE1220051 [(.r1, 0x80000000), (.r2, 0x1)]))
    0x8000010 0x1004 [(.r0, 0x80000000)] [] [] = true := by decide +kernel
/-- Section 2.2: QDADD r0,r1,r2 r1=FFFFFFFF r2=40000000 (doubling saturates, sum does n. -/
theorem test_qdadd : ends (step (armAt 0x1000 0x10 0xE1420051 [(.r1, 0xFFFFFFFF), (.r2, 0x40000000)]))
    0x8000010 0x1004 [(.r0, 0x7FFFFFFE)] [] [] = true := by decide +kernel
/-- Section 2.2: QDSUB r0,r1,r2. -/
theorem test_qdsub : ends (step (armAt 0x1000 0x10 0xE1620051 [(.r1, 0x0), (.r2, 0xC0000000)]))
    0x8000010 0x1004 [(.r0, 0x7FFFFFFF)] [] [] = true := by decide +kernel
/-- Section 2.7: BKPT 0xABCD. -/
theorem test_bkpt : ends (step (armAt 0x1000 0x10 0xE12ABC7D []))
    0x97 0xC [(.r14abt, 0x1004)] [] [(.abt, 0x10)] = true := by decide +kernel
/-- Section 2.5: LDR r0,[r1] r1=101 (rotated). -/
theorem test_ldrImm : ends (step (armAt 0x1000 0x10 0xE5910000 [(.r1, 0x101)]))
    0x10 0x1004 [(.r0, 0x44112233)] [] [] = true := by decide +kernel
/-- Section 2.5: LDR pc,[sp],#4. -/
theorem test_ldrImm_more : ends (step (withWords [(0x100, 0x2001)] (armAt 0x1000 0x10 0xE49DF004 [(.r13, 0x100)])))
    0x30 0x2000 [(.r13, 0x104)] [] [] = true := by decide +kernel
/-- Section 2.5: LDR r0,[r1,-r2,LSL #2]. -/
theorem test_ldrReg : ends (step (armAt 0x1000 0x10 0xE7110102 [(.r1, 0x10C), (.r2, 0x2)]))
    0x10 0x1004 [(.r0, 0x55667788)] [] [] = true := by decide +kernel
/-- Section 2.5: LDR r0,[r1],r2,ASR #1. -/
theorem test_ldrReg_more : ends (step (armAt 0x1000 0x10 0xE69100C2 [(.r1, 0x104), (.r2, 0xFFFFFFF8)]))
    0x10 0x1004 [(.r0, 0x55667788), (.r1, 0x100)] [] [] = true := by decide +kernel
/-- Section 2.5: LDRB r0,[r1,#1]. -/
theorem test_ldrbImm : ends (step (armAt 0x1000 0x10 0xE5D10001 [(.r1, 0x100)]))
    0x10 0x1004 [(.r0, 0x33)] [] [] = true := by decide +kernel
/-- Section 2.5: STR r0,[r1] r1=203 (low bits ignored). -/
theorem test_strImm : ends (step (armAt 0x1000 0x10 0xE5810000 [(.r1, 0x203), (.r0, 0xDEADBEEF)]))
    0x10 0x1004 [] [(0x200, 0xDEADBEEF)] [] = true := by decide +kernel
/-- Section 2.5: STR r0,[r1,#-8]. -/
theorem test_strImm_more : ends (step (armAt 0x1000 0x10 0xE5010008 [(.r0, 0x1), (.r1, 0x208)]))
    0x10 0x1004 [] [(0x200, 0x1)] [] = true := by decide +kernel
/-- Section 2.5: STR r0,[r1,r2,LSL #2]!. -/
theorem test_strReg : ends (step (armAt 0x1000 0x10 0xE7A10102 [(.r0, 0x7), (.r1, 0x200), (.r2, 0x3)]))
    0x10 0x1004 [(.r1, 0x20C)] [(0x20C, 0x7)] [] = true := by decide +kernel
/-- Section 2.5: STRB r0,[r1,#3]. -/
theorem test_strbImm : ends (step (armAt 0x1000 0x10 0xE5C10003 [(.r0, 0x12345678), (.r1, 0x100)]))
    0x10 0x1004 [] [(0x100, 0x78223344)] [] = true := by decide +kernel
/-- Section 2.5: LDRT r0,[r1],#4. -/
theorem test_ldrtImm : ends (step (armAt 0x1000 0x10 0xE4B10004 [(.r1, 0x100)]))
    0x10 0x1004 [(.r0, 0x11223344), (.r1, 0x104)] [] [] = true := by decide +kernel
/-- Section 2.5: LDRBT r0,[r1],#1. -/
theorem test_ldrbtImm : ends (step (armAt 0x1000 0x10 0xE4F10001 [(.r1, 0x100)]))
    0x10 0x1004 [(.r0, 0x44), (.r1, 0x101)] [] [] = true := by decide +kernel
/-- Section 2.5: STRT r0,[r1],#-4. -/
theorem test_strtImm : ends (step (armAt 0x1000 0x10 0xE4210004 [(.r0, 0x9), (.r1, 0x200)]))
    0x10 0x1004 [(.r1, 0x1FC)] [(0x200, 0x9)] [] = true := by decide +kernel
/-- Section 2.5: STRBT r0,[r1],#1. -/
theorem test_strbtImm : ends (step (armAt 0x1000 0x10 0xE4E10001 [(.r0, 0xFF), (.r1, 0x100)]))
    0x10 0x1004 [(.r1, 0x101)] [(0x100, 0x112233FF)] [] = true := by decide +kernel
/-- Section 2.5: STRH r0,[r1,#6]. -/
theorem test_strhImm : ends (step (armAt 0x1000 0x10 0xE1C100B6 [(.r0, 0x12345678), (.r1, 0x100)]))
    0x10 0x1004 [] [(0x104, 0x56787788)] [] = true := by decide +kernel
/-- Section 2.5: STRH r0,[r1,-r2]. -/
theorem test_strhReg : ends (step (armAt 0x1000 0x10 0xE10100B2 [(.r0, 0xBEEF), (.r1, 0x108), (.r2, 0x6)]))
    0x10 0x1004 [] [(0x100, 0xBEEF3344)] [] = true := by decide +kernel
/-- Section 2.5: LDRH r0,[r1,#2]. -/
theorem test_ldrhImm : ends (step (armAt 0x1000 0x10 0xE1D100B2 [(.r1, 0x100)]))
    0x10 0x1004 [(.r0, 0x1122)] [] [] = true := by decide +kernel
/-- Section 2.5: LDRH r0,[r1],r2. -/
theorem test_ldrhReg : ends (step (armAt 0x1000 0x10 0xE09100B2 [(.r1, 0x108), (.r2, 0x4)]))
    0x10 0x1004 [(.r0, 0xBBCC), (.r1, 0x10C)] [] [] = true := by decide +kernel
/-- Section 2.5: LDRSB r0,[r1,#-1]. -/
theorem test_ldrsbImm : ends (step (armAt 0x1000 0x10 0xE15100D1 [(.r1, 0x109)]))
    0x10 0x1004 [(.r0, 0xFFFFFFCC)] [] [] = true := by decide +kernel
/-- Section 2.5: LDRSH r0,[r1,#2]!. -/
theorem test_ldrshImm : ends (step (armAt 0x1000 0x10 0xE1F100F2 [(.r1, 0x108)]))
    0x10 0x1004 [(.r0, 0xFFFF99AA), (.r1, 0x10A)] [] [] = true := by decide +kernel
/-- Section 2.5: LDRD r2,r3,[r0,#8]!. -/
theorem test_ldrdImm : ends (step (armAt 0x1000 0x10 0xE1E020D8 [(.r0, 0x100)]))
    0x10 0x1004 [(.r0, 0x108), (.r2, 0x99AABBCC), (.r3, 0xDDEEFF00)] [] [] = true := by decide +kernel
/-- Section 2.5: STRD r4,r5,[r1],#16. -/
theorem test_strdImm : ends (step (armAt 0x1000 0x10 0xE0C141F0 [(.r1, 0x200), (.r4, 0xA), (.r5, 0xB)]))
    0x10 0x1004 [(.r1, 0x210)] [(0x200, 0xA), (0x204, 0xB)] [] = true := by decide +kernel
/-- Section 2.5: LDMIB r0!,(r1,r2). -/
theorem test_ldm : ends (step (armAt 0x1000 0x10 0xE9B00006 [(.r0, 0x100)]))
    0x10 0x1004 [(.r0, 0x108), (.r1, 0x55667788), (.r2, 0x99AABBCC)] [] [] = true := by decide +kernel
/-- Section 2.5: LDMFD sp!,(r4,r5,pc). -/
theorem test_ldm_more :
    ends (step (withWords [(0x100, 0x4), (0x104, 0x5), (0x108, 0x3001)]
      (armAt 0x1000 0x10 0xE8BD8030 [(.r13, 0x100)])))
      0x30 0x3000 [(.r4, 0x4), (.r5, 0x5), (.r13, 0x10C)] [] [] = true := by decide +kernel
/-- Section 2.5: LDMIA r0,(r13,r14)^. -/
theorem test_ldmUser : ends (step (armAt 0x1000 0x13 0xE8D06000 [(.r0, 0x100)]))
    0x13 0x1004 [(.r13, 0x11223344), (.r14, 0x55667788)] [] [] = true := by decide +kernel
/-- Section 2.5: LDMFD sp!,(r0-r3,pc)^. -/
theorem test_ldmRestore :
    ends (step (withWords [(0x100, 0xA0), (0x104, 0xA1), (0x108, 0xA2), (0x10C, 0xA3), (0x110, 0x8000)]
      (withSpsrs [(.irq, 0x10)] (armAt 0x1000 0x12 0xE8FD800F [(.r13irq, 0x100)]))))
      0x10 0x8000 [(.r0, 0xA0), (.r1, 0xA1), (.r2, 0xA2), (.r3, 0xA3), (.r13irq, 0x114)] [] [] = true := by
  decide +kernel
/-- Section 2.5: STMFD sp!,(r4,lr). -/
theorem test_stm : ends (step (armAt 0x1000 0x10 0xE92D4010 [(.r13, 0x300), (.r4, 0x4), (.r14, 0x8004)]))
    0x10 0x1004 [(.r13, 0x2F8)] [(0x2F8, 0x4), (0x2FC, 0x8004)] [] = true := by decide +kernel
/-- Section 2.5: STMDA r0,(r1,r2). -/
theorem test_stm_more : ends (step (armAt 0x1000 0x10 0xE8000006 [(.r0, 0x204), (.r1, 0x1), (.r2, 0x2)]))
    0x10 0x1004 [] [(0x200, 0x1), (0x204, 0x2)] [] = true := by decide +kernel
/-- The row of spec/95_test_vectors.md whose base is listed and the lowest register: its value is stored as it was. -/
theorem test_stm_base_lowest : ends (step (armAt 0x1000 0x10 0xE8A00003 [(.r0, 0x200), (.r1, 5)])) 0x10 0x1004
    [(.r0, 0x208), (.r1, 5)] [(0x200, 0x200), (0x204, 5)] [] = true := by decide +kernel
/-- Section 2.5: STMIA r0,(r13,r14)^. -/
theorem test_stmUser :
    ends (step (armAt 0x1000 0x12 0xE8C06000 [(.r0, 0x200), (.r13, 0x1800), (.r14, 0x77), (.r13irq, 0x1C00)]))
      0x12 0x1004 [] [(0x200, 0x1800), (0x204, 0x77)] [] = true := by decide +kernel
/-- Section 2.4: B. -/
theorem test_b : ends (step (armAt 0x1000 0x10 0xEA800000 []))
    0x10 0xFE001008 [] [] [] = true := by decide +kernel
/-- Section 2.4: BNE. -/
theorem test_b_more : ends (step (armAt 0x1000 0x40000010 0x1A000002 []))
    0x40000010 0x1004 [] [] [] = true := by decide +kernel
/-- Section 2.4: BL. -/
theorem test_bl : ends (step (armAt 0x1000 0x10 0xEB00003E []))
    0x10 0x1100 [(.r14, 0x1004)] [] [] = true := by decide +kernel
/-- Section 2.4: BLX. -/
theorem test_blxImm : ends (step (armAt 0x1000 0x10 0xFB000000 []))
    0x30 0x100A [(.r14, 0x1004)] [] [] = true := by decide +kernel
/-- Section 2.7: CDP p1,2,c3,c4,c5,6. -/
theorem test_cdp : ends (step (armAt 0x1000 0x10 0xEE2431C5 []))
    0x9B 0x4 [(.r14und, 0x1004)] [] [(.und, 0x10)] = true := by decide +kernel
/-- Section 2.7: MRC p15,0,r0,c1,c0,0. -/
theorem test_mrc : ends (step (armAt 0x1000 0x10 0xEE110F10 []))
    0x9B 0x4 [(.r14und, 0x1004)] [] [(.und, 0x10)] = true := by decide +kernel
/-- Section 2.7: MRC p14,0,r0,c0,c0. -/
theorem test_mrc_more : ends (step (armAt 0x1000 0x10 0xEE100E10 []))
    0x10 0x1004 [(.r0, 0x60000000)] [] [] = true := by decide +kernel
/-- Section 2.7: LDC p1,c2,[r3,#16]. -/
theorem test_ldc : ends (step (armAt 0x1000 0x10 0xED932104 [(.r3, 0x100)]))
    0x9B 0x4 [(.r14und, 0x1004)] [] [(.und, 0x10)] = true := by decide +kernel
/-- Section 2.7: SWI 0x123456. -/
theorem test_swi : ends (step (armAt 0x1000 0xA0000010 0xEF123456 []))
    0xA0000093 0x8 [(.r14svc, 0x1004)] [] [(.svc, 0xA0000010)] = true := by decide +kernel
/-- Section 2.7: undefined space. -/
theorem test_undefSpace : ends (step (armAt 0x1000 0x10 0xE7F000F0 []))
    0x9B 0x4 [(.r14und, 0x1004)] [] [(.und, 0x10)] = true := by decide +kernel
/-- Section 2.8: LSL r0,r1,#31. -/
theorem test_thumbLslImm : ends (step (thumbAt 0x1000 0x30 0x07C8 [(.r1, 0x3)]))
    0xA0000030 0x1002 [(.r0, 0x80000000)] [] [] = true := by decide +kernel
/-- Section 2.8: LSR r0,r1,#32. -/
theorem test_thumbLsrImm : ends (step (thumbAt 0x1000 0x30 0x0808 [(.r1, 0x80000000)]))
    0x60000030 0x1002 [(.r0, 0x0)] [] [] = true := by decide +kernel
/-- Section 2.8: ASR r0,r1,#32. -/
theorem test_thumbAsrImm : ends (step (thumbAt 0x1000 0x30 0x1008 [(.r1, 0x80000000)]))
    0xA0000030 0x1002 [(.r0, 0xFFFFFFFF)] [] [] = true := by decide +kernel
/-- Section 2.8: ADD r0,r1,r2. -/
theorem test_thumbAddReg : ends (step (thumbAt 0x1000 0x30 0x1888 [(.r1, 0x7FFFFFFF), (.r2, 0x1)]))
    0x90000030 0x1002 [(.r0, 0x80000000)] [] [] = true := by decide +kernel
/-- Section 2.8: SUB r0,r1,r2. -/
theorem test_thumbSubReg : ends (step (thumbAt 0x1000 0x30 0x1A88 [(.r1, 0x5), (.r2, 0x7)]))
    0x80000030 0x1002 [(.r0, 0xFFFFFFFE)] [] [] = true := by decide +kernel
/-- Section 2.8: ADD r0,r1,#7. -/
theorem test_thumbAddImm3 : ends (step (thumbAt 0x1000 0x30 0x1DC8 [(.r1, 0xFFFFFFFF)]))
    0x20000030 0x1002 [(.r0, 0x6)] [] [] = true := by decide +kernel
/-- Section 2.8: SUB r0,r1,#7. -/
theorem test_thumbSubImm3 : ends (step (thumbAt 0x1000 0x30 0x1FC8 [(.r1, 0x7)]))
    0x60000030 0x1002 [(.r0, 0x0)] [] [] = true := by decide +kernel
/-- Section 2.8: MOV r0,#0. -/
theorem test_thumbMovImm : ends (step (thumbAt 0x1000 0x90000030 0x2000 []))
    0x50000030 0x1002 [(.r0, 0x0)] [] [] = true := by decide +kernel
/-- Section 2.8: CMP r0,#255. -/
theorem test_thumbCmpImm : ends (step (thumbAt 0x1000 0x30 0x28FF [(.r0, 0xFF)]))
    0x60000030 0x1002 [] [] [] = true := by decide +kernel
/-- Section 2.8: ADD r0,#255. -/
theorem test_thumbAddImm8 : ends (step (thumbAt 0x1000 0x30 0x30FF [(.r0, 0xFFFFFF01)]))
    0x60000030 0x1002 [(.r0, 0x0)] [] [] = true := by decide +kernel
/-- Section 2.8: SUB r0,#255. -/
theorem test_thumbSubImm8 : ends (step (thumbAt 0x1000 0x30 0x38FF [(.r0, 0x100)]))
    0x20000030 0x1002 [(.r0, 0x1)] [] [] = true := by decide +kernel
/-- Section 2.8: AND r0,r1. -/
theorem test_thumbAnd : ends (step (thumbAt 0x1000 0x20000030 0x4008 [(.r0, 0xF0), (.r1, 0x3C)]))
    0x20000030 0x1002 [(.r0, 0x30)] [] [] = true := by decide +kernel
/-- Section 2.8: EOR r0,r1. -/
theorem test_thumbEor : ends (step (thumbAt 0x1000 0x30 0x4048 [(.r0, 0xFF), (.r1, 0xFF)]))
    0x40000030 0x1002 [(.r0, 0x0)] [] [] = true := by decide +kernel
/-- Section 2.8: LSL r0,r1 r0=1 r1=21 C=1. -/
theorem test_thumbLslReg : ends (step (thumbAt 0x1000 0x20000030 0x4088 [(.r0, 0x1), (.r1, 0x21)]))
    0x40000030 0x1002 [(.r0, 0x0)] [] [] = true := by decide +kernel
/-- Section 2.8: LSR r0,r1. -/
theorem test_thumbLsrReg : ends (step (thumbAt 0x1000 0x30 0x40C8 [(.r0, 0x80000000), (.r1, 0x20)]))
    0x60000030 0x1002 [(.r0, 0x0)] [] [] = true := by decide +kernel
/-- Section 2.8: ASR r0,r1. -/
theorem test_thumbAsrReg : ends (step (thumbAt 0x1000 0x20000030 0x4108 [(.r0, 0x40000000), (.r1, 0xFF)]))
    0x40000030 0x1002 [(.r0, 0x0)] [] [] = true := by decide +kernel
/-- Section 2.8: ADC r0,r1. -/
theorem test_thumbAdc : ends (step (thumbAt 0x1000 0x20000030 0x4148 [(.r0, 0xFFFFFFFF), (.r1, 0x0)]))
    0x60000030 0x1002 [(.r0, 0x0)] [] [] = true := by decide +kernel
/-- Section 2.8: SBC r0,r1. -/
theorem test_thumbSbc : ends (step (thumbAt 0x1000 0x30 0x4188 [(.r0, 0x5), (.r1, 0x5)]))
    0x80000030 0x1002 [(.r0, 0xFFFFFFFF)] [] [] = true := by decide +kernel
/-- Section 2.8: ROR r0,r1 r0=80000000 r1=20 (rotate by 32: value unchanged, C = bit 31. -/
theorem test_thumbRorReg : ends (step (thumbAt 0x1000 0x30 0x41C8 [(.r0, 0x80000000), (.r1, 0x20)]))
    0xA0000030 0x1002 [] [] [] = true := by decide +kernel
/-- Section 2.8: TST r0,r1. -/
theorem test_thumbTst : ends (step (thumbAt 0x1000 0x30 0x4208 [(.r0, 0x1), (.r1, 0x2)]))
    0x40000030 0x1002 [] [] [] = true := by decide +kernel
/-- Section 2.8: NEG r0,r1 r1=80000000. -/
theorem test_thumbNeg : ends (step (thumbAt 0x1000 0x30 0x4248 [(.r1, 0x80000000)]))
    0x90000030 0x1002 [(.r0, 0x80000000)] [] [] = true := by decide +kernel
/-- Section 2.8: CMP r0,r1. -/
theorem test_thumbCmp : ends (step (thumbAt 0x1000 0x30 0x4288 [(.r0, 0x1), (.r1, 0x1)]))
    0x60000030 0x1002 [] [] [] = true := by decide +kernel
/-- Section 2.8: CMN r0,r1. -/
theorem test_thumbCmn : ends (step (thumbAt 0x1000 0x30 0x42C8 [(.r0, 0x1), (.r1, 0xFFFFFFFF)]))
    0x60000030 0x1002 [] [] [] = true := by decide +kernel
/-- Section 2.8: ORR r0,r1. -/
theorem test_thumbOrr : ends (step (thumbAt 0x1000 0x30 0x4308 [(.r0, 0x80000000), (.r1, 0x1)]))
    0x80000030 0x1002 [(.r0, 0x80000001)] [] [] = true := by decide +kernel
/-- Section 2.8: MUL r0,r1. -/
theorem test_thumbMul : ends (step (thumbAt 0x1000 0x30000030 0x4348 [(.r0, 0x3), (.r1, 0xFFFFFFFF)]))
    0xB0000030 0x1002 [(.r0, 0xFFFFFFFD)] [] [] = true := by decide +kernel
/-- Section 2.8: BIC r0,r1. -/
theorem test_thumbBic : ends (step (thumbAt 0x1000 0x30 0x4388 [(.r0, 0xFF), (.r1, 0xF)]))
    0x30 0x1002 [(.r0, 0xF0)] [] [] = true := by decide +kernel
/-- Section 2.8: MVN r0,r1. -/
theorem test_thumbMvn : ends (step (thumbAt 0x1000 0x30 0x43C8 [(.r1, 0x0)]))
    0x80000030 0x1002 [(.r0, 0xFFFFFFFF)] [] [] = true := by decide +kernel
/-- Section 2.8: ADD r0,pc. -/
theorem test_thumbAddHigh : ends (step (thumbAt 0x1002 0x30 0x4478 [(.r0, 0x10)]))
    0x30 0x1004 [(.r0, 0x1016)] [] [] = true := by decide +kernel
/-- Section 2.8: CMP r0,r8. -/
theorem test_thumbCmpHigh : ends (step (thumbAt 0x1000 0x30 0x4540 [(.r0, 0x0), (.r8, 0x1)]))
    0x80000030 0x1002 [] [] [] = true := by decide +kernel
/-- Section 2.8: MOV pc,r0. -/
theorem test_thumbMovHigh : ends (step (thumbAt 0x1000 0x30 0x4687 [(.r0, 0x2001)]))
    0x30 0x2000 [] [] [] = true := by decide +kernel
/-- Section 2.9: BX r0. -/
theorem test_thumbBx : ends (step (thumbAt 0x1000 0x30 0x4700 [(.r0, 0x2000)]))
    0x10 0x2000 [] [] [] = true := by decide +kernel
/-- Section 2.9: BLX r12. -/
theorem test_thumbBlxReg : ends (step (thumbAt 0x1000 0x30 0x47E0 [(.r12, 0x3001)]))
    0x30 0x3000 [(.r14, 0x1003)] [] [] = true := by decide +kernel
/-- Section 2.10: LDR r0,[pc,#4]. -/
theorem test_thumbLdrPc : ends (step (withWords [(0x1008, 0xCAFEBABE)] (thumbAt 0x1002 0x30 0x4801 [])))
    0x30 0x1004 [(.r0, 0xCAFEBABE)] [] [] = true := by decide +kernel
/-- Section 2.10: STR r0,[r1,r2]. -/
theorem test_thumbStrReg : ends (step (thumbAt 0x1000 0x30 0x5088 [(.r0, 0x5), (.r1, 0x200), (.r2, 0x8)]))
    0x30 0x1002 [] [(0x208, 0x5)] [] = true := by decide +kernel
/-- Section 2.10: STRH r0,[r1,r2]. -/
theorem test_thumbStrhReg : ends (step (thumbAt 0x1000 0x30 0x5288 [(.r0, 0xBEEF), (.r1, 0x100), (.r2, 0x2)]))
    0x30 0x1002 [] [(0x100, 0xBEEF3344)] [] = true := by decide +kernel
/-- Section 2.10: STRB r0,[r1,r2]. -/
theorem test_thumbStrbReg : ends (step (thumbAt 0x1000 0x30 0x5488 [(.r0, 0xEE), (.r1, 0x100), (.r2, 0x0)]))
    0x30 0x1002 [] [(0x100, 0x112233EE)] [] = true := by decide +kernel
/-- Section 2.10: LDRSB r0,[r1,r2]. -/
theorem test_thumbLdrsbReg : ends (step (thumbAt 0x1000 0x30 0x5688 [(.r1, 0x100), (.r2, 0x9)]))
    0x30 0x1002 [(.r0, 0xFFFFFFBB)] [] [] = true := by decide +kernel
/-- Section 2.10: LDR r0,[r1,r2]. -/
theorem test_thumbLdrReg : ends (step (thumbAt 0x1000 0x30 0x5888 [(.r1, 0x100), (.r2, 0xC)]))
    0x30 0x1002 [(.r0, 0xDDEEFF00)] [] [] = true := by decide +kernel
/-- Section 2.10: LDRH r0,[r1,r2]. -/
theorem test_thumbLdrhReg : ends (step (thumbAt 0x1000 0x30 0x5A88 [(.r1, 0x100), (.r2, 0xA)]))
    0x30 0x1002 [(.r0, 0x99AA)] [] [] = true := by decide +kernel
/-- Section 2.10: LDRB r0,[r1,r2]. -/
theorem test_thumbLdrbReg : ends (step (thumbAt 0x1000 0x30 0x5C88 [(.r1, 0x100), (.r2, 0x9)]))
    0x30 0x1002 [(.r0, 0xBB)] [] [] = true := by decide +kernel
/-- Section 2.10: LDRSH r0,[r1,r2]. -/
theorem test_thumbLdrshReg : ends (step (thumbAt 0x1000 0x30 0x5E88 [(.r1, 0x100), (.r2, 0xA)]))
    0x30 0x1002 [(.r0, 0xFFFF99AA)] [] [] = true := by decide +kernel
/-- Section 2.10: STR r0,[r1,#4]. -/
theorem test_thumbStrImm : ends (step (thumbAt 0x1000 0x30 0x6048 [(.r0, 0x5), (.r1, 0x200)]))
    0x30 0x1002 [] [(0x204, 0x5)] [] = true := by decide +kernel
/-- Section 2.10: LDR r0,[r1]. -/
theorem test_thumbLdrImm : ends (step (thumbAt 0x1000 0x30 0x6808 [(.r1, 0x101)]))
    0x30 0x1002 [(.r0, 0x44112233)] [] [] = true := by decide +kernel
/-- Section 2.10: STRB r0,[r1,#31]. -/
theorem test_thumbStrbImm : ends (step (thumbAt 0x1000 0x30 0x77C8 [(.r0, 0xAB), (.r1, 0xE8)]))
    0x30 0x1002 [] [(0x104, 0xAB667788)] [] = true := by decide +kernel
/-- Section 2.10: LDRB r0,[r1,#31]. -/
theorem test_thumbLdrbImm : ends (step (thumbAt 0x1000 0x30 0x7FC8 [(.r1, 0xE8)]))
    0x30 0x1002 [(.r0, 0x55)] [] [] = true := by decide +kernel
/-- Section 2.10: STRH r0,[r1,#62]. -/
theorem test_thumbStrhImm : ends (step (thumbAt 0x1000 0x30 0x87C8 [(.r0, 0x12345678), (.r1, 0xC4)]))
    0x30 0x1002 [] [(0x100, 0x56783344)] [] = true := by decide +kernel
/-- Section 2.10: LDRH r0,[r1,#62]. -/
theorem test_thumbLdrhImm : ends (step (thumbAt 0x1000 0x30 0x8FC8 [(.r1, 0xC4)]))
    0x30 0x1002 [(.r0, 0x1122)] [] [] = true := by decide +kernel
/-- Section 2.10: STR r1,[sp,#4]. -/
theorem test_thumbStrSp : ends (step (thumbAt 0x1000 0x30 0x9101 [(.r1, 0x9), (.r13, 0x200)]))
    0x30 0x1002 [] [(0x204, 0x9)] [] = true := by decide +kernel
/-- Section 2.10: LDR r1,[sp,#4]. -/
theorem test_thumbLdrSp : ends (step (thumbAt 0x1000 0x30 0x9901 [(.r13, 0x100)]))
    0x30 0x1002 [(.r1, 0x55667788)] [] [] = true := by decide +kernel
/-- Section 2.10: ADD r0,pc,#4. -/
theorem test_thumbAddPc : ends (step (thumbAt 0x1002 0x30 0xA001 []))
    0x30 0x1004 [(.r0, 0x1008)] [] [] = true := by decide +kernel
/-- Section 2.10: ADD r1,sp,#8. -/
theorem test_thumbAddSp : ends (step (thumbAt 0x1000 0x30 0xA902 [(.r13, 0x100)]))
    0x30 0x1002 [(.r1, 0x108)] [] [] = true := by decide +kernel
/-- Section 2.8: ADD sp,#508. -/
theorem test_thumbIncSp : ends (step (thumbAt 0x1000 0x30 0xB07F [(.r13, 0x1000)]))
    0x30 0x1002 [(.r13, 0x11FC)] [] [] = true := by decide +kernel
/-- Section 2.8: SUB sp,#8 (ADD SP,#-8). -/
theorem test_thumbDecSp : ends (step (thumbAt 0x1000 0x30 0xB082 [(.r13, 0x1000)]))
    0x30 0x1002 [(.r13, 0xFF8)] [] [] = true := by decide +kernel
/-- Section 2.10: PUSH (r4,lr). -/
theorem test_thumbPush : ends (step (thumbAt 0x1000 0x30 0xB510 [(.r13, 0x300), (.r4, 0x4), (.r14, 0x8005)]))
    0x30 0x1002 [(.r13, 0x2F8)] [(0x2F8, 0x4), (0x2FC, 0x8005)] [] = true := by decide +kernel
/-- Section 2.10: POP (r4,pc). -/
theorem test_thumbPop :
    ends (step (withWords [(0x100, 0x4), (0x104, 0x8005)] (thumbAt 0x1000 0x30 0xBD10 [(.r13, 0x100)])))
      0x30 0x8004 [(.r4, 0x4), (.r13, 0x108)] [] [] = true := by decide +kernel
/-- Section 2.10: BKPT 255. -/
theorem test_thumbBkpt : ends (step (thumbAt 0x1000 0x30 0xBEFF []))
    0x97 0xC [(.r14abt, 0x1004)] [] [(.abt, 0x30)] = true := by decide +kernel
/-- Section 2.10: STMIA r0!,(r1,r2). -/
theorem test_thumbStmia : ends (step (thumbAt 0x1000 0x30 0xC006 [(.r0, 0x200), (.r1, 0x1), (.r2, 0x2)]))
    0x30 0x1002 [(.r0, 0x208)] [(0x200, 0x1), (0x204, 0x2)] [] = true := by decide +kernel
/-- Section 2.10: LDMIA r0,(r0,r1). -/
theorem test_thumbLdmia : ends (step (thumbAt 0x1000 0x30 0xC803 [(.r0, 0x100)]))
    0x30 0x1002 [(.r0, 0x11223344), (.r1, 0x55667788)] [] [] = true := by decide +kernel
/-- Section 2.9: BLE. -/
theorem test_thumbBCond : ends (step (thumbAt 0x1000 0x80000030 0xDD80 []))
    0x80000030 0xF04 [] [] [] = true := by decide +kernel
/-- Section 2.10: DE00 (Bcond with cond = 1110: Undefined instruction). -/
theorem test_thumbUndefCond : ends (step (thumbAt 0x1000 0x30 0xDE00 []))
    0x9B 0x4 [(.r14und, 0x1002)] [] [(.und, 0x30)] = true := by decide +kernel
/-- Section 2.10: SWI 255. -/
theorem test_thumbSwi : ends (step (thumbAt 0x1000 0x40000030 0xDFFF []))
    0x40000093 0x8 [(.r14svc, 0x1002)] [] [(.svc, 0x40000030)] = true := by decide +kernel
/-- Section 2.9: B. -/
theorem test_thumbB : ends (step (thumbAt 0x1000 0x30 0xE400 []))
    0x30 0x804 [] [] [] = true := by decide +kernel
/-- Section 2.9: BL prefix alone. -/
theorem test_thumbBlPrefix : ends (step (thumbAt 0x1000 0x30 0xF7FF []))
    0x30 0x1002 [(.r14, 0x4)] [] [] = true := by decide +kernel

/-! ### Exceptions, coprocessors and stops: spec/95_test_vectors.md sections 2.7 and 2.11, and the rules named -/

/-- A state with MOV r0,#1 at 0x1000 and one sample of the pins. -/
def withPins (fiq irq : Bool) (cpsr : Word) : State :=
  { armAt 0x1000 cpsr 0xE3A00001 [] with pins := [{ reset := false, fiq := fiq, irq := irq, mem := [] }] }

/-- A state with one sample of the pins in which devices write bytes. -/
def withDevice (ws : List (Word × Byte)) (s : State) : State :=
  { s with pins := [{ reset := false, fiq := false, irq := false, mem := ws }] }

/-- A state with this abort predicate. -/
def withAborts (rs : List AbortRule) (s : State) : State := { s with config := { s.config with aborts := rs } }

/-- A state whose memory system aborts every data access from 0x50000000 on, and fetches at 0x2000. -/
def aborting : State → State :=
  withAborts
    [{ base := 0x50000000, size := 0x1000, kinds := [.read, .write], width := none, privileged := none, locked := none },
      { base := 0x2000, size := 0x100, kinds := [.fetch], width := none, privileged := none, locked := none }]

/-- A state with these coprocessors attached. -/
def attached (rs : List CpRule) (s : State) : State := { s with config := { s.config with coprocessors := rs } }

/-- A state whose coprocessors take their answers to every instruction from the list. -/
def answered (as : List CpAnswer) (s : State) : State :=
  attached [{ mask := 0, pattern := 0, privileged := none, answer := none }] { s with cpAnswers := as }

theorem test_irq_taken : ends (step (withPins false true 0x40000010)) 0x40000092 0x18 [(.r14irq, 0x1004), (.r0, 0)] []
    [(.irq, 0x40000010)] = true := by decide +kernel
theorem test_irq_masked : ends (step (withPins false true 0x90)) 0x90 0x1004 [(.r0, 1)] [] [] = true := by decide +kernel
theorem test_fiq_before_irq : ends (step (withPins true true 0x10)) 0xD1 0x1C [(.r14fiq, 0x1004)] []
    [(.fiq, 0x10)] = true := by decide +kernel
theorem test_prefetch_abort_thumb : ends (step (aborting (thumbAt 0x2000 0x30 0x2000 []))) 0x97 0xC [(.r14abt, 0x2004)] []
    [(.abt, 0x30)] = true := by decide +kernel
theorem test_data_abort_thumb : ends (step (aborting (thumbAt 0x1000 0x30 0x6808 [(.r0, 7), (.r1, 0x50000000)])))
    0x97 0x10 [(.r14abt, 0x1008), (.r0, 7)] [] [(.abt, 0x30)] = true := by decide +kernel
theorem test_data_abort_keeps_base : ends (step (aborting (armAt 0x1000 0x10 0xE4910004 [(.r0, 7), (.r1, 0x50000000)])))
    0x97 0x10 [(.r14abt, 0x1008), (.r0, 7), (.r1, 0x50000000)] [] [(.abt, 0x10)] = true := by decide +kernel
/-- R346, R400: the PC is at the vector base and memory is as before. -/
theorem test_reset_sample :
    (match step { armAt 0x1000 0x1F 0xE3A00001 [] with pins := [{ reset := true, fiq := true, irq := true, mem := [] }] } with
      | .next t => t.pc == 0 && t.wordAt 0x100 == some 0x11223344#32
      | _ => false) = true := by decide +kernel
theorem test_mcr_comms :
    ends (step (armAt 0x1000 0x10 0xEE011E10 [(.r1, 0x41)])) 0x10 0x1004 [] [] [] = true ∧
      (match step (armAt 0x1000 0x10 0xEE011E10 [(.r1, 0x41)]) with
        | .next t => t.dcc.w && t.dcc.writeData == 0x41
        | _ => false) = true := by decide +kernel
/-- R244: MRRC p1 writes Rd, then Rn. -/
theorem test_mrrc_accepted :
    ends (step (answered [.accept 0x11 0x22 []] (armAt 0x1000 0x10 0xEC543105 []))) 0x10 0x1004
      [(.r3, 0x11), (.r4, 0x22)] [] [] = true := by decide +kernel
/-- R242: MRC p1 with Rd = 15 writes the flags. -/
theorem test_mrc_flags :
    ends (step (answered [.accept 0xA5555555 0 []] (armAt 0x1000 0x10 0xEE12F113 []))) 0xA0000010 0x1004 [] [] [] = true := by
  decide +kernel
/-- R246: LDC p1, two words, with write-back. -/
theorem test_ldc_accepted :
    (match step (answered [.accept 0 0 [0]] (armAt 0x1000 0x10 0xEDB32101 [(.r3, 0x100)])) with
      | .next t => t.regs.r3 == 0x104 && t.cpSent.map (·.data) == [[0x55667788, 0x99AABBCC]]
      | _ => false) = true := by decide +kernel
/-- R247: STC p1, two words. -/
theorem test_stc_accepted :
    ends (step (answered [.accept 5 0 [6]] (armAt 0x1000 0x10 0xED832101 [(.r3, 0x200)]))) 0x10 0x1004 [(.r3, 0x200)]
      [(0x204, 5), (0x208, 6)] [] = true := by decide +kernel
theorem test_coprocessor_waits :
    ends (step (answered [.wait] (armAt 0x1000 0x10 0xEE2431C5 []))) 0x10 0x1000 [] [] [] = true := by decide +kernel
theorem test_stm_aborted :
    ends (step (aborting (armAt 0x1000 0x10 0xE8A00006 [(.r0, 0x4FFFFFFC), (.r1, 1), (.r2, 2)]))) 0x97 0x10
      [(.r0, 0x4FFFFFFC), (.r14abt, 0x1008)] [(0x4FFFFFFC, 1)] [] = true := by decide +kernel
theorem test_blx_undefined_suffix :
    ends (step (thumbAt 0x1002 0x30 0xE801 [(.r14, 0x1004)])) 0x9B 4 [(.r14, 0x1004), (.r14und, 0x1004)] []
      [(.und, 0x30)] = true := by decide +kernel
theorem test_bl_suffix : ends (step (thumbAt 0x1002 0x30 0xFFFE [(.r14, 0x4)])) 0x30 0x1000 [(.r14, 0x1005)] [] [] = true := by
  decide +kernel
theorem test_pld_aborting : ends (step (aborting (armAt 0x1000 0x10 0xF5D1F000 [(.r1, 0x50000000)]))) 0x10 0x1004 [] []
    [] = true := by decide +kernel
theorem test_big_endian :
    ends (step { armAt 0x1000 0x10 0 [(.r1, 0x102)] with
      config := { defaultConfig with bigEndian := true }
      mem := placeBytes [(0x100, 0x11#8), (0x101, 0x22#8), (0x102, 0x33#8), (0x103, 0x44#8)] 0x1000
        (bytesOfWord true 0xE1D100B0#32) }) 0x10 0x1004 [(.r0, 0x3344)] [] [] = true := by decide +kernel

/-- The step is refused under this name. -/
def refuses (o : Result) (r : Refusal) : Bool :=
  match o with
  | .refused q => q == r
  | _ => false

/-- The step faults under this name. -/
def faults (o : Result) (f : Fault) : Bool :=
  match o with
  | .fault g => g == f
  | _ => false

/-- The stops that spec/95_test_vectors.md names. -/
theorem test_stops :
    refuses (step (armAt 0x1000 0x10 0xE1B0F00E [])) .noSpsr = true ∧
    refuses (step (armAt 0x1000 0x13 0xE121F000 [(.r0, 0x30)])) .msrSetsStateBits = true ∧
    refuses (step (armAt 0x1000 0x10 0xE12FFF10 [(.r0, 0x2002)])) .armTargetBit1 = true ∧
    refuses (step (armAt 0x1000 0x10 0xE1D100B2 [(.r1, 0x101)])) .misalignedHalfword = true ∧
    refuses (step (armAt 0x1000 0x10 0xE1C020D0 [(.r0, 0x104)])) .misalignedDoubleword = true ∧
    refuses (step (armAt 0x1000 0x10 0xE12FFF20 [])) .jazelleEntry = true ∧
    faults (step (armAt 0x1000 0x00 0xE3A00001 [])) .illegalMode = true ∧
    faults (step (armAt 0x1000 0x10 0xE5910000 [(.r1, 0x800)])) .unwrittenByte = true := by decide +kernel

/-- R80, D7: a store to an instruction that has been executed, STR r0,[r1] to itself. -/
theorem test_store_to_executed :
    refuses (step (armAt 0x1000 0x10 0xE5810000 [(.r1, 0x1000)])) .storeToFetched = true := by decide +kernel

/-- R76: LDR r0,[r1] after a device has written a byte of its word; R80: an instruction that a device has rewritten runs,
unless it has been executed before. -/
theorem test_device_writes :
    ends (step (withDevice [(0x100, 0x55)] (armAt 0x1000 0x10 0xE5910000 [(.r1, 0x100)]))) 0x10 0x1004
      [(.r0, 0x11223355)] [] [] = true ∧
    (let s := withDevice [(0x1000, 2)] (armAt 0x1000 0x10 0xE3A00001 []);
      ends (step s) 0x10 0x1004 [(.r0, 2)] [] [] = true ∧
        refuses (step { s with fetched := [0x1000] }) .fetchOfStored = true) := by decide +kernel

/-- R73, R74, D5: LDR r0,[r1] aborts in Supervisor mode only, LDRT r0,[r1] does not. -/
theorem test_abort_privileged :
    let barrier := withAborts
      [{ base := 0x100, size := 4, kinds := [.read], width := none, privileged := some true, locked := none }];
    ends (step (barrier (armAt 0x1000 0x13 0xE5910000 [(.r1, 0x100)]))) 0x97 0x10 [(.r0, 0)] [] [] = true ∧
      ends (step (barrier (armAt 0x1000 0x10 0xE5910000 [(.r1, 0x100)]))) 0x10 0x1004 [(.r0, 0x11223344)] [] [] = true ∧
      ends (step (barrier (armAt 0x1000 0x13 0xE4B10000 [(.r1, 0x100)]))) 0x13 0x1004 [(.r0, 0x11223344)] [] [] = true := by
  decide +kernel

/-- R72, R74: SWP r0,r2,[r1] makes locked accesses, STR r2,[r1] does not. -/
theorem test_abort_locked :
    let barrier := withAborts
      [{ base := 0x100, size := 4, kinds := [.write], width := none, privileged := none, locked := some true }];
    ends (step (barrier (armAt 0x1000 0x10 0xE1010092 [(.r1, 0x100)]))) 0x97 0x10 [(.r0, 0)] [(0x100, 0x11223344)] [] = true ∧
      ends (step (barrier (armAt 0x1000 0x10 0xE5812000 [(.r1, 0x100), (.r2, 5)]))) 0x10 0x1004 [] [(0x100, 5)] [] = true := by
  decide +kernel

/-- R42, R353: with J = T = 1 an aborted fetch goes before the Undefined instruction exception. -/
theorem test_both_states_abort :
    ends (step (aborting (armAt 0x2000 0x01000030 0 []))) 0x97 0xC [(.r14abt, 0x2004)] [] [(.abt, 0x01000030)] = true ∧
      ends (step (aborting (armAt 0x1000 0x01000030 0 []))) 0x9B 4 [] [] [(.und, 0x01000030)] = true := by decide +kernel

/-- D1, U23: MOVS pc,lr into Jazelle state. -/
theorem test_return_to_jazelle :
    refuses (step (withSpsrs [(.svc, 0x01000010)] (armAt 0x1000 0x13 0xE1B0F00E [(.r14svc, 0x2000)]))) .jazelleEntry = true := by
  decide +kernel

/-- R240, R257: COPROC answers by the privilege; the CDP of a coprocessor that accepts privileged instructions only. -/
theorem test_coprocessor_privilege :
    let withPrivileged := attached
      [{ mask := 0x0F000F10, pattern := 0x0E000100, privileged := some true, answer := some (.accept 0 0 []) }];
    ends (step (withPrivileged (armAt 0x1000 0x13 0xEE2431C5 []))) 0x13 0x1004 [] [] [] = true ∧
      ends (step (withPrivileged (armAt 0x1000 0x10 0xEE2431C5 []))) 0x9B 4 [(.r14und, 0x1004)] [] [(.und, 0x10)] = true := by
  decide +kernel

/-- R256, R405, U25: a coprocessor that waits for ever with interrupts masked; an enabled one is taken (R44). -/
theorem test_waits_for_ever :
    let s := attached [{ mask := 0, pattern := 0, privileged := none, answer := some .wait }]
      (armAt 0x1000 0xD3 0xEE2431C5 []);
    s.stuck = true ∧ ends (step s) 0xD3 0x1000 [] [] [] = true ∧ { s with cpsr := 0x53 }.stuck = false ∧
      ends (step { s with cpsr := 0x53, pins := [{ reset := false, fiq := false, irq := true, mem := [] }] }) 0xD2 0x18
        [(.r14irq, 0x1004)] [] [(.irq, 0x53)] = true := by decide +kernel

/-! ### Reset (R45, R400) -/

theorem test_reset_status : State.reset.cpsr = 0xD3#32 ∧ State.reset.pc = 0#32 := by decide
theorem test_reset_form : State.reset.memoryWf := by simp only [State.memoryWf]; decide
theorem test_reset_hivecs : (State.resetWith { defaultConfig with hiVecs := true }).pc = 0xFFFF0000#32 := by decide
theorem test_reset_runs :
    ends (step (State.reset.withFetchWord 32 0xE3A00001)) 0xD3 4 [(.r0, 1)] [] [] = true ∧
      ends (step (State.reset.withFetchWord 16 0x20FF)) 0xF3 2 [(.r0, 0xFF)] [] [] = true := by decide +kernel

/-! ### Witnesses: a state and operands that meet the hypotheses of each obligation, clause by clause -/

/-- User mode, ARM state, with addresses of data words in r1 and r2. -/
def user : State := armAt 0x1000 0x10 0xE3A00001 [(.r1, 0x100), (.r2, 0x108), (.r3, 3), (.r14, 0x2000)]

/-- Supervisor mode, with a saved User-mode status. -/
def svc : State :=
  withSpsrs [(.svc, 0x10)] (armAt 0x1000 0x13 0xE3A00001 [(.r1, 0x100), (.r2, 0x108), (.r3, 3), (.r14svc, 0x2000)])

/-- User mode, Thumb state. -/
def low : State := thumbAt 0x1000 0x30 0x20FF [(.r1, 0x100), (.r2, 4), (.r3, 3), (.r13, 0x104), (.r14, 0x1004)]

theorem witness_round_trips :
    (Instr.ldc .ne true false false true 15#4 1#4 15#4 0xFF#8).wellFormed = true ∧
      encode (.ldc .ne true false false true 15#4 1#4 15#4 0xFF#8) = .arm 0x1D3F1FFF#32 ∧
      decodeArm 0x1D3F1FFF#32 = .instr (.ldc .ne true false false true 15#4 1#4 15#4 0xFF#8) ∧
      (Instr.thumbCmpHigh 15#4 7#4).wellFormed = true ∧ encode (.thumbCmpHigh 15#4 7#4) = .thumb 0x457F#16 ∧
      decodeThumb 0x457F#16 = .instr (.thumbCmpHigh 15#4 7#4) := by decide +kernel

theorem witness_StepRunsDecoded :
    (user.quiet ∧ user.legalMode ∧ user.pastTop = false ∧ psrJ user.cpsr = false ∧ psrT user.cpsr = false ∧
      bankedHazard (.movImm .al false 0#4 0#4 1#8) user = false ∧
      user.aborts .fetch .word (wordAlign user.pc) user.privileged = false ∧
      user.sampled.wordAt (wordAlign user.pc) = some 0xE3A00001#32 ∧
      overlaps user.sampled.stored (wordAlign user.pc).toNat 4 = false ∧
      decodeArm 0xE3A00001#32 = .instr (.movImm .al false 0#4 0#4 1#8)) ∧
    (low.quiet ∧ low.legalMode ∧ low.pastTop = false ∧ psrJ low.cpsr = false ∧ psrT low.cpsr = true ∧
      bankedHazard (.thumbMovImm 0#3 0xFF#8) low = false ∧
      low.aborts .fetch .half (halfAlign low.pc) low.privileged = false ∧
      low.sampled.halfAt (halfAlign low.pc) = some 0x20FF#16 ∧
      overlaps low.sampled.stored (halfAlign low.pc).toNat 2 = false ∧
      decodeThumb 0x20FF#16 = .instr (.thumbMovImm 0#3 0xFF#8)) := by
  simp only [State.quiet, State.legalMode]; decide +kernel

theorem witness_BoundaryExceptions :
    (let s := withDevice [(0x200, 1), (0x200, 2)] { user with fetched := [0x200] };
      0x300 ∉ s.sample.mem.map Prod.fst ∧ s.sample.mem = [(0x200, 1)] ++ (0x200, 2) :: [] ∧ 0x200 ∈ s.fetched ∧
        (0x200, 2) ∈ s.sample.mem) ∧
    (let s := withPins true true 0x10;
      s.sample.reset = false ∧ s.legalMode ∧ s.pastTop = false ∧ s.sample.fiq = true ∧ psrF s.cpsr = false) ∧
    (let s := withPins true true 0x50;
      s.sample.reset = false ∧ s.legalMode ∧ s.pastTop = false ∧ psrF s.cpsr = true ∧ s.sample.irq = true ∧
        psrI s.cpsr = false) ∧
    (let s := aborting (armAt 0x2000 0x10 0 []);
      s.quiet ∧ s.legalMode ∧ s.pastTop = false ∧ psrT s.cpsr = false ∧
        s.aborts .fetch .word (wordAlign s.pc) s.privileged = true) ∧
    (let s := aborting (thumbAt 0x20FE 0x30 0 []);
      s.quiet ∧ s.legalMode ∧ s.pastTop = false ∧ psrT s.cpsr = true ∧
        s.aborts .fetch .half (halfAlign s.pc) s.privileged = true) := by
  simp only [State.quiet, State.legalMode]; decide +kernel

theorem witness_ResetEntry :
    ({ user with pins := [{ reset := true, fiq := false, irq := false, mem := [] }] } : State).sample.reset = true := by
  decide

theorem witness_BothStatesUndefined :
    let s := armAt 0x1000 0x01000030 0 [];
    s.quiet ∧ s.legalMode ∧ s.pastTop = false ∧ psrJ s.cpsr = true ∧ psrT s.cpsr = true ∧
      s.aborts .fetch .half (halfAlign s.pc) s.privileged = false := by
  simp only [State.quiet, State.legalMode]; decide +kernel

/-- A machine whose coprocessors wait for ever, about to execute CDP with both interrupts masked. -/
def waiting : State :=
  attached [{ mask := 0, pattern := 0, privileged := none, answer := some .wait }] (armAt 0x1000 0xD3 0xEE2431C5 [])

theorem witness_StoppedBoundaries :
    (let s := armAt 0x1000 0x00 0 []; s.sample.reset = false ∧ ¬s.legalMode ∧ s.stuck = true) ∧
    (let s : State := { user with pc := 0, pastTop := true };
      s.sample.reset = false ∧ s.legalMode ∧ s.pastTop = true) ∧
    (let s := armAt 0x1000 0x01000010 0 [];
      s.quiet ∧ s.legalMode ∧ s.pastTop = false ∧ psrJ s.cpsr = true ∧ psrT s.cpsr = false ∧
        s.aborts .fetch .word (wordAlign s.pc) s.privileged = false) ∧
    (let s : State := { user with pc := 0x3000 };
      s.quiet ∧ s.legalMode ∧ s.aborts .fetch .word (wordAlign s.pc) s.privileged = false ∧
        s.sampled.wordAt (wordAlign s.pc) = none) ∧
    (let s : State := { user with stored := [0x1003] };
      s.quiet ∧ s.sampled.wordAt (wordAlign s.pc) = some 0xE3A00001#32 ∧
        overlaps s.sampled.stored (wordAlign s.pc).toNat 4 = true) ∧
    (let s := armAt 0x1000 0x10 0xF0000000 [];
      s.quiet ∧ s.sampled.wordAt (wordAlign s.pc) = some 0xF0000000#32 ∧
        overlaps s.sampled.stored (wordAlign s.pc).toNat 4 = false ∧ decodeArm 0xF0000000#32 = .rejected .unallocated) ∧
    (let s : State := { armAt 0x1000 0x11 0xE1A00008 [] with userLdm := true };
      s.quiet ∧ s.sampled.wordAt (wordAlign s.pc) = some 0xE1A00008#32 ∧
        decodeArm 0xE1A00008#32 = .instr (.movShift .al false 0#4 0#5 .lsl 8#4) ∧
        bankedHazard (.movShift .al false 0#4 0#5 .lsl 8#4) s = true) := by
  simp only [State.quiet, State.legalMode]; decide +kernel

/-- Its clauses for Thumb state, and a machine that is stuck by a coprocessor. -/
theorem witness_StoppedBoundaries_thumb :
    (let s : State := { low with pc := 0x3000 };
      s.quiet ∧ s.legalMode ∧ s.pastTop = false ∧ psrJ s.cpsr = false ∧ psrT s.cpsr = true ∧
        s.aborts .fetch .half (halfAlign s.pc) s.privileged = false ∧ s.sampled.halfAt (halfAlign s.pc) = none) ∧
    (let s : State := { low with stored := [0x1001] };
      s.quiet ∧ s.sampled.halfAt (halfAlign s.pc) = some 0x20FF#16 ∧
        overlaps s.sampled.stored (halfAlign s.pc).toNat 2 = true) ∧
    (let s := thumbAt 0x1000 0x30 0x4408 [];
      s.quiet ∧ s.sampled.halfAt (halfAlign s.pc) = some 0x4408#16 ∧
        overlaps s.sampled.stored (halfAlign s.pc).toNat 2 = false ∧ decodeThumb 0x4408#16 = .rejected .lowLowHighForm) ∧
    (waiting.sample.reset = false ∧ waiting.stuck = true) := by
  simp only [State.quiet, State.legalMode]; decide +kernel

theorem witness_TrapInstructions :
    condPassed .al user.cpsr = true ∧
    (Instr.swi .al 0xFFFFFF#24, Exception.swi, user.nextPc) ∈ [(Instr.swi .al 0xFFFFFF#24, Exception.swi, user.nextPc)] ∧
    (low.nextPc = 0x1002#32 ∧ user.nextPc = 0x1004#32) := by decide +kernel

theorem witness_ExceptionReturn :
    condPassed .al svc.cpsr = true ∧ svc.spsr.get svc.mode = some 0x10#32 ∧ user.spsr.get user.mode = none ∧
    (Instr.subImm .al true 14#4 15#4 0#4 4#8, (addWithCarry (svc.reg 14#4) (~~~(svc.immOperand 0#4 4#8).value) true)) ∈
      (arithImm .al true 14#4 15#4 0#4 4#8).zip
        (arithSums (svc.reg 14#4) (svc.immOperand 0#4 4#8).value (psrC svc.cpsr)) ∧
    (Instr.movShift .al true 15#4 0#5 .lsl 14#4, (svc.shiftOperand 14#4 .lsl 0#5).value) ∈
      (logicalShift .al true 0#4 15#4 0#5 .lsl 14#4).zip
        (logicalValues (svc.reg 0#4) (svc.shiftOperand 14#4 .lsl 0#5).value) ∧
    inJazelle 0x10#32 = false ∧ returnAligned 0x10#32 (svc.shiftOperand 14#4 .lsl 0#5).value = true ∧
    returnAligned 0x10#32 (svc.shiftOperand 3#4 .lsl 0#5).value = false ∧
    (let s := withSpsrs [(.svc, 0x01000010)] svc;
      s.spsr.get s.mode = some 0x01000010#32 ∧ psrJ 0x01000010#32 = true ∧ psrT 0x01000010#32 = false) := by
  decide +kernel

theorem witness_BranchByDataProcessing :
    condPassed .al user.cpsr = true ∧
    (Instr.movShift .al false 15#4 0#5 .lsl 14#4, (user.shiftOperand 14#4 .lsl 0#5).value) ∈
      (logicalShift .al false 0#4 15#4 0#5 .lsl 14#4).zip
        (logicalValues (user.reg 0#4) (user.shiftOperand 14#4 .lsl 0#5).value) ∧
    (user.shiftOperand 14#4 .lsl 0#5).value.toNat % 4 = 0 ∧ (user.shiftOperand 3#4 .lsl 0#5).value.toNat % 4 ≠ 0 := by
  decide +kernel

theorem witness_LogicalToRegister :
    condPassed .al user.cpsr = true ∧ 14#4 ≠ 15#4 ∧
    (Instr.andImm .al true 1#4 14#4 0#4 1#8, user.reg 1#4 &&& (user.immOperand 0#4 1#8).value) ∈
      (logicalImm .al true 1#4 14#4 0#4 1#8).zip (logicalValues (user.reg 1#4) (user.immOperand 0#4 1#8).value) ∧
    (Instr.mvnShift .al true 14#4 31#5 .ror 15#4, ~~~(user.shiftOperand 15#4 .ror 31#5).value) ∈
      (logicalShift .al true 15#4 14#4 31#5 .ror 15#4).zip
        (logicalValues (user.reg 15#4) (user.shiftOperand 15#4 .ror 31#5).value) ∧
    (Instr.bicRegShift .al true 1#4 14#4 3#4 .asr 2#4, user.reg 1#4 &&& ~~~(user.regShiftOperand 2#4 3#4 .asr).value) ∈
      (logicalRegShift .al true 1#4 14#4 3#4 .asr 2#4).zip
        (logicalValues (user.reg 1#4) (user.regShiftOperand 2#4 3#4 .asr).value) := by decide +kernel

theorem witness_ArithmeticToRegister :
    condPassed .al user.cpsr = true ∧ 14#4 ≠ 15#4 ∧
    (Instr.addImm .al true 1#4 14#4 0#4 1#8, addWithCarry (user.reg 1#4) (user.immOperand 0#4 1#8).value false) ∈
      (arithImm .al true 1#4 14#4 0#4 1#8).zip
        (arithSums (user.reg 1#4) (user.immOperand 0#4 1#8).value (psrC user.cpsr)) ∧
    (Instr.rscShift .al true 15#4 14#4 31#5 .lsr 15#4,
        addWithCarry (user.shiftOperand 15#4 .lsr 31#5).value (~~~user.reg 15#4) (psrC user.cpsr)) ∈
      (arithShift .al true 15#4 14#4 31#5 .lsr 15#4).zip
        (arithSums (user.reg 15#4) (user.shiftOperand 15#4 .lsr 31#5).value (psrC user.cpsr)) ∧
    (Instr.sbcRegShift .al true 1#4 14#4 3#4 .asr 2#4,
        addWithCarry (user.reg 1#4) (~~~(user.regShiftOperand 2#4 3#4 .asr).value) (psrC user.cpsr)) ∈
      (arithRegShift .al true 1#4 14#4 3#4 .asr 2#4).zip
        (arithSums (user.reg 1#4) (user.regShiftOperand 2#4 3#4 .asr).value (psrC user.cpsr)) := by decide +kernel

theorem witness_TestsAndCompares :
    condPassed .al user.cpsr = true ∧
    (Instr.teqShift .al 15#4 0#5 .lsl 15#4, user.reg 15#4 ^^^ (user.shiftOperand 15#4 .lsl 0#5).value) ∈
      [(.tstShift .al 15#4 0#5 .lsl 15#4, user.reg 15#4 &&& (user.shiftOperand 15#4 .lsl 0#5).value),
        (.teqShift .al 15#4 0#5 .lsl 15#4, user.reg 15#4 ^^^ (user.shiftOperand 15#4 .lsl 0#5).value)] ∧
    (Instr.cmnRegShift .al 14#4 3#4 .ror 2#4,
        addWithCarry (user.reg 14#4) (user.regShiftOperand 2#4 3#4 .ror).value false) ∈
      [(.cmpRegShift .al 14#4 3#4 .ror 2#4,
          addWithCarry (user.reg 14#4) (~~~(user.regShiftOperand 2#4 3#4 .ror).value) true),
        (.cmnRegShift .al 14#4 3#4 .ror 2#4,
          addWithCarry (user.reg 14#4) (user.regShiftOperand 2#4 3#4 .ror).value false)] := by decide +kernel

theorem witness_UnpredictableRefused :
    condPassed .al user.cpsr = true ∧
    Instr.mvnRegShift .al true 0#4 15#4 .lsl 1#4 ∈
      logicalRegShift .al true 1#4 0#4 15#4 .lsl 1#4 ++ arithRegShift .al true 1#4 0#4 15#4 .lsl 1#4 ∧
    Instr.bicRegShift .al true 15#4 0#4 2#4 .lsl 1#4 ∈
      (logicalRegShift .al true 15#4 0#4 2#4 .lsl 1#4).take 4 ++ arithRegShift .al true 15#4 0#4 2#4 .lsl 1#4 ∧
    15#4 ∈ [0#4, 2#4, 15#4] ∧ 15#4 ∉ [0#4, 1#4, 2#4, 0#4] ∧
    Instr.mla .al true 0#4 1#4 2#4 0#4 ∈ [Instr.mul .al true 0#4 2#4 0#4, .mla .al true 0#4 1#4 2#4 0#4] := by
  decide +kernel

/-- The single transfers: the base, the offset register, a destination of r15, and an odd address. -/
theorem witness_UnpredictableRefused_transfers :
    (Instr.ldrtImm .al true 15#4 0#4 4#12, Access.read, Width.word, false, user.immAddress .post true 15#4 4#12) ∈
      user.immTransfers .al .offset true 15#4 0#4 4#12 4#8 ∧
    (user.immAddress .post true 15#4 4#12).writeBack = true ∧ 1#4 ≠ 15#4 ∧
    (Instr.ldrshImm .al .pre true 1#4 0#4 1#8, Access.read, Width.half, user.privileged, user.immAddress .pre true 1#4 1#8) ∈
      user.immTransfers .al .pre true 1#4 0#4 0#12 1#8 ∧
    baseOk (user.immAddress .pre true 1#4 1#8).writeBack 1#4 0#4 ∧
    (user.immAddress .pre true 1#4 1#8).address.toNat % 2 = 1 := by
  simp only [baseOk]; decide +kernel

/-- The same with a register offset, and in Thumb state. -/
theorem witness_UnpredictableRefused_registers :
    (Instr.strhReg .al .post true 2#4 15#4 3#4, Access.write, Width.half, user.privileged, user.regAddress .post true 2#4 3#4) ∈
      user.regTransfers .al .post true 2#4 15#4 0#5 .lsl 3#4 ∧
    Instr.strhReg .al .post true 2#4 15#4 3#4 ∉
      [.ldrReg .al .post true 2#4 15#4 0#5 .lsl 3#4, .strReg .al .post true 2#4 15#4 0#5 .lsl 3#4] ∧
    regBaseOk (user.regAddress .post true 2#4 3#4).writeBack 2#4 15#4 3#4 ∧
    regBaseOk (user.regAddress .pre true 2#4 3#4).writeBack 2#4 0#4 3#4 ∧
    (user.regAddress .pre true 2#4 3#4).address.toNat % 2 = 1 ∧
    (Instr.thumbStrhReg 3#3 1#3 0#3, Access.write, Width.half, low.reg (lowReg 1#3) + low.reg (lowReg 3#3)) ∈
      low.thumbTransfers 3#3 1#3 0#3 0#5 0#8 ∧
    (low.reg (lowReg 1#3) + low.reg (lowReg 3#3)).toNat % 2 = 1 := by
  simp only [regBaseOk]; decide +kernel

/-- The pairs and the lists. -/
theorem witness_UnpredictableRefused_multiple :
    writesBack .post = true ∧ 1#4 ∈ [0#4, 0#4 + 1#4] ∧ 3#4 ∈ [2#4, 2#4 + 1#4] ∧ 5#4 ∉ [15#4, 2#4, 2#4 + 1#4] ∧
    5#4 ∈ [2#4, 2#4 + 1#4, 5#4] ∧ (0x8002#16).getLsbD (1#4).toNat = true ∧ (0x4000#15).getLsbD (14#4).toNat = true := by
  decide

/-- The stops under r15 and equal registers, by their words. -/
theorem test_unpredictable :
    refuses (step (armAt 0x1000 0x10 0xE16F1F1F [])) .r15Operand = true ∧
    refuses (step (armAt 0x1000 0x10 0xE0810190 [])) .overlappingRegisters = true ∧
    refuses (step (armAt 0x1000 0x10 0xE4911004 [(.r1, 0x100)])) .overlappingRegisters = true ∧
    refuses (step (armAt 0x1000 0x10 0xE8910000 [(.r1, 0x100)])) .emptyRegisterList = true ∧
    refuses (step (armAt 0x1000 0x10 0xE8B10003 [(.r1, 0x100)])) .baseInList = true ∧
    refuses (step (armAt 0x1000 0x10 0xE8A10003 [(.r1, 0x200)])) .baseInList = true ∧
    refuses (step (thumbAt 0x1000 0x30 0xC103 [(.r1, 0x200)])) .baseInList = true ∧
    refuses (step (armAt 0x1000 0x10 0xE19100B3 [(.r1, 0x100), (.r3, 1)])) .misalignedHalfword = true ∧
    refuses (step (thumbAt 0x1000 0x30 0xB400 [(.r13, 0x200)])) .emptyRegisterList = true ∧
    refuses (step (withWords [(0x104, 0x2002)] (thumbAt 0x1000 0x30 0xBD00 [(.r13, 0x104)]))) .armTargetBit1 = true := by
  decide +kernel

/-- The amounts at which the clauses of the shifter operand meet. -/
theorem witness_ShifterOperands :
    ([0, 1, 31, 32, 33, 64, 255].map fun n =>
      ((armAt 0x1000 0x10 0 [(.r2, BitVec.ofNat 32 (n + 256))]).reg 2#4).toNat % 256) = [0, 1, 31, 32, 33, 64, 255] ∧
      64 % 32 = 0 ∧ 33 % 32 ≠ 0 ∧ psrT (armAt 0x1000 0x10 0 []).cpsr = false := by decide +kernel

/-- The bounds of the saturation and of the shift amounts. -/
theorem witness_HelperFunctions :
    (2 ^ 31 - 1 : Int) < 2 ^ 31 ∧ (-2 ^ 31 - 1 : Int) < -2 ^ 31 ∧
    (-2 ^ 31 : Int) ≤ -2 ^ 31 ∧ (2 ^ 31 - 1 : Int) ≤ 2 ^ 31 - 1 ∧ 1 ≤ 32 ∧ 32 ≤ 32 ∧ 31 ≤ 31 := by decide

theorem witness_Multiplies :
    condPassed .al user.cpsr = true ∧ 15#4 ∉ [14#4, 3#4, 2#4, 1#4] ∧ 14#4 ≠ 1#4 ∧
    (Instr.mla .al true 14#4 3#4 2#4 1#4, user.reg 1#4 * user.reg 2#4 + user.reg 3#4) ∈
      [(Instr.mul .al true 14#4 2#4 1#4, user.reg 1#4 * user.reg 2#4),
        (.mla .al true 14#4 3#4 2#4 1#4, user.reg 1#4 * user.reg 2#4 + user.reg 3#4)] := by decide +kernel

theorem witness_LongMultiplies :
    condPassed .al user.cpsr = true ∧ 15#4 ∉ [0#4, 14#4, 2#4, 1#4] ∧ 0#4 ≠ 14#4 ∧ 0#4 ≠ 1#4 ∧ 14#4 ≠ 1#4 ∧
    (0x10800#64).toNat = (user.reg 1#4).toNat * (user.reg 2#4).toNat ∧
    (0x12800#64).toNat =
      ((user.reg 1#4).toNat * (user.reg 2#4).toNat + ((user.reg 0#4).toNat * 2 ^ 32 + (user.reg 14#4).toNat)) % 2 ^ 64 ∧
    (0x10800#64).toInt = (user.reg 1#4).toInt * (user.reg 2#4).toInt := by decide +kernel

theorem witness_HalfwordMultiplies :
    condPassed .al user.cpsr = true ∧ 15#4 ∉ [14#4, 3#4, 2#4, 1#4] ∧ 14#4 ≠ 3#4 ∧
    (Instr.smulWY .al 14#4 2#4 false 1#4,
        BitVec.ofInt 32 ((user.reg 1#4).toInt * halfInt (user.reg 2#4) false / 2 ^ 16)) ∈
      [(Instr.smulXY .al 14#4 2#4 false true 1#4, BitVec.ofInt 32 (halfInt (user.reg 1#4) true * halfInt (user.reg 2#4) false)),
        (.smulWY .al 14#4 2#4 false 1#4,
          BitVec.ofInt 32 ((user.reg 1#4).toInt * halfInt (user.reg 2#4) false / 2 ^ 16))] := by decide +kernel

/-- Doubling beyond both bounds, and just within them. -/
theorem witness_SaturatingArithmetic :
    condPassed .al user.cpsr = true ∧ 15#4 ∉ [1#4, 14#4, 2#4] ∧
    ([0x40000000, 0x3FFFFFFF, 0xC0000000, 0xBFFFFFFF].map fun v =>
      decide (2 * ((armAt 0 0x10 0 [(.r1, v)]).reg 1#4).toInt < -2 ^ 31 ∨
        2 ^ 31 ≤ 2 * ((armAt 0 0x10 0 [(.r1, v)]).reg 1#4).toInt)) = [true, false, false, true] := by decide +kernel

theorem witness_CountLeadingZeros : condPassed .al user.cpsr = true ∧ 14#4 ≠ 15#4 ∧ 0#4 ≠ 15#4 := by decide +kernel

theorem witness_MrsReads :
    condPassed .al svc.cpsr = true ∧ 0#4 ≠ 15#4 ∧ svc.spsr.get svc.mode = some 0x10#32 ∧ user.mode = .usr ∧
    (armAt 0 0x1F 0 []).mode = .sys := by decide +kernel

theorem witness_MsrWrites :
    condPassed .al svc.cpsr = true ∧ 3#4 ≠ 15#4 ∧ svc.privileged = true ∧ user.privileged = false ∧
    (0b0001#4).getLsbD 0 = true ∧ psrT 0x30#32 = true ∧ (0b1000#4).getLsbD 3 = true ∧ psrJ 0x01000000#32 = true ∧
    ¬((0b1111#4).getLsbD 3 = true ∧ psrJ (svc.reg 3#4) = true ∨ (0b1111#4).getLsbD 0 = true ∧ psrT (svc.reg 3#4) = true) ∧
    svc.spsr.get svc.mode = some 0x10#32 ∧ user.spsr.get user.mode = none ∧
    (0x13#32 : Word) = ((0x13#8).setWidth 32 : Word).rotateRight (2 * (0#4).toNat) := by decide +kernel

theorem witness_ArmBranches :
    condPassed .al user.cpsr = true ∧ condPassed .ne user.cpsr = true ∧
    BitVec.ofInt 32 (user.pc.toNat + 8 + 4 * (0xFFFFFE#24).toInt) = user.pc := by decide +kernel

/-- A target for each value of bits [1:0]; 2 is refused. -/
theorem witness_BranchExchange :
    condPassed .al user.cpsr = true ∧ 1#4 ≠ 15#4 ∧
    ([0x2000, 0x2001, 0x2002, 0x2003].map fun v => ((armAt 0 0x10 0 [(.r1, v)]).reg 1#4).toNat % 4) = [0, 1, 2, 3] := by
  decide +kernel

theorem witness_BxjByCondition : condPassed .eq user.cpsr = false ∧ condPassed .al user.cpsr = true := by decide +kernel

theorem witness_SingleLoads :
    condPassed .al user.cpsr = true ∧ 0#4 ≠ 15#4 ∧
    (user.readsWord user.privileged (user.immAddress .pre true 1#4 3#12).address 0x11223344#32 ∧
      baseOk (writesBack .pre) 1#4 0#4) ∧
    (user.readsWord false (user.shiftAddress .post true 1#4 0#5 .lsl 3#4).address 0x11223344#32 ∧
      regBaseOk true 1#4 0#4 3#4) ∧
    (user.shiftAddress .pre false 2#4 1#5 .lsl 3#4, (user.shiftOperand 3#4 .lsl 1#5).value) ∈
      [(user.immAddress .pre false 2#4 0#12, (0#12).setWidth 32),
        (user.shiftAddress .pre false 2#4 1#5 .lsl 3#4, (user.shiftOperand 3#4 .lsl 1#5).value)] ∧
    user.readsByte false (user.immAddress .post true 1#4 0xFFF#12).address 0x44#8 ∧
    user.readsByte user.privileged (user.immAddress .offset true 1#4 0xF#8).address 0xDD#8 ∧
    ((user.immAddress .offset true 2#4 2#8).address.toNat % 2 = 0 ∧
      user.readsHalf user.privileged (user.immAddress .offset true 2#4 2#8).address 0x99AA#16) := by
  simp only [State.readsWord, State.readsByte, State.readsHalf, baseOk, regBaseOk]; decide +kernel

theorem witness_LoadToPc :
    condPassed .al user.cpsr = true ∧ baseOk (writesBack .post) 1#4 15#4 ∧ regBaseOk (writesBack .offset) 1#4 15#4 3#4 ∧
    (user.immAddress .post true 1#4 4#12).address.toNat % 4 = 0 ∧ (0x11223344#32).toNat % 4 ≠ 2 ∧
    user.readsWord user.privileged (user.immAddress .post true 1#4 4#12).address 0x11223344#32 ∧
    (user.shiftAddress .offset true 1#4 0#5 .lsl 3#4).address.toNat % 4 ≠ 0 ∧
    user.readsWord user.privileged (user.shiftAddress .offset true 1#4 0#5 .lsl 3#4).address 0x11223344#32 ∧
    (let s := withWords [(0x100, 0x2002)] user;
      s.readsWord s.privileged (s.immAddress .post true 1#4 4#12).address 0x2002#32 ∧ (0x2002#32).toNat % 4 = 2) := by
  simp only [State.readsWord, baseOk, regBaseOk]; decide +kernel

theorem witness_SingleStores :
    condPassed .al user.cpsr = true ∧
    (user.storesWord user.privileged (user.immAddress .pre false 1#4 0xFFF#12).address ∧ baseOk (writesBack .pre) 1#4 15#4) ∧
    (user.storesWord false (user.shiftAddress .post true 1#4 0#5 .lsl 3#4).address ∧ regBaseOk true 1#4 0#4 3#4) ∧
    user.stores .byte user.privileged (user.immAddress .offset true 1#4 1#12).address ∧
    user.stores .byte false (user.immAddress .post true 1#4 1#12).address ∧
    (user.immAddress .offset true 1#4 2#8).address.toNat % 2 = 0 ∧
    user.stores .half user.privileged (user.immAddress .offset true 1#4 2#8).address ∧
    (let s : State := { user with fetched := [0x102] };
      (Instr.strhImm .al .offset true 1#4 0#4 2#8, Access.write, Width.half, s.privileged,
          s.immAddress .offset true 1#4 2#8) ∈ s.immTransfers .al .offset true 1#4 0#4 0#12 2#8 ∧
        s.aborts .write .half (accessPlace .half (s.immAddress .offset true 1#4 2#8).address) s.privileged = false ∧
        overlaps s.fetched (accessPlace .half (s.immAddress .offset true 1#4 2#8).address).toNat 2 = true ∧
        overlaps s.fetched (accessPlace .word (s.immAddress .offset true 1#4 3#12).address).toNat 4 = true) := by
  simp only [State.storesWord, State.stores, baseOk, regBaseOk]; decide +kernel

theorem witness_DoublewordTransfers :
    condPassed .al user.cpsr = true ∧ (15#4 ≠ 1#4 ∧ 1#4 ≠ 12#4 ∧ 1#4 ≠ 12#4 + 1) ∧
    (15#4 ≠ 3#4 ∧ 3#4 ≠ 12#4 ∧ 3#4 ≠ 12#4 + 1) ∧ (13#4).toNat % 2 = 1 ∧ (12#4).toNat % 2 = 0 ∧ 12#4 ≠ 14#4 ∧
    (user.immAddress .offset true 1#4 4#8).address.toNat % 8 ≠ 0 ∧
    (user.immAddress .pre true 1#4 8#8).address.toNat % 8 = 0 ∧
    user.readsWord user.privileged (user.immAddress .pre true 1#4 8#8).address 0x99AABBCC#32 ∧
    user.readsWord user.privileged ((user.immAddress .pre true 1#4 8#8).address + 4) 0xDDEEFF00#32 ∧
    user.storesWord user.privileged (user.immAddress .pre true 1#4 8#8).address ∧
    user.storesWord user.privileged ((user.immAddress .pre true 1#4 8#8).address + 4) := by
  simp only [State.readsWord, State.storesWord, State.stores]; decide +kernel

/-- The four data words from 0x100 on, for transfers of several words. -/
def dataWord (k : Nat) : Word := [0x11223344#32, 0x55667788#32, 0x99AABBCC#32, 0xDDEEFF00#32].getD k 0

theorem witness_LoadMultiple :
    condPassed .al user.cpsr = true ∧ 1#4 ≠ 15#4 ∧ 0x8001#16 ≠ 0#16 ∧ (0x8001#16).getLsbD (1#4).toNat = false ∧
    multipleStart false true (user.reg 1#4) 2 = 0x100#32 ∧ (listed 0x8001#16).length = 2 ∧
    (∀ k < 2, user.readsWord user.privileged (wordPlace 0x100#32 k) (dataWord k)) ∧
    (0x8001#16).getLsbD 15 = true ∧ (dataWord 1).toNat % 4 ≠ 2 ∧ (0x0001#16).getLsbD 15 = false ∧
    (let s := withWords [(0x104, 0x2002)] user;
      s.readsWord s.privileged (wordPlace 0x100#32 1) 0x2002#32 ∧ (0x2002#32).toNat % 4 = 2) := by
  simp only [State.readsWord]; decide +kernel

theorem witness_LoadMultipleUser :
    condPassed .al svc.cpsr = true ∧ 1#4 ≠ 15#4 ∧ 0x6000#15 ≠ 0#15 ∧ user.spsr.get user.mode = none ∧
    svc.spsr.get svc.mode ≠ none ∧ (listed ((0x6000#15).setWidth 16)).length = 2 ∧
    multipleStart false true (svc.reg 1#4) 2 = 0x100#32 ∧
    (∀ k < 2, svc.readsWord svc.privileged (wordPlace 0x100#32 k) (dataWord k)) := by
  simp only [State.readsWord]; decide +kernel

theorem witness_LoadMultipleReturn :
    condPassed .al svc.cpsr = true ∧ 1#4 ≠ 15#4 ∧ (0x000C#15).getLsbD (1#4).toNat = false ∧
    svc.spsr.get svc.mode = some 0x10#32 ∧ user.spsr.get user.mode = none ∧ (listed (withPc 0x000C#15)).length = 3 ∧
    multipleStart false true (svc.reg 1#4) 3 = 0x100#32 ∧
    (∀ k < 3, svc.readsWord svc.privileged (wordPlace 0x100#32 k) (dataWord k)) ∧
    inJazelle 0x10#32 = false ∧ returnAligned 0x10#32 (dataWord 2) = true ∧ returnAligned 0x10#32 0x2002#32 = false ∧
    (let s := withSpsrs [(.svc, 0x01000010)] svc;
      s.spsr.get s.mode = some 0x01000010#32 ∧ psrJ 0x01000010#32 = true ∧ psrT 0x01000010#32 = false ∧
        ∀ k < 3, s.readsWord s.privileged (wordPlace 0x100#32 k) (dataWord k)) := by
  simp only [State.readsWord]; decide +kernel

theorem witness_StoreMultiple :
    condPassed .al svc.cpsr = true ∧ 1#4 ≠ 15#4 ∧ 0x8006#16 ≠ 0#16 ∧ (listed 0x8006#16).length = 3 ∧
    lowestIfListed 1#4 (listed 0x8006#16) ∧ ¬ lowestIfListed 1#4 (listed 0x8003#16) ∧
    multipleStart true false (svc.reg 1#4) 3 = 0xF4#32 ∧
    (∀ k < 3, svc.storesWord svc.privileged (wordPlace 0xF4#32 k)) ∧ svc.spsr.get svc.mode ≠ none ∧
    user.spsr.get user.mode = none := by
  simp only [State.storesWord, State.stores, lowestIfListed]; decide +kernel

theorem witness_Swaps :
    condPassed .al user.cpsr = true ∧ 15#4 ∉ [1#4, 0#4, 3#4] ∧ 1#4 ≠ 3#4 ∧ 1#4 ≠ 0#4 ∧
    user.readsWord user.privileged (user.reg 1#4) 0x11223344#32 true ∧
    user.storesWord user.privileged (user.reg 1#4) true ∧ user.readsByte user.privileged (user.reg 1#4) 0x44#8 true ∧
    user.stores .byte user.privileged (user.reg 1#4) true := by
  simp only [State.readsWord, State.readsByte, State.storesWord, State.stores]; decide +kernel

theorem witness_PreloadNoEffect : 14#4 ≠ 15#4 := by decide

/-- Supervisor mode with an aborting address in r1, and in r2 that of the word before it, which holds 7. -/
def barred : State :=
  withSpsrs [(.svc, 0x10)] (withWords [(0x4FFFFFFC, 7)]
    (aborting (armAt 0x1000 0x13 0xE3A00001 [(.r1, 0x50000000), (.r2, 0x4FFFFFFC)])))

/-- Thumb state with the same addresses, and an aborting one in r13. -/
def barredLow : State :=
  withWords [(0x4FFFFFFC, 7)]
    (aborting (thumbAt 0x1000 0x30 0x20FF [(.r1, 0x50000000), (.r2, 0x4FFFFFFC), (.r13, 0x50000004)]))

theorem witness_DataAbortKeepsState :
    (condPassed .al barred.cpsr = true ∧
      (Instr.ldrImm .al .pre true 1#4 15#4 3#12, Access.read, Width.word, barred.privileged,
        barred.immAddress .pre true 1#4 3#12) ∈ barred.immTransfers .al .pre true 1#4 15#4 3#12 0#8 ∧
      baseOk (barred.immAddress .pre true 1#4 3#12).writeBack 1#4 15#4 ∧
      barred.aborts .read .word (accessPlace .word (barred.immAddress .pre true 1#4 3#12).address) barred.privileged = true) ∧
    ((Instr.strtReg .al true 1#4 0#4 0#5 .lsl 3#4, Access.write, Width.word, false,
        barred.shiftAddress .post true 1#4 0#5 .lsl 3#4) ∈ barred.regTransfers .al .post true 1#4 0#4 0#5 .lsl 3#4 ∧
      regBaseOk (barred.shiftAddress .post true 1#4 0#5 .lsl 3#4).writeBack 1#4 0#4 3#4 ∧
      barred.aborts .write .word (accessPlace .word (barred.shiftAddress .post true 1#4 0#5 .lsl 3#4).address) false = true) ∧
    ((Instr.thumbStrhImm 31#5 1#3 0#3, Access.write, Width.half,
        barredLow.reg (lowReg 1#3) + 2 * (31#5).setWidth 32) ∈ barredLow.thumbTransfers 0#3 1#3 0#3 31#5 0#8 ∧
      accessAllowed .half (barredLow.reg (lowReg 1#3) + 2 * (31#5).setWidth 32) ∧
      barredLow.aborts .write .half (accessPlace .half (barredLow.reg (lowReg 1#3) + 2 * (31#5).setWidth 32))
        barredLow.privileged = true) := by
  simp only [baseOk, regBaseOk, accessAllowed]; decide +kernel

/-- Its clause for SWP: the read aborts, and the write alone aborts. -/
theorem witness_DataAbortKeepsState_swaps :
    15#4 ∉ [1#4, 0#4, 3#4] ∧ 1#4 ≠ 3#4 ∧ 1#4 ≠ 0#4 ∧
    (Instr.swp .al 1#4 0#4 3#4, Width.word) ∈ [(.swp .al 1#4 0#4 3#4, .word), (.swpb .al 1#4 0#4 3#4, .byte)] ∧
    barred.aborts .read .word (accessPlace .word (barred.reg 1#4)) barred.privileged true = true ∧
    (let s := withAborts
        [{ base := 0x100, size := 4, kinds := [.write], width := none, privileged := none, locked := some true }] user;
      s.readsWord s.privileged (s.reg 1#4) 0x11223344#32 true ∧
        s.aborts .write .word (accessPlace .word (s.reg 1#4)) s.privileged true = true) := by
  simp only [State.readsWord]; decide +kernel

/-- Of the loads: LDM in its three forms, LDRD, POP and LDMIA. -/
theorem witness_MultipleTransferAborts_loads :
    condPassed .al barred.cpsr = true ∧ 2#4 ≠ 15#4 ∧ barred.spsr.get barred.mode = some 0x10#32 ∧
    ((0x8009#16).getLsbD (2#4).toNat = false ∧ (listed 0x8009#16).length = 3 ∧ (listed (withPc 0x0009#15)).length = 3 ∧
      (listed ((0x0015#15).setWidth 16)).length = 3 ∧ multipleStart false true (barred.reg 2#4) 3 = 0x4FFFFFFC#32 ∧
      barred.readAborts 0x4FFFFFFC#32 3 1 (fun _ => 7#32)) ∧
    (barred.pairTransfer .al .offset true 1#4 12#4 3#4 0#8 (barred.immAddress .offset true 1#4 0#8)
        (.ldrdImm .al .offset true 1#4 12#4 0#8) true ∧
      (barred.immAddress .offset true 1#4 0#8).address = 0x50000000#32 ∧
      barred.readAborts 0x50000000#32 2 0 (fun _ => 7#32)) ∧
    ((thumbListed 0x10#8 true 15#4).length = 2 ∧ barredLow.readAborts (barredLow.reg 13#4) 2 0 (fun _ => 7#32)) ∧
    ((thumbListed 0x05#8 false 0#4).length = 2 ∧ barredLow.readAborts (barredLow.reg (lowReg 2#3)) 2 1 (fun _ => 7#32)) := by
  simp only [State.readAborts, State.readsWord, State.pairTransfer]; decide +kernel

/-- Of the stores: STM in both forms, STRD, PUSH and STMIA. -/
theorem witness_MultipleTransferAborts_stores :
    ((listed 0x8009#16).length = 3 ∧ multipleStart false true (barred.reg 2#4) 3 = 0x4FFFFFFC#32 ∧
      barred.writeAborts 0x4FFFFFFC#32 3 1) ∧
    (barred.pairTransfer .al .offset true 1#4 12#4 3#4 0#8 (barred.immAddress .offset true 1#4 0#8)
        (.strdImm .al .offset true 1#4 12#4 0#8) false ∧ barred.writeAborts 0x50000000#32 2 0) ∧
    ((thumbListed 0x10#8 true 14#4).length = 2 ∧ barredLow.reg 13#4 - BitVec.ofNat 32 (4 * 2) = 0x4FFFFFFC#32 ∧
      barredLow.writeAborts 0x4FFFFFFC#32 2 1) ∧
    ((thumbListed 0x0C#8 false 0#4).length = 2 ∧ barredLow.writeAborts (barredLow.reg (lowReg 2#3)) 2 1) := by
  simp only [State.writeAborts, State.storesWord, State.stores, State.pairTransfer]; decide +kernel

/-- The bases of the stores. -/
theorem witness_MultipleTransferAborts_bases :
    lowestIfListed 2#4 (listed 0x8009#16) ∧ lowestIfListed (lowReg 2#3) (thumbListed 0x0C#8 false 0#4) := by
  simp only [lowestIfListed]; decide +kernel

/-- Of LDC and STC. -/
theorem witness_MultipleTransferAborts_coprocessors :
    let s := answered [.accept 5#32 0#32 [6#32]] barred;
    condPassed .al s.cpsr = true ∧ 1#4 ≠ 14#4 ∧
      s.coprocessor (.ldc .al true true false false 2#4 3#4 1#4 0#8) = (.accept 5#32 0#32 [6#32], { s with cpAnswers := [] }) ∧
      s.coprocessor (.stc2 true true false false 2#4 3#4 1#4 0#8) = (.accept 5#32 0#32 [6#32], { s with cpAnswers := [] }) ∧
      s.cpAddress true true 2#4 0#8 = 0x4FFFFFFC#32 ∧ s.readAborts 0x4FFFFFFC#32 2 1 (fun _ => 7#32) ∧
      s.writeAborts 0x4FFFFFFC#32 2 1 := by
  simp only [State.readAborts, State.writeAborts, State.readsWord, State.storesWord, State.stores]; decide +kernel

/-- No rule, a rule that answers, a rule that leaves the answer to the list; absent, waiting, waiting for ever. -/
theorem witness_CoprocessorAbsentOrWaiting :
    condPassed .al user.cpsr = true ∧ 15#4 ≠ 14#4 ∧ 1#4 ≠ 14#4 ∧ user.config.coprocessors = [] ∧
    user.coprocessor (.cdp .al 2#4 4#4 3#4 15#4 6#3 5#4) = (.absent, user) ∧
    (let s := answered [.wait] user;
      s.config.coprocessors.find? (fun r => cpCovers r (armWord (.cdp .al 2#4 4#4 3#4 1#4 6#3 5#4)) s.privileged) =
          some { mask := 0, pattern := 0, privileged := none, answer := none } ∧ s.cpAnswers = .wait :: [] ∧
        s.coprocessor (.cdp .al 2#4 4#4 3#4 1#4 6#3 5#4) = (.wait, { s with cpAnswers := [] })) ∧
    waiting.waitsForEver (.cdp .al 2#4 4#4 3#4 1#4 6#3 5#4) = true := by
  simp only [cpCovers]; decide +kernel

theorem witness_CoprocessorAccepted :
    let s := answered [.accept 1#32 2#32 []] user;
    condPassed .al s.cpsr = true ∧ 1#4 ≠ 14#4 ∧
      s.coprocessor (.mrrc .al 1#4 0#4 1#4 0#4 5#4) = (.accept 1#32 2#32 [], { s with cpAnswers := [] }) ∧
      s.coprocessor (.mrc2 0#3 2#4 15#4 1#4 0#3 5#4) = (.accept 1#32 2#32 [], { s with cpAnswers := [] }) ∧
      s.coprocessor (.mcrr .al 1#4 15#4 1#4 0#4 5#4) = (.accept 1#32 2#32 [], { s with cpAnswers := [] }) ∧
      s.coprocessor (.mrrc .al 1#4 1#4 1#4 0#4 5#4) = (.accept 1#32 2#32 [], { s with cpAnswers := [] }) ∧
      15#4 ∈ [1#4, 15#4] ∧ 0#4 ≠ 15#4 ∧ 1#4 ≠ 15#4 ∧ 0#4 ≠ 1#4 := by decide +kernel

/-- A list of answers that is used up: an instruction is accepted and goes on (log entry 16). -/
theorem test_answers_used_up :
    ends (exec (.cdp .al 2#4 4#4 3#4 1#4 6#3 5#4) (answered [] user)) 0x10 0x1004 [] [] [] = true := by decide +kernel

theorem witness_CoprocessorTransfers :
    let s := answered [.accept 5#32 0#32 [6#32]] user;
    condPassed .al s.cpsr = true ∧ 1#4 ≠ 14#4 ∧
      s.coprocessor (.ldc .al true true false true 1#4 3#4 1#4 1#8) = (.accept 5#32 0#32 [6#32], { s with cpAnswers := [] }) ∧
      s.coprocessor (.stc .al true true false true 1#4 3#4 1#4 1#8) = (.accept 5#32 0#32 [6#32], { s with cpAnswers := [] }) ∧
      s.coprocessor (.stc2 true true false true 15#4 3#4 1#4 1#8) = (.accept 5#32 0#32 [6#32], { s with cpAnswers := [] }) ∧
      1#4 ≠ 15#4 ∧ [6#32].length < 2 ^ 29 ∧ s.reg 1#4 + 4 * (1#8).setWidth 32 = 0x104#32 ∧
      (∀ k ≤ [6#32].length, s.readsWord s.privileged (wordPlace 0x104#32 k) (dataWord (k + 1))) ∧
      (∀ k ≤ [6#32].length, s.storesWord s.privileged (wordPlace 0x104#32 k)) := by
  simp only [State.readsWord, State.storesWord, State.stores]; decide +kernel

theorem witness_CommsChannel :
    condPassed .al user.cpsr = true ∧ 14#4 ≠ 15#4 ∧ 1#3 ≠ 0#3 ∧ 1#4 ≠ 0#4 ∧ 3 ≤ (3#4).toNat ∧
    Instr.stc2 true true false true 1#4 3#4 14#4 1#8 ∈
      [.ldc2 true true false true 1#4 3#4 14#4 1#8, Instr.stc2 true true false true 1#4 3#4 14#4 1#8] := by decide +kernel

theorem witness_ThumbShifts :
    (Instr.thumbAsrImm 0#5 1#3 0#3, shiftByImm .asr (low.reg (lowReg 1#3)) 0#5 (psrC low.cpsr)) ∈
      [(Instr.thumbLslImm 0#5 1#3 0#3, shiftByImm .lsl (low.reg (lowReg 1#3)) 0#5 (psrC low.cpsr)),
        (.thumbAsrImm 0#5 1#3 0#3, shiftByImm .asr (low.reg (lowReg 1#3)) 0#5 (psrC low.cpsr))] := by decide +kernel

theorem witness_ThumbArithmetic :
    (Instr.thumbSubImm8 0#3 0xFF#8, addWithCarry (low.reg (lowReg 0#3)) (~~~(0xFF#8).setWidth 32) true) ∈
      [(Instr.thumbAddImm8 0#3 0xFF#8, addWithCarry (low.reg (lowReg 0#3)) ((0xFF#8).setWidth 32) false),
        (.thumbSubImm8 0#3 0xFF#8, addWithCarry (low.reg (lowReg 0#3)) (~~~(0xFF#8).setWidth 32) true)] ∧
    (0#3 : LowReg) ≠ 1#3 := by decide +kernel

theorem witness_ThumbHighAndAddress :
    (Instr.thumbMovHigh 8#4 15#4, low.reg 8#4) ∈
      [(Instr.thumbAddHigh 8#4 15#4, low.reg 15#4 + low.reg 8#4), (.thumbMovHigh 8#4 15#4, low.reg 8#4)] ∧
    14#4 ≠ 15#4 := by decide +kernel

theorem witness_ThumbBranches :
    condPassed .ne low.cpsr = true ∧ condPassed .eq low.cpsr = false ∧ 1#4 ≠ 15#4 ∧
    ([0x2000, 0x2001, 0x2002, 0x2003].map fun v => ((thumbAt 0 0x30 0 [(.r1, v)]).reg 1#4).toNat % 4) = [0, 1, 2, 3] := by
  decide +kernel

theorem witness_ThumbLoads :
    low.readsWord low.privileged (low.reg (lowReg 1#3) + low.reg (lowReg 2#3)) 0x55667788#32 ∧
    low.readsByte low.privileged (low.reg (lowReg 1#3) + (0xF#5).setWidth 32) 0xDD#8 ∧
    (low.reg (lowReg 1#3) + 2 * (7#5).setWidth 32).toNat % 2 = 0 ∧
    low.readsHalf low.privileged (low.reg (lowReg 1#3) + 2 * (7#5).setWidth 32) 0xDDEE#16 := by
  simp only [State.readsWord, State.readsByte, State.readsHalf]; decide +kernel

theorem witness_ThumbStores :
    low.storesWord low.privileged (low.reg (lowReg 1#3) + low.reg (lowReg 3#3)) ∧
    low.stores .byte low.privileged (low.reg (lowReg 1#3) + low.reg (lowReg 3#3)) ∧
    (low.reg (lowReg 1#3) + 2 * (31#5).setWidth 32).toNat % 2 = 0 ∧
    low.stores .half low.privileged (low.reg (lowReg 1#3) + 2 * (31#5).setWidth 32) ∧
    (let s : State := { low with fetched := [0x107] };
      (Instr.thumbStrReg 2#3 1#3 0#3, Access.write, Width.word, 0x104#32) ∈ s.thumbTransfers 2#3 1#3 0#3 0#5 0#8 ∧
        accessAllowed .word 0x104#32 ∧ s.aborts .write .word (accessPlace .word 0x104#32) s.privileged = false ∧
        overlaps s.fetched (accessPlace .word 0x104#32).toNat 4 = true) := by
  simp only [State.storesWord, State.stores, accessAllowed]; decide +kernel

theorem witness_ThumbStack :
    (thumbListed 0x10#8 true 14#4 ≠ [] ∧ (thumbListed 0x10#8 true 14#4).length = 2 ∧
      (∀ k < 2, low.storesWord low.privileged (wordPlace (low.reg 13#4 - BitVec.ofNat 32 (4 * 2)) k))) ∧
    ((thumbListed 0x10#8 true 15#4).length = 2 ∧
      (∀ k < 2, low.readsWord low.privileged (wordPlace (low.reg 13#4) k) (dataWord (k + 1))) ∧
      (dataWord 2).toNat % 4 ≠ 2) ∧
    (let s := withWords [(0x104, 0x2002)] low;
      (thumbListed 0#8 true 15#4).length = 1 ∧ (0x2002#32).toNat % 4 = 2 ∧
        ∀ k < 1, s.readsWord s.privileged (wordPlace (s.reg 13#4) k) 0x2002#32) ∧
    Instr.thumbPop false 0#8 ∈ [.thumbPush false 0#8, .thumbPop false 0#8, .thumbStmia 1#3 0#8, .thumbLdmia 1#3 0#8] ∧
    lowestIfListed (lowReg 1#3) (thumbListed 0x06#8 false 0#4) ∧ ¬ lowestIfListed (lowReg 1#3) (thumbListed 0x03#8 false 0#4) ∧
    ((thumbListed 0x06#8 false 0#4).length = 2 ∧
      (∀ k < 2, low.storesWord low.privileged (wordPlace (low.reg (lowReg 1#3)) k)) ∧
      (∀ k < 2, low.readsWord low.privileged (wordPlace (low.reg (lowReg 1#3)) k) (dataWord k))) := by
  simp only [lowestIfListed, State.storesWord, State.stores, State.readsWord]; decide +kernel

/-- The invariants hold in a state whose step goes on. -/
theorem witness_invariants :
    user.memoryWf ∧ user.pcAligned ∧ ends (step user) 0x10 0x1004 [(.r0, 1)] [] [] = true := by
  simp only [State.memoryWf, State.pcAligned]; decide +kernel

theorem witness_UserModeConfined :
    psrM user.cpsr = Mode.usr.bits ∧
    ends (exec (.addImm .al true 0#4 0#4 0#4 1#8) user) 0x10 0x1004 [(.r0, 1)] [] [] = true ∧
    ends (exec (.swi .al 0#24) user) 0x93 8 [(.r14svc, 0x1004)] [] [(.svc, 0x10)] = true := by decide +kernel

theorem witness_StickyFlag :
    ends (exec (.qdadd .al 2#4 0#4 1#4) (armAt 0x1000 0x10 0 [(.r2, 0x40000000)])) 0x08000010 0x1004 [(.r0, 0x7FFFFFFF)]
      [] [] = true := by decide +kernel

/-- An exception return: it takes Q from the SPSR, and is one of those that the statement names. -/
theorem witness_StickyFlag_return :
    ends (exec (.movShift .al true 15#4 0#5 .lsl 14#4) svc) 0x10 0x2000 [] [] [(.svc, 0x10)] = true ∧
    isExceptionReturn (.movShift .al true 15#4 0#5 .lsl 14#4) :=
  ⟨by decide +kernel, .inl ⟨.al, 0#4, 14#4, 0#4, 0#8, 0#5, .lsl, by decide +kernel⟩⟩

theorem witness_ConditionalExecution : condPassed (conditionOf (.swi .eq 0#24)) user.cpsr = false := by decide +kernel

theorem witness_RegisterBanks : (7#4).toNat < 8 ∧ Mode.irq ≠ .fiq ∧ 8 ≤ (12#4).toNat ∧ (12#4).toNat ≤ 12 ∧ 14#4 ≠ 15#4 ∧
    svc.cpsr.extractLsb' 0 5 = Mode.svc.bits := by decide +kernel

theorem witness_MemoryBytes :
    user.byteAt 0x100#32 = some 0x44#8 ∧ user.byteAt (0x100#32 + 1) = some 0x33#8 ∧
    user.byteAt (0x100#32 + 2) = some 0x22#8 ∧ user.byteAt (0x100#32 + 3) = some 0x11#8 := by decide +kernel

end Sys2Proof.Tests
end

section
/-!
PROOFS. What every instruction does to memory: a property of memory, of the lists of addresses and of the parameters
that the store of a byte keeps is kept by every instruction.
-/
namespace Sys2Proof.Machine
open Sys2Proof

/-- `t` holds the same memory, lists of addresses and parameters as `s`. -/
def State.sameMemory (s t : State) : Prop :=
  t.mem = s.mem ∧ t.stored = s.stored ∧ t.fetched = s.fetched ∧ t.config = s.config

/-- A read of a register of coprocessor 14 changes coprocessor 14 only (R252). -/
theorem cp14Read_sameMemory {op1 op2 : BitVec 3} {crn crm : BitVec 4} {s t : State} {v : Word}
    (h : cp14Read op1 crn op2 crm s = some (v, t)) : s.sameMemory t := by
  unfold cp14Read at h
  split at h
  · split at h <;> cases h <;> exact ⟨rfl, rfl, rfl, rfl⟩
  · cases h

/-- A write of a register of coprocessor 14 changes coprocessor 14 only (R252). -/
theorem cp14Write_sameMemory {op1 op2 : BitVec 3} {crn crm : BitVec 4} {s t : State} {v : Word}
    (h : cp14Write op1 crn op2 crm v s = some t) : s.sameMemory t := by
  unfold cp14Write at h
  split at h
  · split at h <;> cases h <;> exact ⟨rfl, rfl, rfl, rfl⟩
  · cases h

/-- A property of states that is about memory, the lists of addresses and the parameters only, and that the store of a
byte by the program keeps. Every instruction keeps such a property (`exec_keeps`). -/
structure MemoryProperty (P : State → Prop) : Prop where
  congr : ∀ {s t : State}, P s → s.sameMemory t → P t
  putByte : ∀ {s : State} (a : Word) (v : Byte), P s → P (s.putByte a v)

namespace MemoryProperty

variable {P : State → Prop} (hP : MemoryProperty P) {s : State} (h : P s)
include hP h

/-! Ends of an instruction -/

theorem next {t : State} (hs : s.sameMemory t) : Leads P (.next t) := Leads.next (hP.congr h hs)

theorem advance : P s.advance := hP.congr h ⟨rfl, rfl, rfl, rfl⟩

theorem exception (e : Exception) (link : Word) : P (takeException e link s) := hP.congr h ⟨rfl, rfl, rfl, rfl⟩

theorem passed {c : Cond} {k : Result} (hk : Leads P k) : Leads P (Machine.whenPassed c s k) :=
  Leads.whenPassed (hP.advance h) fun _ => hk

theorem dataResult {sb : Bool} {rd : Reg} {psr v : Word} : Leads P (Machine.dataResult sb rd psr v s) :=
  Leads.dataResult (fun _ _ _ _ _ _ => hP.congr h (by simp [State.sameMemory]))
    (fun _ => hP.congr h (by simp [State.sameMemory])) (hP.congr h (by simp [State.sameMemory]))
    (hP.congr h (by simp [State.sameMemory]))

theorem branchExchange {v : Word} : Leads P (Machine.branchExchange v s) :=
  Leads.branchExchange fun _ => hP.congr h ⟨rfl, rfl, rfl, rfl⟩

theorem setReg (r : Reg) (v : Word) : P (s.setReg r v) := hP.congr h (by simp [State.sameMemory])

/-- The base of a transfer, which some forms write back. -/
theorem setRegIf (wb : Bool) (r : Reg) (v : Word) : P (if wb then s.setReg r v else s) := by
  cases wb
  · exact h
  · exact hP.setReg h r v

/-- A transfer of control, or the end of a high-register form of Thumb state. -/
theorem thumbHigh {rd : Reg} {v : Word} : Leads P (Machine.thumbHigh rd v s) :=
  Leads.ite (fun _ => hP.next h ⟨rfl, rfl, rfl, rfl⟩) fun _ => Leads.next (hP.advance (hP.setReg h rd v))

theorem msrWith {r : Bool} {mask : BitVec 4} {v : Word} : Leads P (Machine.msrWith r mask v s) := by
  refine Leads.ite (fun _ => ?_) fun _ =>
    Leads.ite (fun _ => Leads.ite (fun _ => ?_) fun _ => Leads.refused) fun _ => ?_
  · cases s.spsr.get s.mode with
    | none => exact Leads.refused
    | some p => exact hP.next h ⟨rfl, rfl, rfl, rfl⟩
  · exact hP.next h ⟨rfl, rfl, rfl, rfl⟩
  · exact hP.next h ⟨rfl, rfl, rfl, rfl⟩

theorem execMrs {r : Bool} {rd : Reg} {c : Cond} : Leads P (Machine.execMrs c r rd s) := by
  refine hP.passed h (Leads.noPc fun _ => Leads.ite (fun _ => ?_) fun _ => Leads.next (hP.advance (hP.setReg h _ _)))
  cases s.spsr.get s.mode with
  | none => exact Leads.refused
  | some p => exact Leads.next (hP.advance (hP.setReg h _ _))

/-! Single loads and stores -/

theorem finishLoad {a : Address} {rn rd : Reg} {v : Word} : Leads P (Machine.finishLoad a rn rd v s) :=
  Leads.finishLoad (hP.congr h (by simp [State.sameMemory]))

theorem finishStore {a : Address} {rn : Reg} : Leads P (Machine.finishStore a rn s) :=
  Leads.finishStore (hP.congr h (by simp [State.sameMemory]))

/-- A load that an instruction ends with a write of the destination and of the base. -/
theorem load {α : Type} {l : Load α} {a : Address} {rn rd : Reg} {f : α → Word} :
    Leads P (withLoad l s fun v => Machine.finishLoad a rn rd (f v) s) :=
  Leads.withLoad (hP.exception h _ _) fun _ => hP.finishLoad h

/-- A load that ends in a low register of Thumb state. -/
theorem thumbLoad {α : Type} {l : Load α} {rd : LowReg} {f : α → Word} :
    Leads P (withLoad l s fun v => thumbLoaded rd (f v) s) :=
  Leads.withLoad (hP.exception h _ _) fun _ => Leads.next (hP.advance (hP.setReg h _ _))

theorem ldrWith {a : Address} {rn rd : Reg} : Leads P (Machine.ldrWith a rn rd s) :=
  Leads.withLoad (hP.exception h _ _) fun _ => Leads.ite
    (fun _ => Leads.ite (fun _ => hP.branchExchange (hP.congr h (by simp [State.sameMemory]))) fun _ => Leads.refused)
    fun _ => hP.finishLoad h

theorem putBytes (a : Word) (bs : List Byte) : P (s.putBytes a bs) := by
  induction bs generalizing s a with
  | nil => exact h
  | cons b bs ih => exact ih (hP.putByte a b h) _

theorem putWord (a v : Word) : P (s.putWord a v) := hP.putBytes h _ _

theorem putHalf (a : Word) (v : Half) : P (s.putHalf a v) := hP.putBytes h _ _

/-- A word stored, and an end of the instruction that keeps the property. -/
theorem storeWord {p locked : Bool} {a v : Word} {f : State → Result} (hf : ∀ {u}, P u → Leads P (f u)) :
    Leads P (withStore (s.storeWord p a v locked) s f) :=
  Leads.storeWord (hP.exception h _ _) (hf (hP.putWord h _ _))

theorem storeHalf {p : Bool} {a : Word} {v : Half} {f : State → Result} (hf : ∀ {u}, P u → Leads P (f u)) :
    Leads P (withStore (s.storeHalf p a v) s f) :=
  Leads.storeHalf (hP.exception h _ _) (hf (hP.putHalf h _ _))

theorem storeByte {p locked : Bool} {a : Word} {v : Byte} {f : State → Result} (hf : ∀ {u}, P u → Leads P (f u)) :
    Leads P (withStore (s.storeByte p a v locked) s f) :=
  Leads.storeByte (hP.exception h _ _) (hf (hP.putByte _ _ h))

/-! Transfers of several words -/

theorem storeWords {t : State} {p : Bool} {a : Word} {ws : List Word}
    (ht : s.storeWords p a ws = .done t ∨ s.storeWords p a ws = .abort t) : P t :=
  State.storeWords_keeps (P := P) (fun _ a v hu => hP.putWord hu a v)
    (fun _ hu => hP.congr hu ⟨rfl, rfl, rfl, rfl⟩) h ht

theorem storeList {a : Word} {ws : List Word} {f : State → Result} (hf : ∀ {u}, P u → Leads P (f u)) :
    Leads P (Machine.storeList s a ws f) :=
  Leads.storeList (fun _ _ hu => hP.exception (hP.storeWords h (.inr hu)) _ _)
    fun _ _ hu => hf (hP.storeWords h (.inl hu))

theorem loadRegs {rs : List Reg} {a : Word} {rn : Reg} {f : List Word → State → Result}
    (hf : ∀ ws {u}, P u → Leads P (f ws u)) : Leads P (Machine.loadRegs s rs a rn f) :=
  Leads.loadRegs (fun _ => hP.exception (hP.congr h (by simp [State.sameMemory])) _ _)
    fun ws => hf ws (hP.congr h (by simp [State.sameMemory]))

theorem ldrdWith {a : Address} {rn rd : Reg} : Leads P (Machine.ldrdWith a rn rd s) :=
  Leads.evenPair (Leads.doubleAligned (hP.loadRegs h fun _ _ ht =>
    Leads.next (hP.congr ht (by simp [State.sameMemory]))))

theorem strdWith {a : Address} {rn rd : Reg} : Leads P (Machine.strdWith a rn rd s) :=
  Leads.evenPair (Leads.doubleAligned (hP.storeList h fun hu => hP.finishStore hu))

theorem execLdm {c : Cond} {p u wb : Bool} {rn : Reg} {list : BitVec 16} :
    Leads P (Machine.execLdm c p u wb rn list s) := by
  refine hP.passed h (Leads.multipleAllowed (Leads.baseNotListed (hP.loadRegs h fun ws t ht => ?_)))
  have hb := hP.setRegIf ht wb rn (multipleBase u (s.reg rn) (listed list).length)
  exact Leads.ite (fun _ => hP.branchExchange hb) fun _ => Leads.next (hP.advance hb)

theorem execLdmUser {c : Cond} {p u : Bool} {rn : Reg} {list : BitVec 15} :
    Leads P (Machine.execLdmUser c p u rn list s) := by
  refine hP.passed h (Leads.multipleAllowed ?_)
  cases s.spsr.get s.mode with
  | none => exact Leads.refused
  | some _ =>
    dsimp only
    split
    · exact hP.next h (by simp [State.sameMemory])
    · exact Leads.next (hP.exception (hP.congr h (by simp [State.sameMemory])) _ _)
    · exact Leads.fault

theorem execLdmRestore {c : Cond} {p u wb : Bool} {rn : Reg} {list : BitVec 15} :
    Leads P (Machine.execLdmRestore c p u wb rn list s) := by
  refine hP.passed h (Leads.multipleAllowed (Leads.baseNotListed ?_))
  cases s.spsr.get s.mode with
  | none => exact Leads.refused
  | some _ =>
    refine hP.loadRegs h fun ws t ht => Leads.exceptionReturn fun _ _ _ _ => ?_
    exact hP.congr (hP.setRegIf ht wb rn _) ⟨rfl, rfl, rfl, rfl⟩

theorem execStmUser {c : Cond} {p u : Bool} {rn : Reg} {list : BitVec 16} :
    Leads P (Machine.execStmUser c p u rn list s) := by
  refine hP.passed h (Leads.multipleAllowed ?_)
  cases s.spsr.get s.mode with
  | none => exact Leads.refused
  | some _ => exact hP.storeList h fun ht => Leads.next (hP.advance ht)

theorem execThumbPush {r : Bool} {list : BitVec 8} : Leads P (Machine.execThumbPush r list s) :=
  Leads.multipleAllowed (hP.storeList h fun hu => Leads.next (hP.advance (hP.setReg hu _ _)))

theorem execThumbPop {r : Bool} {list : BitVec 8} : Leads P (Machine.execThumbPop r list s) :=
  Leads.multipleAllowed (hP.loadRegs h fun _ _ ht => Leads.ite (fun _ => hP.branchExchange (hP.setReg ht _ _))
    fun _ => Leads.next (hP.advance (hP.setReg ht _ _)))

theorem execThumbLdmia {rb : LowReg} {list : BitVec 8} : Leads P (Machine.execThumbLdmia rb list s) := by
  refine Leads.multipleAllowed (hP.loadRegs h fun _ t ht => Leads.next (hP.advance ?_))
  split
  · exact ht
  · exact hP.setReg ht _ _

/-! Coprocessor instructions -/

theorem offer {i : Instr} {f : Word → Word → List Word → State → Result}
    (hf : ∀ first second more {u}, P u → Leads P (f first second more u)) : Leads P (Machine.offer i s f) :=
  Leads.offer (fun _ _ => hP.congr h ⟨rfl, rfl, rfl, rfl⟩) (fun _ _ => hP.congr h ⟨rfl, rfl, rfl, rfl⟩)
    fun _ _ _ _ _ => hf _ _ _ (hP.congr h ⟨rfl, rfl, rfl, rfl⟩)

theorem send (i : Instr) (data : List Word) (complete : Bool) : P (s.send i data complete) :=
  hP.congr h ⟨rfl, rfl, rfl, rfl⟩

theorem mrcResult {rd : Reg} {data : Word} : Leads P (Machine.mrcResult rd data s) :=
  Leads.ite (fun _ => hP.next h ⟨rfl, rfl, rfl, rfl⟩) fun _ => Leads.next (hP.advance (hP.setReg h _ _))

theorem mrcWith {i : Instr} {rd : Reg} : Leads P (Machine.mrcWith i rd s) :=
  hP.offer h fun _ _ _ _ hu => hP.mrcResult (hP.send hu _ _ _)

theorem mcrWith {i : Instr} {rd : Reg} : Leads P (Machine.mcrWith i rd s) :=
  hP.offer h fun _ _ _ _ hu => Leads.noPc fun _ => hP.next hu ⟨rfl, rfl, rfl, rfl⟩

theorem cdpWith {i : Instr} : Leads P (Machine.cdpWith i s) :=
  hP.offer h fun _ _ _ _ hu => hP.next hu ⟨rfl, rfl, rfl, rfl⟩

theorem ldcWith {i : Instr} {p u wb : Bool} {rn : Reg} {off8 : BitVec 8} :
    Leads P (Machine.ldcWith i p u wb rn off8 s) := by
  refine hP.offer h fun _ _ _ t ht => Leads.cpBaseAllowed ?_
  split
  · exact hP.next (hP.setRegIf ht wb rn _) ⟨rfl, rfl, rfl, rfl⟩
  · exact hP.next ht ⟨rfl, rfl, rfl, rfl⟩
  · exact Leads.fault

theorem stcWith {i : Instr} {p u wb : Bool} {rn : Reg} {off8 : BitVec 8} :
    Leads P (Machine.stcWith i p u wb rn off8 s) := by
  refine hP.offer h fun _ _ _ t ht => Leads.cpBaseAllowed ?_
  split
  · rename_i v hv
    exact hP.next (hP.setRegIf (hP.storeWords ht (.inl hv)) wb rn _) ⟨rfl, rfl, rfl, rfl⟩
  · rename_i v hv
    exact hP.next (hP.storeWords ht (.inr hv)) ⟨rfl, rfl, rfl, rfl⟩
  · exact Leads.refused

theorem execMcr {c : Cond} {op1 : BitVec 3} {crn : BitVec 4} {rd : Reg} {cp : BitVec 4} {op2 : BitVec 3}
    {crm : BitVec 4} : Leads P (Machine.execMcr c op1 crn rd cp op2 crm s) := by
  refine hP.passed h (Leads.ite (fun _ => Leads.noPc fun _ => ?_) fun _ => hP.mcrWith h)
  split
  · exact Leads.next (hP.advance (hP.congr h (cp14Write_sameMemory ‹_›)))
  · exact Leads.refused

theorem execMrc {c : Cond} {op1 : BitVec 3} {crn : BitVec 4} {rd : Reg} {cp : BitVec 4} {op2 : BitVec 3}
    {crm : BitVec 4} : Leads P (Machine.execMrc c op1 crn rd cp op2 crm s) := by
  refine hP.passed h (Leads.ite (fun _ => ?_) fun _ => hP.mrcWith h)
  split
  · exact hP.mrcResult (hP.congr h (cp14Read_sameMemory ‹_›))
  · exact Leads.refused

end MemoryProperty

/-- Every instruction keeps a property of memory that the store of a byte keeps: all but the stores change nothing of
what it is about. -/
theorem exec_keeps {P : State → Prop} (hP : MemoryProperty P) {s : State} (h : P s) (i : Instr) :
    Leads P (exec i s) := by
  cases i with
  | andImm | eorImm | subImm | rsbImm | addImm | adcImm | sbcImm | rscImm | orrImm | movImm | bicImm | mvnImm
  | andShift | eorShift | subShift | rsbShift | addShift | adcShift | sbcShift | rscShift | orrShift | movShift
  | bicShift | mvnShift => exact hP.passed h (hP.dataResult h)
  | andRegShift | eorRegShift | subRegShift | rsbRegShift | addRegShift | adcRegShift | sbcRegShift | rscRegShift
  | orrRegShift | movRegShift | bicRegShift | mvnRegShift => exact hP.passed h (Leads.noPc fun _ => hP.dataResult h)
  | tstImm | teqImm | cmpImm | cmnImm | tstShift | teqShift | cmpShift | cmnShift =>
    exact hP.passed h (hP.next h ⟨rfl, rfl, rfl, rfl⟩)
  | tstRegShift | teqRegShift | cmpRegShift | cmnRegShift =>
    exact hP.passed h (Leads.noPc fun _ => hP.next h ⟨rfl, rfl, rfl, rfl⟩)
  | mul | mla =>
    exact hP.passed h (Leads.noPc fun _ => Leads.distinct (hP.next h (by simp [State.sameMemory])))
  | umull | umlal | smull | smlal => exact hP.passed h (Leads.longAllowed (hP.next h (by simp [State.sameMemory])))
  | smlalXY => exact hP.passed h (Leads.noPc fun _ => Leads.distinct (hP.next h (by simp [State.sameMemory])))
  | smlaXY | smlaWY | smulWY | smulXY | clz | qadd | qsub | qdadd | qdsub =>
    exact hP.passed h (Leads.noPc fun _ => hP.next h (by simp [State.sameMemory]))
  | mrs => exact hP.execMrs h
  | msrReg => exact hP.passed h (Leads.noPc fun _ => hP.msrWith h)
  | msrImm => exact hP.passed h (hP.msrWith h)
  | bx => exact hP.passed h (hP.branchExchange h)
  | bxj => exact hP.passed h Leads.refused
  | blxReg => exact hP.passed h (Leads.noPc fun _ => hP.branchExchange (hP.setReg h _ _))
  | b | thumbBCond => exact hP.passed h (hP.next h ⟨rfl, rfl, rfl, rfl⟩)
  | bl => exact hP.passed h (hP.next h (by simp [State.sameMemory]))
  | swi | undefSpace | undefImm => exact hP.passed h (Leads.next (hP.exception h _ _))
  | bkpt | thumbBkpt | thumbUndefCond | thumbSwi | thumbUndefBlx => exact Leads.next (hP.exception h _ _)
  | swp =>
    exact hP.passed h (Leads.noPc fun _ => Leads.distinct (Leads.withLoad (hP.exception h _ _) fun _ =>
      hP.storeWord h fun hu => Leads.next (hP.advance (hP.setReg hu _ _))))
  | swpb =>
    exact hP.passed h (Leads.noPc fun _ => Leads.distinct (Leads.withLoad (hP.exception h _ _) fun _ =>
      hP.storeByte h fun hu => Leads.next (hP.advance (hP.setReg hu _ _))))
  | ldrImm => exact hP.passed h (Leads.baseAllowed (hP.ldrWith h))
  | ldrReg => exact hP.passed h (Leads.regBaseAllowed (hP.ldrWith h))
  | ldrbImm | ldrtImm | ldrbtImm | ldrsbImm => exact hP.passed h (Leads.baseAllowed (Leads.noPc fun _ => hP.load h))
  | ldrbReg | ldrtReg | ldrbtReg | ldrsbReg =>
    exact hP.passed h (Leads.regBaseAllowed (Leads.noPc fun _ => hP.load h))
  | ldrhImm | ldrshImm =>
    exact hP.passed h (Leads.baseAllowed (Leads.noPc fun _ => Leads.evenAddress (hP.load h)))
  | ldrhReg | ldrshReg =>
    exact hP.passed h (Leads.regBaseAllowed (Leads.noPc fun _ => Leads.evenAddress (hP.load h)))
  | strImm => exact hP.passed h (Leads.baseAllowed (hP.storeWord h fun hu => hP.finishStore hu))
  | strReg => exact hP.passed h (Leads.regBaseAllowed (hP.storeWord h fun hu => hP.finishStore hu))
  | strtImm => exact hP.passed h (Leads.baseAllowed (Leads.noPc fun _ => hP.storeWord h fun hu => hP.finishStore hu))
  | strtReg =>
    exact hP.passed h (Leads.regBaseAllowed (Leads.noPc fun _ => hP.storeWord h fun hu => hP.finishStore hu))
  | strbImm | strbtImm =>
    exact hP.passed h (Leads.baseAllowed (Leads.noPc fun _ => hP.storeByte h fun hu => hP.finishStore hu))
  | strbReg | strbtReg =>
    exact hP.passed h (Leads.regBaseAllowed (Leads.noPc fun _ => hP.storeByte h fun hu => hP.finishStore hu))
  | strhImm =>
    exact hP.passed h (Leads.baseAllowed (Leads.noPc fun _ => Leads.evenAddress
      (hP.storeHalf h fun hu => hP.finishStore hu)))
  | strhReg =>
    exact hP.passed h (Leads.regBaseAllowed (Leads.noPc fun _ => Leads.evenAddress
      (hP.storeHalf h fun hu => hP.finishStore hu)))
  | ldrdImm => exact hP.passed h (Leads.pairBaseAllowed (hP.ldrdWith h))
  | ldrdReg => exact hP.passed h (Leads.pairRegBaseAllowed (hP.ldrdWith h))
  | strdImm => exact hP.passed h (Leads.pairBaseAllowed (hP.strdWith h))
  | strdReg => exact hP.passed h (Leads.pairRegBaseAllowed (hP.strdWith h))
  | pldImm => exact Leads.next (hP.advance h)
  | pldReg => exact Leads.noPc fun _ => Leads.next (hP.advance h)
  | ldm => exact hP.execLdm h
  | ldmUser => exact hP.execLdmUser h
  | ldmRestore => exact hP.execLdmRestore h
  | stm =>
    exact hP.passed h (Leads.multipleAllowed (Leads.baseLowest (hP.storeList h fun hu =>
      Leads.next (hP.advance (hP.setRegIf hu _ _ _)))))
  | stmUser => exact hP.execStmUser h
  | blxImm => exact hP.next h (by simp [State.sameMemory])
  | cdp => exact hP.passed h (Leads.notCp14 (hP.cdpWith h))
  | mcr => exact hP.execMcr h
  | mrc => exact hP.execMrc h
  | mcrr =>
    exact hP.passed h (Leads.notCp14 (hP.offer h fun _ _ _ _ hu => Leads.noPc fun _ =>
      hP.next hu ⟨rfl, rfl, rfl, rfl⟩))
  | mrrc =>
    exact hP.passed h (Leads.notCp14 (hP.offer h fun _ _ _ _ hu => Leads.noPc fun _ => Leads.distinct
      (hP.next hu (by simp [State.sameMemory]))))
  | ldc => exact hP.passed h (Leads.notCp14 (hP.ldcWith h))
  | stc => exact hP.passed h (Leads.notCp14 (hP.stcWith h))
  | cdp2 => exact Leads.notCp14 (hP.cdpWith h)
  | mcr2 => exact Leads.notCp14 (hP.mcrWith h)
  | mrc2 => exact Leads.notCp14 (hP.mrcWith h)
  | ldc2 => exact Leads.notCp14 (hP.ldcWith h)
  | stc2 => exact Leads.notCp14 (hP.stcWith h)
  | thumbLslImm | thumbLsrImm | thumbAsrImm | thumbAddReg | thumbSubReg | thumbAddImm3 | thumbSubImm3 | thumbMovImm
  | thumbAddImm8 | thumbSubImm8 | thumbAnd | thumbEor | thumbLslReg | thumbLsrReg | thumbAsrReg | thumbAdc | thumbSbc
  | thumbRorReg | thumbNeg | thumbOrr | thumbBic | thumbMvn | thumbAddPc | thumbAddSp | thumbIncSp | thumbDecSp
  | thumbBlPrefix | thumbBlSuffix | thumbBlxSuffix => exact hP.next h (by simp [State.sameMemory])
  | thumbCmpImm | thumbTst | thumbCmp | thumbCmn | thumbB => exact hP.next h ⟨rfl, rfl, rfl, rfl⟩
  | thumbMul => exact Leads.distinct (hP.next h (by simp [State.sameMemory]))
  | thumbAddHigh | thumbMovHigh => exact hP.thumbHigh h
  | thumbCmpHigh => exact Leads.noPc fun _ => hP.next h ⟨rfl, rfl, rfl, rfl⟩
  | thumbBx => exact hP.branchExchange h
  | thumbBlxReg => exact Leads.noPc fun _ => hP.branchExchange (hP.setReg h _ _)
  | thumbLdrPc | thumbLdrReg | thumbLdrImm | thumbLdrSp | thumbLdrbReg | thumbLdrbImm | thumbLdrsbReg =>
    exact hP.thumbLoad h
  | thumbLdrhReg | thumbLdrhImm | thumbLdrshReg => exact Leads.evenAddress (hP.thumbLoad h)
  | thumbStrReg | thumbStrImm | thumbStrSp => exact hP.storeWord h fun hu => Leads.next (hP.advance hu)
  | thumbStrbReg | thumbStrbImm => exact hP.storeByte h fun hu => Leads.next (hP.advance hu)
  | thumbStrhReg | thumbStrhImm =>
    exact Leads.evenAddress (hP.storeHalf h fun hu => Leads.next (hP.advance hu))
  | thumbPush => exact hP.execThumbPush h
  | thumbPop => exact hP.execThumbPop h
  | thumbStmia =>
    exact Leads.multipleAllowed (Leads.baseLowest (hP.storeList h fun hu =>
      Leads.next (hP.advance (hP.setReg hu _ _))))
  | thumbLdmia => exact hP.execThumbLdmia h

end Sys2Proof.Machine
end

section
/-!
PROOFS. The instruction boundary: what it leads to, that memory keeps its canonical form (O53), and the exceptions it
takes (O6).
-/
namespace Sys2Proof.Machine
open Sys2Proof

/-! ### What a boundary leads to -/

/-- Where a decoded word executes. -/
theorem decoded_run {d : Decoded} {a : Word} {n : Nat} {s u : State} {i : Instr} (h : decoded d a n s = .run i u) :
    d = .instr i ∧ overlaps s.stored a.toNat n = false ∧ bankedHazard i s = false ∧ u = s.fetching a n := by
  unfold decoded at h
  split_ifs at h with ho
  cases d with
  | rejected r => cases h
  | instr j =>
    dsimp only at h
    split_ifs at h with hb
    cases h
    exact ⟨rfl, by simpa using ho, by simpa using hb, rfl⟩

/-- A decoded word never takes an exception at the boundary. -/
theorem decoded_not_entered {d : Decoded} {a : Word} {n : Nat} {s t : State} : decoded d a n s ≠ .entered t := by
  intro h
  unfold decoded at h
  split_ifs at h
  cases d with
  | rejected r => cases h
  | instr j => dsimp only at h; split_ifs at h

/-- The exceptions of a fetch: the Prefetch Abort, or the Undefined instruction exception of J = T = 1. -/
theorem fetch_entered {s t : State} (h : fetch s = .entered t) :
    t = takePrefetchAbort s ∨ psrJ s.cpsr = true ∧ psrT s.cpsr = true ∧ t = takeBothStates s := by
  unfold fetch at h
  split at h
  · unfold fetchArm at h
    split_ifs at h
    · cases h; exact .inl rfl
    · split at h
      · cases h
      · exact absurd h decoded_not_entered
  · unfold fetchThumb at h
    split_ifs at h
    · cases h; exact .inl rfl
    · split at h
      · cases h
      · exact absurd h decoded_not_entered
  · unfold fetchJazelle at h
    split_ifs at h
    cases h; exact .inl rfl
  · unfold fetchBothStates at h
    split_ifs at h <;> cases h
    · exact .inl rfl
    · exact .inr ⟨‹_›, ‹_›, rfl⟩

/-- The instruction that a fetch leads to: it is decoded in the state that J and T select, and its bytes are
remembered. -/
theorem fetch_run {s u : State} {i : Instr} (h : fetch s = .run i u) :
    psrJ s.cpsr = false ∧ bankedHazard i s = false ∧
    ((psrT s.cpsr = false ∧ (∃ w, decodeArm w = .instr i) ∧ u = s.fetching (wordAlign s.pc) 4) ∨
      (psrT s.cpsr = true ∧ (∃ w, decodeThumb w = .instr i) ∧ u = s.fetching (halfAlign s.pc) 2)) := by
  unfold fetch at h
  split at h
  · unfold fetchArm at h
    split_ifs at h
    split at h
    · cases h
    · obtain ⟨hd, -, hb, hu⟩ := decoded_run h
      exact ⟨‹_›, hb, .inl ⟨‹_›, ⟨_, hd⟩, hu⟩⟩
  · unfold fetchThumb at h
    split_ifs at h
    split at h
    · cases h
    · obtain ⟨hd, -, hb, hu⟩ := decoded_run h
      exact ⟨‹_›, hb, .inr ⟨‹_›, ⟨_, hd⟩, hu⟩⟩
  · unfold fetchJazelle at h
    split_ifs at h
  · unfold fetchBothStates at h
    split_ifs at h

/-- What a boundary takes instead of an instruction: a reset, an interrupt, or an exception of the fetch. -/
theorem boundary_entered {s t : State} (h : boundary s = .entered t) :
    t = takeReset s.sampled ∨ t = takeFiq s.sampled ∨ t = takeIrq s.sampled ∨ fetch s.sampled = .entered t := by
  unfold boundary at h
  dsimp only at h
  split_ifs at h
  · cases h; exact .inl rfl
  · cases h; exact .inr (.inl rfl)
  · cases h; exact .inr (.inr (.inl rfl))
  · exact .inr (.inr (.inr h))

/-- An instruction executes only in a legal mode, and is the one fetched. -/
theorem boundary_run {s u : State} {i : Instr} (h : boundary s = .run i u) :
    s.legalMode ∧ fetch s.sampled = .run i u := by
  unfold boundary at h
  dsimp only at h
  split_ifs at h with h1 h2
  exact ⟨h2, h⟩

/-- A word at an aligned address lies inside the address space. -/
theorem wordAlign_add_four_le (a : Word) : (wordAlign a).toNat + 4 ≤ 2 ^ 32 := by
  have := a.isLt
  rw [wordAlign_eq, BitVec.toNat_sub, BitVec.toNat_umod, show (4 : Word).toNat = 4 from rfl]
  omega

/-- A halfword at an even address lies inside the address space. -/
theorem halfAlign_add_two_le (a : Word) : (halfAlign a).toNat + 2 ≤ 2 ^ 32 := by
  have := a.isLt
  rw [halfAlign, clear_low_bit, BitVec.toNat_sub, BitVec.toNat_umod, show (2 : Word).toNat = 2 from rfl]
  omega

/-! ### Memory keeps its canonical form (O53) -/

/-- The canonical form of memory, in a run with the parameters `c`. -/
def State.formUnder (c : Config) (t : State) : Prop := t.memoryWf ∧ t.config = c

theorem formUnder_memoryProperty (c : Config) : MemoryProperty (State.formUnder c) where
  congr := fun ⟨hw, hc⟩ ⟨hm, hs, hf, hg⟩ => ⟨State.memoryWf_congr hm hs hf hw, hg.trans hc⟩
  putByte := fun a v ⟨hw, hc⟩ => ⟨State.memoryWf_putByte _ a v hw, hc⟩

/-- What a boundary takes instead of an instruction keeps what is about memory only. -/
theorem boundary_entered_keeps {P : State → Prop} (hP : MemoryProperty P) {s t : State} (h : P s.sampled)
    (hb : boundary s = .entered t) : P t := by
  rcases boundary_entered hb with rfl | rfl | rfl | hf
  · exact hP.congr h ⟨rfl, rfl, rfl, rfl⟩
  · exact hP.exception h _ _
  · exact hP.exception h _ _
  · rcases fetch_entered hf with rfl | ⟨-, -, rfl⟩
    · exact hP.exception h _ _
    · exact hP.congr h ⟨rfl, rfl, rfl, rfl⟩

/-- Remembering the bytes of the instruction fetched keeps the canonical form. -/
theorem fetch_run_formUnder {c : Config} {s u : State} {i : Instr} (h : s.formUnder c) (hf : fetch s = .run i u) :
    u.formUnder c := by
  obtain ⟨hw, hc⟩ := h
  obtain ⟨-, -, ⟨-, -, rfl⟩ | ⟨-, -, rfl⟩⟩ := fetch_run hf
  · exact ⟨State.memoryWf_fetching s _ _ (wordAlign_add_four_le _) hw, hc⟩
  · exact ⟨State.memoryWf_fetching s _ _ (halfAlign_add_two_le _) hw, hc⟩

/-- Settles O53: what the boundary does keeps the canonical form and the parameters, and so does the instruction. -/
theorem memoryFormKept : Obligations.MemoryFormKept := by
  intro s t hs hstep
  have hP := formUnder_memoryProperty s.config
  have hu : s.sampled.formUnder s.config := ⟨State.memoryWf_sampled s hs, rfl⟩
  rcases step_next hstep with hb | ⟨i, u, hb, hx⟩
  · exact boundary_entered_keeps hP hu hb
  · obtain ⟨-, hf⟩ := boundary_run hb
    exact exec_keeps hP (fetch_run_formUnder hu hf) i t hx

/-! ### Boundaries that take an exception (O6) -/

/-- The devices' writes of a boundary in two parts. -/
theorem deviceWrites_append (m : List Host.Cell) (l r : List (Word × Byte)) :
    deviceWrites m (l ++ r) = deviceWrites (deviceWrites m l) r := by
  induction l generalizing m with
  | nil => rfl
  | cons w l ih => exact ih _

/-- A byte that devices write holds what they wrote last (R76). -/
theorem readCell_deviceWrites_last (m : List Host.Cell) (l r : List (Word × Byte)) (a : Word) (v : Byte)
    (h : ∀ x, (a, x) ∉ r) : readCell (deviceWrites m (l ++ (a, v) :: r)) a.toNat = some v := by
  rw [deviceWrites_append, deviceWrites, readCell_deviceWrites_of_ne _ _ _ h, readCell_writeCell, if_pos rfl]

/-- The SPSR of the mode an exception enters takes the old CPSR. -/
theorem Spsrs.get_set_exception (p : Spsrs) (e : Exception) (v : Word) : (p.set e.mode v).get e.mode = some v := by
  cases e <;> rfl

theorem Spsrs.get_set_ne (p : Spsrs) {m n : Mode} (v : Word) (h : n ≠ m) : (p.set m v).get n = p.get n := by
  rw [Spsrs.get_set, if_neg h]

/-- F after an exception: set by FIQ, and kept by the others (R342). -/
theorem psrF_exceptionCpsr (e : Exception) (p : Word) :
    psrF (exceptionCpsr e p) = (psrF p || decide (e = .fiq)) := by
  rw [psrF, getLsbD_exceptionCpsr]
  by_cases he : e = .fiq <;> simp [he, psrF]

/-- An exception enters the handler's state as R342 says. -/
theorem takeException_entered (e : Exception) (link : Word) (s : State) :
    s.entered (takeException e link s) e link := by
  refine ⟨?_, ?_, fun m hm => ?_, ?_, ?_, ?_, ?_, ?_, fun i h8 h24 => ?_, rfl, rfl, rfl, rfl, rfl, rfl, rfl, rfl⟩
  · simp
  · exact Spsrs.get_set_exception _ _ _
  · exact Spsrs.get_set_ne _ _ hm
  · simp
  · rw [takeException_cpsr, psrT, getLsbD_exceptionCpsr]; simp
  · rw [takeException_cpsr, psrJ, getLsbD_exceptionCpsr]; simp
  · rw [takeException_cpsr, psrI, getLsbD_exceptionCpsr]; simp
  · exact psrF_exceptionCpsr e s.cpsr
  · rw [takeException_cpsr, getLsbD_exceptionCpsr, if_neg (by omega), if_neg (by omega), if_neg (by omega),
      if_neg (by omega)]

/-- An exception that nothing came before changes nothing but what R342 says. -/
theorem takeException_tookException (e : Exception) (link : Word) (s : State) :
    s.tookException (takeException e link s) e link := by
  refine ⟨takeException_entered e link s, fun p hp => ?_, State.memoryKept_of_eq rfl rfl, rfl, rfl⟩
  rw [takeException_regs, Regs.get_set_ne _ _ hp]

theorem step_of_entered {s t : State} (h : boundary s = .entered t) : step s = .next t := by
  rw [step, h]

section
variable {s : State} (hr : s.sample.reset = false) (hm : s.legalMode) (hp : s.pastTop = false)
include hr hm hp

/-- An enabled FIQ is taken before anything but a reset (R350, R353). -/
theorem boundary_of_fiq (hs : s.sample.fiq = true) (hf : psrF s.cpsr = false) :
    boundary s = .entered (takeFiq s.sampled) := by
  have hm' : ¬ Mode.ofBits (psrM s.sampled.cpsr) = none := hm
  have hp' : s.sampled.pastTop = false := hp
  have hf' : psrF s.sampled.cpsr = false := hf
  simp [boundary, hr, hm', hp', hs, hf']

/-- An enabled IRQ is taken where no FIQ is (R349, R353). -/
theorem boundary_of_irq (hf : s.sample.fiq = false ∨ psrF s.cpsr = true) (hs : s.sample.irq = true)
    (hi : psrI s.cpsr = false) : boundary s = .entered (takeIrq s.sampled) := by
  have hm' : ¬ Mode.ofBits (psrM s.sampled.cpsr) = none := hm
  have hp' : s.sampled.pastTop = false := hp
  have hf' : (s.sample.fiq && !psrF s.sampled.cpsr) = false := by
    rcases hf with hf | hf
    · simp [hf]
    · simp [show psrF s.sampled.cpsr = true from hf]
  have hi' : psrI s.sampled.cpsr = false := hi
  simp [boundary, hr, hm', hp', hf', hs, hi']

end

/-- An aborted fetch takes the Prefetch Abort, in each of the four states that J and T select (R42, R343, R347). -/
theorem fetch_of_aborts {s : State}
    (h : psrT s.cpsr = false ∧ s.aborts .fetch .word (wordAlign s.pc) s.privileged = true ∨
      psrT s.cpsr = true ∧ s.aborts .fetch .half (halfAlign s.pc) s.privileged = true) :
    fetch s = .entered (takePrefetchAbort s) := by
  rcases h with ⟨ht, ha⟩ | ⟨ht, ha⟩ <;> cases hj : psrJ s.cpsr <;> rw [fetch, hj, ht]
  · exact if_pos ha
  · exact if_pos ha
  · exact if_pos ha
  · exact if_pos ha

/-- Settles O6: the lemmas on what devices write for the sample, and one on each of the three exceptions. -/
theorem boundaryExceptions : Obligations.BoundaryExceptions := by
  rintro s u rfl
  refine ⟨rfl, fun a ha => readCell_deviceWrites_of_ne _ _ _ ha, fun l r a v hl hn => ?_,
    fun k => mem_rewritten _ _ _ k, fun hr hm hp => ⟨fun hs hf => ?_, fun hf hs hi => ?_, fun hq ha => ?_⟩⟩
  · have hm : s.sampled.mem = deviceWrites s.mem (l ++ (a, v) :: r) := by rw [← hl]; rfl
    rw [State.byteAt, hm, readCell_deviceWrites_last _ _ _ _ _ hn]
  · exact ⟨_, step_of_entered (boundary_of_fiq hr hm hp hs hf), takeException_tookException _ _ _⟩
  · exact ⟨_, step_of_entered (boundary_of_irq hr hm hp hf hs hi), takeException_tookException _ _ _⟩
  · have hb : boundary s = .entered (takePrefetchAbort s.sampled) :=
      (boundary_of_quiet hq hm hp).trans (fetch_of_aborts ha)
    exact ⟨_, step_of_entered hb, takeException_tookException _ _ _⟩

end Sys2Proof.Machine
end

section
/-!
PROOFS. The helper functions as numbers (O19), and the arithmetic and saturating instructions that use them (O15, O23).
-/
namespace Sys2Proof.Machine
open Sys2Proof

/-! ### The helper functions (O19) -/

theorem addWithCarry_toNat (a b : Word) (cin : Bool) :
    (addWithCarry a b cin).value.toNat = (a.toNat + b.toNat + cin.toNat) % 2 ^ 32 := rfl

theorem addWithCarry_carry (a b : Word) (cin : Bool) :
    (addWithCarry a b cin).carry = true ↔ 2 ^ 32 ≤ a.toNat + b.toNat + cin.toNat := decide_eq_true_iff

theorem addWithCarry_overflow (a b : Word) (cin : Bool) : (addWithCarry a b cin).overflow = true ↔
    a.toInt + b.toInt + (cin.toNat : Int) ≠ (addWithCarry a b cin).value.toInt := decide_eq_true_iff

/-- A subtraction with carry: the difference, less one where the carry is clear, and the carry set where nothing was
borrowed (R10). -/
theorem subtractCarry_spec (a b : Word) (cf : Bool) :
    (subtractCarry a b cf).value = a - b - (if cf then 0 else 1) ∧
    ((subtractCarry a b cf).carry = true ↔ b.toNat + (if cf then 0 else 1) ≤ a.toNat) := by
  have ha := a.isLt
  have hb := b.isLt
  refine ⟨BitVec.eq_of_toNat_eq ?_, ?_⟩
  · rw [subtractCarry, addWithCarry_toNat]
    cases cf <;> simp <;> omega
  · rw [subtractCarry, addWithCarry_carry]
    cases cf <;> simp <;> omega

/-- A subtraction: SBC with the carry set. -/
theorem subtract_spec (a b : Word) :
    (subtract a b).value = a - b ∧ ((subtract a b).carry = true ↔ b.toNat ≤ a.toNat) := by
  simpa [subtract, subtractCarry] using subtractCarry_spec a b true

theorem signedSat32_of_gt {i : Int} (h : 2 ^ 31 - 1 < i) : signedSat32 i = (0x7FFFFFFF#32, true) := if_pos h

theorem signedSat32_of_lt {i : Int} (h : i < -2 ^ 31) : signedSat32 i = (0x80000000#32, true) :=
  (if_neg (by omega)).trans (if_pos (by omega))

theorem signedSat32_of_le {i : Int} (h : -2 ^ 31 ≤ i ∧ i ≤ 2 ^ 31 - 1) : signedSat32 i = (BitVec.ofInt 32 i, false) :=
  (if_neg (by omega)).trans (if_neg (by omega))

/-- The saturated word is the number held between the bounds (R10). -/
theorem toInt_signedSat32 (i : Int) : (signedSat32 i).1.toInt = max (-2 ^ 31) (min (2 ^ 31 - 1) i) := by
  rcases lt_or_ge (2 ^ 31 - 1) i with h | h
  · rw [signedSat32_of_gt h, show (0x7FFFFFFF#32, true).1.toInt = 2 ^ 31 - 1 from rfl]
    omega
  · rcases lt_or_ge i (-2 ^ 31) with h' | h'
    · rw [signedSat32_of_lt h', show (0x80000000#32, true).1.toInt = -2 ^ 31 from rfl]
      omega
    · rw [signedSat32_of_le ⟨h', h⟩, BitVec.toInt_ofInt_eq_self (by decide) h' (by omega)]
      omega

/-- The saturation flag tells that a bound was used (R10). -/
theorem signedSat32_saturated (i : Int) : (signedSat32 i).2 = true ↔ i < -2 ^ 31 ∨ 2 ^ 31 ≤ i := by
  unfold signedSat32
  split_ifs <;> simp <;> omega

/-- LSL, LSR and ASR by 1 to 32, as products and quotients by a power of two (R10). -/
theorem shifts_spec (v : Word) (n : Nat) (cf : Bool) (h1 : 1 ≤ n) (h32 : n ≤ 32) :
    (shiftLsl v n cf).value.toNat = v.toNat * 2 ^ n % 2 ^ 32 ∧ (shiftLsl v n cf).carry = v.getLsbD (32 - n) ∧
    (shiftLsr v n cf).value.toNat = v.toNat / 2 ^ n ∧ (shiftLsr v n cf).carry = v.getLsbD (n - 1) ∧
    (shiftAsr v n cf).value.toInt = v.toInt / 2 ^ n ∧ (shiftAsr v n cf).carry = v.getLsbD (n - 1) := by
  have h0 : n ≠ 0 := by omega
  have hl : shiftLsl v n cf = ⟨v <<< n, v.getLsbD (32 - n)⟩ := (if_neg h0).trans (if_pos h32)
  have hr : shiftLsr v n cf = ⟨v >>> n, v.getLsbD (n - 1)⟩ := (if_neg h0).trans (if_pos h32)
  have ha : shiftAsr v n cf = ⟨v.sshiftRight n, v.getLsbD (n - 1)⟩ := by
    refine (if_neg h0).trans ?_
    by_cases h : n < 32
    · exact if_pos h
    · obtain rfl : n = 32 := by omega
      exact if_neg h
  rw [hl, hr, ha]
  refine ⟨?_, rfl, ?_, rfl, ?_, rfl⟩
  · simp [Nat.shiftLeft_eq]
  · simp [Nat.shiftRight_eq_div_pow]
  · simp [BitVec.toInt_sshiftRight, Int.shiftRight_eq_div_pow]

/-- ROR by 1 to 31. -/
theorem shiftRor_of_le {v : Word} {n : Nat} {cf : Bool} (h1 : 1 ≤ n) (h31 : n ≤ 31) :
    shiftRor v n cf = ⟨(v >>> n) ||| (v <<< (32 - n)), v.getLsbD (n - 1)⟩ := by
  have hn : n % 32 = n := Nat.mod_eq_of_lt (by omega)
  unfold shiftRor
  rw [if_neg (by omega), if_neg (by omega), hn, BitVec.rotateRight_def, hn]

/-- A word moved right by one has bit 31 clear, so that setting it is an OR. -/
theorem setBit_shiftRight_one (v : Word) (b : Bool) :
    setBit (v >>> 1) 31 b = ((BitVec.ofBool b).setWidth 32 <<< 31) ||| (v >>> 1) := by
  have hm : (v >>> 1) &&& ~~~(1#32 <<< 31) = v >>> 1 := by
    refine BitVec.eq_of_getLsbD_eq fun i hi => ?_
    interval_cases i <;> simp
  rw [setBit, hm, BitVec.or_comm]

/-- Settles O19: each helper function by its own lemma above. -/
theorem helperFunctions : Obligations.HelperFunctions := by
  refine ⟨fun a b cin => ⟨addWithCarry_toNat a b cin, addWithCarry_carry a b cin, addWithCarry_overflow a b cin⟩,
    fun a b cf => ?_, fun i => ⟨signedSat32_of_gt, signedSat32_of_lt, fun h => ?_⟩, shifts_spec,
    fun v n cf h1 h31 => ?_, fun v cf => ⟨setBit_shiftRight_one v cf, rfl⟩⟩
  · obtain ⟨hv, hc⟩ := subtract_spec a b
    exact ⟨hv, hc, subtractCarry_spec a b cf⟩
  · rw [signedSat32_of_le h]
    exact ⟨rfl, BitVec.toInt_ofInt_eq_self (by decide) h.1 (by omega)⟩
  · rw [shiftRor_of_le h1 h31]
    exact ⟨rfl, rfl⟩

/-! ### The arithmetic group (O15) -/

section
variable {s : State} {c : Cond} {sb : Bool} {rn rd rs rm : Reg} {i : Instr} {r : Sum}

/-- ADD, ADC, SUB, SBC, RSB and RSC with an immediate operand end with their sum (R150 to R155). -/
theorem exec_arithImm {rot : BitVec 4} {imm8 : BitVec 8} (hc : condPassed c s.cpsr = true)
    (h : (i, r) ∈ (arithImm c sb rn rd rot imm8).zip
      (arithSums (s.reg rn) (s.immOperand rot imm8).value (psrC s.cpsr))) : exec i s = arithTo sb rd r s := by
  simp only [arithImm, arithSums, List.zip_cons_cons, List.zip_nil_right, List.mem_cons, List.not_mem_nil, or_false,
    Prod.mk.injEq] at h
  rcases h with ⟨rfl, rfl⟩ | ⟨rfl, rfl⟩ | ⟨rfl, rfl⟩ | ⟨rfl, rfl⟩ | ⟨rfl, rfl⟩ | ⟨rfl, rfl⟩ <;>
    exact whenPassed_of_passed _ hc

/-- The same, with a register shifted by an immediate. -/
theorem exec_arithShift {n : BitVec 5} {sh : Shift} (hc : condPassed c s.cpsr = true)
    (h : (i, r) ∈ (arithShift c sb rn rd n sh rm).zip
      (arithSums (s.reg rn) (s.shiftOperand rm sh n).value (psrC s.cpsr))) : exec i s = arithTo sb rd r s := by
  simp only [arithShift, arithSums, List.zip_cons_cons, List.zip_nil_right, List.mem_cons, List.not_mem_nil, or_false,
    Prod.mk.injEq] at h
  rcases h with ⟨rfl, rfl⟩ | ⟨rfl, rfl⟩ | ⟨rfl, rfl⟩ | ⟨rfl, rfl⟩ | ⟨rfl, rfl⟩ | ⟨rfl, rfl⟩ <;>
    exact whenPassed_of_passed _ hc

/-- The same, with a register shifted by a register: none of them is r15. -/
theorem exec_arithRegShift {sh : Shift} (hc : condPassed c s.cpsr = true) (h15 : 15#4 ∉ [rd, rn, rs, rm])
    (h : (i, r) ∈ (arithRegShift c sb rn rd rs sh rm).zip
      (arithSums (s.reg rn) (s.regShiftOperand rm rs sh).value (psrC s.cpsr))) : exec i s = arithTo sb rd r s := by
  simp only [arithRegShift, arithSums, List.zip_cons_cons, List.zip_nil_right, List.mem_cons, List.not_mem_nil,
    or_false, Prod.mk.injEq] at h
  rcases h with ⟨rfl, rfl⟩ | ⟨rfl, rfl⟩ | ⟨rfl, rfl⟩ | ⟨rfl, rfl⟩ | ⟨rfl, rfl⟩ | ⟨rfl, rfl⟩ <;>
    exact (whenPassed_of_passed _ hc).trans (noPc_of_not_mem _ h15)

end

/-- A register and the CPSR written, the mode kept: the register reads as written. -/
theorem State.reg_setReg_setCpsr (s : State) {rd : Reg} (v : Word) {p : Word} (hp : psrM p = psrM s.cpsr)
    (hd : rd ≠ 15#4) : ((s.setReg rd v).setCpsr p).advance.reg rd = v :=
  State.reg_of_regs (s := s) hp rfl hd

/-- The arithmetic group with a destination other than r15 (R140). -/
theorem arithTo_spec (sb : Bool) {rd : Reg} (r : Sum) (s : State) (hd : rd ≠ 15#4) :
    ∃ t, arithTo sb rd r s = .next t ∧ t.reg rd = r.value ∧
      s.onlyWrites t [rd] (if sb then [31, 30, 29, 28] else []) ∧
      (sb = true → flagsNZ t.cpsr r.value ∧ psrC t.cpsr = r.carry ∧ psrV t.cpsr = r.overflow) := by
  refine ⟨_, dataResult_of_reg s hd, ?_, ?_, ?_⟩
  · exact State.reg_setReg_setCpsr s r.value (by cases sb <;> simp) hd
  · cases sb
    · exact State.onlyWrites_reg_cpsr s rd r.value s.cpsr (fun _ _ => rfl) (by simp)
    · exact State.onlyWrites_reg_cpsr s rd r.value _ (fun _ hi => onlyBits_withArith _ _ hi) (by simp)
  · rintro rfl
    exact flags_withArith s.cpsr r

/-- Settles O15: in each of the three formats the instruction ends with its sum, and `arithTo_spec` says what that
writes. -/
theorem arithmeticToRegister : Obligations.ArithmeticToRegister := by
  intro s c sb rn rd rs rm rot imm8 n sh i r hc hd h
  have hx : exec i s = arithTo sb rd r s := by
    rcases h with h | h | ⟨hn, hs, hm, h⟩
    · exact exec_arithImm hc h
    · exact exec_arithShift hc h
    · exact exec_arithRegShift hc (by simp [hd.symm, hn.symm, hs.symm, hm.symm]) h
  rw [hx]
  exact arithTo_spec sb r s hd

/-! ### Saturating arithmetic (O23) -/

/-- The end of a saturating instruction: the destination, and Q set or kept (R29). -/
theorem stickyTo_spec {rd : Reg} (v : Word) (sat : Bool) (s : State) (hd : rd ≠ 15#4) :
    ∃ t, stickyTo rd v sat s = .next t ∧ t.reg rd = v ∧ s.onlyWrites t [rd] [27] ∧
      (psrQ t.cpsr = true ↔ psrQ s.cpsr = true ∨ sat = true) := by
  refine ⟨_, rfl, ?_, ?_, ?_⟩
  · exact State.reg_setReg_setCpsr s v (psrM_withSticky _ _) hd
  · exact State.onlyWrites_reg_cpsr s rd v _ (fun _ hi => onlyBits_withSticky _ _ hi) (by simp)
  · simp only [State.advance_cpsr, State.setCpsr_cpsr, psrQ, getLsbD_withSticky, if_true, Bool.or_eq_true]
    exact or_comm

/-- A register's value is within the bounds of saturation. -/
theorem toInt_bounds (v : Word) : -2 ^ 31 ≤ v.toInt ∧ v.toInt ≤ 2 ^ 31 - 1 := by
  have := v.le_toInt
  have := v.toInt_lt
  omega

/-- A register's value held between the bounds is itself. -/
theorem clamp_toInt (v : Word) : max (-2 ^ 31) (min (2 ^ 31 - 1) v.toInt) = v.toInt := by
  have := toInt_bounds v
  omega

/-- A saturating instruction: the second operand `b` and the result `e` are each held between the bounds, and Q is set
where a bound was used (R164 to R167). -/
theorem saturating_spec {rd : Reg} (s : State) (b e : Int) (sat : Bool) (hd : rd ≠ 15#4)
    (hsat : sat = true ↔ b < -2 ^ 31 ∨ 2 ^ 31 ≤ b) :
    ∃ t, stickyTo rd (signedSat32 e).1 (sat || (signedSat32 e).2) s = .next t ∧
      (t.reg rd).toInt = max (-2 ^ 31) (min (2 ^ 31 - 1) e) ∧ s.onlyWrites t [rd] [27] ∧
      (psrQ t.cpsr = true ↔ psrQ s.cpsr = true ∨ b < -2 ^ 31 ∨ 2 ^ 31 ≤ b ∨ e < -2 ^ 31 ∨ 2 ^ 31 ≤ e) := by
  obtain ⟨t, ht, hr, hw, hq⟩ := stickyTo_spec (signedSat32 e).1 (sat || (signedSat32 e).2) s hd
  refine ⟨t, ht, by rw [hr, toInt_signedSat32], hw, ?_⟩
  rw [hq, Bool.or_eq_true, hsat, signedSat32_saturated, or_assoc]

/-- A register's value needs no bound: QADD and QSUB saturate their result only. -/
theorem not_saturated_toInt (v : Word) : false = true ↔ v.toInt < -2 ^ 31 ∨ 2 ^ 31 ≤ v.toInt := by
  have := toInt_bounds v
  simp; omega

/-- The second operand of QDADD and QDSUB is the double, held between the bounds. -/
theorem toInt_doubled (v : Word) : (doubled v).1.toInt = max (-2 ^ 31) (min (2 ^ 31 - 1) (2 * v.toInt)) :=
  toInt_signedSat32 _

/-- Settles O23: QADD and QSUB hold a second operand that needs no bound, QDADD and QDSUB the doubled one. -/
theorem saturatingArithmetic : Obligations.SaturatingArithmetic := by
  intro s c rn rd rm i b e hc h15 h
  have hd : rd ≠ 15#4 := by rintro rfl; simp at h15
  have hx : ∀ {k : Result}, whenPassed c s (noPc [rn, rd, rm] k) = k := fun {k} =>
    (whenPassed_of_passed _ hc).trans (noPc_of_not_mem _ h15)
  rcases h with ⟨rfl, rfl, rfl⟩ | ⟨rfl, rfl, rfl⟩ | ⟨rfl, rfl, rfl⟩ | ⟨rfl, rfl, rfl⟩
  · rw [show exec (.qadd c rn rd rm) s = _ from hx, clamp_toInt]
    exact saturating_spec s _ _ false hd (not_saturated_toInt _)
  · rw [show exec (.qsub c rn rd rm) s = _ from hx, clamp_toInt]
    exact saturating_spec s _ _ false hd (not_saturated_toInt _)
  · rw [show exec (.qdadd c rn rd rm) s = _ from hx, ← toInt_doubled]
    exact saturating_spec s _ _ _ hd (signedSat32_saturated _)
  · rw [show exec (.qdsub c rn rd rm) s = _ from hx, ← toInt_doubled]
    exact saturating_spec s _ _ _ hd (signedSat32_saturated _)

end Sys2Proof.Machine
end

section
/-!
PROOFS. Conditional execution (O57) and the state after reset (O58).
-/
namespace Sys2Proof.Machine
open Sys2Proof

/-! ### Conditional execution (O57) -/

/-- The numbers of the conditions, both ways (R9). -/
theorem ofBits_eq_some_iff_bits : ∀ (b : BitVec 4) (c : Cond), Cond.ofBits b = some c ↔ c.bits = b := by
  intro b c
  revert b
  cases c <;> decide

/-- An instruction whose condition fails only goes on (R9, R101); those without a condition are always executed. -/
theorem exec_of_failed {i : Instr} {s : State} (h : condPassed (conditionOf i) s.cpsr = false) :
    exec i s = .next s.advance := by
  cases i with
  | bkpt | pldImm | pldReg | blxImm | cdp2 | mcr2 | mrc2 | ldc2 | stc2
  | thumbLslImm | thumbLsrImm | thumbAsrImm | thumbAddReg | thumbSubReg | thumbAddImm3 | thumbSubImm3 | thumbMovImm
  | thumbCmpImm | thumbAddImm8 | thumbSubImm8 | thumbAnd | thumbEor | thumbLslReg | thumbLsrReg | thumbAsrReg
  | thumbAdc | thumbSbc | thumbRorReg | thumbTst | thumbNeg | thumbCmp | thumbCmn | thumbOrr | thumbMul | thumbBic
  | thumbMvn | thumbAddHigh | thumbCmpHigh | thumbMovHigh | thumbBx | thumbBlxReg | thumbLdrPc | thumbStrReg
  | thumbStrhReg | thumbStrbReg | thumbLdrsbReg | thumbLdrReg | thumbLdrhReg | thumbLdrbReg | thumbLdrshReg
  | thumbStrImm | thumbLdrImm | thumbStrbImm | thumbLdrbImm | thumbStrhImm | thumbLdrhImm | thumbStrSp | thumbLdrSp
  | thumbAddPc | thumbAddSp | thumbIncSp | thumbDecSp | thumbPush | thumbPop | thumbBkpt | thumbStmia | thumbLdmia
  | thumbUndefCond | thumbSwi | thumbB | thumbBlxSuffix | thumbUndefBlx | thumbBlPrefix | thumbBlSuffix => cases h
  | _ => exact whenPassed_of_failed _ h

/-- Settles O57: each condition is its test of the flags, and an instruction whose condition fails only goes on. -/
theorem conditionalExecution : Obligations.ConditionalExecution := by
  refine ⟨fun p => ?_, rfl, ofBits_eq_some_iff_bits, fun i s h =>
    ⟨s.advance, exec_of_failed h, State.onlyWrites_advance_only s⟩⟩
  simp [condPassed]

/-! ### The reset state (O58) -/

@[simp] theorem State.resetWith_cpsr (c : Config) : (State.resetWith c).cpsr = 0x000000D3#32 := rfl

@[simp] theorem State.resetWith_pc (c : Config) :
    (State.resetWith c).pc = if c.hiVecs then 0xFFFF0000#32 else 0x00000000#32 := rfl

/-- Both vector bases are word-aligned. -/
theorem State.pcAligned_resetWith (c : Config) : (State.resetWith c).pcAligned := by
  unfold State.pcAligned
  rw [State.resetWith_cpsr, State.resetWith_pc]
  cases c.hiVecs <;> decide

theorem State.legalMode_resetWith (c : Config) : (State.resetWith c).legalMode := by
  unfold State.legalMode
  rw [State.resetWith_cpsr]
  decide

/-- Settles O58: the CPSR after reset is 0xD3, and its memory is empty. -/
theorem resetState : Obligations.ResetState := by
  refine ⟨fun c => ⟨?_, ?_, ?_, ?_, ?_, rfl, ⟨rfl, rfl, rfl⟩, State.pcAligned_resetWith c,
    State.legalMode_resetWith c⟩, rfl⟩ <;>
  · rw [State.resetWith_cpsr]
    decide

end Sys2Proof.Machine
end

section
/-!
PROOFS. How an instruction ends: it goes on, transfers control, takes an exception, returns from one, or writes a status
register. From that one case split: the PC stays aligned (O54), User mode is confined (O55), and the sticky flag is kept
(O56).
-/
namespace Sys2Proof.Machine
open Sys2Proof

/-! ### The words that MSR writes, bit by bit -/

/-- A bit of a word that takes the bits under a mask from another. -/
theorem getLsbD_merge (old new mask : Word) (k : Nat) :
    (merge old new mask).getLsbD k = if mask.getLsbD k then new.getLsbD k else old.getLsbD k := by
  simp only [merge, BitVec.getLsbD_or, BitVec.getLsbD_and, BitVec.getLsbD_not]
  by_cases hk : k < 32
  · cases mask.getLsbD k <;> simp [hk]
  · simp [BitVec.getLsbD_of_ge _ k (Nat.le_of_not_lt hk)]

/-- A field mask selects whole bytes (R27, R144). -/
theorem getLsbD_byteMask (mask : BitVec 4) {k : Nat} (hk : k < 32) :
    (byteMask mask).getLsbD k = mask.getLsbD (k / 8) := by
  have h : ∀ (m : BitVec 4) (j : Fin 32), (byteMask m).getLsbD j = m.getLsbD (j / 8) := by decide +kernel
  exact h mask ⟨k, hk⟩

/-- The bits that MSR may write in a privileged mode: all but J and T (R144). -/
theorem getLsbD_privilegedMask {k : Nat} (hk : k < 32) :
    (0xFEFFFFDF#32).getLsbD k = decide (k ≠ 24 ∧ k ≠ 5) := by
  interval_cases k <;> rfl

/-- The bits that MSR may write in User mode: the flags and Q (R144). -/
theorem getLsbD_userMask {k : Nat} (hk : k < 32) : (0xF8000000#32).getLsbD k = decide (27 ≤ k) := by
  interval_cases k <;> rfl

/-! ### User mode -/

theorem State.mode_of_user {s : State} (h : s.privileged = false) : s.mode = .usr := by
  have hM : psrM s.cpsr = Mode.usr.bits := by simpa [State.privileged, Mode.bits] using h
  rw [State.mode, hM, Mode.ofBits_bits, Option.getD_some]

/-- The registers that neither the current mode nor User mode names are as before. -/
def State.othersKept (s t : State) : Prop :=
  ∀ p, (∀ r, bank .usr r ≠ some p) → (∀ r, bank s.mode r ≠ some p) → t.regs.get p = s.regs.get p

/-! ### Before an instruction ends -/

/-- `u` is a state on the way of an instruction that began in `s`: registers that the current mode or User mode names,
memory and the coprocessors may have changed, and neither the PC nor a status register has. -/
structure Underway (s u : State) : Prop where
  pc : u.pc = s.pc
  cpsr : u.cpsr = s.cpsr
  spsr : u.spsr = s.spsr
  config : u.config = s.config
  regs : s.othersKept u

namespace Underway

variable {s u : State}

theorem refl (s : State) : Underway s s := ⟨rfl, rfl, rfl, rfl, fun _ _ _ => rfl⟩

theorem congr {t : State} (h : Underway s u) (hp : t.pc = u.pc) (hc : t.cpsr = u.cpsr) (hs : t.spsr = u.spsr)
    (hg : t.config = u.config) (hr : t.regs = u.regs) : Underway s t :=
  ⟨hp.trans h.pc, hc.trans h.cpsr, hs.trans h.spsr, hg.trans h.config, fun p hu hm => by rw [hr, h.regs p hu hm]⟩

theorem sameCore {t : State} (h : Underway s u) (hc : SameCore u t) : Underway s t :=
  h.congr hc.pc hc.cpsr hc.spsr hc.config hc.regs

theorem mode (h : Underway s u) : u.mode = s.mode := State.mode_of_cpsr h.cpsr

theorem nextPc (h : Underway s u) : u.nextPc = s.nextPc := State.nextPc_congr h.pc (by rw [h.cpsr])

theorem setReg (h : Underway s u) (r : Reg) (v : Word) : Underway s (u.setReg r v) := by
  refine ⟨by simp [h.pc], by simp [h.cpsr], by simp [h.spsr], by simp [h.config], fun p hu hm => ?_⟩
  rw [State.get_setReg, if_neg (by rw [h.mode]; exact hm r), h.regs p hu hm]

theorem setRegIf (h : Underway s u) (wb : Bool) (r : Reg) (v : Word) : Underway s (if wb then u.setReg r v else u) := by
  cases wb
  · exact h
  · exact h.setReg r v

theorem writeBase (h : Underway s u) (a : Address) (rn : Reg) : Underway s (u.writeBase a rn) := h.setRegIf _ _ _

theorem setUserReg (h : Underway s u) (r : Reg) (v : Word) : Underway s (u.setUserReg r v) := by
  refine ⟨by simp [h.pc], by simp [h.cpsr], by simp [h.spsr], by simp [h.config], fun p hu hm => ?_⟩
  rw [State.get_setUserReg, if_neg (hu r), h.regs p hu hm]

theorem takeFree (h : Underway s u) : Underway s u.takeFree := h.sameCore (SameCore.takeFree u)

theorem setRegs (h : Underway s u) (rs : List Reg) (ws : List Word) : Underway s (u.setRegs rs ws) := by
  induction rs generalizing u ws with
  | nil => exact h
  | cons r rs ih =>
    cases ws with
    | nil => exact h
    | cons w ws => exact ih (h.setReg r w) ws

theorem setUserRegs (h : Underway s u) (rs : List Reg) (ws : List Word) : Underway s (u.setUserRegs rs ws) := by
  induction rs generalizing u ws with
  | nil => exact h
  | cons r rs ih =>
    cases ws with
    | nil => exact h
    | cons w ws => exact ih (h.setUserReg r w) ws

theorem clobber (h : Underway s u) (rs : List Reg) : Underway s (u.clobber rs) := by
  induction rs generalizing u with
  | nil => exact h
  | cons r rs ih => exact ih (h.takeFree.setReg r _)

theorem clobberUser (h : Underway s u) (rs : List Reg) : Underway s (u.clobberUser rs) := by
  induction rs generalizing u with
  | nil => exact h
  | cons r rs ih => exact ih (h.takeFree.setUserReg r _)

theorem putBytes (h : Underway s u) (a : Word) (bs : List Byte) : Underway s (u.putBytes a bs) :=
  h.congr (by simp) (by simp) (by simp) (by simp) (by simp)

theorem putByte (h : Underway s u) (a : Word) (v : Byte) : Underway s (u.putByte a v) := h.congr rfl rfl rfl rfl rfl

theorem send (h : Underway s u) (i : Instr) (d : List Word) (c : Bool) : Underway s (u.send i d c) :=
  h.congr rfl rfl rfl rfl rfl

end Underway

/-- A read of a register of coprocessor 14 changes coprocessor 14 only (R252). -/
theorem cp14Read_underway {op1 op2 : BitVec 3} {crn crm : BitVec 4} {s t : State} {v : Word}
    (h : cp14Read op1 crn op2 crm s = some (v, t)) : Underway s t := by
  unfold cp14Read at h
  split at h
  · split at h <;> cases h <;> exact (Underway.refl s).congr rfl rfl rfl rfl rfl
  · cases h

/-- A write of a register of coprocessor 14 changes coprocessor 14 only (R252). -/
theorem cp14Write_underway {op1 op2 : BitVec 3} {crn crm : BitVec 4} {s t : State} {v : Word}
    (h : cp14Write op1 crn op2 crm v s = some t) : Underway s t := by
  unfold cp14Write at h
  split at h
  · split at h <;> cases h <;> exact (Underway.refl s).congr rfl rfl rfl rfl rfl
  · cases h

/-! ### Alignment as a number -/

/-- Outside Jazelle state an address is aligned for the state of a PSR where it is a multiple of the length of an
instruction. -/
theorem returnAligned_iff {p v : Word} (hj : inJazelle p = false) :
    returnAligned p v = true ↔ v.toNat % (if psrT p then 2 else 4) = 0 := by
  unfold returnAligned
  cases hT : psrT p with
  | true => rw [if_pos rfl, if_pos rfl, beq_iff_eq, ← BitVec.toNat_inj]; simp [BitVec.extractLsb'_toNat]
  | false =>
    have hJ : psrJ p = false := by simpa [inJazelle, hT] using hj
    rw [hJ, if_neg Bool.false_ne_true, if_neg Bool.false_ne_true, if_neg Bool.false_ne_true, beq_iff_eq,
      extract_two_zero]

theorem State.pcAligned_iff {s : State} (hj : inJazelle s.cpsr = false) : s.pcAligned ↔ s.pc.toNat % s.size = 0 :=
  returnAligned_iff hj

theorem State.size_eq (s : State) : s.size = 2 ∨ s.size = 4 := by
  unfold State.size; split <;> simp

theorem State.size_congr {s t : State} (h : psrT t.cpsr = psrT s.cpsr) : t.size = s.size := by
  rw [State.size, State.size, h]

theorem inJazelle_of_psrJ {p : Word} (h : psrJ p = false) : inJazelle p = false := by simp [inJazelle, h]

/-- A word-aligned address is aligned for ARM and for Thumb state. -/
theorem State.pcAligned_of_word {t : State} (hj : psrJ t.cpsr = false) (h : t.pc.toNat % 4 = 0) : t.pcAligned := by
  rw [State.pcAligned_iff (inJazelle_of_psrJ hj)]
  rcases t.size_eq with h2 | h4
  · rw [h2]; omega
  · rw [h4]; omega

theorem State.pcAligned_of_half {t : State} (hj : psrJ t.cpsr = false) (hT : psrT t.cpsr = true)
    (h : t.pc.toNat % 2 = 0) : t.pcAligned := by
  rw [State.pcAligned_iff (inJazelle_of_psrJ hj), State.size, hT]
  exact h

/-- The next instruction in sequence is aligned as this one is. -/
theorem State.nextPc_mod (s : State) : s.nextPc.toNat % s.size = s.pc.toNat % s.size := by
  rcases s.size_eq with h | h <;> rw [State.nextPc, h, BitVec.toNat_add] <;> simp

theorem State.armTarget_mod (s : State) (imm24 : BitVec 24) : (s.armTarget imm24).toNat % 4 = s.pc.toNat % 4 := by
  have := s.pc.isLt
  rw [State.armTarget, BitVec.toNat_add, BitVec.toNat_add, BitVec.toNat_shiftLeft, Nat.shiftLeft_eq]
  simp
  omega

theorem State.thumbTarget_mod {n : Nat} (s : State) (imm : BitVec n) :
    (s.thumbTarget imm).toNat % 2 = s.pc.toNat % 2 := by
  have := s.pc.isLt
  rw [State.thumbTarget, BitVec.toNat_add, BitVec.toNat_add, BitVec.toNat_shiftLeft, Nat.shiftLeft_eq]
  simp
  omega

theorem clear_low_bit_mod (v : Word) : (v &&& 0xFFFFFFFE#32).toNat % 2 = 0 := by
  have := v.isLt
  rw [clear_low_bit, BitVec.toNat_sub, BitVec.toNat_umod, show (2 : Word).toNat = 2 from rfl]
  omega

theorem wordAlign_mod (v : Word) : (wordAlign v).toNat % 4 = 0 := by
  have := v.isLt
  rw [wordAlign_eq, BitVec.toNat_sub, BitVec.toNat_umod, show (4 : Word).toNat = 4 from rfl]
  omega


/-! ### How an instruction ends -/

/-- The instructions that may set the sticky flag (R29). -/
def setsSticky (i : Instr) : Prop :=
  (∃ c rn rd rm, i = .qadd c rn rd rm ∨ i = .qsub c rn rd rm ∨ i = .qdadd c rn rd rm ∨ i = .qdsub c rn rd rm) ∨
    ∃ c rd rn rs y x rm, i = .smlaXY c rd rn rs y x rm ∨ i = .smlaWY c rd rn rs y rm

/-- MSR, from a register or an immediate. -/
def isMsr (i : Instr) : Prop :=
  (∃ c r mask rm, i = .msrReg c r mask rm) ∨ ∃ c r mask rot imm8, i = .msrImm c r mask rot imm8

/-- The instructions of Thumb state that transfer control and stay in it. -/
def thumbJump : Instr → Bool
  | .thumbBCond .. | .thumbB .. | .thumbAddHigh .. | .thumbMovHigh .. | .thumbBlSuffix .. => true
  | _ => false

/-- The five ways in which an instruction that began in `s` ends in a next state `t`. -/
inductive Ends (i : Instr) (s t : State) : Prop
  /-- It goes on to the next instruction, or waits where it is; of the CPSR only flags may differ. -/
  | goesOn (regs : s.othersKept t) (spsr : t.spsr = s.spsr)
      (bits : ∀ k < 27, t.cpsr.getLsbD k = s.cpsr.getLsbD k)
      (sticky : psrQ t.cpsr = psrQ s.cpsr ∨ setsSticky i ∧ (psrQ s.cpsr = true → psrQ t.cpsr = true))
      (pc : t.pc = s.nextPc ∨ t.pc = s.pc)
  /-- It transfers control; of the CPSR only T and the four flags may differ. -/
  | jumps (regs : s.othersKept t) (spsr : t.spsr = s.spsr)
      (bits : ∀ k < 28, k ≠ 5 → t.cpsr.getLsbD k = s.cpsr.getLsbD k)
      (aligned : psrJ s.cpsr = false → (psrT s.cpsr = false → thumbJump i = false) → s.pcAligned → t.pcAligned)
  /-- It takes an exception that is no interrupt. -/
  | traps (u : State) (e : Exception) (link : Word) (underway : Underway s u) (irq : e ≠ .irq) (fiq : e ≠ .fiq)
      (entered : t = takeException e link u)
  /-- It returns from an exception. -/
  | returns (p : Word) (returns : isExceptionReturn i) (spsr : s.spsr.get s.mode = some p) (state : inJazelle p = false)
      (aligned : returnAligned p t.pc = true) (cpsr : t.cpsr = p)
  /-- It is an MSR: J and T are kept, and in User mode all that is not a flag. -/
  | writesStatus (msr : isMsr i) (regs : t.regs = s.regs) (pc : t.pc = s.nextPc)
      (state : psrJ t.cpsr = psrJ s.cpsr ∧ psrT t.cpsr = psrT s.cpsr)
      (user : s.privileged = false → t.spsr = s.spsr ∧ ∀ k < 27, t.cpsr.getLsbD k = s.cpsr.getLsbD k)

namespace Ends

variable {i : Instr} {s u : State}

/-! Going on -/

/-- It goes on with new flags, of which the sticky flag is not one. -/
theorem flags (h : Underway s u) {p : Word} (hp : ∀ k < 28, p.getLsbD k = s.cpsr.getLsbD k) :
    Ends i s (u.setCpsr p).advance := by
  refine .goesOn h.regs h.spsr (fun k hk => hp k (by omega)) (.inl (hp 27 (by omega))) (.inl ?_)
  exact State.nextPc_congr h.pc (hp 5 (by omega))

theorem advance (h : Underway s u) : Ends i s u.advance :=
  .goesOn h.regs h.spsr (fun k _ => by rw [State.advance_cpsr, h.cpsr])
    (.inl (by rw [State.advance_cpsr, h.cpsr])) (.inl h.nextPc)

theorem sticky (h : Underway s u) (hi : setsSticky i) (sat : Bool) :
    Ends i s (u.setCpsr (withSticky s.cpsr sat)).advance := by
  have hp : ∀ k, k ≠ 27 → (withSticky s.cpsr sat).getLsbD k = s.cpsr.getLsbD k :=
    fun k hk => onlyBits_withSticky _ _ (by simpa using hk)
  refine .goesOn h.regs h.spsr (fun k hk => hp k (by omega)) (.inr ⟨hi, fun hq => ?_⟩) (.inl ?_)
  · change (withSticky s.cpsr sat).getLsbD 27 = true
    rw [getLsbD_withSticky, if_pos rfl, show s.cpsr.getLsbD 27 = true from hq, Bool.or_true]
  · exact State.nextPc_congr h.pc (hp 5 (by omega))

theorem stickyTo {rd : Reg} {v : Word} {sat : Bool} (hi : setsSticky i) :
    Leads (Ends i s) (Machine.stickyTo rd v sat s) :=
  Leads.next (sticky ((Underway.refl s).setReg rd v) hi sat)

theorem withLogic_kept (p v : Word) (c : Bool) : ∀ k < 28, (withLogic p v c).getLsbD k = p.getLsbD k :=
  fun k hk => onlyBits_withLogic _ _ _ (by simp; omega)

theorem withArith_kept (p : Word) (r : Sum) : ∀ k < 28, (withArith p r).getLsbD k = p.getLsbD k :=
  fun k hk => onlyBits_withArith _ _ (by simp; omega)

theorem withNZ_kept (p v : Word) : ∀ k < 28, (withNZ p v).getLsbD k = p.getLsbD k :=
  fun k hk => onlyBits_withNZ _ _ (by simp; omega)

theorem withLongNZ_kept (p : Word) (v : BitVec 64) : ∀ k < 28, (withLongNZ p v).getLsbD k = p.getLsbD k :=
  fun k hk => onlyBits_withLongNZ _ _ (by simp; omega)

theorem withTopFlags_kept (p v : Word) : ∀ k < 28, (withTopFlags p v).getLsbD k = p.getLsbD k :=
  fun k hk => by rw [getLsbD_withTopFlags, if_neg (by omega)]

/-- The flags of an instruction with S = 1. -/
theorem flagsIf (h : Underway s u) {sb : Bool} {p : Word} (hp : ∀ k < 28, p.getLsbD k = s.cpsr.getLsbD k) :
    Ends i s (u.setCpsr (if sb then p else s.cpsr)).advance := by
  cases sb
  · exact flags h fun _ _ => rfl
  · exact flags h hp

theorem multiplyTo {sb : Bool} {rd : Reg} {v : Word} : Leads (Ends i s) (Machine.multiplyTo sb rd v s) :=
  Leads.next (flagsIf ((Underway.refl s).setReg rd v) (withNZ_kept _ _))

theorem longTo {sb : Bool} {hi lo : Reg} {v : BitVec 64} : Leads (Ends i s) (Machine.longTo sb hi lo v s) :=
  Leads.next (flagsIf (((Underway.refl s).setReg hi _).setReg lo _) (withLongNZ_kept _ _))

theorem thumbArith {rd : LowReg} {r : Sum} : Leads (Ends i s) (Machine.thumbArith rd r s) :=
  Leads.next (flags ((Underway.refl s).setReg _ _) (withArith_kept _ _))

theorem thumbLogic {rd : LowReg} {v : Word} : Leads (Ends i s) (Machine.thumbLogic rd v s) :=
  Leads.next (flags ((Underway.refl s).setReg _ _) (withNZ_kept _ _))

theorem thumbShift {rd : LowReg} {o : Shifted} : Leads (Ends i s) (Machine.thumbShift rd o s) :=
  Leads.next (flags ((Underway.refl s).setReg _ _) (withLogic_kept _ _ _))

theorem thumbCompare {r : Sum} : Leads (Ends i s) (Machine.thumbCompare r s) :=
  Leads.next (flags (Underway.refl s) (withArith_kept _ _))

/-! Exceptions -/

theorem undefined (h : Underway s u) (link : Word) : Ends i s (takeException .undefined link u) :=
  .traps u .undefined link h (by decide) (by decide) rfl

theorem dataAbort (h : Underway s u) : Ends i s (takeDataAbort u) :=
  .traps u .dataAbort _ h (by decide) (by decide) rfl

theorem prefetchAbort : Ends i s (takePrefetchAbort s) :=
  .traps s .prefetchAbort _ (Underway.refl s) (by decide) (by decide) rfl

theorem swi : Ends i s (takeSwi s) := .traps s .swi _ (Underway.refl s) (by decide) (by decide) rfl

theorem passed {c : Cond} {k : Result} (hk : Leads (Ends i s) k) : Leads (Ends i s) (whenPassed c s k) :=
  Leads.whenPassed (advance (Underway.refl s)) fun _ => hk

/-! Transfers of control -/

/-- A transfer of control that keeps the CPSR, to a target that is aligned where the PC is. -/
theorem setPc (h : Underway s u) {v : Word} (ha : psrJ s.cpsr = false → (psrT s.cpsr = false → thumbJump i = false) →
    s.pcAligned → v.toNat % s.size = 0) : Ends i s (u.setPc v) := by
  refine .jumps h.regs h.spsr (fun k _ _ => by rw [State.setPc_cpsr, h.cpsr]) fun hj ht hs => ?_
  have hc : (u.setPc v).cpsr = s.cpsr := h.cpsr
  rw [State.pcAligned_iff (by rw [hc]; exact inJazelle_of_psrJ hj), State.size_congr (s := s) (by rw [hc])]
  exact ha hj ht hs

/-- A transfer of control that also selects the state, ARM or Thumb. -/
theorem setState (h : Underway s u) {b : Bool} {v : Word} (ha : psrJ s.cpsr = false → s.pcAligned →
    v.toNat % (if b then 2 else 4) = 0) : Ends i s ((u.setCpsr (setBit s.cpsr 5 b)).setPc v) := by
  have hb : ∀ k, k ≠ 5 → (setBit s.cpsr 5 b).getLsbD k = s.cpsr.getLsbD k := fun k hk => by simp [hk]
  refine .jumps h.regs h.spsr (fun k _ hk => hb k hk) fun hj _ hs => ?_
  have hT : psrT (setBit s.cpsr 5 b) = b := (getLsbD_setBit _ _ _ _).trans (if_pos ⟨rfl, by omega⟩)
  have hJ : psrJ (setBit s.cpsr 5 b) = false := (hb 24 (by omega)).trans hj
  rw [State.pcAligned, State.setPc_cpsr, State.setCpsr_cpsr, returnAligned_iff (inJazelle_of_psrJ hJ), hT]
  exact ha hj hs

theorem pc_mod_two (hj : psrJ s.cpsr = false) (h : s.pcAligned) : s.pc.toNat % 2 = 0 := by
  rw [State.pcAligned_iff (inJazelle_of_psrJ hj)] at h
  rcases s.size_eq with h2 | h4
  · rwa [h2] at h
  · rw [h4] at h; omega

/-- A branch of ARM state keeps the alignment of either state. -/
theorem armBranch (h : Underway s u) (imm24 : BitVec 24) : Ends i s (u.setPc (s.armTarget imm24)) := by
  refine setPc h fun hj _ hs => ?_
  have ht := s.armTarget_mod imm24
  rw [State.pcAligned_iff (inJazelle_of_psrJ hj)] at hs
  rcases s.size_eq with h2 | h4
  · rw [h2] at hs ⊢; omega
  · rw [h4] at hs ⊢; omega

/-- A branch of Thumb state to an even address. -/
theorem thumbBranch (h : Underway s u) {v : Word} (hi : thumbJump i = true)
    (hv : s.pc.toNat % 2 = 0 → v.toNat % 2 = 0) : Ends i s (u.setPc v) := by
  refine setPc h fun hj ht hs => ?_
  cases hT : psrT s.cpsr with
  | false => rw [ht hT] at hi; cases hi
  | true =>
    rw [State.size, hT, if_pos rfl]
    exact hv (pc_mod_two hj hs)

theorem branchExchange (h : Underway s u) {v : Word} : Leads (Ends i s) (Machine.branchExchange v u) := by
  refine Leads.branchExchange fun hv => ?_
  rw [h.cpsr]
  refine setState h fun _ _ => ?_
  cases hb : v.getLsbD 0 with
  | true => exact clear_low_bit_mod v
  | false =>
    have h2 := (extract_two_two v).not.mp hv
    have h1 := (bit_zero_odd v).not.mp (by rw [hb]; exact Bool.false_ne_true)
    have := v.isLt
    rw [clear_low_bit, BitVec.toNat_sub, BitVec.toNat_umod, show (2 : Word).toNat = 2 from rfl]
    rw [if_neg Bool.false_ne_true]
    omega

theorem thumbHigh {rd : Reg} {v : Word} (hi : thumbJump i = true) : Leads (Ends i s) (Machine.thumbHigh rd v s) :=
  Leads.ite (fun _ => Leads.next (thumbBranch (Underway.refl s) hi fun _ => clear_low_bit_mod v))
    fun _ => Leads.next (advance ((Underway.refl s).setReg rd v))

theorem exceptionReturn (h : Underway s u) (hi : isExceptionReturn i) {v : Word} :
    Leads (Ends i s) (Machine.exceptionReturn v u) :=
  Leads.exceptionReturn fun p hp hj ha => .returns p hi (by rw [← h.mode, ← h.spsr]; exact hp) hj ha rfl

/-! Data processing -/

theorem dataResult {sb : Bool} {rd : Reg} {psr v : Word} (hr : rd = 15#4 → sb = true → isExceptionReturn i)
    (hp : ∀ k < 28, psr.getLsbD k = s.cpsr.getLsbD k) : Leads (Ends i s) (Machine.dataResult sb rd psr v s) := by
  refine Leads.dataResult (fun hd hb p h1 h2 h3 => .returns p (hr hd hb) h1 h2 h3 rfl) (fun hv => ?_)
    (flags ((Underway.refl s).setReg rd v) hp) (flags ((Underway.refl s).setReg rd v) fun _ _ => rfl)
  refine setPc (Underway.refl s) fun _ _ _ => ?_
  have := (extract_two_zero v).mp hv
  rcases s.size_eq with h2 | h4
  · rw [h2]; omega
  · rw [h4]; exact this

theorem logicalTo {sb : Bool} {rd : Reg} {v : Word} {o : Shifted}
    (hr : rd = 15#4 → sb = true → isExceptionReturn i) : Leads (Ends i s) (Machine.logicalTo sb rd v o s) :=
  dataResult hr (withLogic_kept _ _ _)

theorem arithTo {sb : Bool} {rd : Reg} {r : Sum}
    (hr : rd = 15#4 → sb = true → isExceptionReturn i) : Leads (Ends i s) (Machine.arithTo sb rd r s) :=
  dataResult hr (withArith_kept _ _)

theorem logicalTest {v : Word} {o : Shifted} : Leads (Ends i s) (Machine.logicalTest v o s) :=
  Leads.next (flags (Underway.refl s) (withLogic_kept _ _ _))

theorem arithTest {r : Sum} : Leads (Ends i s) (Machine.arithTest r s) :=
  Leads.next (flags (Underway.refl s) (withArith_kept _ _))

/-! The status registers -/

theorem execMrs {c : Cond} {r : Bool} {rd : Reg} : Leads (Ends i s) (Machine.execMrs c r rd s) := by
  refine passed (Leads.noPc fun _ => Leads.ite (fun _ => ?_) fun _ =>
    Leads.next (advance ((Underway.refl s).setReg _ _)))
  cases s.spsr.get s.mode with
  | none => exact Leads.refused
  | some p => exact Leads.next (advance ((Underway.refl s).setReg _ _))

theorem msrWith {r : Bool} {mask : BitVec 4} {v : Word} (hi : isMsr i) :
    Leads (Ends i s) (Machine.msrWith r mask v s) := by
  refine Leads.ite (fun _ => ?_) fun _ => Leads.ite (fun hp => Leads.ite (fun _ => ?_) fun _ => Leads.refused) fun _ => ?_
  · cases hs : s.spsr.get s.mode with
    | none => exact Leads.refused
    | some p =>
      refine Leads.next (.writesStatus hi rfl rfl ⟨rfl, rfl⟩ fun hu => ?_)
      rw [State.mode_of_user hu] at hs
      cases hs
  · have hk : ∀ k, k = 24 ∨ k = 5 →
        (merge s.cpsr v (byteMask mask &&& 0xFEFFFFDF#32)).getLsbD k = s.cpsr.getLsbD k := by
      rintro k (rfl | rfl) <;> rw [getLsbD_merge, BitVec.getLsbD_and, getLsbD_privilegedMask (by omega)] <;> simp
    refine Leads.next (.writesStatus hi rfl ?_ ⟨hk 24 (.inl rfl), hk 5 (.inr rfl)⟩ fun hu => ?_)
    · exact State.nextPc_congr rfl (hk 5 (.inr rfl))
    · rw [hp] at hu; cases hu
  · have hk : ∀ k < 27, (merge s.cpsr v (byteMask mask &&& 0xF8000000#32)).getLsbD k = s.cpsr.getLsbD k := by
      intro k hk
      rw [getLsbD_merge, BitVec.getLsbD_and, getLsbD_userMask (by omega), decide_eq_false (by omega)]
      simp
    exact Leads.next (.writesStatus hi rfl (State.nextPc_congr rfl (hk 5 (by omega)))
      ⟨hk 24 (by omega), hk 5 (by omega)⟩ fun _ => ⟨rfl, hk⟩)

/-! Loads and stores -/

theorem finishLoad {a : Address} {rn rd : Reg} {v : Word} : Leads (Ends i s) (Machine.finishLoad a rn rd v s) :=
  Leads.finishLoad (advance (((Underway.refl s).writeBase a rn).setReg rd v))

theorem finishStore {a : Address} {rn : Reg} (h : Underway s u) : Leads (Ends i s) (Machine.finishStore a rn u) :=
  Leads.finishStore (advance (h.writeBase a rn))

theorem load {α : Type} {l : Load α} {a : Address} {rn rd : Reg} {f : α → Word} :
    Leads (Ends i s) (withLoad l s fun v => Machine.finishLoad a rn rd (f v) s) :=
  Leads.withLoad (dataAbort (Underway.refl s)) fun _ => finishLoad

theorem thumbLoad {α : Type} {l : Load α} {rd : LowReg} {f : α → Word} :
    Leads (Ends i s) (withLoad l s fun v => thumbLoaded rd (f v) s) :=
  Leads.withLoad (dataAbort (Underway.refl s)) fun _ => Leads.next (advance ((Underway.refl s).setReg _ _))

theorem ldrWith {a : Address} {rn rd : Reg} : Leads (Ends i s) (Machine.ldrWith a rn rd s) :=
  Leads.withLoad (dataAbort (Underway.refl s)) fun _ => Leads.ite
    (fun _ => Leads.ite (fun _ => branchExchange ((Underway.refl s).writeBase a rn)) fun _ => Leads.refused)
    fun _ => finishLoad

theorem storeWord {p locked : Bool} {a v : Word} {f : State → Result}
    (hf : ∀ {u}, Underway s u → Leads (Ends i s) (f u)) :
    Leads (Ends i s) (withStore (s.storeWord p a v locked) s f) :=
  Leads.storeWord (dataAbort (Underway.refl s)) (hf ((Underway.refl s).putBytes _ _))

theorem storeHalf {p : Bool} {a : Word} {v : Half} {f : State → Result}
    (hf : ∀ {u}, Underway s u → Leads (Ends i s) (f u)) : Leads (Ends i s) (withStore (s.storeHalf p a v) s f) :=
  Leads.storeHalf (dataAbort (Underway.refl s)) (hf ((Underway.refl s).putBytes _ _))

theorem storeByte {p locked : Bool} {a : Word} {v : Byte} {f : State → Result}
    (hf : ∀ {u}, Underway s u → Leads (Ends i s) (f u)) :
    Leads (Ends i s) (withStore (s.storeByte p a v locked) s f) :=
  Leads.storeByte (dataAbort (Underway.refl s)) (hf ((Underway.refl s).putByte _ _))

theorem storeList {a : Word} {ws : List Word} {f : State → Result}
    (hf : ∀ {u}, Underway s u → Leads (Ends i s) (f u)) : Leads (Ends i s) (Machine.storeList s a ws f) :=
  Leads.storeList (fun _ hu _ => dataAbort ((Underway.refl s).sameCore hu))
    fun _ hu _ => hf ((Underway.refl s).sameCore hu)

theorem loadRegs {rs : List Reg} {a : Word} {rn : Reg} {f : List Word → State → Result}
    (hf : ∀ ws {u}, Underway s u → Leads (Ends i s) (f ws u)) : Leads (Ends i s) (Machine.loadRegs s rs a rn f) :=
  Leads.loadRegs (fun _ => dataAbort ((Underway.refl s).clobber _))
    fun ws => hf ws ((Underway.refl s).setRegs rs ws)

theorem ldrdWith {a : Address} {rn rd : Reg} : Leads (Ends i s) (Machine.ldrdWith a rn rd s) :=
  Leads.evenPair (Leads.doubleAligned (loadRegs fun _ _ hu => Leads.next (advance (hu.writeBase a rn))))

theorem strdWith {a : Address} {rn rd : Reg} : Leads (Ends i s) (Machine.strdWith a rn rd s) :=
  Leads.evenPair (Leads.doubleAligned (storeList fun hu => finishStore hu))

theorem execLdm {c : Cond} {p u wb : Bool} {rn : Reg} {list : BitVec 16} :
    Leads (Ends i s) (Machine.execLdm c p u wb rn list s) := by
  refine passed (Leads.multipleAllowed (Leads.baseNotListed (loadRegs fun ws t ht => ?_)))
  have hb := ht.setRegIf wb rn (multipleBase u (s.reg rn) (listed list).length)
  exact Leads.ite (fun _ => branchExchange hb) fun _ => Leads.next (advance hb)

theorem execLdmUser {c : Cond} {p u : Bool} {rn : Reg} {list : BitVec 15} :
    Leads (Ends i s) (Machine.execLdmUser c p u rn list s) := by
  refine passed (Leads.multipleAllowed ?_)
  cases s.spsr.get s.mode with
  | none => exact Leads.refused
  | some _ =>
    dsimp only
    split
    · exact Leads.next (advance (((Underway.refl s).setUserRegs _ _).congr rfl rfl rfl rfl rfl))
    · exact Leads.next (dataAbort ((Underway.refl s).clobberUser _))
    · exact Leads.fault

theorem execLdmRestore {c : Cond} {p u wb : Bool} {rn : Reg} {list : BitVec 15} (hi : isExceptionReturn i) :
    Leads (Ends i s) (Machine.execLdmRestore c p u wb rn list s) := by
  refine passed (Leads.multipleAllowed (Leads.baseNotListed ?_))
  cases s.spsr.get s.mode with
  | none => exact Leads.refused
  | some _ => exact loadRegs fun ws _ ht => exceptionReturn (ht.setRegIf wb rn _) hi

theorem execStmUser {c : Cond} {p u : Bool} {rn : Reg} {list : BitVec 16} :
    Leads (Ends i s) (Machine.execStmUser c p u rn list s) := by
  refine passed (Leads.multipleAllowed ?_)
  cases s.spsr.get s.mode with
  | none => exact Leads.refused
  | some _ => exact storeList fun ht => Leads.next (advance ht)

theorem execThumbPush {r : Bool} {list : BitVec 8} : Leads (Ends i s) (Machine.execThumbPush r list s) :=
  Leads.multipleAllowed (storeList fun hu => Leads.next (advance (hu.setReg _ _)))

theorem execThumbPop {r : Bool} {list : BitVec 8} : Leads (Ends i s) (Machine.execThumbPop r list s) :=
  Leads.multipleAllowed (loadRegs fun _ _ ht => Leads.ite (fun _ => branchExchange (ht.setReg _ _))
    fun _ => Leads.next (advance (ht.setReg _ _)))

theorem execThumbLdmia {rb : LowReg} {list : BitVec 8} : Leads (Ends i s) (Machine.execThumbLdmia rb list s) := by
  refine Leads.multipleAllowed (loadRegs fun _ t ht => Leads.next (advance ?_))
  split
  · exact ht
  · exact ht.setReg _ _

/-! Coprocessor instructions -/

theorem offer {j : Instr} {f : Word → Word → List Word → State → Result}
    (hf : ∀ first second more {u}, Underway s u → Leads (Ends i s) (f first second more u)) :
    Leads (Ends i s) (Machine.offer j s f) :=
  Leads.offer
    (fun as n => undefined (u := { s with cpAnswers := as, freeCount := n }) ((Underway.refl s).congr rfl rfl rfl rfl rfl) _)
    (fun _ _ => .goesOn (fun _ _ _ => rfl) rfl (fun _ _ => rfl) (.inl rfl) (.inr rfl))
    fun _ _ _ _ _ => hf _ _ _ ((Underway.refl s).congr rfl rfl rfl rfl rfl)

theorem mrcResult (h : Underway s u) {rd : Reg} {data : Word} : Leads (Ends i s) (Machine.mrcResult rd data u) :=
  Leads.ite (fun _ => Leads.next (flags h (by rw [h.cpsr]; exact withTopFlags_kept _ _)))
    fun _ => Leads.next (advance (h.setReg _ _))

theorem mrcWith {j : Instr} {rd : Reg} : Leads (Ends i s) (Machine.mrcWith j rd s) :=
  offer fun _ _ _ _ hu => mrcResult (hu.send _ _ _)

theorem mcrWith {j : Instr} {rd : Reg} : Leads (Ends i s) (Machine.mcrWith j rd s) :=
  offer fun _ _ _ _ hu => Leads.noPc fun _ => Leads.next (advance (hu.send _ _ _))

theorem cdpWith {j : Instr} : Leads (Ends i s) (Machine.cdpWith j s) :=
  offer fun _ _ _ _ hu => Leads.next (advance (hu.send _ _ _))

theorem ldcWith {j : Instr} {p u wb : Bool} {rn : Reg} {off8 : BitVec 8} :
    Leads (Ends i s) (Machine.ldcWith j p u wb rn off8 s) := by
  refine offer fun _ _ _ t ht => Leads.cpBaseAllowed ?_
  split
  · exact Leads.next (advance ((ht.setRegIf wb rn _).send _ _ _))
  · exact Leads.next (dataAbort (ht.send _ _ _))
  · exact Leads.fault

theorem stcWith {j : Instr} {p u wb : Bool} {rn : Reg} {off8 : BitVec 8} :
    Leads (Ends i s) (Machine.stcWith j p u wb rn off8 s) := by
  refine offer fun _ _ _ t ht => Leads.cpBaseAllowed ?_
  split
  · rename_i v hv
    exact Leads.next (advance (((ht.sameCore (SameCore.storeWords (.inl hv))).setRegIf wb rn _).send _ _ _))
  · rename_i v hv
    exact Leads.next (dataAbort ((ht.sameCore (SameCore.storeWords (.inr hv))).send _ _ _))
  · exact Leads.refused

theorem execMcr {c : Cond} {op1 : BitVec 3} {crn : BitVec 4} {rd : Reg} {cp : BitVec 4} {op2 : BitVec 3}
    {crm : BitVec 4} : Leads (Ends i s) (Machine.execMcr c op1 crn rd cp op2 crm s) := by
  refine passed (Leads.ite (fun _ => Leads.noPc fun _ => ?_) fun _ => mcrWith)
  split
  · exact Leads.next (advance (cp14Write_underway ‹_›))
  · exact Leads.refused

theorem execMrc {c : Cond} {op1 : BitVec 3} {crn : BitVec 4} {rd : Reg} {cp : BitVec 4} {op2 : BitVec 3}
    {crm : BitVec 4} : Leads (Ends i s) (Machine.execMrc c op1 crn rd cp op2 crm s) := by
  refine passed (Leads.ite (fun _ => ?_) fun _ => mrcWith)
  split
  · exact mrcResult (cp14Read_underway ‹_›)
  · exact Leads.refused

/-! ### The case split over the instructions -/

/-- Data processing with an immediate operand, S = 1 and Rd = 15 is an exception return. -/
theorem isExceptionReturn_of_imm {i : Instr} (c : Cond) (rn : Reg) (rot : BitVec 4) (imm8 : BitVec 8)
    (h : i ∈ logicalImm c true rn 15#4 rot imm8 ∨ i ∈ arithImm c true rn 15#4 rot imm8) : isExceptionReturn i :=
  .inl ⟨c, rn, 0#4, rot, imm8, 0#5, .lsl, by rcases h with h | h <;> simp [dataReturns, h]⟩

/-- Data processing with a register shifted by an immediate, S = 1 and Rd = 15 is an exception return. -/
theorem isExceptionReturn_of_shift {i : Instr} (c : Cond) (rn rm : Reg) (n : BitVec 5) (sh : Shift)
    (h : i ∈ logicalShift c true rn 15#4 n sh rm ∨ i ∈ arithShift c true rn 15#4 n sh rm) : isExceptionReturn i :=
  .inl ⟨c, rn, rm, 0#4, 0#8, n, sh, by rcases h with h | h <;> simp [dataReturns, h]⟩

/-- Every instruction that leads to a next state ends in one of the five ways. -/
theorem of_exec (i : Instr) (s : State) : Leads (Ends i s) (exec i s) := by
  have h := Underway.refl s
  cases i with
  | andImm c _ rn _ rot imm8 | eorImm c _ rn _ rot imm8 | orrImm c _ rn _ rot imm8 | bicImm c _ rn _ rot imm8 =>
    refine passed (logicalTo ?_)
    rintro rfl rfl
    exact isExceptionReturn_of_imm c rn rot imm8 (.inl (by simp [logicalImm]))
  | movImm c _ _ rot imm8 | mvnImm c _ _ rot imm8 =>
    refine passed (logicalTo ?_)
    rintro rfl rfl
    exact isExceptionReturn_of_imm c 0#4 rot imm8 (.inl (by simp [logicalImm]))
  | subImm c _ rn _ rot imm8 | rsbImm c _ rn _ rot imm8 | addImm c _ rn _ rot imm8 | adcImm c _ rn _ rot imm8
  | sbcImm c _ rn _ rot imm8 | rscImm c _ rn _ rot imm8 =>
    refine passed (arithTo ?_)
    rintro rfl rfl
    exact isExceptionReturn_of_imm c rn rot imm8 (.inr (by simp [arithImm]))
  | andShift c _ rn _ n sh rm | eorShift c _ rn _ n sh rm | orrShift c _ rn _ n sh rm | bicShift c _ rn _ n sh rm =>
    refine passed (logicalTo ?_)
    rintro rfl rfl
    exact isExceptionReturn_of_shift c rn rm n sh (.inl (by simp [logicalShift]))
  | movShift c _ _ n sh rm | mvnShift c _ _ n sh rm =>
    refine passed (logicalTo ?_)
    rintro rfl rfl
    exact isExceptionReturn_of_shift c 0#4 rm n sh (.inl (by simp [logicalShift]))
  | subShift c _ rn _ n sh rm | rsbShift c _ rn _ n sh rm | addShift c _ rn _ n sh rm | adcShift c _ rn _ n sh rm
  | sbcShift c _ rn _ n sh rm | rscShift c _ rn _ n sh rm =>
    refine passed (arithTo ?_)
    rintro rfl rfl
    exact isExceptionReturn_of_shift c rn rm n sh (.inr (by simp [arithShift]))
  | andRegShift | eorRegShift | orrRegShift | movRegShift | bicRegShift | mvnRegShift =>
    exact passed (Leads.noPc fun hn => logicalTo fun hd => absurd (by simp [hd]) hn)
  | subRegShift | rsbRegShift | addRegShift | adcRegShift | sbcRegShift | rscRegShift =>
    exact passed (Leads.noPc fun hn => arithTo fun hd => absurd (by simp [hd]) hn)
  | tstImm | teqImm | tstShift | teqShift => exact passed logicalTest
  | cmpImm | cmnImm | cmpShift | cmnShift => exact passed arithTest
  | tstRegShift | teqRegShift => exact passed (Leads.noPc fun _ => logicalTest)
  | cmpRegShift | cmnRegShift => exact passed (Leads.noPc fun _ => arithTest)
  | mul | mla => exact passed (Leads.noPc fun _ => Leads.distinct multiplyTo)
  | umull | umlal | smull | smlal => exact passed (Leads.longAllowed longTo)
  | smlalXY => exact passed (Leads.noPc fun _ => Leads.distinct longTo)
  | smlaXY | smlaWY => exact passed (Leads.noPc fun _ => stickyTo (.inr (by simp)))
  | qadd | qsub | qdadd | qdsub => exact passed (Leads.noPc fun _ => stickyTo (.inl (by simp)))
  | smulWY | smulXY | clz => exact passed (Leads.noPc fun _ => Leads.next (advance (h.setReg _ _)))
  | mrs => exact execMrs
  | msrReg => exact passed (Leads.noPc fun _ => msrWith (.inl (by simp)))
  | msrImm => exact passed (msrWith (.inr (by simp)))
  | bx => exact passed (branchExchange h)
  | bxj => exact passed Leads.refused
  | blxReg => exact passed (Leads.noPc fun _ => branchExchange (h.setReg _ _))
  | b => exact passed (Leads.next (armBranch h _))
  | bl => exact passed (Leads.next (armBranch (h.setReg _ _) _))
  | blxImm hb imm24 =>
    refine Leads.next (setState (h.setReg _ _) fun hj hs => ?_)
    have ht := s.armTarget_mod imm24
    have hp := pc_mod_two hj hs
    rw [if_pos rfl]
    cases hb <;> simp <;> omega
  | swi => exact passed (Leads.next Ends.swi)
  | thumbSwi => exact Leads.next Ends.swi
  | bkpt | thumbBkpt => exact Leads.next prefetchAbort
  | undefSpace | undefImm => exact passed (Leads.next (undefined h _))
  | thumbUndefCond | thumbUndefBlx => exact Leads.next (undefined h _)
  | swp =>
    exact passed (Leads.noPc fun _ => Leads.distinct (Leads.withLoad (dataAbort h) fun _ =>
      storeWord fun hu => Leads.next (advance (hu.setReg _ _))))
  | swpb =>
    exact passed (Leads.noPc fun _ => Leads.distinct (Leads.withLoad (dataAbort h) fun _ =>
      storeByte fun hu => Leads.next (advance (hu.setReg _ _))))
  | ldrImm => exact passed (Leads.baseAllowed ldrWith)
  | ldrReg => exact passed (Leads.regBaseAllowed ldrWith)
  | ldrbImm | ldrtImm | ldrbtImm | ldrsbImm => exact passed (Leads.baseAllowed (Leads.noPc fun _ => load))
  | ldrbReg | ldrtReg | ldrbtReg | ldrsbReg => exact passed (Leads.regBaseAllowed (Leads.noPc fun _ => load))
  | ldrhImm | ldrshImm => exact passed (Leads.baseAllowed (Leads.noPc fun _ => Leads.evenAddress load))
  | ldrhReg | ldrshReg => exact passed (Leads.regBaseAllowed (Leads.noPc fun _ => Leads.evenAddress load))
  | strImm => exact passed (Leads.baseAllowed (storeWord finishStore))
  | strReg => exact passed (Leads.regBaseAllowed (storeWord finishStore))
  | strtImm => exact passed (Leads.baseAllowed (Leads.noPc fun _ => storeWord finishStore))
  | strtReg => exact passed (Leads.regBaseAllowed (Leads.noPc fun _ => storeWord finishStore))
  | strbImm | strbtImm => exact passed (Leads.baseAllowed (Leads.noPc fun _ => storeByte finishStore))
  | strbReg | strbtReg => exact passed (Leads.regBaseAllowed (Leads.noPc fun _ => storeByte finishStore))
  | strhImm => exact passed (Leads.baseAllowed (Leads.noPc fun _ => Leads.evenAddress (storeHalf finishStore)))
  | strhReg => exact passed (Leads.regBaseAllowed (Leads.noPc fun _ => Leads.evenAddress (storeHalf finishStore)))
  | ldrdImm => exact passed (Leads.pairBaseAllowed ldrdWith)
  | ldrdReg => exact passed (Leads.pairRegBaseAllowed ldrdWith)
  | strdImm => exact passed (Leads.pairBaseAllowed strdWith)
  | strdReg => exact passed (Leads.pairRegBaseAllowed strdWith)
  | pldImm => exact Leads.next (advance h)
  | pldReg => exact Leads.noPc fun _ => Leads.next (advance h)
  | ldm => exact execLdm
  | ldmUser => exact execLdmUser
  | ldmRestore => exact execLdmRestore (.inr (by simp))
  | stm =>
    exact passed (Leads.multipleAllowed (Leads.baseLowest (storeList fun hu =>
      Leads.next (advance (hu.setRegIf _ _ _)))))
  | stmUser => exact execStmUser
  | cdp => exact passed (Leads.notCp14 cdpWith)
  | mcr => exact execMcr
  | mrc => exact execMrc
  | mcrr =>
    exact passed (Leads.notCp14 (offer fun _ _ _ _ hu => Leads.noPc fun _ => Leads.next (advance (hu.send _ _ _))))
  | mrrc =>
    exact passed (Leads.notCp14 (offer fun _ _ _ _ hu => Leads.noPc fun _ => Leads.distinct
      (Leads.next (advance (((hu.setReg _ _).setReg _ _).send _ _ _)))))
  | ldc => exact passed (Leads.notCp14 ldcWith)
  | stc => exact passed (Leads.notCp14 stcWith)
  | cdp2 => exact Leads.notCp14 cdpWith
  | mcr2 => exact Leads.notCp14 mcrWith
  | mrc2 => exact Leads.notCp14 mrcWith
  | ldc2 => exact Leads.notCp14 ldcWith
  | stc2 => exact Leads.notCp14 stcWith
  | thumbLslImm | thumbLsrImm | thumbAsrImm | thumbLslReg | thumbLsrReg | thumbAsrReg | thumbRorReg =>
    exact thumbShift
  | thumbAddReg | thumbSubReg | thumbAddImm3 | thumbSubImm3 | thumbAddImm8 | thumbSubImm8 | thumbAdc | thumbSbc
  | thumbNeg => exact thumbArith
  | thumbMovImm | thumbAnd | thumbEor | thumbOrr | thumbBic | thumbMvn => exact thumbLogic
  | thumbMul => exact Leads.distinct thumbLogic
  | thumbCmpImm | thumbCmp | thumbCmn => exact thumbCompare
  | thumbCmpHigh => exact Leads.noPc fun _ => thumbCompare
  | thumbTst => exact Leads.next (flags h (withNZ_kept _ _))
  | thumbAddHigh | thumbMovHigh => exact thumbHigh rfl
  | thumbAddPc | thumbAddSp | thumbIncSp | thumbDecSp | thumbBlPrefix => exact Leads.next (advance (h.setReg _ _))
  | thumbBCond _ imm8 => exact passed (Leads.next (thumbBranch h rfl (s.thumbTarget_mod imm8).trans))
  | thumbB imm11 => exact Leads.next (thumbBranch h rfl (s.thumbTarget_mod imm11).trans)
  | thumbBlSuffix => exact Leads.next (thumbBranch (h.setReg _ _) rfl fun _ => clear_low_bit_mod _)
  | thumbBlxSuffix => exact Leads.next (setState (h.setReg _ _) fun _ _ => wordAlign_mod _)
  | thumbBx => exact branchExchange h
  | thumbBlxReg => exact Leads.noPc fun _ => branchExchange (h.setReg _ _)
  | thumbLdrPc | thumbLdrReg | thumbLdrImm | thumbLdrSp | thumbLdrbReg | thumbLdrbImm | thumbLdrsbReg =>
    exact thumbLoad
  | thumbLdrhReg | thumbLdrhImm | thumbLdrshReg => exact Leads.evenAddress thumbLoad
  | thumbStrReg | thumbStrImm | thumbStrSp => exact storeWord fun hu => Leads.next (advance hu)
  | thumbStrbReg | thumbStrbImm => exact storeByte fun hu => Leads.next (advance hu)
  | thumbStrhReg | thumbStrhImm => exact Leads.evenAddress (storeHalf fun hu => Leads.next (advance hu))
  | thumbPush => exact execThumbPush
  | thumbPop => exact execThumbPop
  | thumbStmia =>
    exact Leads.multipleAllowed (Leads.baseLowest (storeList fun hu => Leads.next (advance (hu.setReg _ _))))
  | thumbLdmia => exact execThumbLdmia

end Ends

/-! ### The PC stays aligned (O54) -/

/-- No word of ARM state is an instruction that transfers control inside Thumb state. -/
theorem armRows_not_thumbJump : ∀ r ∈ armRows, ∀ c w, thumbJump (r.build c w) = false := by
  simp only [armRows, armRows1, armRows2, armRows3, armRows4, armRows5, armRows6, armRows7, armRows8,
    List.forall_mem_append, List.forall_mem_cons, row, thumbJump]
  simp

theorem unconditionalRows_not_thumbJump : ∀ r ∈ unconditionalRows, ∀ c w, thumbJump (r.build c w) = false := by
  simp only [unconditionalRows, unconditionalRows1, List.forall_mem_cons, row, thumbJump]
  simp

theorem decodeArm_not_thumbJump {w : Word} {i : Instr} (h : decodeArm w = .instr i) : thumbJump i = false := by
  unfold decodeArm at h
  split at h <;> split at h <;> cases h
  · exact armRows_not_thumbJump _ (List.mem_of_find?_eq_some ‹_›) _ _
  · exact unconditionalRows_not_thumbJump _ (List.mem_of_find?_eq_some ‹_›) _ _

/-- A reset leaves the CPSR that an exception into Supervisor mode leaves, and F set (R346). -/
theorem getLsbD_resetCpsr (p : Word) (j : Nat) :
    (resetCpsr p).getLsbD j = if j = 6 then true else (exceptionCpsr .swi p).getLsbD j := by
  rw [show resetCpsr p = setBit (exceptionCpsr .swi p) 6 true from rfl, getLsbD_setBit]
  simp

/-- The vectors are word-aligned (R340). -/
theorem State.vector_mod (s : State) (e : Exception) : (s.vectorBase + e.offset).toNat % 4 = 0 := by
  unfold State.vectorBase
  cases s.config.hiVecs <;> cases e <;> rfl

/-- A handler starts in ARM state at an aligned address. -/
theorem takeException_aligned (e : Exception) (link : Word) (s : State) :
    (takeException e link s).pcAligned ∧ inJazelle (takeException e link s).cpsr = false := by
  have hJ : psrJ (takeException e link s).cpsr = false := by
    rw [takeException_cpsr, psrJ, getLsbD_exceptionCpsr]
    rfl
  exact ⟨State.pcAligned_of_word hJ (s.vector_mod e), inJazelle_of_psrJ hJ⟩

/-- So does the reset handler. -/
theorem takeReset_aligned (s : State) : (takeReset s).pcAligned ∧ inJazelle (takeReset s).cpsr = false := by
  have hJ : psrJ (takeReset s).cpsr = false := by
    change (resetCpsr _).getLsbD 24 = false
    rw [getLsbD_resetCpsr, getLsbD_exceptionCpsr]
    rfl
  refine ⟨State.pcAligned_of_word hJ ?_, inJazelle_of_psrJ hJ⟩
  change s.vectorBase.toNat % 4 = 0
  unfold State.vectorBase
  cases s.config.hiVecs <;> rfl

/-- What a boundary takes instead of an instruction starts at an aligned address. -/
theorem boundary_entered_aligned {s t : State} (h : boundary s = .entered t) :
    t.pcAligned ∧ inJazelle t.cpsr = false := by
  rcases boundary_entered h with rfl | rfl | rfl | hf
  · exact takeReset_aligned _
  · exact takeException_aligned _ _ _
  · exact takeException_aligned _ _ _
  · rcases fetch_entered hf with rfl | ⟨-, -, rfl⟩ <;> exact takeException_aligned _ _ _

/-- An instruction ends at an aligned address, in ARM or in Thumb state. -/
theorem Ends.aligned {i : Instr} {s t : State} (h : Ends i s t) (hj : psrJ s.cpsr = false)
    (ht : psrT s.cpsr = false → thumbJump i = false) (hs : s.pcAligned) :
    t.pcAligned ∧ inJazelle t.cpsr = false := by
  have sequential {t : State} (hJ : psrJ t.cpsr = psrJ s.cpsr) (hT : psrT t.cpsr = psrT s.cpsr)
      (hpc : t.pc = s.nextPc ∨ t.pc = s.pc) : t.pcAligned ∧ inJazelle t.cpsr = false := by
    have hjt := inJazelle_of_psrJ (hJ.trans hj)
    rw [State.pcAligned_iff (inJazelle_of_psrJ hj)] at hs
    rw [State.pcAligned_iff hjt, State.size_congr hT]
    rcases hpc with hpc | hpc <;> rw [hpc]
    · exact ⟨s.nextPc_mod.trans hs, hjt⟩
    · exact ⟨hs, hjt⟩
  cases h with
  | goesOn _ _ bits _ pc => exact sequential (bits 24 (by omega)) (bits 5 (by omega)) pc
  | jumps _ _ bits aligned =>
    exact ⟨aligned hj ht hs, inJazelle_of_psrJ ((bits 24 (by omega) (by omega)).trans hj)⟩
  | traps u e link _ _ _ entered =>
    subst entered
    exact takeException_aligned e link u
  | returns p _ _ state aligned cpsr =>
    subst cpsr
    exact ⟨aligned, state⟩
  | writesStatus _ _ pc state => exact sequential state.1 state.2 (.inl pc)

/-- Settles O54: the boundary leads to an aligned handler, and an instruction ends at an aligned address. -/
theorem pcAlignedKept : Obligations.PcAlignedKept := by
  intro s t hs hstep
  rcases step_next hstep with hb | ⟨i, u, hb, hx⟩
  · obtain ⟨ha, hj⟩ := boundary_entered_aligned hb
    exact ⟨ha, fun _ => hj⟩
  · obtain ⟨-, hf⟩ := boundary_run hb
    obtain ⟨hj, -, ⟨hT, ⟨w, hd⟩, rfl⟩ | ⟨hT, -, rfl⟩⟩ := fetch_run hf
    · obtain ⟨ha, hj'⟩ := (Ends.of_exec i _ t hx).aligned hj (fun _ => decodeArm_not_thumbJump hd) hs
      exact ⟨ha, fun _ => hj'⟩
    · obtain ⟨ha, hj'⟩ := (Ends.of_exec i _ t hx).aligned hj (fun h => absurd (hT.symm.trans h) (by decide)) hs
      exact ⟨ha, fun _ => hj'⟩

/-! ### User mode is confined (O55) -/

/-- Settles O55: of the five ways to end, a return is impossible in User mode, and only an exception leaves it. -/
theorem userModeConfined : Obligations.UserModeConfined := by
  intro i s t hM hx
  have hu : s.privileged = false := by rw [State.privileged, hM]; rfl
  have hm : s.mode = .usr := State.mode_of_user hu
  have others {t : State} (h : s.othersKept t) : ∀ p, (∀ r, bank .usr r ≠ some p) → t.regs.get p = s.regs.get p :=
    fun p hp => h p hp (by rwa [hm])
  cases Ends.of_exec i s t hx with
  | goesOn regs spsr bits => exact .inl ⟨fun k hk _ => bits k hk, spsr, others regs⟩
  | jumps regs spsr bits => exact .inl ⟨fun k hk h5 => bits k (by omega) h5, spsr, others regs⟩
  | traps u e link underway irq fiq entered =>
    subst entered
    refine .inr ⟨e, irq, fiq, ?_, by simp, ?_, ?_, fun p hp hb => ?_⟩
    · rw [takeException_pc, State.vectorBase, State.vectorBase, underway.config]
    · rw [takeException_cpsr, psrI, getLsbD_exceptionCpsr]; rfl
    · rw [takeException_spsr, underway.spsr, underway.cpsr]
    · rw [takeException_regs, Regs.get_set_ne _ _ hp, others underway.regs p hb]
  | returns p _ spsr => rw [hm] at spsr; cases spsr
  | writesStatus _ regs _ _ user => exact .inl ⟨fun k hk _ => (user hu).2 k hk, (user hu).1, fun p _ => by rw [regs]⟩

/-! ### The sticky flag (O56) -/

/-- Settles O56: an exception keeps Q as every jump does, and going on changes it only in the six instructions. -/
theorem stickyFlag : Obligations.StickyFlag := by
  intro i s t hx hr hi
  have kept {t : State} (h : psrQ t.cpsr = psrQ s.cpsr) :
      (psrQ s.cpsr = true → psrQ t.cpsr = true) ∧ (psrQ s.cpsr = false → psrQ t.cpsr = true → setsSticky i) :=
    ⟨fun hq => h.trans hq, fun hq ht => absurd (hq.symm.trans (h.symm.trans ht)) (by decide)⟩
  cases Ends.of_exec i s t hx with
  | goesOn _ _ _ sticky =>
    rcases sticky with h | ⟨hset, h⟩
    · exact .inr (kept h)
    · exact .inr ⟨h, fun _ _ => hset⟩
  | jumps _ _ bits => exact .inr (kept (bits 27 (by omega) (by omega)))
  | traps u e link underway _ _ entered =>
    subst entered
    refine .inr (kept ?_)
    rw [takeException_cpsr, psrQ, getLsbD_exceptionCpsr, underway.cpsr]
    simp [psrQ]
  | returns p hret spsr _ _ cpsr => exact .inl ⟨hret, p, spsr, cpsr⟩
  | writesStatus msr =>
    rcases msr with ⟨c, r, mask, rm, h⟩ | ⟨c, r, mask, rot, imm8, h⟩
    · exact absurd h (hr c r mask rm)
    · exact absurd h (hi c r mask rot imm8)

end Sys2Proof.Machine
end

section
/-!
PROOFS. Coprocessor instructions that nobody accepts (O42), taking an exception (O10), and what a boundary leads to: a
reset (O7), the instruction at the PC (O5), the exception of J = T = 1 (O8), or a stop (O9).
-/
namespace Sys2Proof.Machine
open Sys2Proof

/-! ### Coprocessor instructions (O42) -/

/-- A coprocessor instruction whose condition passes is offered to the attached coprocessors (R240). -/
theorem exec_offers {i : Instr} {s : State} (hi : isCoprocessor i = true)
    (hc : condPassed (conditionOf i) s.cpsr = true) : ∃ k, exec i s = offer i s k := by
  cases i with
  | cdp | mcr | mrc | mcrr | mrrc | ldc | stc =>
    exact ⟨_, (whenPassed_of_passed _ hc).trans (if_neg (by simpa [isCoprocessor] using hi))⟩
  | cdp2 | mcr2 | mrc2 | ldc2 | stc2 => exact ⟨_, if_neg (by simpa [isCoprocessor] using hi)⟩
  | _ => cases hi

/-- The first rule of COPROC that covers an instruction, with its privilege (R240, R257). -/
def State.ruleFor (s : State) (i : Instr) : Option CpRule :=
  s.config.coprocessors.find? fun r => cpCovers r (armWord i) s.privileged

theorem State.coprocessor_of_none {s : State} {i : Instr} (h : s.ruleFor i = none) : s.coprocessor i = (.absent, s) := by
  rw [State.ruleFor] at h
  rw [State.coprocessor, h]

theorem State.coprocessor_of_answer {s : State} {i : Instr} {r : CpRule} {a : CpAnswer} (h : s.ruleFor i = some r)
    (ha : r.answer = some a) : s.coprocessor i = (a, s) := by
  rw [State.ruleFor] at h
  simp only [State.coprocessor, h, ha]

theorem State.coprocessor_of_own_state {s : State} {i : Instr} {r : CpRule} {a : CpAnswer} {rest : List CpAnswer}
    (h : s.ruleFor i = some r) (ha : r.answer = none) (hs : s.cpAnswers = a :: rest) :
    s.coprocessor i = (a, { s with cpAnswers := rest }) := by
  rw [State.ruleFor] at h
  simp only [State.coprocessor, h, ha, hs]

/-- A coprocessor that waits for ever answers Wait, and its answer uses nothing up (R256). -/
theorem State.coprocessor_of_waitsForEver {s : State} {i : Instr} (h : s.waitsForEver i = true) :
    s.coprocessor i = (.wait, s) := by
  unfold State.waitsForEver at h
  split at h
  · exact State.coprocessor_of_answer ‹_› (by simpa using h)
  · cases h

section
variable {i : Instr} {s v : State} (hi : isCoprocessor i = true) (hc : condPassed (conditionOf i) s.cpsr = true)
include hi hc

theorem exec_of_absent (h : s.coprocessor i = (.absent, v)) : exec i s = .next (takeUndefined v) := by
  obtain ⟨k, hk⟩ := exec_offers hi hc
  rw [hk, offer, h]

theorem exec_of_wait (h : s.coprocessor i = (.wait, v)) : exec i s = .next { v with cpWaiting := true } := by
  obtain ⟨k, hk⟩ := exec_offers hi hc
  rw [hk, offer, h]

theorem exec_of_waitsForEver (h : s.waitsForEver i = true) : exec i s = .next { s with cpWaiting := true } :=
  exec_of_wait hi hc (State.coprocessor_of_waitsForEver h)

end

/-- Settles O42: such an instruction is offered, and `State.coprocessor` gives the answer of the first rule. -/
theorem coprocessorAbsentOrWaiting : Obligations.CoprocessorAbsentOrWaiting := by
  refine ⟨fun s i rule hr => ?_, fun s v c o1 crn crd cp crm p1 p2 rd rn p u l wb off8 i hc hcp hm => ?_⟩
  · have hr' : s.ruleFor i = rule := hr.symm
    exact ⟨fun h => State.coprocessor_of_none (hr'.trans h), fun r a h => State.coprocessor_of_answer (hr'.trans h),
      fun r a rest h => State.coprocessor_of_own_state (hr'.trans h)⟩
  · have hal : condPassed .al s.cpsr = true := rfl
    have hi : isCoprocessor i = true ∧ condPassed (conditionOf i) s.cpsr = true := by
      simp only [List.mem_cons, List.not_mem_nil, or_false] at hm
      rcases hm with rfl | rfl | rfl | rfl | rfl | rfl | rfl | rfl | rfl | rfl | rfl | rfl <;>
        simp [isCoprocessor, conditionOf, hcp, hc, hal]
    obtain ⟨hi, hc⟩ := hi
    obtain ⟨as, n, hv⟩ := State.coprocessor_state s i
    refine ⟨fun h => ?_, fun h => ?_, exec_of_waitsForEver hi hc⟩ <;> rw [h] at hv <;> subst hv
    · refine ⟨_, exec_of_absent hi hc h, takeException_tookException _ _ _, fun q hq => ?_,
        State.memoryKept_of_eq rfl rfl, rfl⟩
      exact Regs.get_set_ne _ _ hq
    · exact ⟨_, exec_of_wait hi hc h, rfl, rfl, rfl, rfl, rfl, rfl, State.systemKept_refl s,
        State.memoryKept_of_eq rfl rfl⟩

/-! ### Taking an exception (O10) -/

/-- The CPSR of the reset handler: Supervisor mode, ARM state, and I and F set (R346). -/
theorem resetCpsr_spec (p : Word) :
    psrM (resetCpsr p) = Mode.svc.bits ∧ psrT (resetCpsr p) = false ∧ psrJ (resetCpsr p) = false ∧
    psrI (resetCpsr p) = true ∧ psrF (resetCpsr p) = true := by
  refine ⟨by simp [resetCpsr, psrM_setBit], ?_, ?_, ?_, ?_⟩
  · rw [psrT, getLsbD_resetCpsr, getLsbD_exceptionCpsr]; rfl
  · rw [psrJ, getLsbD_resetCpsr, getLsbD_exceptionCpsr]; rfl
  · rw [psrI, getLsbD_resetCpsr, getLsbD_exceptionCpsr]; rfl
  · rw [psrF, getLsbD_resetCpsr]; rfl

/-- Settles O10: `takeException_tookException` for the six exceptions, `resetCpsr_spec` for reset. -/
theorem exceptionEntry : Obligations.ExceptionEntry := by
  refine ⟨fun s => rfl, rfl, takeException_tookException, fun s => ?_⟩
  obtain ⟨hM, hT, hJ, hI, hF⟩ := resetCpsr_spec (Config.freeWord (s.freeCount + 35))
  exact ⟨hM, hT, hJ, hI, hF, rfl, State.memoryKept_of_eq rfl rfl⟩

/-! ### A reset (O7) -/

theorem boundary_of_reset {s : State} (h : s.sample.reset = true) : boundary s = .entered (takeReset s.sampled) := by
  simp only [boundary, h, if_true]

/-- Settles O7: reset comes first at a boundary, whatever the state is. -/
theorem resetEntry : Obligations.ResetEntry := by
  intro s h
  obtain ⟨hM, hT, hJ, hI, hF⟩ := resetCpsr_spec (Config.freeWord (s.sampled.freeCount + 35))
  exact ⟨_, step_of_entered (boundary_of_reset h), hM, hI, hF, hT, hJ, rfl, rfl, rfl, rfl, rfl, rfl,
    State.memoryKept_of_eq rfl rfl⟩

/-! ### What a boundary does -/

theorem step_of_run {s t : State} {i : Instr} (h : boundary s = .run i t) : step s = exec i t := by
  rw [step, h]

theorem step_of_stopped {s : State} {f : Fault} (h : boundary s = .stopped f) : step s = .fault f := by
  rw [step, h]

theorem step_of_refused {s : State} {r : Refusal} (h : boundary s = .refused r) : step s = .refused r := by
  rw [step, h]

/-! The four ways a decoded word goes. -/

section
variable {d : Decoded} {i : Instr} {a : Word} {n : Nat} {s : State}

theorem decoded_of_stored (h : overlaps s.stored a.toNat n = true) : decoded d a n s = .refused .fetchOfStored :=
  if_pos h

theorem decoded_of_rejected {r : Reject} (h : overlaps s.stored a.toNat n = false) (hd : d = .rejected r) :
    decoded d a n s = .refused (refusalOf r) := by
  simp [decoded, h, hd]

theorem decoded_of_hazard (h : overlaps s.stored a.toNat n = false) (hd : d = .instr i)
    (hb : bankedHazard i s = true) : decoded d a n s = .refused .bankedAfterUserLdm := by
  simp [decoded, h, hd, hb]

theorem decoded_of_instr (h : overlaps s.stored a.toNat n = false) (hd : d = .instr i)
    (hb : bankedHazard i s = false) : decoded d a n s = .run i (s.fetching a n) := by
  simp [decoded, h, hd, hb]

end

/-! The fetch in ARM state, and in Thumb state. -/

section
variable {s : State} (hJ : psrJ s.cpsr = false)
include hJ

theorem fetch_of_word {w : Word} (hT : psrT s.cpsr = false)
    (ha : s.aborts .fetch .word (wordAlign s.pc) s.privileged = false) (hw : s.wordAt (wordAlign s.pc) = some w) :
    fetch s = decoded (decodeArm w) (wordAlign s.pc) 4 s := by
  simp [fetch, hJ, hT, fetchArm, ha, hw]

theorem fetch_of_half {h : Half} (hT : psrT s.cpsr = true)
    (ha : s.aborts .fetch .half (halfAlign s.pc) s.privileged = false) (hh : s.halfAt (halfAlign s.pc) = some h) :
    fetch s = decoded (decodeThumb h) (halfAlign s.pc) 2 s := by
  simp [fetch, hJ, hT, fetchThumb, ha, hh]

theorem fetch_of_no_word (hT : psrT s.cpsr = false)
    (ha : s.aborts .fetch .word (wordAlign s.pc) s.privileged = false) (hw : s.wordAt (wordAlign s.pc) = none) :
    fetch s = .stopped .unwrittenByte := by
  simp [fetch, hJ, hT, fetchArm, ha, hw]

theorem fetch_of_no_half (hT : psrT s.cpsr = true)
    (ha : s.aborts .fetch .half (halfAlign s.pc) s.privileged = false) (hh : s.halfAt (halfAlign s.pc) = none) :
    fetch s = .stopped .unwrittenByte := by
  simp [fetch, hJ, hT, fetchThumb, ha, hh]

end

/-- Settles O5: the boundary is quiet, so that it fetches; the fetch is not aborted and decodes to the instruction. -/
theorem stepRunsDecoded : Obligations.StepRunsDecoded := by
  rintro s u i rfl hq hm hp hJ hb
  refine ⟨fun w hT ha hw ho hd => step_of_run ?_, fun h hT ha hh ho hd => step_of_run ?_⟩
  · rw [boundary_of_quiet hq hm hp, fetch_of_word (s := s.sampled) hJ hT ha hw]
    exact decoded_of_instr ho hd hb
  · rw [boundary_of_quiet hq hm hp, fetch_of_half (s := s.sampled) hJ hT ha hh]
    exact decoded_of_instr ho hd hb

/-- Settles O8: the fetch with J = T = 1 takes the Undefined instruction exception with a free link value. -/
theorem bothStatesUndefined : Obligations.BothStatesUndefined := by
  intro s hq hm hp hJ hT ha
  have hf : fetch s.sampled = .entered (takeBothStates s.sampled) := by
    rw [fetch, show psrJ s.sampled.cpsr = true from hJ, show psrT s.sampled.cpsr = true from hT]
    exact if_neg (ne_true_of_eq_false ha)
  exact ⟨_, _, step_of_entered ((boundary_of_quiet hq hm hp).trans hf), takeException_tookException _ _ _,
    s.cpsr, rfl, hJ, hT⟩

/-! ### Where a boundary stops (O9) -/

theorem boundary_of_illegalMode {s : State} (hr : s.sample.reset = false) (hm : ¬s.legalMode) :
    boundary s = .stopped .illegalMode := by
  have hm' : Mode.ofBits (psrM s.sampled.cpsr) = none := not_not.mp hm
  simp [boundary, hr, hm']

theorem boundary_of_pastTop {s : State} (hr : s.sample.reset = false) (hm : s.legalMode) (hp : s.pastTop = true) :
    boundary s = .refused .sequentialWrap := by
  have hm' : ¬Mode.ofBits (psrM s.sampled.cpsr) = none := hm
  simp [boundary, hr, hm', show s.sampled.pastTop = true from hp]

theorem fetch_of_jazelle {s : State} (hJ : psrJ s.cpsr = true) (hT : psrT s.cpsr = false)
    (ha : s.aborts .fetch .word (wordAlign s.pc) s.privileged = false) : fetch s = .refused .jazelleState := by
  simp [fetch, hJ, hT, fetchJazelle, ha]

/-- A fetch changes no register, no memory and nothing of the coprocessors. -/
theorem fetch_run_state {s u : State} {i : Instr} (h : fetch s = .run i u) :
    ∃ a n, u = s.fetching a n := by
  obtain ⟨-, -, ⟨-, -, hu⟩ | ⟨-, -, hu⟩⟩ := fetch_run h
  · exact ⟨_, _, hu⟩
  · exact ⟨_, _, hu⟩

/-- A stuck machine faults, or it goes on waiting in the same place (R405). -/
theorem step_of_stuck {s : State} (h : s.stuck = true) :
    step s = .fault .illegalMode ∨
    ∃ a n, step s = .next { s.sampled.fetching a n with cpWaiting := true } := by
  unfold State.stuck at h
  split at h
  · exact .inl (step_of_stopped ‹_›)
  · rename_i i t hb
    simp only [Bool.and_eq_true] at h
    obtain ⟨⟨⟨⟨hi, hc⟩, hw⟩, -⟩, -⟩ := h
    obtain ⟨a, n, rfl⟩ := fetch_run_state (boundary_run hb).2
    exact .inr ⟨a, n, (step_of_run hb).trans (exec_of_waitsForEver hi hc hw)⟩
  · cases h

/-- Settles O9: one lemma above for each stop of the boundary, of the fetch and of the decoded word. -/
theorem stoppedBoundaries : Obligations.StoppedBoundaries := by
  rintro s u rfl hr
  refine ⟨fun hm => step_of_stopped (boundary_of_illegalMode hr hm),
    fun hm hp => step_of_refused (boundary_of_pastTop hr hm hp), fun hm hp hq hJ hT ha => ?_,
    fun hm hp hq hJ hT ha => ⟨fun hw => ?_, fun w hw => ⟨fun ho => ?_, fun ho => ⟨fun r hd => ?_, fun i hd hb => ?_⟩⟩⟩,
    fun hm hp hq hJ hT ha => ⟨fun hh => ?_, fun h hh => ⟨fun ho => ?_, fun ho r hd => ?_⟩⟩, fun h => ?_⟩
  · exact step_of_refused ((boundary_of_quiet hq hm hp).trans (fetch_of_jazelle (s := s.sampled) hJ hT ha))
  · exact step_of_stopped ((boundary_of_quiet hq hm hp).trans (fetch_of_no_word (s := s.sampled) hJ hT ha hw))
  · exact step_of_refused ((boundary_of_quiet hq hm hp).trans
      ((fetch_of_word (s := s.sampled) hJ hT ha hw).trans (decoded_of_stored ho)))
  · exact step_of_refused ((boundary_of_quiet hq hm hp).trans
      ((fetch_of_word (s := s.sampled) hJ hT ha hw).trans (decoded_of_rejected ho hd)))
  · exact step_of_refused ((boundary_of_quiet hq hm hp).trans
      ((fetch_of_word (s := s.sampled) hJ hT ha hw).trans (decoded_of_hazard ho hd hb)))
  · exact step_of_stopped ((boundary_of_quiet hq hm hp).trans (fetch_of_no_half (s := s.sampled) hJ hT ha hh))
  · exact step_of_refused ((boundary_of_quiet hq hm hp).trans
      ((fetch_of_half (s := s.sampled) hJ hT ha hh).trans (decoded_of_stored ho)))
  · exact step_of_refused ((boundary_of_quiet hq hm hp).trans
      ((fetch_of_half (s := s.sampled) hJ hT ha hh).trans (decoded_of_rejected ho hd)))
  · rcases step_of_stuck h with h | ⟨a, n, h⟩
    · exact .inl h
    · exact .inr ⟨_, h, rfl, rfl, rfl, rfl, rfl, rfl, State.memoryKept_of_eq rfl rfl⟩

end Sys2Proof.Machine
end

section
/-!
PROOFS. The register banks (O59), the status registers (O25, O26), the 16-bit multiplies (O22), the exception return by
data processing (O12), and coprocessor 14 (O45).
-/
namespace Sys2Proof.Machine
open Sys2Proof

/-! ### The register banks (O59) -/

/-- Outside FIQ mode r8 to r12 are those of User mode (R22). -/
theorem bank_middle (m : Mode) (hm : m ≠ .fiq) :
    ∀ i : Reg, 8 ≤ i.toNat → i.toNat ≤ 12 → bank m i = bank .usr i := by
  cases m with
  | fiq => exact absurd rfl hm
  | usr | irq | svc | abt | und | sys => decide +kernel

theorem Mode.ofBits_eq_some_iff (b : BitVec 5) (m : Mode) : Mode.ofBits b = some m ↔ b = m.bits :=
  ⟨Mode.bits_of_ofBits b m, fun h => by rw [h, Mode.ofBits_bits]⟩

/-- Settles O59: the tables by evaluation, the rest by the laws of `bank`, `State.mode` and `State.setReg`. -/
theorem registerBanks : Obligations.RegisterBanks := by
  refine ⟨rfl, fun m => bank_low m .usr, fun m i hm => bank_middle m hm i, rfl, rfl, rfl, bank_pc, fun p => rfl, rfl,
    Mode.ofBits_eq_some_iff, fun s m h => ?_, fun s => bne_iff_ne, fun s v => ⟨rfl, rfl⟩, fun s i j v hi =>
    State.reg_setReg s i j v hi⟩
  rw [State.mode, psrM, h, Mode.ofBits_bits, Option.getD_some]

/-! ### MRS (O25) -/

/-- An instruction that writes one register and goes on. -/
theorem State.setReg_advance_spec (s : State) {rd : Reg} (v : Word) (hd : rd ≠ 15#4) :
    (s.setReg rd v).advance.reg rd = v ∧ s.onlyWrites (s.setReg rd v).advance [rd] [] :=
  ⟨State.reg_of_regs (s := s) (by simp) rfl hd, State.onlyWrites_reg s rd v⟩

section
variable {s : State} {c : Cond} {rd : Reg} (hc : condPassed c s.cpsr = true)
include hc

theorem execMrs_cpsr (hd : rd ≠ 15#4) : exec (.mrs c false rd) s = .next (s.setReg rd s.cpsr).advance :=
  (whenPassed_of_passed _ hc).trans (noPc_of_not_mem _ (by simpa using hd.symm))

theorem execMrs_spsr {p : Word} (hd : rd ≠ 15#4) (hp : s.spsr.get s.mode = some p) :
    exec (.mrs c true rd) s = .next (s.setReg rd p).advance := by
  refine (whenPassed_of_passed _ hc).trans ((noPc_of_not_mem _ (by simpa using hd.symm)).trans ?_)
  rw [hp, if_pos rfl]

theorem execMrs_noSpsr (hd : rd ≠ 15#4) (hp : s.spsr.get s.mode = none) :
    exec (.mrs c true rd) s = .refused .noSpsr := by
  refine (whenPassed_of_passed _ hc).trans ((noPc_of_not_mem _ (by simpa using hd.symm)).trans ?_)
  rw [hp, if_pos rfl]

theorem execMrs_pc (r : Bool) : exec (.mrs c r 15#4) s = .refused .r15Operand :=
  (whenPassed_of_passed _ hc).trans (noPc_of_mem _ (by simp))

end

/-- Settles O25: one equation for each of the four cases of MRS. -/
theorem mrsReads : Obligations.MrsReads := by
  intro s c rd hc
  refine ⟨fun hd => ⟨_, execMrs_cpsr hc hd, s.setReg_advance_spec _ hd⟩,
    fun p hd hp => ⟨_, execMrs_spsr hc hd hp, s.setReg_advance_spec p hd⟩,
    fun hd hm => execMrs_noSpsr hc hd ((Spsrs.get_eq_none _ _).mpr hm), ?_⟩
  rintro r rfl
  exact execMrs_pc hc r

/-! ### MSR (O26) -/

/-- The operand of an MSR sets J or T in a byte that it selects (R144, U7). -/
theorem selects_stateBits_iff (mask : BitVec 4) (v : Word) :
    byteMask mask &&& v &&& 0x01000020#32 = 0#32 ↔
      ¬(mask.getLsbD 3 = true ∧ psrJ v = true ∨ mask.getLsbD 0 = true ∧ psrT v = true) := by
  have hbit : ∀ k < 32, (byteMask mask &&& v &&& 0x01000020#32).getLsbD k =
      ((mask.getLsbD (k / 8) && v.getLsbD k) && decide (k = 24 ∨ k = 5)) := by
    intro k hk
    have hs : (0x01000020#32).getLsbD k = decide (k = 24 ∨ k = 5) := by interval_cases k <;> rfl
    rw [BitVec.getLsbD_and, BitVec.getLsbD_and, getLsbD_byteMask mask hk, hs]
  constructor
  · intro h
    have hJ := hbit 24 (by omega)
    have hT := hbit 5 (by omega)
    rw [h] at hJ hT
    rintro (⟨hm, hv⟩ | ⟨hm, hv⟩)
    · rw [show v.getLsbD 24 = true from hv, hm] at hJ
      exact absurd hJ (by decide)
    · rw [show v.getLsbD 5 = true from hv, hm] at hT
      exact absurd hT (by decide)
  · intro h
    apply BitVec.eq_of_getLsbD_eq
    intro k hk
    rw [hbit k hk, BitVec.getLsbD_zero, Bool.eq_false_iff, ne_eq, Bool.and_eq_true, Bool.and_eq_true,
      decide_eq_true_eq]
    rintro ⟨⟨hm, hv⟩, rfl | rfl⟩
    · exact h (.inl ⟨hm, hv⟩)
    · exact h (.inr ⟨hm, hv⟩)

/-- The bits of the CPSR that an MSR of a privileged mode leaves. -/
theorem getLsbD_merge_privileged (p v : Word) (mask : BitVec 4) {k : Nat} (hk : k < 32) :
    (merge p v (byteMask mask &&& 0xFEFFFFDF#32)).getLsbD k =
      if mask.getLsbD (k / 8) = true ∧ k ≠ 24 ∧ k ≠ 5 then v.getLsbD k else p.getLsbD k := by
  rw [getLsbD_merge, BitVec.getLsbD_and, getLsbD_byteMask mask hk, getLsbD_privilegedMask hk]
  simp only [Bool.and_eq_true, decide_eq_true_eq]

/-- The bits of the CPSR that an MSR of User mode leaves. -/
theorem getLsbD_merge_user (p v : Word) (mask : BitVec 4) {k : Nat} (hk : k < 32) :
    (merge p v (byteMask mask &&& 0xF8000000#32)).getLsbD k =
      if mask.getLsbD 3 = true ∧ 27 ≤ k then v.getLsbD k else p.getLsbD k := by
  rw [getLsbD_merge, BitVec.getLsbD_and, getLsbD_byteMask mask hk, getLsbD_userMask hk]
  by_cases h : 27 ≤ k
  · simp [h, show k / 8 = 3 by omega]
  · simp [h]

section
variable {s : State} {mask : BitVec 4} {v : Word}

theorem msrWith_privileged (hp : s.privileged = true)
    (h : ¬(mask.getLsbD 3 = true ∧ psrJ v = true ∨ mask.getLsbD 0 = true ∧ psrT v = true)) :
    msrWith false mask v s = .next (s.setCpsr (merge s.cpsr v (byteMask mask &&& 0xFEFFFFDF#32))).advance :=
  (if_neg Bool.false_ne_true).trans ((if_pos hp).trans (if_pos ((selects_stateBits_iff mask v).mpr h)))

theorem msrWith_stateBits (hp : s.privileged = true)
    (h : mask.getLsbD 3 = true ∧ psrJ v = true ∨ mask.getLsbD 0 = true ∧ psrT v = true) :
    msrWith false mask v s = .refused .msrSetsStateBits :=
  (if_neg Bool.false_ne_true).trans ((if_pos hp).trans
    (if_neg fun h0 => (selects_stateBits_iff mask v).mp h0 h))

theorem msrWith_user (hp : s.privileged = false) :
    msrWith false mask v s = .next (s.setCpsr (merge s.cpsr v (byteMask mask &&& 0xF8000000#32))).advance :=
  (if_neg Bool.false_ne_true).trans (if_neg (ne_true_of_eq_false hp))

theorem msrWith_noSpsr (h : s.spsr.get s.mode = none) : msrWith true mask v s = .refused .noSpsr := by
  rw [msrWith, if_pos rfl, h]

theorem msrWith_spsr {p : Word} (h : s.spsr.get s.mode = some p) :
    msrWith true mask v s = .next { s with spsr := s.spsr.set s.mode (merge p v (byteMask mask)) }.advance := by
  rw [msrWith, if_pos rfl, h]

end

/-- An MSR to the CPSR goes on, and changes only the CPSR: its bits are those of `f`. -/
theorem State.setCpsr_advance_spec (s : State) {p : Word} {f : Nat → Bool} (hf : ∀ k < 32, p.getLsbD k = f k)
    (h5 : f 5 = s.cpsr.getLsbD 5) :
    (s.setCpsr p).advance.pc = s.nextPc ∧ (s.setCpsr p).advance.regs = s.regs ∧
    s.systemKept (s.setCpsr p).advance ∧ s.coprocessorsKept (s.setCpsr p).advance ∧
    s.memoryKept (s.setCpsr p).advance ∧ ∀ k < 32, (s.setCpsr p).advance.cpsr.getLsbD k = f k :=
  ⟨State.nextPc_congr rfl ((hf 5 (by omega)).trans h5), rfl, ⟨rfl, rfl, rfl, rfl, rfl, rfl⟩, ⟨rfl, rfl, rfl⟩,
    State.memoryKept_of_eq rfl rfl, hf⟩

/-- Settles O26: one equation for each case of `msrWith`, and the bits that each kind of MSR leaves. -/
theorem msrWrites : Obligations.MsrWrites := by
  intro s c r mask rot imm8 rm i v hc hi
  have hx : exec i s = msrWith r mask v s := by
    rcases hi with ⟨rfl, hm, rfl⟩ | ⟨rfl, rfl⟩
    · exact (whenPassed_of_passed _ hc).trans (noPc_of_not_mem _ (by simpa using hm.symm))
    · exact whenPassed_of_passed _ hc
  rw [hx]
  refine ⟨?_, ?_, ?_, ?_⟩
  · rintro rfl hp
    exact ⟨msrWith_stateBits hp, fun h => ⟨_, msrWith_privileged hp h,
      s.setCpsr_advance_spec (fun k hk => getLsbD_merge_privileged s.cpsr v mask hk) (if_neg (by simp))⟩⟩
  · rintro rfl hp
    exact ⟨_, msrWith_user hp,
      s.setCpsr_advance_spec (fun k hk => getLsbD_merge_user s.cpsr v mask hk) (if_neg (by simp))⟩
  · rintro rfl h
    exact msrWith_noSpsr h
  · rintro p rfl h
    refine ⟨_, merge p v (byteMask mask), msrWith_spsr h, rfl, rfl, rfl, rfl, rfl, rfl, rfl, rfl, ⟨rfl, rfl, rfl⟩,
      State.memoryKept_of_eq rfl rfl, ?_, fun m hm => Spsrs.get_set_ne _ _ hm, fun k hk => ?_⟩
    · exact (Spsrs.get_set _ _ _ _).trans (by rw [if_pos rfl, h, Option.map_some])
    · rw [getLsbD_merge, getLsbD_byteMask mask hk]

/-! ### The 16-bit multiplies (O22) -/

theorem halfInt_bounds (v : Word) (top : Bool) : -2 ^ 15 ≤ halfInt v top ∧ halfInt v top < 2 ^ 15 := by
  cases top
  · exact ⟨(v.extractLsb' 0 16).le_toInt, (v.extractLsb' 0 16).toInt_lt⟩
  · exact ⟨(v.extractLsb' 16 16).le_toInt, (v.extractLsb' 16 16).toInt_lt⟩

/-- Bits [47:16] of a product are the product divided by 2^16, rounded down (R170). -/
theorem State.wordHalfProduct_eq (s : State) (rm rs : Reg) (y : Bool) :
    s.wordHalfProduct rm rs y = BitVec.ofInt 32 ((s.reg rm).toInt * halfInt (s.reg rs) y / 2 ^ 16) := by
  unfold State.wordHalfProduct
  generalize (s.reg rm).toInt * halfInt (s.reg rs) y = p
  apply BitVec.eq_of_toNat_eq
  rw [BitVec.extractLsb'_toNat, BitVec.toNat_ofInt, BitVec.toNat_ofInt, Nat.shiftRight_eq_div_pow]
  push_cast
  omega

theorem State.toInt_wordHalfProduct (s : State) (rm rs : Reg) (y : Bool) :
    (s.wordHalfProduct rm rs y).toInt = (s.reg rm).toInt * halfInt (s.reg rs) y / 2 ^ 16 := by
  obtain ⟨hm1, hm2⟩ := toInt_bounds (s.reg rm)
  obtain ⟨hs1, hs2⟩ := halfInt_bounds (s.reg rs) y
  rw [State.wordHalfProduct_eq]
  have h1 : (s.reg rm).toInt * halfInt (s.reg rs) y ≤ 2 ^ 46 := by nlinarith
  have h2 : -2 ^ 46 ≤ (s.reg rm).toInt * halfInt (s.reg rs) y := by nlinarith
  exact BitVec.toInt_ofInt_eq_self (by decide) (by omega) (by omega)

/-- An accumulation overflows where the sum is no signed number of 32 bits (R169). -/
theorem accumulate_overflows (p : Int) (n : Word) :
    (accumulate p n).2 = true ↔ p + n.toInt < -2 ^ 31 ∨ 2 ^ 31 ≤ p + n.toInt := by
  have hb := toInt_bounds (BitVec.ofInt 32 (p + n.toInt))
  rw [show (accumulate p n).2 = decide (p + n.toInt ≠ (BitVec.ofInt 32 (p + n.toInt)).toInt) from rfl,
    decide_eq_true_iff]
  constructor
  · intro h
    by_contra hn
    exact h (BitVec.toInt_ofInt_eq_self (by decide) (by omega) (by omega)).symm
  · intro h he
    rw [← he] at hb
    omega

/-- The end of SMLAxy and SMLAWy: the wrapped sum, and Q where it overflows. -/
theorem accumulate_spec {rd : Reg} (p : Int) (n : Word) (s : State) (hd : rd ≠ 15#4) :
    ∃ t, stickyTo rd (accumulate p n).1 (accumulate p n).2 s = .next t ∧
      t.reg rd = BitVec.ofInt 32 (p + n.toInt) ∧ s.onlyWrites t [rd] [27] ∧
      (psrQ t.cpsr = true ↔ psrQ s.cpsr = true ∨ p + n.toInt < -2 ^ 31 ∨ 2 ^ 31 ≤ p + n.toInt) := by
  rw [← accumulate_overflows]
  exact stickyTo_spec _ _ s hd

/-- New flags and the next instruction change no register. -/
theorem State.reg_setCpsr_advance {u : State} {p : Word} {r : Reg} (hp : psrM p = psrM u.cpsr) (hr : r ≠ 15#4) :
    (u.setCpsr p).advance.reg r = u.reg r :=
  State.reg_congr_mode (s := u) (t := (u.setCpsr p).advance) rfl (State.mode_of_psrM hp) hr

/-- The end of a 64-bit multiply: two different registers, and N and Z with S = 1 (R158). -/
theorem longTo_spec (sb : Bool) {hi lo : Reg} (v : BitVec 64) (s : State) (hh : hi ≠ 15#4) (hl : lo ≠ 15#4)
    (hne : hi ≠ lo) :
    ∃ t, longTo sb hi lo v s = .next t ∧ t.reg hi = v.extractLsb' 32 32 ∧ t.reg lo = v.extractLsb' 0 32 ∧
      s.onlyWrites t [hi, lo] (if sb then [31, 30] else []) ∧
      t.cpsr = if sb then withLongNZ s.cpsr v else s.cpsr := by
  obtain ⟨hpc, -, hsys, hcp, hmem, hst, hregs⟩ := ((RegOnly.refl s [hi, lo]).set (v.extractLsb' 32 32)
    (List.mem_cons_self)).set (r := lo) (v.extractLsb' 0 32) (by simp)
  have hM : psrM (if sb then withLongNZ s.cpsr v else s.cpsr) =
      psrM ((s.setReg hi (v.extractLsb' 32 32)).setReg lo (v.extractLsb' 0 32)).cpsr := by cases sb <;> simp
  refine ⟨_, rfl, ?_, ?_, ?_, rfl⟩
  · rw [State.reg_setCpsr_advance hM hh, State.reg_setReg_ne _ _ hne, State.reg_setReg_same _ _ _ hh]
  · rw [State.reg_setCpsr_advance hM hl, State.reg_setReg_same _ _ _ hl]
  · refine State.onlyWrites_advance (State.onlyRegs_congr hregs rfl) (fun k hk => ?_) (by cases sb <;> simp) hpc hsys
      hcp (State.memoryKept_of_eq hmem hst)
    cases sb
    · rfl
    · exact onlyBits_withLongNZ _ _ hk

/-- A register pair as a signed number of 64 bits. -/
theorem State.toInt_regPair (s : State) (hi lo : Reg) :
    (s.regPair hi lo).toInt = (s.reg hi).toInt * 2 ^ 32 + (s.reg lo).toNat := by
  rw [State.regPair, BitVec.toInt_append, if_neg (by decide), Int.mul_comm]

/-- Settles O22: SMULxy and SMULWy write a product, SMLAxy and SMLAWy accumulate, SMLALxy ends as a long multiply. -/
theorem halfwordMultiplies : Obligations.HalfwordMultiplies := by
  intro s c rd rn rs rm x y hc h15
  simp only [List.mem_cons, List.not_mem_nil, or_false, not_or] at h15
  obtain ⟨hd, hn, hs, hm⟩ := h15
  have hx : ∀ {regs : List Reg} {k : Result}, 15#4 ∉ regs → whenPassed c s (noPc regs k) = k := fun h =>
    (whenPassed_of_passed _ hc).trans (noPc_of_not_mem _ h)
  refine ⟨fun i v h => ?_, fun i sum h => ?_, fun hne => ?_⟩
  · simp only [List.mem_cons, List.not_mem_nil, or_false, Prod.mk.injEq] at h
    rcases h with ⟨rfl, rfl⟩ | ⟨rfl, rfl⟩
    · exact ⟨_, hx (by simp [*]), s.setReg_advance_spec _ (Ne.symm hd)⟩
    · rw [← State.wordHalfProduct_eq]
      exact ⟨_, hx (by simp [*]), s.setReg_advance_spec _ (Ne.symm hd)⟩
  · simp only [List.mem_cons, List.not_mem_nil, or_false, Prod.mk.injEq] at h
    rcases h with ⟨rfl, rfl⟩ | ⟨rfl, rfl⟩
    · rw [show exec (.smlaXY c rd rn rs y x rm) s = _ from hx (by simp [*])]
      exact accumulate_spec _ _ s (Ne.symm hd)
    · rw [show exec (.smlaWY c rd rn rs y rm) s = _ from hx (by simp [*]), ← State.toInt_wordHalfProduct]
      exact accumulate_spec _ _ s (Ne.symm hd)
  · rw [show exec (.smlalXY c rd rn rs y x rm) s = _ from
      (hx (by simp [*])).trans (distinct_of_ne _ (by simpa using hne))]
    obtain ⟨t, ht, hhi, hlo, hw, -⟩ := longTo_spec false
      (BitVec.ofInt 64 ((s.regPair rd rn).toInt + s.halfProduct rm rs x y)) s (Ne.symm hd) (Ne.symm hn) hne
    refine ⟨t, ht, ?_, hw⟩
    rw [hhi, hlo, BitVec.extractLsb'_append_extractLsb'_eq_extractLsb' (by omega), BitVec.extractLsb'_eq_self,
      State.toInt_regPair]
    rfl

/-! ### The exception return by data processing (O12) -/

section
variable {s : State} {c : Cond} {sb : Bool} {rn rd rm : Reg} {i : Instr} {v : Word}

/-- AND, EOR, ORR, BIC, MOV and MVN with an immediate operand end with their value (R141, R142, R182 to R185). -/
theorem exec_logicalImm {rot : BitVec 4} {imm8 : BitVec 8} (hc : condPassed c s.cpsr = true)
    (h : (i, v) ∈ (logicalImm c sb rn rd rot imm8).zip (logicalValues (s.reg rn) (s.immOperand rot imm8).value)) :
    exec i s = logicalTo sb rd v (s.immOperand rot imm8) s := by
  simp only [logicalImm, logicalValues, List.zip_cons_cons, List.zip_nil_right, List.mem_cons, List.not_mem_nil,
    or_false, Prod.mk.injEq] at h
  rcases h with ⟨rfl, rfl⟩ | ⟨rfl, rfl⟩ | ⟨rfl, rfl⟩ | ⟨rfl, rfl⟩ | ⟨rfl, rfl⟩ | ⟨rfl, rfl⟩ <;>
    exact whenPassed_of_passed _ hc

/-- The same, with a register shifted by an immediate. -/
theorem exec_logicalShift {n : BitVec 5} {sh : Shift} (hc : condPassed c s.cpsr = true)
    (h : (i, v) ∈ (logicalShift c sb rn rd n sh rm).zip (logicalValues (s.reg rn) (s.shiftOperand rm sh n).value)) :
    exec i s = logicalTo sb rd v (s.shiftOperand rm sh n) s := by
  simp only [logicalShift, logicalValues, List.zip_cons_cons, List.zip_nil_right, List.mem_cons, List.not_mem_nil,
    or_false, Prod.mk.injEq] at h
  rcases h with ⟨rfl, rfl⟩ | ⟨rfl, rfl⟩ | ⟨rfl, rfl⟩ | ⟨rfl, rfl⟩ | ⟨rfl, rfl⟩ | ⟨rfl, rfl⟩ <;>
    exact whenPassed_of_passed _ hc

end

/-- With S = 1 and Rd = 15 the result is returned to (R140). -/
theorem dataResult_returns (psr v : Word) (s : State) : dataResult true 15#4 psr v s = exceptionReturn v s :=
  (if_pos rfl).trans (if_pos rfl)

theorem exceptionReturn_of_none {v : Word} {s : State} (h : s.spsr.get s.mode = none) :
    exceptionReturn v s = .refused .noSpsr := by
  rw [exceptionReturn, h]

theorem exceptionReturn_of_jazelle {v p : Word} {s : State} (h : s.spsr.get s.mode = some p)
    (hj : inJazelle p = true) : exceptionReturn v s = .refused .jazelleEntry := by
  simp [exceptionReturn, h, hj]

theorem exceptionReturn_of_misaligned {v p : Word} {s : State} (h : s.spsr.get s.mode = some p)
    (hj : inJazelle p = false) (ha : returnAligned p v = false) : exceptionReturn v s = .refused .misalignedReturn := by
  simp [exceptionReturn, h, hj, ha]

/-- Settles O12: the instruction is `exceptionReturn` of its result, in each of its four cases. -/
theorem DataProcessing.exceptionReturn : Obligations.ExceptionReturn := by
  intro s c rn rm rot imm8 n sh i v hc h
  have hx : exec i s = Machine.exceptionReturn v s := by
    rcases h with h | h | ⟨r, rfl, h | h⟩
    · exact (exec_logicalImm hc h).trans (dataResult_returns _ _ s)
    · exact (exec_logicalShift hc h).trans (dataResult_returns _ _ s)
    · exact (exec_arithImm hc h).trans (dataResult_returns _ _ s)
    · exact (exec_arithShift hc h).trans (dataResult_returns _ _ s)
  rw [hx]
  refine ⟨exceptionReturn_of_none, fun p hp => ⟨fun hJ hT => ?_, exceptionReturn_of_misaligned hp, fun hj ha => ?_⟩⟩
  · exact exceptionReturn_of_jazelle hp (by simp [inJazelle, hJ, hT])
  · exact ⟨_, exceptionReturn_of_spsr hp hj ha, rfl, rfl, rfl, ⟨rfl, rfl, rfl, rfl, rfl, rfl⟩, ⟨rfl, rfl, rfl⟩,
      State.memoryKept_of_eq rfl rfl⟩

/-! ### Coprocessor 14 (O45) -/

/-- What MRC reads of c0: the version, W and R (R36). -/
def dccControl (w r : Bool) : Word := setBit (setBit 0x60000000#32 1 w) 0 r

theorem dccControl_bits : ∀ w r : Bool, (dccControl w r).getLsbD 0 = r ∧ (dccControl w r).getLsbD 1 = w ∧
    (dccControl w r).extractLsb' 2 26 = 0#26 ∧ (dccControl w r).extractLsb' 28 4 = 0b0110#4 := by decide

/-- What MRC reads of c2: DbgAbt (R38). -/
def dccAbort (b : Bool) : Word := setBit 0#32 0 b

theorem dccAbort_bits : ∀ b : Bool, (dccAbort b).getLsbD 0 = b ∧ (dccAbort b).extractLsb' 1 31 = 0#31 ∧
    (dccAbort b).extractLsb' 28 4 = 0#4 := by decide

/-- An access to which the spec gives no meaning (R252, U15). -/
theorem cp14Read_of_undocumented {op1 op2 : BitVec 3} {crn crm : BitVec 4} (s : State)
    (h : op1 ≠ 0#3 ∨ op2 ≠ 0#3 ∨ crm ≠ 0#4 ∨ 3 ≤ crn.toNat) : cp14Read op1 crn op2 crm s = none := by
  unfold cp14Read
  split
  · rename_i h0
    obtain ⟨h1, h2, h3⟩ := h0
    split
    · simp_all
    · simp_all
    · simp_all
    · rfl
  · rfl

theorem cp14Write_of_undocumented {op1 op2 : BitVec 3} {crn crm : BitVec 4} (v : Word) (s : State)
    (h : op1 ≠ 0#3 ∨ op2 ≠ 0#3 ∨ crm ≠ 0#4 ∨ crn = 0#4 ∨ 3 ≤ crn.toNat) :
    cp14Write op1 crn op2 crm v s = none := by
  unfold cp14Write
  split
  · rename_i h0
    obtain ⟨h1, h2, h3⟩ := h0
    have hn : crn.toNat ≠ 1 ∧ crn.toNat ≠ 2 := by
      rcases h with h | h | h | rfl | h
      · exact absurd h1 h
      · exact absurd h2 h
      · exact absurd h3 h
      · exact ⟨by decide, by decide⟩
      · omega
    split
    · exact absurd ‹_› hn.1
    · exact absurd ‹_› hn.2
    · rfl
  · rfl

theorem notCp14_self (k : Result) : notCp14 14#4 k = .refused .cp14Undocumented := if_pos rfl

theorem State.with_dcc_same {t : State} {d : Dcc} (h : t.dcc = d) : { t with dcc := d } = t := by
  subst h
  rfl

/-- Coprocessor 14 and a register are written independently. -/
theorem State.setReg_dcc_comm (s : State) (d : Dcc) (r : Reg) (v : Word) :
    { s with dcc := d }.setReg r v = { s.setReg r v with dcc := d } := by
  unfold State.setReg
  rw [show ({ s with dcc := d } : State).mode = s.mode from rfl]
  cases bank s.mode r <;> rfl

section
variable {s : State} {c : Cond} {op1 op2 : BitVec 3} {crn crm : BitVec 4} {rd : Reg} (hc : condPassed c s.cpsr = true)
include hc

theorem execMrc_cp14 {data : Word} {d : Dcc} (h : cp14Read op1 crn op2 crm s = some (data, { s with dcc := d }))
    (hd : rd ≠ 15#4) :
    exec (.mrc c op1 crn rd 14#4 op2 crm) s = .next { (s.setReg rd data).advance with dcc := d } := by
  refine (whenPassed_of_passed _ hc).trans ((if_pos rfl).trans ?_)
  rw [h]
  dsimp only
  rw [mrcResult, if_neg hd, State.setReg_dcc_comm]
  rfl

theorem execMrc_cp14_flags {data : Word} {d : Dcc} (h : cp14Read op1 crn op2 crm s = some (data, { s with dcc := d })) :
    exec (.mrc c op1 crn 15#4 14#4 op2 crm) s =
      .next { (s.setCpsr (withTopFlags s.cpsr data)).advance with dcc := d } := by
  refine (whenPassed_of_passed _ hc).trans ((if_pos rfl).trans ?_)
  rw [h]
  exact if_pos rfl

theorem execMrc_cp14_none (h : cp14Read op1 crn op2 crm s = none) :
    exec (.mrc c op1 crn rd 14#4 op2 crm) s = .refused .cp14Undocumented := by
  refine (whenPassed_of_passed _ hc).trans ((if_pos rfl).trans ?_)
  rw [h]

theorem execMcr_cp14 {d : Dcc} (h : cp14Write op1 crn op2 crm (s.reg rd) s = some { s with dcc := d })
    (hd : rd ≠ 15#4) : exec (.mcr c op1 crn rd 14#4 op2 crm) s = .next { s.advance with dcc := d } := by
  refine (whenPassed_of_passed _ hc).trans ((if_pos rfl).trans ((noPc_of_not_mem _ (by simpa using hd.symm)).trans ?_))
  rw [h]
  rfl

theorem execMcr_cp14_none (h : cp14Write op1 crn op2 crm (s.reg rd) s = none) (hd : rd ≠ 15#4) :
    exec (.mcr c op1 crn rd 14#4 op2 crm) s = .refused .cp14Undocumented := by
  refine (whenPassed_of_passed _ hc).trans ((if_pos rfl).trans ((noPc_of_not_mem _ (by simpa using hd.symm)).trans ?_))
  rw [h]

theorem execMcr_cp14_pc : exec (.mcr c op1 crn 15#4 14#4 op2 crm) s = .refused .r15Operand :=
  (whenPassed_of_passed _ hc).trans ((if_pos rfl).trans (noPc_of_mem _ (by simp)))

end

/-- An MRC with Rd = 15 writes the top four bits it reads to the flags, and nothing else (R242). -/
theorem State.onlyWrites_topFlags (s : State) (data : Word) :
    s.onlyWrites (s.setCpsr (withTopFlags s.cpsr data)).advance [] [31, 30, 29, 28] := by
  refine State.onlyWrites_cpsr s _ (fun k hk => ?_) (by simp)
  rw [getLsbD_withTopFlags]
  split
  · have : 32 ≤ k := by simp at hk; omega
    rw [BitVec.getLsbD_of_ge _ _ this, BitVec.getLsbD_of_ge _ _ this]
  · rfl

theorem extractLsb'_withTopFlags (p v : Word) : (withTopFlags p v).extractLsb' 28 4 = v.extractLsb' 28 4 := by
  apply BitVec.eq_of_getLsbD_eq
  intro k hk
  rw [BitVec.getLsbD_extractLsb', BitVec.getLsbD_extractLsb', getLsbD_withTopFlags, if_pos (by omega)]

/-- Settles O45: each access by the register it reads or writes, and the refusals by the checks of `cp14Read`,
`cp14Write` and `notCp14`. -/
theorem commsChannel : Obligations.CommsChannel := by
  refine ⟨fun s c hc => ⟨?_, ?_, ?_⟩, fun s c o1 crn crd crm p1 p2 rd rn p u l wb off8 i hc => ⟨?_, fun h => ?_⟩,
    fun s c rd hc hd => ⟨?_, ?_, ?_, ?_, ?_⟩⟩
  · exact ⟨_, execMrc_cp14_flags (d := s.dcc) hc rfl, s.onlyWrites_topFlags _,
      (extractLsb'_withTopFlags _ _).trans (dccControl_bits s.dcc.w s.dcc.r).2.2.2⟩
  · exact ⟨_, execMrc_cp14_flags hc rfl, rfl, s.onlyWrites_topFlags _, extractLsb'_withTopFlags _ _⟩
  · exact ⟨_, execMrc_cp14_flags (d := s.dcc) hc rfl, s.onlyWrites_topFlags _,
      (extractLsb'_withTopFlags _ _).trans (dccAbort_bits s.dcc.dbgAbt).2.2⟩
  · rintro rfl
    exact execMcr_cp14_pc hc
  · rcases h with ⟨rfl, h⟩ | ⟨rfl, hd, h⟩ | h
    · exact execMrc_cp14_none hc (cp14Read_of_undocumented s h)
    · exact execMcr_cp14_none hc (cp14Write_of_undocumented _ s h) hd
    · simp only [List.mem_cons, List.not_mem_nil, or_false] at h
      rcases h with rfl | rfl | rfl | rfl | rfl | rfl | rfl | rfl | rfl | rfl
      iterate 5 exact (whenPassed_of_passed _ hc).trans (notCp14_self _)
      iterate 5 rfl
  · obtain ⟨hr, hw⟩ := s.setReg_advance_spec (dccControl s.dcc.w s.dcc.r) hd
    obtain ⟨h0, h1, h2, h28⟩ := dccControl_bits s.dcc.w s.dcc.r
    rw [← hr] at h0 h1 h2 h28
    rw [execMrc_cp14 (d := s.dcc) hc (data := dccControl s.dcc.w s.dcc.r) rfl hd, State.with_dcc_same (by simp)]
    exact ⟨_, rfl, hw, h0, h1, h2, h28⟩
  · obtain ⟨hr, hw⟩ := s.setReg_advance_spec s.dcc.readData hd
    refine ⟨_, execMrc_cp14 hc rfl hd, hr, rfl, ?_⟩
    have hsame : ({ (s.setReg rd s.dcc.readData).advance with dcc := s.dcc } : State)
        = (s.setReg rd s.dcc.readData).advance := State.with_dcc_same (by simp)
    exact hsame.symm ▸ hw
  · obtain ⟨hr, hw⟩ := s.setReg_advance_spec (dccAbort s.dcc.dbgAbt) hd
    obtain ⟨h0, h1, -⟩ := dccAbort_bits s.dcc.dbgAbt
    rw [← hr] at h0 h1
    rw [execMrc_cp14 (d := s.dcc) hc (data := dccAbort s.dcc.dbgAbt) rfl hd, State.with_dcc_same (by simp)]
    exact ⟨_, rfl, hw, h0, h1⟩
  · exact ⟨_, execMcr_cp14 hc rfl hd, rfl, s.onlyWrites_advance_only⟩
  · exact ⟨_, execMcr_cp14 hc rfl hd, rfl, s.onlyWrites_advance_only⟩

end Sys2Proof.Machine
end

section
/-!
PROOFS. Memory byte by byte (O60), and the single loads and stores: what each answers at the memory interface, and with
it their loads (O30, O31), their stores (O32) and their Thumb forms (O50, O51).
-/
namespace Sys2Proof.Machine
open Sys2Proof

/-! ### The bytes of memory (O60) -/

/-- Each of the bytes stored reads back from its place. -/
theorem State.byteAt_putBytes (s : State) (a : Word) (bs : List Byte) (hl : bs.length ≤ 2 ^ 32) {k : Nat}
    (hk : k < bs.length) : (s.putBytes a bs).byteAt (a + BitVec.ofNat 32 k) = bs[k]? := by
  induction bs generalizing s a k with
  | nil => exact absurd hk (Nat.not_lt_zero k)
  | cons b bs ih =>
    simp only [List.length_cons] at hl hk
    cases k with
    | zero =>
      have hne : ∀ j < bs.length, a ≠ a + 1 + BitVec.ofNat 32 j := by
        intro j hj
        have : (BitVec.ofNat 32 j).toNat = j := by rw [BitVec.toNat_ofNat]; omega
        bv_omega
      rw [BitVec.add_zero, State.putBytes, State.byteAt_putBytes_of_ne _ _ _ _ hne, State.byteAt_putByte, if_pos rfl]
      rfl
    | succ k =>
      have hnext : a + BitVec.ofNat 32 (k + 1) = a + 1 + BitVec.ofNat 32 k := by
        rw [Nat.add_comm k 1, BitVec.ofNat_add, ← BitVec.add_assoc]
        rfl
      rw [hnext, State.putBytes, ih _ _ (by omega) (by omega)]
      rfl

theorem bytesOfHalf_getElem? (big : Bool) (h : Half) :
    (bytesOfHalf big h)[0]? = some (h.extractLsb' (if big then 8 else 0) 8) ∧
    (bytesOfHalf big h)[1]? = some (h.extractLsb' (if big then 0 else 8) 8) := by
  cases big <;> exact ⟨rfl, rfl⟩

theorem bytesOfWord_getElem? (big : Bool) (w : Word) {k : Nat} (hk : k < 4) :
    (bytesOfWord big w)[k]? = some (w.extractLsb' (if big then 24 - 8 * k else 8 * k) 8) := by
  cases big <;> interval_cases k <;> rfl

theorem bytesOfHalf_length (big : Bool) (h : Half) : (bytesOfHalf big h).length = 2 := by cases big <;> rfl

theorem bytesOfWord_length (big : Bool) (w : Word) : (bytesOfWord big w).length = 4 := by cases big <;> rfl

/-- The bytes of a word stored, in either byte order (R63). -/
theorem State.byteAt_putWord (s : State) (a w : Word) {k : Nat} (hk : k < 4) :
    (s.putWord a w).byteAt (a + BitVec.ofNat 32 k) =
      some (w.extractLsb' (if s.config.bigEndian then 24 - 8 * k else 8 * k) 8) := by
  have hl := bytesOfWord_length s.config.bigEndian w
  rw [State.putWord, State.byteAt_putBytes _ _ _ (by omega) (by omega), bytesOfWord_getElem? _ _ hk]

/-- The two bytes of a halfword stored, in either byte order (R63). -/
theorem State.byteAt_putHalf (s : State) (a : Word) (h : Half) :
    (s.putHalf a h).byteAt a = some (h.extractLsb' (if s.config.bigEndian then 8 else 0) 8) ∧
    (s.putHalf a h).byteAt (a + 1) = some (h.extractLsb' (if s.config.bigEndian then 0 else 8) 8) := by
  have hl := bytesOfHalf_length s.config.bigEndian h
  obtain ⟨h0, h1⟩ := bytesOfHalf_getElem? s.config.bigEndian h
  have hread := fun k => State.byteAt_putBytes s a (bytesOfHalf s.config.bigEndian h) (by omega) (k := k)
  refine ⟨?_, (hread 1 (by omega)).trans h1⟩
  have h00 := (hread 0 (by omega)).trans h0
  rwa [BitVec.add_zero] at h00

theorem State.byteAt_putByte_same (s : State) (a : Word) (b : Byte) : (s.putByte a b).byteAt a = some b := by
  rw [State.byteAt_putByte, if_pos rfl]

/-- Settles O60: reads by the definition of a word and a halfword, writes by the bytes that `putBytes` leaves. -/
theorem memoryBytes : Obligations.MemoryBytes := by
  refine fun s a => ⟨fun b0 b1 h0 h1 => ?_, fun b0 b1 b2 b3 h0 h1 h2 h3 => ?_,
    fun b => ⟨State.byteAt_putByte_same s a b, (MemOnly.putByte s a b).mem⟩,
    fun h => ⟨State.halfAt_putHalf s a h, (MemOnly.putHalf s a h).mem, State.byteAt_putHalf s a h⟩,
    fun w => ⟨State.wordAt_putWord s a w, (MemOnly.putWord s a w).mem, fun k hk => State.byteAt_putWord s a w hk⟩⟩
  · rw [State.halfAt, h0, h1]
    rfl
  · rw [State.wordAt, h0, h1, h2, h3]
    rfl

/-! ### The memory interface: an access that is aborted -/

section
variable {s : State} {priv locked : Bool} {a : Word}

theorem State.loadAligned_of_aborts (h : s.aborts .read .word (wordAlign a) priv locked = true) :
    s.loadAligned priv a locked = .abort := if_pos h

theorem State.loadWord_of_aborts (h : s.aborts .read .word (wordAlign a) priv locked = true) :
    s.loadWord priv a locked = .abort := by
  rw [State.loadWord, State.loadAligned_of_aborts h]

theorem State.loadHalf_of_aborts (h : s.aborts .read .half a priv = true) : s.loadHalf priv a = .abort := if_pos h

theorem State.loadByte_of_aborts (h : s.aborts .read .byte a priv locked = true) :
    s.loadByte priv a locked = .abort := if_pos h

end

/-! Going on with what the interface answered. -/

section
variable {s : State}

theorem withLoad_of_value {α : Type} {l : Load α} {v : α} (f : α → Result) (h : l = .value v) :
    withLoad l s f = f v := by rw [h, withLoad]

theorem withLoad_of_abort {α : Type} {l : Load α} (f : α → Result) (h : l = .abort) :
    withLoad l s f = .next (takeDataAbort s) := by rw [h, withLoad]

theorem withStore_of_done {o : Store} {t : State} (f : State → Result) (h : o = .done t) :
    withStore o s f = f t := by rw [h, withStore]

theorem withStore_of_abort {o : Store} (f : State → Result) (h : o = .abort) :
    withStore o s f = .next (takeDataAbort s) := by rw [h, withStore]

theorem withStore_of_toFetched {o : Store} (f : State → Result) (h : o = .toFetched) :
    withStore o s f = .refused .storeToFetched := by rw [h, withStore]

end

theorem noPc_single {rd : Reg} (k : Result) (h : rd ≠ 15#4) : noPc [rd] k = k :=
  noPc_of_not_mem k (by simpa using h.symm)

theorem evenAddress_of_even {a : Word} (k : Result) (h : a.toNat % 2 = 0) : evenAddress a k = k := by
  refine if_neg fun ho => ?_
  have := (bit_zero_odd a).mp ho
  omega

/-! ### What an access answers where it does not go on -/

/-- The answer `r` of an instruction with one access of kind `k` and width `w` at `a`, in the three cases in which the
access is not made: an odd address of a halfword (U10), an abort (R222), a store to an executed byte (D7). -/
structure Accesses (s : State) (k : Access) (w : Width) (priv : Bool) (a : Word) (r : Result) : Prop where
  odd : w = .half → a.toNat % 2 = 1 → r = .refused .misalignedHalfword
  aborted : accessAllowed w a → s.aborts k w (accessPlace w a) priv = true → r = .next (takeDataAbort s)
  executed : k = .write → accessAllowed w a → s.aborts k w (accessPlace w a) priv = false →
    overlaps s.fetched (accessPlace w a).toNat w.bytes = true → r = .refused .storeToFetched

namespace Accesses

variable {s : State} {priv : Bool} {a : Word}

theorem loadAligned (f : Word → Result) : Accesses s .read .word priv a (withLoad (s.loadAligned priv a) s f) :=
  ⟨nofun, fun _ h => withLoad_of_abort f (State.loadAligned_of_aborts h), nofun⟩

theorem loadWord (f : Word → Result) : Accesses s .read .word priv a (withLoad (s.loadWord priv a) s f) :=
  ⟨nofun, fun _ h => withLoad_of_abort f (State.loadWord_of_aborts h), nofun⟩

theorem loadByte (f : Byte → Result) : Accesses s .read .byte priv a (withLoad (s.loadByte priv a) s f) :=
  ⟨nofun, fun _ h => withLoad_of_abort f (State.loadByte_of_aborts h), nofun⟩

theorem storeWord {v : Word} (f : State → Result) :
    Accesses s .write .word priv a (withStore (s.storeWord priv a v) s f) :=
  ⟨nofun, fun _ h => withStore_of_abort f (State.store_of_aborts h),
    fun _ _ h ho => withStore_of_toFetched f (State.store_of_overlaps h ho)⟩

theorem storeByte {v : Byte} (f : State → Result) :
    Accesses s .write .byte priv a (withStore (s.storeByte priv a v) s f) :=
  ⟨nofun, fun _ h => withStore_of_abort f (State.store_of_aborts h),
    fun _ _ h ho => withStore_of_toFetched f (State.store_of_overlaps h ho)⟩

theorem loadHalf (f : Half → Result) :
    Accesses s .read .half priv a (Machine.evenAddress a (withLoad (s.loadHalf priv a) s f)) :=
  ⟨fun _ h => evenAddress_of_odd _ ((bit_zero_odd a).mpr h),
    fun he h => (evenAddress_of_even _ (he rfl)).trans (withLoad_of_abort f (State.loadHalf_of_aborts h)), nofun⟩

theorem storeHalf {v : Half} (f : State → Result) :
    Accesses s .write .half priv a (Machine.evenAddress a (withStore (s.storeHalf priv a v) s f)) :=
  ⟨fun _ h => evenAddress_of_odd _ ((bit_zero_odd a).mpr h),
    fun he h => (evenAddress_of_even _ (he rfl)).trans (withStore_of_abort f (State.store_of_aborts h)),
    fun _ he h ho => (evenAddress_of_even _ (he rfl)).trans (withStore_of_toFetched f (State.store_of_overlaps h ho))⟩

end Accesses

/-- The answer `r` of an ARM single load or store behind the check of its base: where r15 is its register `rd` and the
form does not allow it, the instruction is refused (U6), and otherwise it makes its access. -/
structure SingleTransfer (s : State) (k : Access) (w : Width) (priv : Bool) (a : Word) (rd : Reg) (pcAllowed : Prop)
    (r : Result) : Prop where
  pc : rd = 15#4 → ¬pcAllowed → r = .refused .r15Operand
  access : (rd = 15#4 → pcAllowed) → Accesses s k w priv a r

theorem SingleTransfer.of_any {s : State} {k : Access} {w : Width} {priv : Bool} {a : Word} {rd : Reg}
    {pcAllowed : Prop} {r : Result} (hp : pcAllowed) (h : Accesses s k w priv a r) :
    SingleTransfer s k w priv a rd pcAllowed r :=
  ⟨fun _ hn => absurd hp hn, fun _ => h⟩

theorem SingleTransfer.of_noPc {s : State} {k : Access} {w : Width} {priv : Bool} {a : Word} {rd : Reg}
    {pcAllowed : Prop} {r : Result} (hp : ¬pcAllowed) (h : Accesses s k w priv a r) :
    SingleTransfer s k w priv a rd pcAllowed (noPc [rd] r) :=
  ⟨fun hd _ => noPc_of_mem r (by simp [hd]), fun hd => by rwa [noPc_single r fun h15 => hp (hd h15)]⟩

section
variable {s : State} {c : Cond} {idx : Index} {u : Bool} {rn rd rm : Reg} {i : Instr} {k : Access} {w : Width}
  {priv : Bool} {a : Address}

/-- Each ARM single load or store with an immediate offset: the check of its base, then its access. -/
theorem exec_immTransfer {off12 : BitVec 12} {off8 : BitVec 8} (hc : condPassed c s.cpsr = true)
    (h : (i, k, w, priv, a) ∈ s.immTransfers c idx u rn rd off12 off8) :
    ∃ r, exec i s = baseAllowed a.writeBack rn rd r ∧ SingleTransfer s k w priv a.address rd
      (i ∈ [.ldrImm c idx u rn rd off12, .strImm c idx u rn rd off12]) r := by
  have hx : ∀ {b : Address} {wb : Bool} {r : Result}, b.writeBack = wb →
      whenPassed c s (baseAllowed wb rn rd r) = baseAllowed b.writeBack rn rd r :=
    fun hw => (whenPassed_of_passed _ hc).trans (by rw [hw])
  have hi := s.immAddress_writeBack idx u rn off12
  have hp := s.immAddress_writeBack .post u rn off12
  have h8 := s.immAddress_writeBack idx u rn off8
  simp only [State.immTransfers, List.mem_cons, List.not_mem_nil, or_false, Prod.mk.injEq] at h
  rcases h with ⟨rfl, rfl, rfl, rfl, rfl⟩ | ⟨rfl, rfl, rfl, rfl, rfl⟩ | ⟨rfl, rfl, rfl, rfl, rfl⟩ |
    ⟨rfl, rfl, rfl, rfl, rfl⟩ | ⟨rfl, rfl, rfl, rfl, rfl⟩ | ⟨rfl, rfl, rfl, rfl, rfl⟩ | ⟨rfl, rfl, rfl, rfl, rfl⟩ |
    ⟨rfl, rfl, rfl, rfl, rfl⟩ | ⟨rfl, rfl, rfl, rfl, rfl⟩ | ⟨rfl, rfl, rfl, rfl, rfl⟩ | ⟨rfl, rfl, rfl, rfl, rfl⟩ |
    ⟨rfl, rfl, rfl, rfl, rfl⟩
  · exact ⟨_, hx hi, .of_any (by simp) (.loadWord _)⟩
  · exact ⟨_, hx hi, .of_noPc (by simp) (.loadByte _)⟩
  · exact ⟨_, hx hi, .of_any (by simp) (.storeWord _)⟩
  · exact ⟨_, hx hi, .of_noPc (by simp) (.storeByte _)⟩
  · exact ⟨_, hx hp, .of_noPc (by simp) (.loadWord _)⟩
  · exact ⟨_, hx hp, .of_noPc (by simp) (.loadByte _)⟩
  · exact ⟨_, hx hp, .of_noPc (by simp) (.storeWord _)⟩
  · exact ⟨_, hx hp, .of_noPc (by simp) (.storeByte _)⟩
  · exact ⟨_, hx h8, .of_noPc (by simp) (.loadByte _)⟩
  · exact ⟨_, hx h8, .of_noPc (by simp) (.loadHalf _)⟩
  · exact ⟨_, hx h8, .of_noPc (by simp) (.loadHalf _)⟩
  · exact ⟨_, hx h8, .of_noPc (by simp) (.storeHalf _)⟩

/-- The same, with a register offset. -/
theorem exec_regTransfer {n : BitVec 5} {sh : Shift} (hc : condPassed c s.cpsr = true)
    (h : (i, k, w, priv, a) ∈ s.regTransfers c idx u rn rd n sh rm) :
    ∃ r, exec i s = regBaseAllowed a.writeBack rn rd rm r ∧ SingleTransfer s k w priv a.address rd
      (i ∈ [.ldrReg c idx u rn rd n sh rm, .strReg c idx u rn rd n sh rm]) r := by
  have hx : ∀ {b : Address} {wb : Bool} {r : Result}, b.writeBack = wb →
      whenPassed c s (regBaseAllowed wb rn rd rm r) = regBaseAllowed b.writeBack rn rd rm r :=
    fun hw => (whenPassed_of_passed _ hc).trans (by rw [hw])
  have hs := s.shiftAddress_writeBack idx u rn n sh rm
  have hp := s.shiftAddress_writeBack .post u rn n sh rm
  have hr := s.regAddress_writeBack idx u rn rm
  simp only [State.regTransfers, List.mem_cons, List.not_mem_nil, or_false, Prod.mk.injEq] at h
  rcases h with ⟨rfl, rfl, rfl, rfl, rfl⟩ | ⟨rfl, rfl, rfl, rfl, rfl⟩ | ⟨rfl, rfl, rfl, rfl, rfl⟩ |
    ⟨rfl, rfl, rfl, rfl, rfl⟩ | ⟨rfl, rfl, rfl, rfl, rfl⟩ | ⟨rfl, rfl, rfl, rfl, rfl⟩ | ⟨rfl, rfl, rfl, rfl, rfl⟩ |
    ⟨rfl, rfl, rfl, rfl, rfl⟩ | ⟨rfl, rfl, rfl, rfl, rfl⟩ | ⟨rfl, rfl, rfl, rfl, rfl⟩ | ⟨rfl, rfl, rfl, rfl, rfl⟩ |
    ⟨rfl, rfl, rfl, rfl, rfl⟩
  · exact ⟨_, hx hs, .of_any (by simp) (.loadWord _)⟩
  · exact ⟨_, hx hs, .of_noPc (by simp) (.loadByte _)⟩
  · exact ⟨_, hx hs, .of_any (by simp) (.storeWord _)⟩
  · exact ⟨_, hx hs, .of_noPc (by simp) (.storeByte _)⟩
  · exact ⟨_, hx hp, .of_noPc (by simp) (.loadWord _)⟩
  · exact ⟨_, hx hp, .of_noPc (by simp) (.loadByte _)⟩
  · exact ⟨_, hx hp, .of_noPc (by simp) (.storeWord _)⟩
  · exact ⟨_, hx hp, .of_noPc (by simp) (.storeByte _)⟩
  · exact ⟨_, hx hr, .of_noPc (by simp) (.loadByte _)⟩
  · exact ⟨_, hx hr, .of_noPc (by simp) (.loadHalf _)⟩
  · exact ⟨_, hx hr, .of_noPc (by simp) (.loadHalf _)⟩
  · exact ⟨_, hx hr, .of_noPc (by simp) (.storeHalf _)⟩

/-- An ARM single load or store that is not refused for its registers makes its access. -/
theorem exec_armTransfer {off12 : BitVec 12} {off8 : BitVec 8} {n : BitVec 5} {sh : Shift}
    (hc : condPassed c s.cpsr = true)
    (hpc : rd = 15#4 → i ∈ [.ldrImm c idx u rn rd off12, .ldrReg c idx u rn rd n sh rm, .strImm c idx u rn rd off12,
      .strReg c idx u rn rd n sh rm])
    (h : (i, k, w, priv, a) ∈ s.immTransfers c idx u rn rd off12 off8 ∧ baseOk a.writeBack rn rd ∨
      (i, k, w, priv, a) ∈ s.regTransfers c idx u rn rd n sh rm ∧ regBaseOk a.writeBack rn rd rm) :
    Accesses s k w priv a.address (exec i s) := by
  rcases h with ⟨h, hb⟩ | ⟨h, hb⟩
  · obtain ⟨r, hx, hr⟩ := exec_immTransfer hc h
    rw [hx, baseAllowed_of_ne _ hb]
    refine hr.access fun hd => ?_
    have hi := hpc hd
    simp only [List.mem_cons, List.not_mem_nil, or_false] at hi ⊢
    rcases hi with rfl | rfl | rfl | rfl
    · exact .inl rfl
    · simp [State.immTransfers] at h
    · exact .inr rfl
    · simp [State.immTransfers] at h
  · obtain ⟨r, hx, hr⟩ := exec_regTransfer hc h
    rw [hx, regBaseAllowed_of_ne _ hb.1 hb.2]
    refine hr.access fun hd => ?_
    have hi := hpc hd
    simp only [List.mem_cons, List.not_mem_nil, or_false] at hi ⊢
    rcases hi with rfl | rfl | rfl | rfl
    · simp [State.regTransfers] at h
    · exact .inl rfl
    · simp [State.regTransfers] at h
    · exact .inr rfl

end

/-! ### The Thumb single transfers -/

theorem scaled4_eq {n : Nat} (imm : BitVec n) : scaled4 imm = 4 * imm.setWidth 32 := by
  rw [scaled4, BitVec.shiftLeft_eq_mul_twoPow, BitVec.mul_comm]
  rfl

theorem scaled2_eq {n : Nat} (imm : BitVec n) : scaled2 imm = 2 * imm.setWidth 32 := by
  rw [scaled2, BitVec.shiftLeft_eq_mul_twoPow, BitVec.mul_comm]
  rfl

/-- Each Thumb single load or store makes its access. -/
theorem exec_thumbTransfer {s : State} {ro rb rd : LowReg} {imm5 : BitVec 5} {imm8 : BitVec 8} {i : Instr} {k : Access}
    {w : Width} {a : Word} (h : (i, k, w, a) ∈ s.thumbTransfers ro rb rd imm5 imm8) :
    Accesses s k w s.privileged a (exec i s) := by
  simp only [State.thumbTransfers, ← scaled4_eq, ← scaled2_eq, ← wordAlign_eq, List.mem_cons, List.not_mem_nil, or_false,
    Prod.mk.injEq] at h
  rcases h with ⟨rfl, rfl, rfl, rfl⟩ | ⟨rfl, rfl, rfl, rfl⟩ | ⟨rfl, rfl, rfl, rfl⟩ | ⟨rfl, rfl, rfl, rfl⟩ |
    ⟨rfl, rfl, rfl, rfl⟩ | ⟨rfl, rfl, rfl, rfl⟩ | ⟨rfl, rfl, rfl, rfl⟩ | ⟨rfl, rfl, rfl, rfl⟩ | ⟨rfl, rfl, rfl, rfl⟩ |
    ⟨rfl, rfl, rfl, rfl⟩ | ⟨rfl, rfl, rfl, rfl⟩ | ⟨rfl, rfl, rfl, rfl⟩ | ⟨rfl, rfl, rfl, rfl⟩ | ⟨rfl, rfl, rfl, rfl⟩ |
    ⟨rfl, rfl, rfl, rfl⟩ | ⟨rfl, rfl, rfl, rfl⟩ | ⟨rfl, rfl, rfl, rfl⟩
  · exact .loadAligned _
  iterate 3 exact .loadWord _
  iterate 3 exact .loadByte _
  iterate 3 exact .loadHalf _
  iterate 3 exact .storeWord _
  iterate 2 exact .storeByte _
  iterate 2 exact .storeHalf _

/-! ### Addressing modes 2 and 3 -/

/-- What an addressing mode gives for a base and an offset (R223, R224). -/
theorem indexed_spec (idx : Index) (u : Bool) (base off : Word) :
    (indexed idx u base off).target = (if u then base + off else base - off) ∧
    (indexed idx u base off).address = (if idx = .post then base else (indexed idx u base off).target) ∧
    (indexed idx u base off).writeBack = decide (idx ≠ .offset) ∧
    writesBack idx = (indexed idx u base off).writeBack := by
  cases idx <;> exact ⟨rfl, rfl, rfl, rfl⟩

section
variable {s : State} {c : Cond} {rn rd rm : Reg} {a : Address} {wb : Bool} {k r : Result}

/-- A transfer with an immediate offset whose condition passes and whose base is allowed. -/
theorem passed_baseOk (hc : condPassed c s.cpsr = true) (hw : a.writeBack = wb) (hb : baseOk wb rn rd) (hk : k = r) :
    whenPassed c s (baseAllowed wb rn rd k) = r ∧ (a.writeBack = true → rn ≠ 15#4 ∧ rn ≠ rd) :=
  ⟨(whenPassed_of_passed _ hc).trans ((baseAllowed_of_ne k hb).trans hk), fun h => hb (hw ▸ h)⟩

/-- The same, with a register offset. -/
theorem passed_regBaseOk (hc : condPassed c s.cpsr = true) (hw : a.writeBack = wb) (hb : regBaseOk wb rn rd rm)
    (hk : k = r) :
    whenPassed c s (regBaseAllowed wb rn rd rm k) = r ∧ (a.writeBack = true → rn ≠ 15#4 ∧ rn ≠ rd) := by
  obtain ⟨hm, hn⟩ := hb
  refine ⟨(whenPassed_of_passed _ hc).trans ((regBaseAllowed_of_ne k hm hn).trans hk), fun h => ?_⟩
  obtain ⟨h1, h2, -⟩ := hn (hw ▸ h)
  exact ⟨h1, h2⟩

end

/-! ### The single loads (O30, O31) -/

section
variable {s : State} {a : Address} {rn rd : Reg} {w : Word} {h : Half} {b : Byte} {priv : Bool}

theorem ldrWith_of_reads (hd : rd ≠ 15#4) (hr : s.readsWord s.privileged a.address w) :
    ldrWith a rn rd s = finishLoad a rn rd (w.rotateRight (8 * (a.address.toNat % 4))) s :=
  (withLoad_of_value _ (State.loadWord_of_reads hr)).trans (if_neg hd)

theorem ldrtWith_of_reads (hd : rd ≠ 15#4) (hr : s.readsWord false a.address w) :
    ldrtWith a rn rd s = finishLoad a rn rd (w.rotateRight (8 * (a.address.toNat % 4))) s :=
  (noPc_single _ hd).trans (withLoad_of_value _ (State.loadWord_of_reads hr))

theorem ldrbWith_of_reads (hd : rd ≠ 15#4) (hr : s.readsByte priv a.address b) :
    ldrbWith priv a rn rd s = finishLoad a rn rd (b.setWidth 32) s :=
  (noPc_single _ hd).trans (withLoad_of_value _ (State.loadByte_of_reads hr))

theorem ldrsbWith_of_reads (hd : rd ≠ 15#4) (hr : s.readsByte s.privileged a.address b) :
    ldrsbWith a rn rd s = finishLoad a rn rd (b.signExtend 32) s :=
  (noPc_single _ hd).trans (withLoad_of_value _ (State.loadByte_of_reads hr))

theorem ldrhWith_of_reads (hd : rd ≠ 15#4) (he : a.address.toNat % 2 = 0) (hr : s.readsHalf s.privileged a.address h) :
    ldrhWith a rn rd s = finishLoad a rn rd (h.setWidth 32) s :=
  (noPc_single _ hd).trans ((evenAddress_of_even _ he).trans (withLoad_of_value _ (State.loadHalf_of_reads hr)))

theorem ldrshWith_of_reads (hd : rd ≠ 15#4) (he : a.address.toNat % 2 = 0) (hr : s.readsHalf s.privileged a.address h) :
    ldrshWith a rn rd s = finishLoad a rn rd (h.signExtend 32) s :=
  (noPc_single _ hd).trans ((evenAddress_of_even _ he).trans (withLoad_of_value _ (State.loadHalf_of_reads hr)))

end

/-- Settles O30: each form ends with `finishLoad` of the value it read, and `finishLoad_spec` says what that writes. -/
theorem singleLoads : Obligations.SingleLoads := by
  refine ⟨fun s idx u rn rm off12 off8 n sh a off h => ?_,
    fun s c idx u rn rd rm off12 off8 n sh i a v w h b hc hd hx => ?_⟩
  · simp only [List.mem_cons, List.not_mem_nil, or_false, Prod.mk.injEq] at h
    rcases h with ⟨rfl, rfl⟩ | ⟨rfl, rfl⟩ | ⟨rfl, rfl⟩ | ⟨rfl, rfl⟩
    iterate 4 exact indexed_spec idx u _ _
  · have hend : exec i s = finishLoad a rn rd v s ∧ (a.writeBack = true → rn ≠ 15#4 ∧ rn ≠ rd) := by
      have h12 := s.immAddress_writeBack idx u rn off12
      have h12p := s.immAddress_writeBack .post u rn off12
      have h8 := s.immAddress_writeBack idx u rn off8
      have hs := s.shiftAddress_writeBack idx u rn n sh rm
      have hsp := s.shiftAddress_writeBack .post u rn n sh rm
      have hg := s.regAddress_writeBack idx u rn rm
      rcases hx with ⟨hr, rfl, hx⟩ | ⟨hr, rfl, hx⟩ | ⟨hr, rfl, hx⟩ | ⟨hr, rfl, hx⟩ | ⟨hr, rfl, hx⟩ | ⟨he, hr, hx⟩
      · rcases hx with ⟨rfl, hb, rfl⟩ | ⟨rfl, hb, rfl⟩
        · exact passed_baseOk hc h12 hb (ldrWith_of_reads hd hr)
        · exact passed_regBaseOk hc hs hb (ldrWith_of_reads hd hr)
      · rcases hx with ⟨rfl, hb, rfl⟩ | ⟨rfl, hb, rfl⟩
        · exact passed_baseOk hc h12p hb (ldrtWith_of_reads hd hr)
        · exact passed_regBaseOk hc hsp hb (ldrtWith_of_reads hd hr)
      · rcases hx with ⟨rfl, hb, rfl⟩ | ⟨rfl, hb, rfl⟩
        · exact passed_baseOk hc h12 hb (ldrbWith_of_reads hd hr)
        · exact passed_regBaseOk hc hs hb (ldrbWith_of_reads hd hr)
      · rcases hx with ⟨rfl, hb, rfl⟩ | ⟨rfl, hb, rfl⟩
        · exact passed_baseOk hc h12p hb (ldrbWith_of_reads hd hr)
        · exact passed_regBaseOk hc hsp hb (ldrbWith_of_reads hd hr)
      · rcases hx with ⟨rfl, hb, rfl⟩ | ⟨rfl, hb, rfl⟩
        · exact passed_baseOk hc h8 hb (ldrsbWith_of_reads hd hr)
        · exact passed_regBaseOk hc hg hb (ldrsbWith_of_reads hd hr)
      · rcases hx with ⟨rfl, hb, ⟨rfl, rfl⟩ | ⟨rfl, rfl⟩⟩ | ⟨rfl, hb, ⟨rfl, rfl⟩ | ⟨rfl, rfl⟩⟩
        · exact passed_baseOk hc h8 hb (ldrhWith_of_reads hd he hr)
        · exact passed_baseOk hc h8 hb (ldrshWith_of_reads hd he hr)
        · exact passed_regBaseOk hc hg hb (ldrhWith_of_reads hd he hr)
        · exact passed_regBaseOk hc hg hb (ldrshWith_of_reads hd he hr)
    rw [hend.1]
    exact finishLoad_spec a rn rd v s hd hend.2

/-- LDR to r15 is a branch with exchange to the word loaded, where its address is word-aligned (R200). -/
theorem ldrWith_pc {s : State} {a : Address} {rn : Reg} {w : Word} (hr : s.readsWord s.privileged a.address w) :
    ldrWith a rn 15#4 s = if a.address.toNat % 4 = 0 then branchExchange w (s.writeBase a rn)
      else .refused .misalignedPcLoad := by
  refine (withLoad_of_value _ (State.loadWord_of_reads hr)).trans ((if_pos rfl).trans ?_)
  simp only [extract_two_zero]
  split
  · rename_i h0
    rw [h0, Nat.mul_zero, BitVec.rotateRight_def]
    simp
  · rfl

theorem branchExchange_of_two {v : Word} (s : State) (h : v.toNat % 4 = 2) :
    branchExchange v s = .refused .armTargetBit1 := if_pos ((extract_two_two v).mpr h)

/-- The base that a load or store writes back. -/
theorem State.writeBase_reg (s : State) {a : Address} {rn : Reg} (hn : rn ≠ 15#4) (hw : a.writeBack = true) :
    (s.writeBase a rn).reg rn = a.target := by
  rw [State.writeBase, if_pos hw, State.reg_setReg_same _ _ _ hn]

/-- Settles O31: the three cases of `ldrWith_pc`, the last by `branchExchange_jumps`. -/
theorem loadToPc : Obligations.LoadToPc := by
  intro s c idx u rn rm off12 n sh i a w hc hr h
  have hend : exec i s = ldrWith a rn 15#4 s ∧ (a.writeBack = true → rn ≠ 15#4 ∧ rn ≠ 15#4) := by
    rcases h with ⟨rfl, hb, rfl⟩ | ⟨rfl, hb, rfl⟩
    · exact passed_baseOk hc (s.immAddress_writeBack idx u rn off12) hb rfl
    · exact passed_regBaseOk hc (s.shiftAddress_writeBack idx u rn n sh rm) hb rfl
  obtain ⟨hx, hwb⟩ := hend
  rw [hx, ldrWith_pc hr]
  refine ⟨fun h0 => if_neg h0, fun h0 h2 => (if_pos h0).trans (branchExchange_of_two _ h2), fun h0 h2 => ?_⟩
  obtain ⟨-, hcpsr, hsys, hcp, hmem, hstored, hregs⟩ := RegOnly.writeBase s a rn []
  obtain ⟨t, ht, hT, htr, htm, hj⟩ := branchExchange_jumps s (s.writeBase a rn) w _ h2 hregs hcpsr hsys hcp
    (State.memoryKept_of_eq hmem hstored)
  refine ⟨t, (if_pos h0).trans ht, hT, fun hw => ?_, hj⟩
  have hn := (hwb hw).1
  rw [State.reg_congr_mode htr htm hn, State.writeBase_reg s hn hw]

/-! ### The single stores (O32) -/

section
variable {s : State} {a : Address} {rn rd : Reg} {priv : Bool}

theorem strWith_of_stores (hs : s.storesWord s.privileged a.address) :
    strWith a rn rd s = finishStore a rn (s.putWord (wordAlign a.address) (s.storeReg rd)) :=
  withStore_of_done _ (State.store_of_stores hs)

theorem strtWith_of_stores (hd : rd ≠ 15#4) (hs : s.storesWord false a.address) :
    strtWith a rn rd s = finishStore a rn (s.putWord (wordAlign a.address) (s.storeReg rd)) := by
  rw [State.storeReg, if_neg hd]
  exact (noPc_single _ hd).trans (withStore_of_done _ (State.store_of_stores hs))

theorem strbWith_of_stores (hd : rd ≠ 15#4) (hs : s.stores .byte priv a.address) :
    strbWith priv a rn rd s = finishStore a rn (s.putByte a.address ((s.reg rd).setWidth 8)) :=
  (noPc_single _ hd).trans (withStore_of_done _ (State.store_of_stores hs))

theorem strhWith_of_stores (hd : rd ≠ 15#4) (he : a.address.toNat % 2 = 0)
    (hs : s.stores .half s.privileged a.address) :
    strhWith a rn rd s = finishStore a rn (s.putHalf a.address ((s.reg rd).setWidth 16)) :=
  (noPc_single _ hd).trans ((evenAddress_of_even _ he).trans (withStore_of_done _ (State.store_of_stores hs)))

end

theorem State.byteAt_congr {s t : State} (h : t.mem = s.mem) (a : Word) : t.byteAt a = s.byteAt a := by
  rw [State.byteAt, State.byteAt, h]

/-- Settles O32: each form ends with `finishStore` after its bytes, and `finishStore_spec` says what that writes; a store
to an executed byte is refused by `Accesses.executed`. -/
theorem singleStores : Obligations.SingleStores := by
  intro s c idx u rn rd rm off12 off8 n sh i a v w priv hc hv
  have h12 := s.immAddress_writeBack idx u rn off12
  have h12p := s.immAddress_writeBack .post u rn off12
  have h8 := s.immAddress_writeBack idx u rn off8
  have hs := s.shiftAddress_writeBack idx u rn n sh rm
  have hsp := s.shiftAddress_writeBack .post u rn n sh rm
  have hg := s.regAddress_writeBack idx u rn rm
  have hreg : s.storeReg rd = v := hv.symm
  refine ⟨fun h => ?_, fun hd h => ?_, fun hd he hst h => ?_, fun hpc hal h hab ho => ?_⟩
  · have hend : exec i s = finishStore a rn (s.putWord (wordAlign a.address) v) ∧
        (a.writeBack = true → rn ≠ 15#4 ∧ rn ≠ rd) := by
      rw [← hreg]
      rcases h with ⟨hst, ⟨rfl, hb, rfl⟩ | ⟨rfl, hb, rfl⟩⟩ | ⟨hst, hd, ⟨rfl, hb, rfl⟩ | ⟨rfl, hb, rfl⟩⟩
      · exact passed_baseOk hc h12 hb (strWith_of_stores hst)
      · exact passed_regBaseOk hc hs hb (strWith_of_stores hst)
      · exact passed_baseOk hc h12p hb (strtWith_of_stores hd hst)
      · exact passed_regBaseOk hc hsp hb (strtWith_of_stores hd hst)
    rw [hend.1, ← wordAlign_eq]
    obtain ⟨t, ht, hmem, hcfg, hbase, honly⟩ := finishStore_spec (MemOnly.putWord s (wordAlign a.address) v) a rn
      fun hw => (hend.2 hw).1
    exact ⟨t, ht, (State.wordAt_congr hmem hcfg _).trans (State.wordAt_putWord s _ v), hbase, honly⟩
  · rw [State.storeReg, if_neg hd] at hreg
    have hend : exec i s = finishStore a rn (s.putByte a.address (v.setWidth 8)) ∧
        (a.writeBack = true → rn ≠ 15#4 ∧ rn ≠ rd) := by
      rw [← hreg]
      rcases h with ⟨hst, ⟨rfl, hb, rfl⟩ | ⟨rfl, hb, rfl⟩⟩ | ⟨hst, ⟨rfl, hb, rfl⟩ | ⟨rfl, hb, rfl⟩⟩
      · exact passed_baseOk hc h12 hb (strbWith_of_stores hd hst)
      · exact passed_regBaseOk hc hs hb (strbWith_of_stores hd hst)
      · exact passed_baseOk hc h12p hb (strbWith_of_stores hd hst)
      · exact passed_regBaseOk hc hsp hb (strbWith_of_stores hd hst)
    rw [hend.1]
    obtain ⟨t, ht, hmem, -, hbase, honly⟩ := finishStore_spec (MemOnly.putByte s a.address (v.setWidth 8)) a rn
      fun hw => (hend.2 hw).1
    exact ⟨t, ht, (State.byteAt_congr hmem _).trans (State.byteAt_putByte_same s _ _), hbase, honly⟩
  · rw [State.storeReg, if_neg hd] at hreg
    have hend : exec i s = finishStore a rn (s.putHalf a.address (v.setWidth 16)) ∧
        (a.writeBack = true → rn ≠ 15#4 ∧ rn ≠ rd) := by
      rw [← hreg]
      rcases h with ⟨rfl, hb, rfl⟩ | ⟨rfl, hb, rfl⟩
      · exact passed_baseOk hc h8 hb (strhWith_of_stores hd he hst)
      · exact passed_regBaseOk hc hg hb (strhWith_of_stores hd he hst)
    rw [hend.1]
    obtain ⟨t, ht, hmem, hcfg, hbase, honly⟩ := finishStore_spec (MemOnly.putHalf s a.address (v.setWidth 16)) a rn
      fun hw => (hend.2 hw).1
    exact ⟨t, ht, (State.halfAt_congr hmem hcfg _).trans (State.halfAt_putHalf s _ _), hbase, honly⟩
  · refine (exec_armTransfer hc (fun hd => ?_) h).executed rfl hal hab ho
    have hi := hpc hd
    simp only [List.mem_cons, List.not_mem_nil, or_false] at hi ⊢
    exact .inr (.inr hi)

/-! ### The Thumb single loads and stores (O50, O51) -/

/-- An aligned word is not rotated. -/
theorem rotate_wordAlign (a w : Word) : w.rotateRight (8 * ((wordAlign a).toNat % 4)) = w := by
  rw [wordAlign_mod, Nat.mul_zero, BitVec.rotateRight_def]
  simp

theorem wordAlign_wordAlign (a : Word) : wordAlign (wordAlign a) = wordAlign a := by
  rw [wordAlign, wordAlign, BitVec.and_assoc, BitVec.and_self]

/-- The PC-relative address of Thumb state is word-aligned (R319). -/
theorem wordAlign_add_scaled4 (a : Word) (imm8 : BitVec 8) :
    wordAlign (wordAlign a + scaled4 imm8) = wordAlign a + scaled4 imm8 := by
  have h : scaled4 imm8 = BitVec.ofNat 32 (4 * imm8.toNat) := by
    apply BitVec.eq_of_toNat_eq
    rw [scaled4_eq]
    simp [BitVec.toNat_mul]
  rw [h]
  exact (wordAlign_add_words (wordAlign a) imm8.toNat).trans (by rw [wordAlign_wordAlign])

/-- Settles O50: each form ends with `thumbLoaded` of the value it read. -/
theorem thumbLoads : Obligations.ThumbLoads := by
  rintro s ro rb rd imm5 imm8 i a v w h b base rfl hx
  have hend : exec i s = thumbLoaded rd v s := by
    simp only [← scaled4_eq, ← scaled2_eq, ← wordAlign_eq, List.mem_cons, List.not_mem_nil, or_false,
      Prod.mk.injEq] at hx
    rcases hx with ⟨hr, rfl, hx⟩ | ⟨hr, hx⟩ | ⟨he, hr, hx⟩
    · have hl := State.loadWord_of_reads hr
      rcases hx with ⟨rfl, rfl⟩ | ⟨rfl, rfl⟩ | ⟨rfl, rfl⟩ | ⟨rfl, rfl⟩
      iterate 3 exact withLoad_of_value _ hl
      rw [← wordAlign_add_scaled4, rotate_wordAlign]
      exact withLoad_of_value _ (State.loadAligned_of_reads hr)
    · have hl := State.loadByte_of_reads hr
      rcases hx with ⟨rfl, rfl, rfl⟩ | ⟨rfl, rfl, rfl⟩ | ⟨rfl, rfl, rfl⟩
      iterate 3 exact withLoad_of_value _ hl
    · have hl := State.loadHalf_of_reads hr
      rcases hx with ⟨rfl, rfl, rfl⟩ | ⟨rfl, rfl, rfl⟩ | ⟨rfl, rfl, rfl⟩
      iterate 3 exact (evenAddress_of_even _ he).trans (withLoad_of_value _ hl)
  exact ⟨_, hend, s.setReg_advance_spec v (lowReg_ne_pc rd)⟩

/-- A store that writes no register. -/
theorem MemOnly.onlyStores_advance {s u : State} {p : Word} {n : Nat} (h : MemOnly s u p n) :
    s.onlyStores u.advance [] p n := (storeMultiple_base h false 0#4 0 (by decide)).1

/-- Settles O51: each form goes on after the bytes it stored, and is refused by `Accesses.executed`. -/
theorem thumbStores : Obligations.ThumbStores := by
  rintro s ro rb rd imm5 imm8 i a v base w rfl rfl
  simp only [← scaled4_eq, ← scaled2_eq, ← wordAlign_eq, List.mem_cons, List.not_mem_nil, or_false, Prod.mk.injEq]
  refine ⟨fun hs h => ?_, fun hs h => ?_, fun he hs h => ?_,
    fun h hal hab ho => (exec_thumbTransfer h).executed rfl hal hab ho⟩
  · have hend : exec i s = .next (s.putWord (wordAlign a) (s.reg (lowReg rd))).advance := by
      rcases h with ⟨rfl, rfl⟩ | ⟨rfl, rfl⟩ | ⟨rfl, rfl⟩
      iterate 3 exact withStore_of_done _ (State.store_of_stores hs)
    refine ⟨_, hend, ?_, (MemOnly.putWord s _ _).onlyStores_advance⟩
    exact (State.wordAt_congr rfl rfl _).trans (State.wordAt_putWord s _ _)
  · have hend : exec i s = .next (s.putByte a ((s.reg (lowReg rd)).setWidth 8)).advance := by
      rcases h with ⟨rfl, rfl⟩ | ⟨rfl, rfl⟩
      iterate 2 exact withStore_of_done _ (State.store_of_stores hs)
    refine ⟨_, hend, ?_, (MemOnly.putByte s _ _).onlyStores_advance⟩
    exact (State.byteAt_congr rfl _).trans (State.byteAt_putByte_same s _ _)
  · have hend : exec i s = .next (s.putHalf a ((s.reg (lowReg rd)).setWidth 16)).advance := by
      rcases h with ⟨rfl, rfl⟩ | ⟨rfl, rfl⟩
      iterate 2 exact (evenAddress_of_even _ he).trans (withStore_of_done _ (State.store_of_stores hs))
    refine ⟨_, hend, ?_, (MemOnly.putHalf s _ _).onlyStores_advance⟩
    exact (State.halfAt_congr rfl rfl _).trans (State.halfAt_putHalf s _ _)

end Sys2Proof.Machine
end

section
/-!
PROOFS. The swaps (O38), the Data Abort of a transfer of one access (O40), what is refused as UNPREDICTABLE (O17), and
LDRD and STRD (O33).
-/
namespace Sys2Proof.Machine
open Sys2Proof

/-! ### The swaps (O38) -/

section
variable {s : State} {c : Cond} {rn rd rm : Reg} (hc : condPassed c s.cpsr = true) (h15 : 15#4 ∉ [rn, rd, rm])
  (hm : rn ≠ rm) (hd : rn ≠ rd)
include hc h15 hm hd

/-- A swap whose condition passes and whose registers are allowed. -/
theorem passed_swap (k : Result) :
    whenPassed c s (noPc [rn, rd, rm] (distinct [(rn, rm), (rn, rd)] k)) = k :=
  (whenPassed_of_passed _ hc).trans ((noPc_of_not_mem _ h15).trans (distinct_of_ne k (by simp [hm, hd])))

/-- SWP reads, then writes, then goes on with the word it read (R220). -/
theorem exec_swp : exec (.swp c rn rd rm) s =
    withLoad (s.loadWord s.privileged (s.reg rn) true) s fun v =>
      withStore (s.storeWord s.privileged (s.reg rn) (s.reg rm) true) s fun t => .next (t.setReg rd v).advance :=
  passed_swap hc h15 hm hd _

/-- SWPB does so with a byte (R221). -/
theorem exec_swpb : exec (.swpb c rn rd rm) s =
    withLoad (s.loadByte s.privileged (s.reg rn) true) s fun v =>
      withStore (s.storeByte s.privileged (s.reg rn) ((s.reg rm).setWidth 8) true) s fun t =>
        .next (t.setReg rd (v.setWidth 32)).advance :=
  passed_swap hc h15 hm hd _

end

/-- Settles O38: the locked read and the locked store are made, and `storeMultiple_base` says what the end writes. -/
theorem swaps : Obligations.Swaps := by
  rintro s c rn rd rm a hc h15 hm hd rfl
  have hpc : rd ≠ 15#4 := fun h => h15 (by simp [h])
  refine ⟨fun w hr hs => ?_, fun b hr hs => ?_⟩
  · rw [← wordAlign_eq]
    obtain ⟨honly, hmem, hcfg, hreg⟩ := storeMultiple_base (MemOnly.putWord s (wordAlign (s.reg rn)) (s.reg rm)) true rd
      (w.rotateRight (8 * ((s.reg rn).toNat % 4))) hpc
    refine ⟨_, ?_, hreg rfl, (State.wordAt_congr hmem hcfg _).trans (State.wordAt_putWord s _ _), honly⟩
    rw [exec_swp hc h15 hm hd, withLoad_of_value _ (State.loadWord_of_reads hr)]
    exact withStore_of_done _ (State.store_of_stores hs)
  · obtain ⟨honly, hmem, -, hreg⟩ := storeMultiple_base
      (MemOnly.putByte s (s.reg rn) ((s.reg rm).setWidth 8)) true rd (b.setWidth 32) hpc
    refine ⟨_, ?_, hreg rfl, (State.byteAt_congr hmem _).trans (State.byteAt_putByte_same s _ _), honly⟩
    rw [exec_swpb hc h15 hm hd, withLoad_of_value _ (State.loadByte_of_reads hr)]
    exact withStore_of_done _ (State.store_of_stores hs)

/-! ### Data Aborts (O40) -/

/-- A swap takes the Data Abort where its read is aborted, and where its write is. -/
theorem exec_swap_of_aborts {s : State} {c : Cond} {rn rd rm : Reg} {i : Instr} {w : Width}
    (hc : condPassed c s.cpsr = true) (h15 : 15#4 ∉ [rn, rd, rm]) (hm : rn ≠ rm) (hd : rn ≠ rd)
    (hi : (i, w) ∈ [(.swp c rn rd rm, .word), (.swpb c rn rd rm, .byte)])
    (h : s.aborts .read w (accessPlace w (s.reg rn)) s.privileged true = true ∨
      ((∃ v, s.readsWord s.privileged (s.reg rn) v true ∧ w = .word) ∨
        (∃ v, s.readsByte s.privileged (s.reg rn) v true ∧ w = .byte)) ∧
      s.aborts .write w (accessPlace w (s.reg rn)) s.privileged true = true) :
    exec i s = .next (takeDataAbort s) := by
  simp only [List.mem_cons, List.not_mem_nil, or_false, Prod.mk.injEq] at hi
  rcases hi with ⟨rfl, rfl⟩ | ⟨rfl, rfl⟩
  · rw [exec_swp hc h15 hm hd]
    rcases h with ha | ⟨⟨v, hr, -⟩ | ⟨v, -, hw⟩, ha⟩
    · exact withLoad_of_abort _ (State.loadWord_of_aborts ha)
    · rw [withLoad_of_value _ (State.loadWord_of_reads hr)]
      exact withStore_of_abort _ (State.store_of_aborts ha)
    · cases hw
  · rw [exec_swpb hc h15 hm hd]
    rcases h with ha | ⟨⟨v, -, hw⟩ | ⟨v, hr, -⟩, ha⟩
    · exact withLoad_of_abort _ (State.loadByte_of_aborts ha)
    · cases hw
    · rw [withLoad_of_value _ (State.loadByte_of_reads hr)]
      exact withStore_of_abort _ (State.store_of_aborts ha)

/-- Settles O40: each form is `takeDataAbort` of the state before, by `Accesses.aborted` or as a swap. -/
theorem dataAbortKeepsState : Obligations.DataAbortKeepsState := by
  refine ⟨fun s c idx u rn rd rm off12 off8 n sh i k w priv a hc hpc h hal ha => ?_,
    fun s ro rb rd imm5 imm8 i k w a h hal ha => ?_, fun s c rn rd rm i w hc h15 hm hd hi h => ?_⟩
  · exact ⟨_, (exec_armTransfer hc hpc h).aborted hal ha, takeException_tookException _ _ s⟩
  · exact ⟨_, (exec_thumbTransfer h).aborted hal ha, takeException_tookException _ _ s⟩
  · exact ⟨_, exec_swap_of_aborts hc h15 hm hd hi h, takeException_tookException _ _ s⟩

/-! ### What is refused (O17) -/

section
variable {s : State} {c : Cond} (hc : condPassed c s.cpsr = true)
include hc

/-- Register 15 where the form does not allow it. -/
theorem passed_noPc_mem {regs : List Reg} (k : Result) (h : 15#4 ∈ regs) :
    whenPassed c s (noPc regs k) = .refused .r15Operand :=
  (whenPassed_of_passed _ hc).trans (noPc_of_mem k h)

/-- Registers that may not be equal. -/
theorem passed_distinct_eq {regs : List Reg} {pairs : List (Reg × Reg)} (k : Result) (h15 : 15#4 ∉ regs)
    (h : ∃ e ∈ pairs, e.1 = e.2) :
    whenPassed c s (noPc regs (distinct pairs k)) = .refused .overlappingRegisters :=
  (whenPassed_of_passed _ hc).trans ((noPc_of_not_mem _ h15).trans (distinct_of_eq k h))

/-- A register-specified shift names no r15 (R107, U6). -/
theorem regShift_refuses_pc {sb : Bool} {rn rd rs rm : Reg} {sh : Shift} {i : Instr} (h : 15#4 ∈ [rd, rs, rm])
    (hi : i ∈ logicalRegShift c sb rn rd rs sh rm ++ arithRegShift c sb rn rd rs sh rm) :
    exec i s = .refused .r15Operand := by
  have h3 : 15#4 ∈ [rd, rn, rs, rm] := by
    simp only [List.mem_cons] at h ⊢
    tauto
  simp only [logicalRegShift, arithRegShift, List.cons_append, List.nil_append, List.mem_cons, List.not_mem_nil,
    or_false] at hi
  rcases hi with rfl | rfl | rfl | rfl | rfl | rfl | rfl | rfl | rfl | rfl | rfl | rfl
  iterate 4 exact passed_noPc_mem hc _ h3
  iterate 2 exact passed_noPc_mem hc _ h
  iterate 6 exact passed_noPc_mem hc _ h3

/-- The same of the first operand, in the instructions that have one. -/
theorem regShift_refuses_pc_first {sb : Bool} {rd rs rm : Reg} {sh : Shift} {i : Instr}
    (hi : i ∈ (logicalRegShift c sb 15#4 rd rs sh rm).take 4 ++ arithRegShift c sb 15#4 rd rs sh rm) :
    exec i s = .refused .r15Operand := by
  simp only [logicalRegShift, arithRegShift, List.take_succ_cons, List.take_zero, List.cons_append, List.nil_append,
    List.mem_cons, List.not_mem_nil, or_false] at hi
  rcases hi with rfl | rfl | rfl | rfl | rfl | rfl | rfl | rfl | rfl | rfl
  iterate 10 exact passed_noPc_mem hc _ (by simp)

/-- The tests and compares. -/
theorem regShiftTest_refuses_pc {rn rs rm : Reg} {sh : Shift} {i : Instr} (h : 15#4 ∈ [rn, rs, rm])
    (hi : i ∈ [.tstRegShift c rn rs sh rm, .teqRegShift c rn rs sh rm, .cmpRegShift c rn rs sh rm,
      .cmnRegShift c rn rs sh rm]) : exec i s = .refused .r15Operand := by
  simp only [List.mem_cons, List.not_mem_nil, or_false] at hi
  rcases hi with rfl | rfl | rfl | rfl
  iterate 4 exact passed_noPc_mem hc _ h

/-- The multiplies, the saturating instructions, CLZ and the swaps name no r15. -/
theorem multiply_refuses_pc {sb x y : Bool} {rn rd rs rm : Reg} {i : Instr} {regs : List Reg} (h : 15#4 ∈ regs)
    (hi : (i, regs) ∈ [(.mul c sb rd rs rm, [rd, rs, rm]), (.mla c sb rd rn rs rm, [rd, rn, rs, rm]),
        (.umull c sb rd rn rs rm, [rd, rn, rs, rm]), (.umlal c sb rd rn rs rm, [rd, rn, rs, rm]),
        (.smull c sb rd rn rs rm, [rd, rn, rs, rm]), (.smlal c sb rd rn rs rm, [rd, rn, rs, rm]),
        (.smulXY c rd rs y x rm, [rd, rs, rm]), (.smlaXY c rd rn rs y x rm, [rd, rn, rs, rm]),
        (.smulWY c rd rs y rm, [rd, rs, rm]), (.smlaWY c rd rn rs y rm, [rd, rn, rs, rm]),
        (.smlalXY c rd rn rs y x rm, [rd, rn, rs, rm]), (.qadd c rn rd rm, [rn, rd, rm]), (.qsub c rn rd rm, [rn, rd, rm]),
        (.qdadd c rn rd rm, [rn, rd, rm]), (.qdsub c rn rd rm, [rn, rd, rm]), (.clz c rd rm, [rd, rm]),
        (.swp c rn rd rm, [rn, rd, rm]), (.swpb c rn rd rm, [rn, rd, rm])]) :
    exec i s = .refused .r15Operand := by
  simp only [List.mem_cons, List.not_mem_nil, or_false, Prod.mk.injEq] at hi
  rcases hi with ⟨rfl, rfl⟩ | ⟨rfl, rfl⟩ | ⟨rfl, rfl⟩ | ⟨rfl, rfl⟩ | ⟨rfl, rfl⟩ | ⟨rfl, rfl⟩ | ⟨rfl, rfl⟩ | ⟨rfl, rfl⟩ |
    ⟨rfl, rfl⟩ | ⟨rfl, rfl⟩ | ⟨rfl, rfl⟩ | ⟨rfl, rfl⟩ | ⟨rfl, rfl⟩ | ⟨rfl, rfl⟩ | ⟨rfl, rfl⟩ | ⟨rfl, rfl⟩ | ⟨rfl, rfl⟩ |
    ⟨rfl, rfl⟩
  iterate 18 exact passed_noPc_mem hc _ h

/-- The multiplies and the swaps refuse the registers that may not be equal. -/
theorem multiply_refuses_equal {sb x y : Bool} {rn rd rs rm : Reg} {i : Instr} (h15 : 15#4 ∉ [rd, rn, rs, rm])
    (hi : rd = rm ∧ i ∈ [.mul c sb rd rs rm, .mla c sb rd rn rs rm] ∨
        (rd = rn ∨ rd = rm ∨ rn = rm) ∧ i ∈ [.umull c sb rd rn rs rm, .umlal c sb rd rn rs rm, .smull c sb rd rn rs rm,
          .smlal c sb rd rn rs rm] ∨
        rd = rn ∧ i = .smlalXY c rd rn rs y x rm ∨
        (rn = rm ∨ rn = rd) ∧ i ∈ [.swp c rn rd rm, .swpb c rn rd rm]) :
    exec i s = .refused .overlappingRegisters := by
  have hsub : ∀ regs : List Reg, (∀ r ∈ regs, r ∈ [rd, rn, rs, rm]) → 15#4 ∉ regs := fun _ hr hm => h15 (hr _ hm)
  simp only [List.mem_cons, List.not_mem_nil, or_false] at hi
  rcases hi with ⟨he, rfl | rfl⟩ | ⟨he, rfl | rfl | rfl | rfl⟩ | ⟨he, rfl⟩ | ⟨he, rfl | rfl⟩
  · exact passed_distinct_eq hc _ (hsub _ (by simp)) ⟨(rd, rm), by simp, he⟩
  · exact passed_distinct_eq hc _ h15 ⟨(rd, rm), by simp, he⟩
  iterate 4 exact passed_distinct_eq hc _ h15 (by simpa using he)
  · exact passed_distinct_eq hc _ h15 ⟨(rd, rn), by simp, he⟩
  iterate 2 exact passed_distinct_eq hc _ (hsub _ (by simp)) (by simpa using he)

end

/-! The base and the offset register of LDRD and STRD (R210, R218, U9). -/

section
variable {wb : Bool} {rn rd rm : Reg} (k : Result)

theorem pairBaseAllowed_of_ne (h : wb = true → 15#4 ≠ rn ∧ rn ≠ rd ∧ rn ≠ rd + 1) : pairBaseAllowed wb rn rd k = k := by
  unfold pairBaseAllowed
  split
  · obtain ⟨h15, hd, hd1⟩ := h ‹_›
    exact (noPc_of_not_mem _ (by simpa using h15)).trans (distinct_of_ne _ (by simpa using ⟨hd, hd1⟩))
  · rfl

theorem pairBaseAllowed_of_pc : pairBaseAllowed true 15#4 rd k = .refused .r15Operand :=
  (if_pos rfl).trans (noPc_of_mem _ (by simp))

theorem pairBaseAllowed_of_eq (hn : rn ≠ 15#4) (h : rn = rd ∨ rn = rd + 1) :
    pairBaseAllowed true rn rd k = .refused .overlappingRegisters :=
  (if_pos rfl).trans ((noPc_single _ hn).trans (distinct_of_eq _ (by simpa using h)))

theorem pairRegBaseAllowed_of_pc : pairRegBaseAllowed wb rn rd 15#4 k = .refused .r15Operand :=
  noPc_of_mem _ (by simp)

theorem pairRegBaseAllowed_of_eq (hm : rm ≠ 15#4) (h : rm = rd ∨ rm = rd + 1) :
    pairRegBaseAllowed wb rn rd rm k = .refused .overlappingRegisters :=
  (noPc_single _ hm).trans (distinct_of_eq _ (by simpa using h))

/-- An allowed offset register leaves the check of the base. -/
theorem pairRegBaseAllowed_of_offset (hm : 15#4 ≠ rm ∧ rm ≠ rd ∧ rm ≠ rd + 1) :
    pairRegBaseAllowed wb rn rd rm k = pairBaseAllowed wb rn rd (if wb then distinct [(rm, rn)] k else k) := by
  obtain ⟨h15, hd, hd1⟩ := hm
  exact (noPc_single _ h15.symm).trans (distinct_of_ne _ (by simpa using ⟨hd, hd1⟩))

theorem pairRegBaseAllowed_of_ne (hm : 15#4 ≠ rm ∧ rm ≠ rd ∧ rm ≠ rd + 1)
    (h : wb = true → 15#4 ≠ rn ∧ rn ≠ rd ∧ rn ≠ rd + 1 ∧ rm ≠ rn) : pairRegBaseAllowed wb rn rd rm k = k := by
  rw [pairRegBaseAllowed_of_offset k hm, pairBaseAllowed_of_ne]
  · split
    · obtain ⟨-, -, -, hmn⟩ := h ‹_›
      exact distinct_of_ne _ (by simp [hmn])
    · rfl
  · intro hw
    obtain ⟨h15, hd, hd1, -⟩ := h hw
    exact ⟨h15, hd, hd1⟩

theorem pairRegBaseAllowed_of_base_pc (hm : 15#4 ≠ rm ∧ rm ≠ rd ∧ rm ≠ rd + 1) :
    pairRegBaseAllowed true 15#4 rd rm k = .refused .r15Operand := by
  rw [pairRegBaseAllowed_of_offset k hm, pairBaseAllowed_of_pc]

theorem pairRegBaseAllowed_of_base_eq (hm : 15#4 ≠ rm ∧ rm ≠ rd ∧ rm ≠ rd + 1) (hn : rn ≠ 15#4)
    (h : rn = rd ∨ rn = rd + 1 ∨ rn = rm) : pairRegBaseAllowed true rn rd rm k = .refused .overlappingRegisters := by
  rw [pairRegBaseAllowed_of_offset k hm]
  by_cases hp : rn = rd ∨ rn = rd + 1
  · exact pairBaseAllowed_of_eq _ hn hp
  · obtain ⟨hd, hd1⟩ := not_or.mp hp
    rw [pairBaseAllowed_of_ne _ fun _ => ⟨hn.symm, hd, hd1⟩, if_pos rfl]
    exact distinct_of_eq _ (by simp [show rm = rn by tauto])

end

section
variable {s : State} {c : Cond} {rn rd rm : Reg} {i : Instr} (hc : condPassed c s.cpsr = true)
include hc

/-- LDRD and STRD with an immediate offset refuse a base written back that is r15 or one of the pair. -/
theorem pairImm_refuses {idx : Index} {u : Bool} {off8 : BitVec 8}
    (hi : i ∈ [.ldrdImm c idx u rn rd off8, .strdImm c idx u rn rd off8]) (hw : writesBack idx = true) :
    (rn = 15#4 → exec i s = .refused .r15Operand) ∧
    (rn ≠ 15#4 → rn ∈ [rd, rd + 1] → exec i s = .refused .overlappingRegisters) := by
  have hx : ∃ k, exec i s = pairBaseAllowed true rn rd k := by
    rw [← hw]
    simp only [List.mem_cons, List.not_mem_nil, or_false] at hi
    rcases hi with rfl | rfl
    iterate 2 exact ⟨_, whenPassed_of_passed _ hc⟩
  obtain ⟨k, hx⟩ := hx
  rw [hx]
  refine ⟨?_, fun hn h => pairBaseAllowed_of_eq k hn (by simpa using h)⟩
  rintro rfl
  exact pairBaseAllowed_of_pc k

/-- With a register offset they refuse an offset register and a base in the same way. -/
theorem pairReg_refuses {idx : Index} {u : Bool}
    (hi : i ∈ [.ldrdReg c idx u rn rd rm, .strdReg c idx u rn rd rm]) :
    (rm = 15#4 → exec i s = .refused .r15Operand) ∧
    (rm ≠ 15#4 → rm ∈ [rd, rd + 1] → exec i s = .refused .overlappingRegisters) ∧
    (rm ∉ [15#4, rd, rd + 1] → writesBack idx = true →
      (rn = 15#4 → exec i s = .refused .r15Operand) ∧
      (rn ≠ 15#4 → rn ∈ [rd, rd + 1, rm] → exec i s = .refused .overlappingRegisters)) := by
  have hx : ∃ k, exec i s = pairRegBaseAllowed (writesBack idx) rn rd rm k := by
    simp only [List.mem_cons, List.not_mem_nil, or_false] at hi
    rcases hi with rfl | rfl
    iterate 2 exact ⟨_, whenPassed_of_passed _ hc⟩
  obtain ⟨k, hx⟩ := hx
  rw [hx]
  refine ⟨?_, fun hm h => pairRegBaseAllowed_of_eq k hm (by simpa using h), fun hm hw => ?_⟩
  · rintro rfl
    exact pairRegBaseAllowed_of_pc k
  · simp only [List.mem_cons, List.not_mem_nil, or_false, not_or] at hm
    rw [hw]
    refine ⟨?_, fun hn h => pairRegBaseAllowed_of_base_eq k ⟨Ne.symm hm.1, hm.2⟩ hn (by simpa using h)⟩
    rintro rfl
    exact pairRegBaseAllowed_of_base_pc k ⟨Ne.symm hm.1, hm.2⟩

end

/-- The list of an LDM (3) holds each of its low fifteen registers. -/
theorem getLsbD_withPc {list : BitVec 15} {k : Nat} (h : list.getLsbD k = true) : (withPc list).getLsbD k = true := by
  have hk : k < 15 := BitVec.lt_of_getLsbD h
  rw [withPc, BitVec.getLsbD_append]
  simp [hk, h]

section
variable {s : State} {c : Cond} {p u wb : Bool} {rn : Reg} {list : BitVec 16} {list15 : BitVec 15} {i : Instr}
  (hc : condPassed c s.cpsr = true)
include hc

theorem multiple_refuses_pc
    (hi : i ∈ [.ldm c p u wb 15#4 list, .ldmUser c p u 15#4 list15, .ldmRestore c p u wb 15#4 list15,
      .stm c p u wb 15#4 list, .stmUser c p u 15#4 list]) : exec i s = .refused .r15Operand := by
  simp only [List.mem_cons, List.not_mem_nil, or_false] at hi
  rcases hi with rfl | rfl | rfl | rfl | rfl
  iterate 5 exact (whenPassed_of_passed _ hc).trans (multipleAllowed_of_pc _ _)

theorem multiple_refuses_empty (hn : rn ≠ 15#4)
    (hi : i ∈ [.ldm c p u wb rn 0#16, .ldmUser c p u rn 0#15, .stm c p u wb rn 0#16, .stmUser c p u rn 0#16]) :
    exec i s = .refused .emptyRegisterList := by
  simp only [List.mem_cons, List.not_mem_nil, or_false] at hi
  rcases hi with rfl | rfl | rfl | rfl
  iterate 4 exact (whenPassed_of_passed _ hc).trans (multipleAllowed_of_nil _ hn)

theorem loadMultiple_refuses_listed (hn : rn ≠ 15#4)
    (hi : list.getLsbD rn.toNat = true ∧ i = .ldm c p u true rn list ∨
      list15.getLsbD rn.toNat = true ∧ i = .ldmRestore c p u true rn list15) : exec i s = .refused .baseInList := by
  have hx : ∀ {l : BitVec 16} (k : Result), l.getLsbD rn.toNat = true →
      whenPassed c s (multipleAllowed rn (listed l) (baseNotListed true rn (listed l) k)) = .refused .baseInList := by
    intro l k h
    have hm := (mem_listed l rn).mpr h
    rw [whenPassed_of_passed _ hc, multipleAllowed_of_ne _ hn (List.ne_nil_of_mem hm), baseNotListed_of_mem _ hm]
  rcases hi with ⟨h, rfl⟩ | ⟨h, rfl⟩
  · exact hx _ h
  · exact hx _ (getLsbD_withPc h)

end

/-- Settles O17: one lemma above for each group of instructions. -/
theorem unpredictableRefused : Obligations.UnpredictableRefused := by
  refine fun s c sb rn rd rs rm sh i hc => ⟨fun h => regShift_refuses_pc hc ?_, ?_,
    fun h => regShiftTest_refuses_pc hc ?_, fun r mask => passed_noPc_mem hc _ (by simp),
    fun x y regs h => multiply_refuses_pc hc h, fun x y h15 => multiply_refuses_equal hc h15,
    fun idx u off12 off8 k w priv a h => ?_, fun idx u n k w priv a h => ?_,
    fun ro rb rt imm5 imm8 k a h => (exec_thumbTransfer h).odd rfl,
    fun idx u off8 => ⟨fun hi hw => pairImm_refuses hc hi hw, fun hi => pairReg_refuses hc hi⟩,
    fun p u wb list list15 => ⟨?_, fun hn => multiple_refuses_empty hc hn, ?_⟩⟩
  · rcases h with rfl | rfl | rfl <;> simp
  · rintro rfl
    exact regShift_refuses_pc_first hc
  · rcases h with rfl | rfl | rfl <;> simp
  · obtain ⟨r, hx, hr⟩ := exec_immTransfer hc h
    rw [hx]
    refine ⟨?_, ?_, fun hb => ?_⟩
    · rintro hw rfl
      rw [hw, baseAllowed_of_pc]
    · rintro hw hn rfl
      rw [hw, baseAllowed_of_eq _ hn]
    · rw [baseAllowed_of_ne _ hb]
      exact ⟨hr.pc, fun hd => (hr.access fun h15 => absurd h15 hd).odd⟩
  · obtain ⟨r, hx, hr⟩ := exec_regTransfer hc h
    rw [hx]
    refine ⟨fun h15 => regBaseAllowed_of_pc _ h15, fun hw hm hn he => ?_, fun hb => ?_⟩
    · rw [hw, regBaseAllowed_of_eq _ hm hn he]
    · rw [regBaseAllowed_of_ne _ hb.1 hb.2]
      exact ⟨hr.pc, fun hd => (hr.access fun h15 => absurd h15 hd).odd⟩
  · rintro rfl
    exact multiple_refuses_pc hc
  · rintro hn rfl
    exact loadMultiple_refuses_listed hc hn

/-! ### LDRD and STRD (O33) -/

theorem reg_bit_zero : ∀ r : Reg, r.getLsbD 0 = true ↔ r.toNat % 2 = 1 := by decide

/-- The two registers of an allowed pair. -/
theorem pair_registers : ∀ r : Reg, r.toNat % 2 = 0 → r ≠ 14#4 → r ≠ 15#4 ∧ r + 1 ≠ 15#4 ∧ r ≠ r + 1 := by decide

theorem evenPair_of_bad {rd : Reg} (k : Result) (h : rd.toNat % 2 = 1 ∨ rd = 14#4) :
    evenPair rd k = .refused .badRegisterPair := by
  rw [← reg_bit_zero] at h
  exact if_pos (by simpa using h)

theorem evenPair_of_even {rd : Reg} (k : Result) (he : rd.toNat % 2 = 0) (h14 : rd ≠ 14#4) : evenPair rd k = k := by
  have hb : ¬rd.getLsbD 0 = true := by
    rw [reg_bit_zero]
    omega
  exact if_neg (by simpa [h14] using hb)

theorem doubleAligned_of_ne {a : Word} (k : Result) (h : a.toNat % 8 ≠ 0) :
    doubleAligned a k = .refused .misalignedDoubleword := if_neg (by rwa [extract_three_zero])

theorem doubleAligned_of_aligned {a : Word} (k : Result) (h : a.toNat % 8 = 0) : doubleAligned a k = k :=
  if_pos ((extract_three_zero a).mpr h)

theorem wordAlign_of_mod_eight {a : Word} (h : a.toNat % 8 = 0) : wordAlign a = a := by
  apply BitVec.eq_of_toNat_eq
  rw [wordAlign_eq, BitVec.toNat_sub, BitVec.toNat_umod, show (4 : Word).toNat = 4 from rfl]
  have := a.isLt
  omega

theorem wordPlace_one (a : Word) : wordPlace a 1 = a + 4 := rfl

/-- The base written back after other registers. -/
theorem RegOnly.thenBase {s u : State} {rs : List Reg} (h : RegOnly s u rs) (a : Address) (rn : Reg) :
    RegOnly s (u.writeBase a rn) (withBase a rn rs) := by
  unfold State.writeBase withBase
  split
  · exact (h.mono fun r hr => List.mem_cons_of_mem _ hr).set _ List.mem_cons_self
  · exact h

/-- A register other than the base, after the base is written back. -/
theorem State.writeBase_reg_ne (s : State) {a : Address} {rn r : Reg} (h : a.writeBack = true → r ≠ rn) :
    (s.writeBase a rn).reg r = s.reg r := by
  unfold State.writeBase
  split
  · exact State.reg_setReg_ne s _ (h ‹_›)
  · rfl

/-- Going on changes no register but the PC. -/
theorem State.reg_advance (s : State) {r : Reg} (h : r ≠ 15#4) : s.advance.reg r = s.reg r :=
  State.reg_congr_mode (s := s) (t := s.advance) rfl rfl h

section
variable {s : State} {a : Address} {rn rd : Reg} (he : rd.toNat % 2 = 0) (h14 : rd ≠ 14#4)
  (h8 : a.address.toNat % 8 = 0) (hw : a.writeBack = true → 15#4 ≠ rn ∧ rn ≠ rd ∧ rn ≠ rd + 1)
include he h14 h8 hw

/-- LDRD: the two words go to the pair (R210). -/
theorem ldrdWith_spec {w0 w1 : Word} (h0 : s.readsWord s.privileged a.address w0)
    (h1 : s.readsWord s.privileged (a.address + 4) w1) :
    ∃ t, ldrdWith a rn rd s = .next t ∧ t.reg rd = w0 ∧ t.reg (rd + 1) = w1 ∧
      (a.writeBack = true → t.reg rn = a.target) ∧ s.onlyWrites t (withBase a rn [rd, rd + 1]) [] := by
  obtain ⟨hd, hd1, hne⟩ := pair_registers rd he h14
  have hload : s.loadWords s.privileged [rd, rd + 1].length a.address = .all [w0, w1] :=
    State.loadWords_of_reads (n := 2) (words := fun k => if k = 0 then w0 else w1) fun k hk => by
      interval_cases k
      · rwa [wordPlace_zero]
      · rwa [wordPlace_one]
  refine ⟨(((s.setReg rd w0).setReg (rd + 1) w1).writeBase a rn).advance, ?_, ?_, ?_, fun hwb => ?_, ?_⟩
  · rw [ldrdWith, evenPair_of_even _ he h14, doubleAligned_of_aligned _ h8, loadRegs, hload]
    rfl
  · rw [State.reg_advance _ hd, State.writeBase_reg_ne _ fun h => (hw h).2.1.symm, State.reg_setReg_ne _ _ hne,
      State.reg_setReg_same _ _ _ hd]
  · rw [State.reg_advance _ hd1, State.writeBase_reg_ne _ fun h => (hw h).2.2.symm, State.reg_setReg_same _ _ _ hd1]
  · obtain ⟨hn, -, -⟩ := hw hwb
    rw [State.reg_advance _ hn.symm, State.writeBase_reg _ hn.symm hwb]
  · exact ((((RegOnly.refl s [rd, rd + 1]).set w0 (by simp)).set w1 (by simp)).thenBase a rn).advance

/-- STRD: the pair goes to the two words (R218). -/
theorem strdWith_spec (h0 : s.storesWord s.privileged a.address) (h1 : s.storesWord s.privileged (a.address + 4)) :
    ∃ t, strdWith a rn rd s = .next t ∧ t.wordAt a.address = some (s.reg rd) ∧
      t.wordAt (a.address + 4) = some (s.reg (rd + 1)) ∧ (a.writeBack = true → t.reg rn = a.target) ∧
      s.onlyStores t (withBase a rn []) a.address 8 := by
  obtain ⟨v, hv, hmem, hwords⟩ := State.storeWords_of_stores (s := s) (priv := s.privileged) (a := a.address)
    [s.reg rd, s.reg (rd + 1)] (by simp) fun k hk => by
      simp only [List.length_cons, List.length_nil] at hk
      interval_cases k
      · rwa [wordPlace_zero]
      · rwa [wordPlace_one]
  obtain ⟨t, ht, htm, htc, hbase, honly⟩ := finishStore_spec hmem a rn fun h => (hw h).1.symm
  have hw0 := hwords 0 (by simp)
  have hw1 := hwords 1 (by simp)
  rw [wordPlace_zero, wordAlign_of_mod_eight h8] at hw0
  rw [wordPlace_one, wordAlign_add_four, wordAlign_of_mod_eight h8] at hw1
  rw [wordAlign_of_mod_eight h8] at honly
  refine ⟨t, ?_, (State.wordAt_congr htm htc _).trans hw0, (State.wordAt_congr htm htc _).trans hw1, hbase, honly⟩
  rw [strdWith, evenPair_of_even _ he h14, doubleAligned_of_aligned _ h8, storeList, hv]
  exact ht

end

/-- Settles O33: both are refused by the checks of `evenPair` and `doubleAligned`, or end as `ldrdWith_spec` and
`strdWith_spec` say. -/
theorem doublewordTransfers : Obligations.DoublewordTransfers := by
  intro s c idx u rn rd rm off8 i j a hc h
  have hend : exec i s = ldrdWith a rn rd s ∧ exec j s = strdWith a rn rd s ∧
      (a.writeBack = true → 15#4 ≠ rn ∧ rn ≠ rd ∧ rn ≠ rd + 1) := by
    rcases h with ⟨rfl, rfl, rfl, hn⟩ | ⟨rfl, rfl, rfl, hm, hmd, hmd1, hn⟩
    · refine ⟨(whenPassed_of_passed _ hc).trans (pairBaseAllowed_of_ne _ hn),
        (whenPassed_of_passed _ hc).trans (pairBaseAllowed_of_ne _ hn), fun h => hn ?_⟩
      rwa [State.immAddress_writeBack] at h
    · refine ⟨(whenPassed_of_passed _ hc).trans (pairRegBaseAllowed_of_ne _ ⟨hm, hmd, hmd1⟩ hn),
        (whenPassed_of_passed _ hc).trans (pairRegBaseAllowed_of_ne _ ⟨hm, hmd, hmd1⟩ hn), fun h => ?_⟩
      rw [State.regAddress_writeBack] at h
      obtain ⟨h15, hd, hd1, -⟩ := hn h
      exact ⟨h15, hd, hd1⟩
  obtain ⟨hi, hj, hw⟩ := hend
  rw [hi, hj]
  refine ⟨fun hbad => ⟨evenPair_of_bad _ hbad, evenPair_of_bad _ hbad⟩, fun he h14 h8 => ?_, fun he h14 h8 => ?_⟩
  · exact ⟨(evenPair_of_even _ he h14).trans (doubleAligned_of_ne _ h8),
      (evenPair_of_even _ he h14).trans (doubleAligned_of_ne _ h8)⟩
  · exact ⟨fun w0 w1 => ldrdWith_spec he h14 h8 hw, strdWith_spec he h14 h8 hw⟩

end Sys2Proof.Machine
end

section
/-!
PROOFS. LDM (1) (O34), STM (1) and STM (2) (O37).
-/
namespace Sys2Proof.Machine
open Sys2Proof

/-! ### LDM (1) (O34) -/

/-- The registers of a list rise (R121). -/
theorem listed_rising (list : BitVec 16) : (listed list).Pairwise fun q r => q.toNat < r.toNat :=
  List.Pairwise.filter _ (by decide)

/-- The load half of a multiple transfer whose words are all read. -/
theorem loadRegs_of_reads {s : State} {regs : List Reg} {start : Word} {words : Nat → Word} (base : Reg)
    (k : List Word → State → Result)
    (h : ∀ j < regs.length, s.readsWord s.privileged (wordPlace start j) (words j)) :
    loadRegs s regs start base k =
      k ((List.range regs.length).map words) (s.setRegs regs ((List.range regs.length).map words)) := by
  rw [loadRegs, State.loadWords_of_reads h]

/-- A register of a list gets its word; for r15 this is not a register. -/
theorem State.reg_setRegs (s : State) {regs : List Reg} (hn : regs.Nodup) (words : Nat → Word) {k : Nat} {r : Reg}
    (hr : regs[k]? = some r) (h15 : r ≠ 15#4) :
    (s.setRegs regs ((List.range regs.length).map words)).reg r = words k := by
  have hk : k < regs.length := (List.getElem?_eq_some_iff.mp hr).1
  obtain ⟨x, hx⟩ := bank_some s.mode r h15
  refine State.reg_of_get (p := x) (by rw [State.setRegs_mode]; exact hx) ?_
  exact State.get_setRegs s regs _ hn k r (words k) x hr (by simp [hk]) hx

/-- The state after the words and the base of an LDM (1) are written. -/
def State.loadedMultiple (s : State) (regs : List Reg) (words : Nat → Word) (wb : Bool) (rn : Reg) (base : Word) :
    State :=
  let t := s.setRegs regs ((List.range regs.length).map words)
  if wb then t.setReg rn base else t

section
variable {s : State} {regs : List Reg} {wb : Bool} {rn : Reg} (words : Nat → Word) (base : Word)

theorem RegOnly.loadedMultiple :
    RegOnly s (s.loadedMultiple regs words wb rn base) (if wb then rn :: regs else regs) := by
  cases wb
  · exact (RegOnly.refl s regs).setRegs regs _ fun _ hr => hr
  · exact ((RegOnly.refl s (rn :: regs)).setRegs regs _ fun _ hr => List.mem_cons_of_mem _ hr).set base
      List.mem_cons_self

theorem State.reg_loadedMultiple (hn : regs.Nodup) (hb : wb = true → rn ∉ regs) {k : Nat} {r : Reg}
    (hr : regs[k]? = some r) (h15 : r ≠ 15#4) : (s.loadedMultiple regs words wb rn base).reg r = words k := by
  unfold State.loadedMultiple
  dsimp only
  split
  · have hne : r ≠ rn := fun he => hb ‹_› (he ▸ List.mem_of_getElem? hr)
    rw [State.reg_setReg_ne _ _ hne, State.reg_setRegs s hn words hr h15]
  · exact State.reg_setRegs s hn words hr h15

theorem State.base_loadedMultiple (hw : wb = true) (h15 : rn ≠ 15#4) :
    (s.loadedMultiple regs words wb rn base).reg rn = base := by
  rw [State.loadedMultiple, if_pos hw, State.reg_setReg_same _ _ _ h15]

end

/-- An LDM (1) that reads its words writes its registers, and branches to the last word where r15 is listed (R207). -/
theorem exec_ldm {s : State} {c : Cond} {p u wb : Bool} {rn : Reg} {list : BitVec 16} {words : Nat → Word} {n : Nat}
    (hc : condPassed c s.cpsr = true) (h15 : rn ≠ 15#4) (hl : list ≠ 0#16) (hb : wb = true → rn ∉ listed list)
    (hn : n = (listed list).length)
    (h : ∀ k < n, s.readsWord s.privileged (wordPlace (multipleStart p u (s.reg rn) n) k) (words k)) :
    exec (.ldm c p u wb rn list) s =
      if list.getLsbD 15 then branchExchange (words (n - 1))
        (s.loadedMultiple (listed list) words wb rn (multipleBase u (s.reg rn) n))
      else .next (s.loadedMultiple (listed list) words wb rn (multipleBase u (s.reg rn) n)).advance := by
  subst hn
  have hne := listed_ne_nil list hl
  refine (whenPassed_of_passed _ hc).trans ((multipleAllowed_of_ne _ h15 hne).trans
    ((baseNotListed_of_not_mem _ hb).trans ((loadRegs_of_reads rn _ h).trans ?_)))
  rw [getLastD_range_map _ _ fun h0 => hne (List.length_eq_zero_iff.mp h0)]
  rfl

theorem not_mem_listed {list : BitVec 16} {r : Reg} (h : list.getLsbD r.toNat = false) : r ∉ listed list := by
  rw [mem_listed, h]
  exact Bool.false_ne_true

/-- Settles O34: `exec_ldm`, which goes on or ends as `branchExchange_jumps` says. -/
theorem loadMultiple : Obligations.LoadMultiple := by
  refine ⟨fun list => ⟨mem_listed list, listed_rising list⟩, fun b n => ⟨rfl, rfl, rfl, rfl, rfl, rfl⟩, ?_⟩
  rintro s c p u wb rn list start last words n hc h15 hl hb hn rfl hr rfl
  have hnl : wb = true → rn ∉ listed list := fun hw => not_mem_listed (hb hw)
  rw [exec_ldm hc h15 hl hnl hn hr]
  refine ⟨fun hp h2 => (if_pos hp).trans (branchExchange_of_two _ h2), fun h2 => ?_⟩
  generalize multipleBase u (s.reg rn) n = base
  have hword := fun k r => State.reg_loadedMultiple (s := s) words base (listed_nodup list) hnl (k := k) (r := r)
  have hbase := fun hw => State.base_loadedMultiple (s := s) (regs := listed list) words base (wb := wb) hw h15
  have hregs := RegOnly.loadedMultiple (s := s) (regs := listed list) (wb := wb) (rn := rn) words base
  cases hp : list.getLsbD 15 with
  | false =>
    refine ⟨_, rfl, fun k r hk hr15 => ?_, fun hw => ?_, fun _ => hregs.advance, nofun⟩
    · rw [State.reg_advance _ hr15, hword k r hk hr15]
    · rw [State.reg_advance _ h15, hbase hw]
  | true =>
    obtain ⟨-, hcpsr, hsys, hcp, hmem, hstored, honly⟩ := hregs
    obtain ⟨t, ht, hT, htr, htm, hj⟩ := branchExchange_jumps s _ _ _ (h2 hp) honly hcpsr hsys hcp
      (State.memoryKept_of_eq hmem hstored)
    refine ⟨t, ht, fun k r hk hr15 => ?_, fun hw => ?_, nofun, fun _ => ⟨hT, hj⟩⟩
    · rw [State.reg_congr_mode htr htm hr15, hword k r hk hr15]
    · rw [State.reg_congr_mode htr htm h15, hbase hw]

/-! ### STM (1) and STM (2) (O37) -/

/-- A store multiple that stores the words of its registers and goes on, with or without its base written. -/
theorem storeList_spec {s : State} {regs : List Reg} {start : Word} (f : Reg → Word) (wb : Bool) {rn : Reg} (v : Word)
    (h15 : rn ≠ 15#4) (hl : regs.length ≤ 16)
    (hs : ∀ k < regs.length, s.storesWord s.privileged (wordPlace start k)) :
    ∃ t, storeList s start (regs.map f) (fun t => .next (if wb then t.setReg rn v else t).advance) = .next t ∧
      (∀ k r, regs[k]? = some r → t.wordAt (wordAlign (wordPlace start k)) = some (f r)) ∧
      (wb = true → t.reg rn = v) ∧ s.onlyStores t (if wb then [rn] else []) (wordAlign start) (4 * regs.length) := by
  obtain ⟨m, hm, hmem, hwords⟩ := State.storeWords_of_stores (s := s) (priv := s.privileged) (a := start) (regs.map f)
    (by rw [List.length_map]; omega) (by rwa [List.length_map])
  rw [List.length_map] at hmem hwords
  obtain ⟨honly, htm, htc, hreg⟩ := storeMultiple_base hmem wb rn v h15
  refine ⟨_, by rw [storeList, hm], fun k r hk => ?_, hreg, honly⟩
  have hlt : k < regs.length := (List.getElem?_eq_some_iff.mp hk).1
  rw [State.wordAt_congr htm htc, hwords k hlt, List.getElem?_map, hk, Option.map_some]

/-- Settles O37: STM (1) and STM (2) are `storeList` of the words of their registers. -/
theorem storeMultiple : Obligations.StoreMultiple := by
  rintro s c p u wb rn list start n hc h15 hl rfl rfl hs
  have hne := listed_ne_nil list hl
  have hx := fun k => (whenPassed_of_passed _ hc).trans (multipleAllowed_of_ne (rn := rn) (regs := listed list) k h15 hne)
  refine ⟨fun hw hlow => ?_, fun hlow => ?_, fun hspsr => ?_, fun hspsr => ?_⟩
  · simp only [lowestIfListed, not_forall, Nat.not_le] at hlow
    obtain ⟨hm, r, hr, hlt⟩ := hlow
    subst hw
    exact (hx _).trans (baseLowest_of_lt _ hm hr hlt)
  · obtain ⟨t, ht, hrest⟩ := storeList_spec s.storeReg wb
      (multipleBase u (s.reg rn) (listed list).length) h15 (listed_length_le list) hs
    exact ⟨t, (hx _).trans ((baseLowest_of_le _ hlow).trans ht), hrest⟩
  · obtain ⟨q, hq⟩ := Option.ne_none_iff_exists'.mp hspsr
    obtain ⟨t, ht, hwords, -, honly⟩ := storeList_spec s.storeUserReg false (rn := rn) 0 h15 (listed_length_le list) hs
    refine ⟨t, (hx _).trans ?_, hwords, honly⟩
    rw [hq]
    exact ht
  · refine (hx _).trans ?_
    rw [hspsr]

end Sys2Proof.Machine
end

section
/-!
PROOFS. The encodings (O1, O2, O3, O4). An encoding joins fields without common bits; masking a word with the bits of
the pattern and of each field tells what the word must be to be that encoding, and this is what its row of the table
asks and reads.
-/
namespace Sys2Proof

/-! ### Fields without common bits -/

/-- The bits of a word under a field's mask are the field, in its place. -/
theorem and_place_allOnes {m n : Nat} (w : BitVec n) (lo : Nat) :
    w &&& place n (BitVec.allOnes m) lo = place n (w.extractLsb' lo m) lo := by
  apply BitVec.eq_of_getLsbD_eq
  intro i hi
  by_cases hl : i < lo
  · simp [place, hl]
  · by_cases hm : i - lo < m
    · simp [place, hi, hl, hm, show lo + (i - lo) = i by omega]
    · simp [place, hm]

section
variable {n : Nat} {k l u v : BitVec n}

/-- Of bits under two masks without a common bit, the first mask takes those under it. -/
theorem or_and_first (hkl : k &&& l = 0#n) (hu : u &&& k = u) (hv : v &&& l = v) : (u ||| v) &&& k = u := by
  have hvk : v &&& k = 0#n := by rw [← hv, BitVec.and_assoc, BitVec.and_comm l, hkl, BitVec.and_zero]
  rw [or_and_mask, hu, hvk, BitVec.or_zero]

/-- Of bits under two masks without a common bit, the second mask takes those under it. -/
theorem or_and_second (hkl : k &&& l = 0#n) (hu : u &&& k = u) (hv : v &&& l = v) : (u ||| v) &&& l = v := by
  rw [BitVec.or_comm]
  exact or_and_first (by rw [BitVec.and_comm, hkl]) hv hu

/-- Masking with two masks joins what each takes. -/
theorem and_or_masks (w k l : BitVec n) : w &&& (k ||| l) = w &&& k ||| w &&& l := by
  rw [BitVec.and_comm, or_and_mask, BitVec.and_comm k, BitVec.and_comm l]

/-- Bits under two masks without a common bit are the bits under each. -/
theorem and_or_eq_iff (w : BitVec n) (hkl : k &&& l = 0#n) (hu : u &&& k = u) (hv : v &&& l = v) :
    w &&& (k ||| l) = u ||| v ↔ w &&& k = u ∧ w &&& l = v := by
  rw [and_or_masks]
  constructor
  · intro h
    have hk : (w &&& k ||| w &&& l) &&& k = w &&& k :=
      or_and_first hkl (by simp [BitVec.and_assoc]) (by simp [BitVec.and_assoc])
    have hl : (w &&& k ||| w &&& l) &&& l = w &&& l :=
      or_and_second hkl (by simp [BitVec.and_assoc]) (by simp [BitVec.and_assoc])
    constructor
    · rw [← hk, h, or_and_first hkl hu hv]
    · rw [← hl, h, or_and_second hkl hu hv]
  · rintro ⟨hk, hl⟩
    rw [hk, hl]
end

/-- `k` masks the bits of `v`, and a word has these bits under the mask where it fulfils `R`: the pattern of an
instruction with some of its fields in their places, and what a word that shows them is. -/
structure Spelling {n : Nat} (k v : BitVec n) (R : BitVec n → Prop) : Prop where
  inside : v &&& k = v
  iff : ∀ w, w &&& k = v ↔ R w

namespace Spelling
variable {n m lo : Nat} {k v : BitVec n} {R : BitVec n → Prop}

/-- The pattern alone. -/
theorem pattern (k : BitVec n) {p : BitVec n} (h : p &&& k = p := by rfl) :
    Spelling k p (fun w => w &&& k = p) :=
  ⟨h, fun _ => Iff.rfl⟩

theorem congr {S : BitVec n → Prop} (h : Spelling k v R) (hs : ∀ w, R w ↔ S w) : Spelling k v S :=
  ⟨h.inside, fun w => (h.iff w).trans (hs w)⟩

/-- A field after the bits spelled so far, where their mask leaves room for it. -/
theorem field {f : BitVec m} (h : Spelling k v R) (hlo : lo + m ≤ n := by decide)
    (hd : k &&& place n (BitVec.allOnes m) lo = 0#n := by rfl) :
    Spelling (k ||| place n (BitVec.allOnes m) lo) (v ||| place n f lo)
      (fun w => R w ∧ w.extractLsb' lo m = f) := by
  have hf : place n f lo &&& place n (BitVec.allOnes m) lo = place n f lo := by
    rw [and_place_allOnes, extract_place_same f lo hlo]
  constructor
  · rw [and_or_masks, or_and_first hd h.inside hf, or_and_second hd h.inside hf]
  · intro w
    rw [and_or_eq_iff w hd h.inside hf, h.iff, and_place_allOnes]
    refine and_congr_right fun _ => ⟨fun he => ?_, fun he => by rw [he]⟩
    simpa [extract_place_same, hlo] using congrArg (BitVec.extractLsb' lo m) he

theorem extract_one_eq_bit_iff {w : BitVec n} {lo : Nat} {b : Bool} :
    w.extractLsb' lo 1 = bit b ↔ w.getLsbD lo = b := by
  simp [bit, BitVec.eq_of_getLsbD_eq_iff]

/-- A field of one bit. -/
theorem flag {b : Bool} (h : Spelling k v R) (hlo : lo + 1 ≤ n := by decide)
    (hd : k &&& place n (BitVec.allOnes 1) lo = 0#n := by rfl) :
    Spelling (k ||| place n (BitVec.allOnes 1) lo) (v ||| place n (bit b) lo)
      (fun w => R w ∧ w.getLsbD lo = b) :=
  (h.field hlo hd).congr fun _ => and_congr_right fun _ => extract_one_eq_bit_iff

/-- A condition (R9). -/
theorem cond {c : Cond} (h : Spelling k v R) (hlo : lo + 4 ≤ n := by decide)
    (hd : k &&& place n (BitVec.allOnes 4) lo = 0#n := by rfl) :
    Spelling (k ||| place n (BitVec.allOnes 4) lo) (v ||| place n c.bits lo)
      (fun w => R w ∧ Cond.ofBits (w.extractLsb' lo 4) = some c) :=
  (h.field hlo hd).congr fun _ => and_congr_right fun _ =>
    eq_comm.trans (Machine.ofBits_eq_some_iff_bits _ _).symm

theorem ofBits_eq_iff_bits : ∀ (b : BitVec 2) (t : Shift), Shift.ofBits b = t ↔ t.bits = b := by
  intro b t
  revert b
  cases t <;> decide

/-- A kind of shift (R116). -/
theorem shift {t : Shift} (h : Spelling k v R) (hlo : lo + 2 ≤ n := by decide)
    (hd : k &&& place n (BitVec.allOnes 2) lo = 0#n := by rfl) :
    Spelling (k ||| place n (BitVec.allOnes 2) lo) (v ||| place n t.bits lo)
      (fun w => R w ∧ Shift.ofBits (w.extractLsb' lo 2) = t) :=
  (h.field hlo hd).congr fun _ => and_congr_right fun _ => eq_comm.trans (ofBits_eq_iff_bits _ _).symm

theorem append_eq_iff {a b : Nat} {x : BitVec a} {y : BitVec b} {f : BitVec (a + b)} :
    x ++ y = f ↔ x = f.extractLsb' b a ∧ y = f.extractLsb' 0 b := by
  constructor
  · rintro rfl
    exact ⟨BitVec.extractLsb'_append_eq_left.symm, BitVec.extractLsb'_append_eq_right.symm⟩
  · rintro ⟨rfl, rfl⟩
    rw [BitVec.extractLsb'_append_extractLsb'_eq_extractLsb' (by omega)]
    simp

/-- A field that is spelled in two parts. -/
theorem parts {a b hi : Nat} {f : BitVec (a + b)} (h : Spelling k v R)
    (hhi : hi + a ≤ n := by decide) (hlo : lo + b ≤ n := by decide)
    (hd : k &&& place n (BitVec.allOnes a) hi = 0#n := by rfl)
    (he : (k ||| place n (BitVec.allOnes a) hi) &&& place n (BitVec.allOnes b) lo = 0#n := by rfl) :
    Spelling (k ||| place n (BitVec.allOnes a) hi ||| place n (BitVec.allOnes b) lo)
      (v ||| place n (f.extractLsb' b a) hi ||| place n (f.extractLsb' 0 b) lo)
      (fun w => R w ∧ w.extractLsb' hi a ++ w.extractLsb' lo b = f) :=
  ((h.field hhi hd).field hlo he).congr fun _ => by rw [append_eq_iff, and_assoc]

/-- A register whose number is spelled in two parts, about another register (R262). -/
theorem aroundRegister {rd rm : Reg} {v : Half} {R : Half → Prop} (h : Spelling 0xFF00#16 v R) :
    Spelling (0xFF00#16 ||| place 16 (BitVec.allOnes 1) 7 ||| place 16 (BitVec.allOnes 4) 3 |||
        place 16 (BitVec.allOnes 3) 0)
      (v ||| place 16 (rd.extractLsb' 3 1) 7 ||| place 16 rm 3 ||| place 16 (rd.extractLsb' 0 3) 0)
      (fun w => R w ∧ w.extractLsb' 3 4 = rm ∧ w.extractLsb' 7 1 ++ w.extractLsb' 0 3 = rd) :=
  h.field.field.field.congr fun _ => by rw [append_eq_iff]; tauto

/-- The excluded pattern of the indexed transfers is P = 0 with W = 1. -/
theorem index_excluded_iff (w : Word) :
    w &&& 0x01200000#32 = 0x00200000#32 ↔ w.getLsbD 24 = false ∧ w.getLsbD 21 = true := by
  have h : Spelling 0x01200000#32 0x00200000#32 _ :=
    ((pattern (p := 0#32) 0#32).flag (lo := 24) (b := false)).flag (lo := 21) (b := true)
  simpa using h.iff w

/-- The excluded pattern of the coprocessor transfers is P = U = W = 0. -/
theorem transfer_excluded_iff (w : Word) :
    w &&& 0x01A00000#32 = 0x00000000#32 ↔
      (w.getLsbD 24 = false ∧ w.getLsbD 23 = false) ∧ w.getLsbD 21 = false := by
  have h : Spelling 0x01A00000#32 0x00000000#32 _ :=
    (((pattern (p := 0#32) 0#32).flag (lo := 24) (b := false)).flag (lo := 23) (b := false)).flag (lo := 21)
      (b := false)
  simpa using h.iff w

/-- The excluded pattern of the high-register forms is H1 = H2 = 0. -/
theorem high_excluded_iff (w : Half) :
    w &&& 0x00C0#16 = 0x0000#16 ↔ w.getLsbD 7 = false ∧ w.getLsbD 6 = false := by
  have h : Spelling 0x00C0#16 0x0000#16 _ :=
    ((pattern (p := 0#16) 0#16).flag (lo := 7) (b := false)).flag (lo := 6) (b := false)
  simpa using h.iff w

/-- The excluded pattern of the conditional branch is that of "always" and of no condition. -/
theorem branch_excluded_iff (w : Half) :
    w &&& 0x0E00#16 = 0x0E00#16 ↔ (Cond.ofBits (w.extractLsb' 8 4)).getD .al = .al := by
  have hb : ∀ b : BitVec 4, b.extractLsb' 1 3 = 7#3 ↔ (Cond.ofBits b).getD .al = .al := by decide
  have h : Spelling 0x0E00#16 0x0E00#16 _ := (pattern (p := 0#16) 0#16).field (lo := 9) (f := 7#3)
  have he : (w.extractLsb' 8 4).extractLsb' 1 3 = w.extractLsb' 9 3 := by
    ext i hi; simp [show 1 + i < 4 by omega]; congr 1; omega
  rw [← hb, he]
  simpa using h.iff w

theorem index_ofBits_iff (a b : Bool) (i : Index) :
    a = i.p ∧ b = i.w ↔ ¬(a = false ∧ b = true) ∧ Index.ofBits a b = i := by
  cases i <;> revert a b <;> decide

/-- The condition and the bits P, U and W of a transfer with an indexing (R108, R110). -/
theorem condIndex {c : Cond} {i : Index} {u : Bool} {v k : Word} {R : Word → Prop} (h : Spelling k v R)
    (hc : k &&& place 32 (BitVec.allOnes 4) 28 = 0#32 := by rfl)
    (hp : (k ||| place 32 (BitVec.allOnes 4) 28) &&& place 32 (BitVec.allOnes 1) 24 = 0#32 := by rfl)
    (hu : (k ||| place 32 (BitVec.allOnes 4) 28 ||| place 32 (BitVec.allOnes 1) 24) &&&
      place 32 (BitVec.allOnes 1) 23 = 0#32 := by rfl)
    (hw : (k ||| place 32 (BitVec.allOnes 4) 28 ||| place 32 (BitVec.allOnes 1) 24 |||
      place 32 (BitVec.allOnes 1) 23) &&& place 32 (BitVec.allOnes 1) 21 = 0#32 := by rfl) :
    Spelling (k ||| place 32 (BitVec.allOnes 4) 28 ||| place 32 (BitVec.allOnes 1) 24 |||
        place 32 (BitVec.allOnes 1) 23 ||| place 32 (BitVec.allOnes 1) 21)
      (v ||| place 32 c.bits 28 ||| place 32 (bit i.p) 24 ||| place 32 (bit u) 23 ||| place 32 (bit i.w) 21)
      (fun w => R w ∧ ¬w &&& 0x01200000#32 = 0x00200000#32 ∧ Cond.ofBits (w.extractLsb' 28 4) = some c ∧
        Index.ofBits (w.getLsbD 24) (w.getLsbD 21) = i ∧ w.getLsbD 23 = u) :=
  ((((h.cond (by decide) hc).flag (by decide) hp).flag (by decide) hu).flag (by decide) hw).congr fun w => by
    rw [index_excluded_iff]
    have hi := index_ofBits_iff (w.getLsbD 24) (w.getLsbD 21) i
    tauto
end Spelling

open Spelling

/-! ### What a row reads -/

/-- The condition of an ARM word is `c`. -/
def armCond (w : Word) (c : Cond) : Prop := Cond.ofBits (w.extractLsb' 28 4) = some c

/-- An ARM word has no condition, and its row makes the instruction with that of "always" (R111). -/
def noCond (w : Word) (c : Cond) : Prop := Cond.ofBits (w.extractLsb' 28 4) = none ∧ c = .al

/-- The row of a Thumb halfword makes the instruction with the condition "always" (R103). -/
def thumbCond (_ : Half) (c : Cond) : Prop := c = .al

/-- The row accepts the word and makes `i` of it, with the condition that `C` gives. -/
def Row.reads {n : Nat} (r : Row n) (C : BitVec n → Cond → Prop) (w : BitVec n) (i : Instr) : Prop :=
  r.accepts w = true ∧ ∃ c, C w c ∧ r.build c w = i

/-- The row makes instructions of the constructor of `i`. -/
def Row.makes {n : Nat} (r : Row n) (i : Instr) : Prop := i.ctorIdx = (r.build .al 0).ctorIdx

/-- The row reads `i`, if it is well-formed, from the bits that encode it, and from no others. -/
def Row.inverts {n : Nat} (r : Row n) (C : BitVec n → Cond → Prop) (mk : BitVec n → Encoded) (i : Instr) : Prop :=
  ∃ v, encode i = mk v ∧ ∀ w, i.wellFormed = true ∧ v = w ↔ r.reads C w i

/-- The row is right about all instructions that it makes. -/
def Row.spells {n : Nat} (r : Row n) (C : BitVec n → Cond → Prop) (mk : BitVec n → Encoded) : Prop :=
  ∀ i, r.makes i → r.inverts C mk i

section
variable {n : Nat} {r : Row n} {C : BitVec n → Cond → Prop} {mk : BitVec n → Encoded} {i : Instr} {k v : BitVec n}
  {R : BitVec n → Prop}

/-- What a spelling of all bits says of a word is what the row reads from it. -/
theorem Spelling.reads (hv : encode i = mk v) (h : Spelling k v R)
    (hR : ∀ w, i.wellFormed = true ∧ R w ↔ r.reads C w i := by
      intro w; simp [Instr.wellFormed, Row.reads, Row.accepts, row, armCond, thumbCond, and_assoc])
    (hk : k = BitVec.allOnes n := by rfl) : r.inverts C mk i :=
  ⟨v, hv, fun w => by rw [← hR w, ← h.iff w, hk, BitVec.and_allOnes, eq_comm (a := v)]⟩

/-- Where all words that the row accepts have the condition "always", it reads what it makes with that condition. -/
theorem Spelling.readsAlways (hC : ∀ w, r.accepts w = true → ∀ c, C w c ↔ c = .al) (hv : encode i = mk v)
    (h : Spelling k v R)
    (hR : ∀ w, i.wellFormed = true ∧ R w ↔ r.accepts w = true ∧ r.build .al w = i := by
      intro w; simp [Instr.wellFormed, Row.accepts, row, and_assoc])
    (hk : k = BitVec.allOnes n := by rfl) : r.inverts C mk i :=
  h.reads hv (fun w => (hR w).trans (and_congr_right fun ha => by simp [hC w ha])) hk
end

/-- Bits [31:28] of a word that a row fixes there are those of its pattern. -/
theorem extract_of_accepts {r : Row 32} {w : Word} (hm : r.mask.extractLsb' 28 4 = 15#4) (h : r.accepts w = true) :
    w.extractLsb' 28 4 = r.pattern.extractLsb' 28 4 := by
  have hp : w &&& r.mask = r.pattern := by simp_all [Row.accepts]
  rw [← hp, BitVec.extractLsb'_and, hm]
  exact (BitVec.and_allOnes (x := w.extractLsb' 28 4)).symm

theorem noCond_iff {r : Row 32} (hm : r.mask.extractLsb' 28 4 = 15#4) (hp : r.pattern.extractLsb' 28 4 = 15#4)
    (w : Word) (ha : r.accepts w = true) (c : Cond) : noCond w c ↔ c = .al := by
  rw [noCond, extract_of_accepts hm ha, hp]
  exact and_iff_right rfl

theorem armCond_iff {r : Row 32} (hm : r.mask.extractLsb' 28 4 = 15#4) (hp : r.pattern.extractLsb' 28 4 = 14#4)
    (w : Word) (ha : r.accepts w = true) (c : Cond) : armCond w c ↔ c = .al := by
  rw [armCond, extract_of_accepts hm ha, hp, eq_comm (a := c)]
  exact Option.some_inj

/-- A condition other than "always", read from the bits of a conditional branch. -/
theorem getD_al_eq_iff (o : Option Cond) (c : Cond) :
    ¬o.getD .al = .al ∧ o.getD .al = c ↔ ¬c = .al ∧ o = some c := by
  cases o with
  | none => simp
  | some d => simp; grind

/-! Row by row: the mask of the row's pattern and the kinds of the fields that `encode` joins to it, in its order. -/

theorem armRows1_spell : armRows1.Forall fun r => r.spells armCond .arm :=
  ⟨fun i hi => Instr.andImm.elim i hi fun _ _ _ _ _ _ => reads rfl
    (pattern 0x0FE00000).cond.flag.field.field.field.field,
   fun i hi => Instr.andShift.elim i hi fun _ _ _ _ _ _ _ => reads rfl
    (pattern 0x0FE00010).cond.flag.field.field.field.shift.field,
   fun i hi => Instr.andRegShift.elim i hi fun _ _ _ _ _ _ _ => reads rfl
    (pattern 0x0FE00090).cond.flag.field.field.field.shift.field,
   fun i hi => Instr.eorImm.elim i hi fun _ _ _ _ _ _ => reads rfl
    (pattern 0x0FE00000).cond.flag.field.field.field.field,
   fun i hi => Instr.eorShift.elim i hi fun _ _ _ _ _ _ _ => reads rfl
    (pattern 0x0FE00010).cond.flag.field.field.field.shift.field,
   fun i hi => Instr.eorRegShift.elim i hi fun _ _ _ _ _ _ _ => reads rfl
    (pattern 0x0FE00090).cond.flag.field.field.field.shift.field,
   fun i hi => Instr.subImm.elim i hi fun _ _ _ _ _ _ => reads rfl
    (pattern 0x0FE00000).cond.flag.field.field.field.field,
   fun i hi => Instr.subShift.elim i hi fun _ _ _ _ _ _ _ => reads rfl
    (pattern 0x0FE00010).cond.flag.field.field.field.shift.field,
   fun i hi => Instr.subRegShift.elim i hi fun _ _ _ _ _ _ _ => reads rfl
    (pattern 0x0FE00090).cond.flag.field.field.field.shift.field,
   fun i hi => Instr.rsbImm.elim i hi fun _ _ _ _ _ _ => reads rfl
    (pattern 0x0FE00000).cond.flag.field.field.field.field,
   fun i hi => Instr.rsbShift.elim i hi fun _ _ _ _ _ _ _ => reads rfl
    (pattern 0x0FE00010).cond.flag.field.field.field.shift.field,
   fun i hi => Instr.rsbRegShift.elim i hi fun _ _ _ _ _ _ _ => reads rfl
    (pattern 0x0FE00090).cond.flag.field.field.field.shift.field,
   fun i hi => Instr.addImm.elim i hi fun _ _ _ _ _ _ => reads rfl
    (pattern 0x0FE00000).cond.flag.field.field.field.field,
   fun i hi => Instr.addShift.elim i hi fun _ _ _ _ _ _ _ => reads rfl
    (pattern 0x0FE00010).cond.flag.field.field.field.shift.field,
   fun i hi => Instr.addRegShift.elim i hi fun _ _ _ _ _ _ _ => reads rfl
    (pattern 0x0FE00090).cond.flag.field.field.field.shift.field,
   fun i hi => Instr.adcImm.elim i hi fun _ _ _ _ _ _ => reads rfl
    (pattern 0x0FE00000).cond.flag.field.field.field.field⟩

theorem armRows2_spell : armRows2.Forall fun r => r.spells armCond .arm :=
  ⟨fun i hi => Instr.adcShift.elim i hi fun _ _ _ _ _ _ _ => reads rfl
    (pattern 0x0FE00010).cond.flag.field.field.field.shift.field,
   fun i hi => Instr.adcRegShift.elim i hi fun _ _ _ _ _ _ _ => reads rfl
    (pattern 0x0FE00090).cond.flag.field.field.field.shift.field,
   fun i hi => Instr.sbcImm.elim i hi fun _ _ _ _ _ _ => reads rfl
    (pattern 0x0FE00000).cond.flag.field.field.field.field,
   fun i hi => Instr.sbcShift.elim i hi fun _ _ _ _ _ _ _ => reads rfl
    (pattern 0x0FE00010).cond.flag.field.field.field.shift.field,
   fun i hi => Instr.sbcRegShift.elim i hi fun _ _ _ _ _ _ _ => reads rfl
    (pattern 0x0FE00090).cond.flag.field.field.field.shift.field,
   fun i hi => Instr.rscImm.elim i hi fun _ _ _ _ _ _ => reads rfl
    (pattern 0x0FE00000).cond.flag.field.field.field.field,
   fun i hi => Instr.rscShift.elim i hi fun _ _ _ _ _ _ _ => reads rfl
    (pattern 0x0FE00010).cond.flag.field.field.field.shift.field,
   fun i hi => Instr.rscRegShift.elim i hi fun _ _ _ _ _ _ _ => reads rfl
    (pattern 0x0FE00090).cond.flag.field.field.field.shift.field,
   fun i hi => Instr.tstImm.elim i hi fun _ _ _ _ => reads rfl
    (pattern 0x0FF0F000).cond.field.field.field,
   fun i hi => Instr.tstShift.elim i hi fun _ _ _ _ _ => reads rfl
    (pattern 0x0FF0F010).cond.field.field.shift.field,
   fun i hi => Instr.tstRegShift.elim i hi fun _ _ _ _ _ => reads rfl
    (pattern 0x0FF0F090).cond.field.field.shift.field,
   fun i hi => Instr.teqImm.elim i hi fun _ _ _ _ => reads rfl
    (pattern 0x0FF0F000).cond.field.field.field,
   fun i hi => Instr.teqShift.elim i hi fun _ _ _ _ _ => reads rfl
    (pattern 0x0FF0F010).cond.field.field.shift.field,
   fun i hi => Instr.teqRegShift.elim i hi fun _ _ _ _ _ => reads rfl
    (pattern 0x0FF0F090).cond.field.field.shift.field,
   fun i hi => Instr.cmpImm.elim i hi fun _ _ _ _ => reads rfl
    (pattern 0x0FF0F000).cond.field.field.field,
   fun i hi => Instr.cmpShift.elim i hi fun _ _ _ _ _ => reads rfl
    (pattern 0x0FF0F010).cond.field.field.shift.field⟩

theorem armRows3_spell : armRows3.Forall fun r => r.spells armCond .arm :=
  ⟨fun i hi => Instr.cmpRegShift.elim i hi fun _ _ _ _ _ => reads rfl
    (pattern 0x0FF0F090).cond.field.field.shift.field,
   fun i hi => Instr.cmnImm.elim i hi fun _ _ _ _ => reads rfl
    (pattern 0x0FF0F000).cond.field.field.field,
   fun i hi => Instr.cmnShift.elim i hi fun _ _ _ _ _ => reads rfl
    (pattern 0x0FF0F010).cond.field.field.shift.field,
   fun i hi => Instr.cmnRegShift.elim i hi fun _ _ _ _ _ => reads rfl
    (pattern 0x0FF0F090).cond.field.field.shift.field,
   fun i hi => Instr.orrImm.elim i hi fun _ _ _ _ _ _ => reads rfl
    (pattern 0x0FE00000).cond.flag.field.field.field.field,
   fun i hi => Instr.orrShift.elim i hi fun _ _ _ _ _ _ _ => reads rfl
    (pattern 0x0FE00010).cond.flag.field.field.field.shift.field,
   fun i hi => Instr.orrRegShift.elim i hi fun _ _ _ _ _ _ _ => reads rfl
    (pattern 0x0FE00090).cond.flag.field.field.field.shift.field,
   fun i hi => Instr.movImm.elim i hi fun _ _ _ _ _ => reads rfl
    (pattern 0x0FEF0000).cond.flag.field.field.field,
   fun i hi => Instr.movShift.elim i hi fun _ _ _ _ _ _ => reads rfl
    (pattern 0x0FEF0010).cond.flag.field.field.shift.field,
   fun i hi => Instr.movRegShift.elim i hi fun _ _ _ _ _ _ => reads rfl
    (pattern 0x0FEF0090).cond.flag.field.field.shift.field,
   fun i hi => Instr.bicImm.elim i hi fun _ _ _ _ _ _ => reads rfl
    (pattern 0x0FE00000).cond.flag.field.field.field.field,
   fun i hi => Instr.bicShift.elim i hi fun _ _ _ _ _ _ _ => reads rfl
    (pattern 0x0FE00010).cond.flag.field.field.field.shift.field,
   fun i hi => Instr.bicRegShift.elim i hi fun _ _ _ _ _ _ _ => reads rfl
    (pattern 0x0FE00090).cond.flag.field.field.field.shift.field,
   fun i hi => Instr.mvnImm.elim i hi fun _ _ _ _ _ => reads rfl
    (pattern 0x0FEF0000).cond.flag.field.field.field,
   fun i hi => Instr.mvnShift.elim i hi fun _ _ _ _ _ _ => reads rfl
    (pattern 0x0FEF0010).cond.flag.field.field.shift.field,
   fun i hi => Instr.mvnRegShift.elim i hi fun _ _ _ _ _ _ => reads rfl
    (pattern 0x0FEF0090).cond.flag.field.field.shift.field⟩

theorem armRows4_spell : armRows4.Forall fun r => r.spells armCond .arm :=
  ⟨fun i hi => Instr.mul.elim i hi fun _ _ _ _ _ => reads rfl
    (pattern 0x0FE0F0F0).cond.flag.field.field.field,
   fun i hi => Instr.mla.elim i hi fun _ _ _ _ _ _ => reads rfl
    (pattern 0x0FE000F0).cond.flag.field.field.field.field,
   fun i hi => Instr.umull.elim i hi fun _ _ _ _ _ _ => reads rfl
    (pattern 0x0FE000F0).cond.flag.field.field.field.field,
   fun i hi => Instr.umlal.elim i hi fun _ _ _ _ _ _ => reads rfl
    (pattern 0x0FE000F0).cond.flag.field.field.field.field,
   fun i hi => Instr.smull.elim i hi fun _ _ _ _ _ _ => reads rfl
    (pattern 0x0FE000F0).cond.flag.field.field.field.field,
   fun i hi => Instr.smlal.elim i hi fun _ _ _ _ _ _ => reads rfl
    (pattern 0x0FE000F0).cond.flag.field.field.field.field,
   fun i hi => Instr.swp.elim i hi fun _ _ _ _ => reads rfl
    (pattern 0x0FF00FF0).cond.field.field.field,
   fun i hi => Instr.swpb.elim i hi fun _ _ _ _ => reads rfl
    (pattern 0x0FF00FF0).cond.field.field.field,
   fun i hi => Instr.smlaXY.elim i hi fun _ _ _ _ _ _ _ => reads rfl
    (pattern 0x0FF00090).cond.field.field.field.flag.flag.field,
   fun i hi => Instr.smlaWY.elim i hi fun _ _ _ _ _ _ => reads rfl
    (pattern 0x0FF000B0).cond.field.field.field.flag.field,
   fun i hi => Instr.smulWY.elim i hi fun _ _ _ _ _ => reads rfl
    (pattern 0x0FF0F0B0).cond.field.field.flag.field,
   fun i hi => Instr.smlalXY.elim i hi fun _ _ _ _ _ _ _ => reads rfl
    (pattern 0x0FF00090).cond.field.field.field.flag.flag.field,
   fun i hi => Instr.smulXY.elim i hi fun _ _ _ _ _ _ => reads rfl
    (pattern 0x0FF0F090).cond.field.field.flag.flag.field,
   fun i hi => Instr.mrs.elim i hi fun _ _ _ => reads rfl
    (pattern 0x0FBF0FFF).cond.flag.field,
   fun i hi => Instr.msrReg.elim i hi fun _ _ _ _ => reads rfl
    (pattern 0x0FB0FFF0).cond.flag.field.field,
   fun i hi => Instr.msrImm.elim i hi fun _ _ _ _ _ => reads rfl
    (pattern 0x0FB0F000).cond.flag.field.field.field⟩

theorem armRows5_spell : armRows5.Forall fun r => r.spells armCond .arm :=
  ⟨fun i hi => Instr.bx.elim i hi fun _ _ => reads rfl
    (pattern 0x0FFFFFF0).cond.field,
   fun i hi => Instr.bxj.elim i hi fun _ _ => reads rfl
    (pattern 0x0FFFFFF0).cond.field,
   fun i hi => Instr.blxReg.elim i hi fun _ _ => reads rfl
    (pattern 0x0FFFFFF0).cond.field,
   fun i hi => Instr.clz.elim i hi fun _ _ _ => reads rfl
    (pattern 0x0FFF0FF0).cond.field.field,
   fun i hi => Instr.qadd.elim i hi fun _ _ _ _ => reads rfl
    (pattern 0x0FF00FF0).cond.field.field.field,
   fun i hi => Instr.qsub.elim i hi fun _ _ _ _ => reads rfl
    (pattern 0x0FF00FF0).cond.field.field.field,
   fun i hi => Instr.qdadd.elim i hi fun _ _ _ _ => reads rfl
    (pattern 0x0FF00FF0).cond.field.field.field,
   fun i hi => Instr.qdsub.elim i hi fun _ _ _ _ => reads rfl
    (pattern 0x0FF00FF0).cond.field.field.field,
   fun i hi => Instr.bkpt.elim i hi fun _ => readsAlways (armCond_iff rfl rfl) rfl
    (pattern 0xFFF000F0).parts,
   fun i hi => Instr.ldrImm.elim i hi fun _ _ _ _ _ _ => reads rfl
    (pattern 0x0E500000).condIndex.field.field.field,
   fun i hi => Instr.ldrReg.elim i hi fun _ _ _ _ _ _ _ _ => reads rfl
    (pattern 0x0E500010).condIndex.field.field.field.shift.field,
   fun i hi => Instr.ldrbImm.elim i hi fun _ _ _ _ _ _ => reads rfl
    (pattern 0x0E500000).condIndex.field.field.field,
   fun i hi => Instr.ldrbReg.elim i hi fun _ _ _ _ _ _ _ _ => reads rfl
    (pattern 0x0E500010).condIndex.field.field.field.shift.field,
   fun i hi => Instr.strImm.elim i hi fun _ _ _ _ _ _ => reads rfl
    (pattern 0x0E500000).condIndex.field.field.field,
   fun i hi => Instr.strReg.elim i hi fun _ _ _ _ _ _ _ _ => reads rfl
    (pattern 0x0E500010).condIndex.field.field.field.shift.field,
   fun i hi => Instr.strbImm.elim i hi fun _ _ _ _ _ _ => reads rfl
    (pattern 0x0E500000).condIndex.field.field.field⟩

theorem armRows6_spell : armRows6.Forall fun r => r.spells armCond .arm :=
  ⟨fun i hi => Instr.strbReg.elim i hi fun _ _ _ _ _ _ _ _ => reads rfl
    (pattern 0x0E500010).condIndex.field.field.field.shift.field,
   fun i hi => Instr.ldrtImm.elim i hi fun _ _ _ _ _ => reads rfl
    (pattern 0x0F700000).cond.flag.field.field.field,
   fun i hi => Instr.ldrtReg.elim i hi fun _ _ _ _ _ _ _ => reads rfl
    (pattern 0x0F700010).cond.flag.field.field.field.shift.field,
   fun i hi => Instr.ldrbtImm.elim i hi fun _ _ _ _ _ => reads rfl
    (pattern 0x0F700000).cond.flag.field.field.field,
   fun i hi => Instr.ldrbtReg.elim i hi fun _ _ _ _ _ _ _ => reads rfl
    (pattern 0x0F700010).cond.flag.field.field.field.shift.field,
   fun i hi => Instr.strtImm.elim i hi fun _ _ _ _ _ => reads rfl
    (pattern 0x0F700000).cond.flag.field.field.field,
   fun i hi => Instr.strtReg.elim i hi fun _ _ _ _ _ _ _ => reads rfl
    (pattern 0x0F700010).cond.flag.field.field.field.shift.field,
   fun i hi => Instr.strbtImm.elim i hi fun _ _ _ _ _ => reads rfl
    (pattern 0x0F700000).cond.flag.field.field.field,
   fun i hi => Instr.strbtReg.elim i hi fun _ _ _ _ _ _ _ => reads rfl
    (pattern 0x0F700010).cond.flag.field.field.field.shift.field,
   fun i hi => Instr.strhImm.elim i hi fun _ _ _ _ _ _ => reads rfl
    (pattern 0x0E5000F0).condIndex.field.field.parts,
   fun i hi => Instr.strhReg.elim i hi fun _ _ _ _ _ _ => reads rfl
    (pattern 0x0E500FF0).condIndex.field.field.field,
   fun i hi => Instr.ldrhImm.elim i hi fun _ _ _ _ _ _ => reads rfl
    (pattern 0x0E5000F0).condIndex.field.field.parts,
   fun i hi => Instr.ldrhReg.elim i hi fun _ _ _ _ _ _ => reads rfl
    (pattern 0x0E500FF0).condIndex.field.field.field,
   fun i hi => Instr.ldrsbImm.elim i hi fun _ _ _ _ _ _ => reads rfl
    (pattern 0x0E5000F0).condIndex.field.field.parts,
   fun i hi => Instr.ldrsbReg.elim i hi fun _ _ _ _ _ _ => reads rfl
    (pattern 0x0E500FF0).condIndex.field.field.field,
   fun i hi => Instr.ldrshImm.elim i hi fun _ _ _ _ _ _ => reads rfl
    (pattern 0x0E5000F0).condIndex.field.field.parts⟩

theorem armRows7_spell : armRows7.Forall fun r => r.spells armCond .arm :=
  ⟨fun i hi => Instr.ldrshReg.elim i hi fun _ _ _ _ _ _ => reads rfl
    (pattern 0x0E500FF0).condIndex.field.field.field,
   fun i hi => Instr.ldrdImm.elim i hi fun _ _ _ _ _ _ => reads rfl
    (pattern 0x0E5000F0).condIndex.field.field.parts,
   fun i hi => Instr.ldrdReg.elim i hi fun _ _ _ _ _ _ => reads rfl
    (pattern 0x0E500FF0).condIndex.field.field.field,
   fun i hi => Instr.strdImm.elim i hi fun _ _ _ _ _ _ => reads rfl
    (pattern 0x0E5000F0).condIndex.field.field.parts,
   fun i hi => Instr.strdReg.elim i hi fun _ _ _ _ _ _ => reads rfl
    (pattern 0x0E500FF0).condIndex.field.field.field,
   fun i hi => Instr.ldm.elim i hi fun _ _ _ _ _ _ => reads rfl
    (pattern 0x0E500000).cond.flag.flag.flag.field.field,
   fun i hi => Instr.ldmUser.elim i hi fun _ _ _ _ _ => reads rfl
    (pattern 0x0E708000).cond.flag.flag.field.field,
   fun i hi => Instr.ldmRestore.elim i hi fun _ _ _ _ _ _ => reads rfl
    (pattern 0x0E508000).cond.flag.flag.flag.field.field,
   fun i hi => Instr.stm.elim i hi fun _ _ _ _ _ _ => reads rfl
    (pattern 0x0E500000).cond.flag.flag.flag.field.field,
   fun i hi => Instr.stmUser.elim i hi fun _ _ _ _ _ => reads rfl
    (pattern 0x0E700000).cond.flag.flag.field.field,
   fun i hi => Instr.b.elim i hi fun _ _ => reads rfl
    (pattern 0x0F000000).cond.field,
   fun i hi => Instr.bl.elim i hi fun _ _ => reads rfl
    (pattern 0x0F000000).cond.field,
   fun i hi => Instr.cdp.elim i hi fun _ _ _ _ _ _ _ => reads rfl
    (pattern 0x0F000010).cond.field.field.field.field.field.field,
   fun i hi => Instr.mcr.elim i hi fun _ _ _ _ _ _ _ => reads rfl
    (pattern 0x0F100010).cond.field.field.field.field.field.field,
   fun i hi => Instr.mrc.elim i hi fun _ _ _ _ _ _ _ => reads rfl
    (pattern 0x0F100010).cond.field.field.field.field.field.field,
   fun i hi => Instr.mcrr.elim i hi fun _ _ _ _ _ _ => reads rfl
    (pattern 0x0FF00000).cond.field.field.field.field.field⟩

theorem armRows8_spell : armRows8.Forall fun r => r.spells armCond .arm :=
  ⟨fun i hi => Instr.mrrc.elim i hi fun _ _ _ _ _ _ => reads rfl
    (pattern 0x0FF00000).cond.field.field.field.field.field,
   fun i hi => Instr.ldc.elim i hi fun _ _ _ _ _ _ _ _ _ => reads rfl
    (pattern 0x0E100000).cond.flag.flag.flag.flag.field.field.field.field fun w => by
      simp [Instr.wellFormed, Row.reads, Row.accepts, row, armCond, transferForm, transfer_excluded_iff]; grind,
   fun i hi => Instr.stc.elim i hi fun _ _ _ _ _ _ _ _ _ => reads rfl
    (pattern 0x0E100000).cond.flag.flag.flag.flag.field.field.field.field fun w => by
      simp [Instr.wellFormed, Row.reads, Row.accepts, row, armCond, transferForm, transfer_excluded_iff]; grind,
   fun i hi => Instr.swi.elim i hi fun _ _ => reads rfl
    (pattern 0x0F000000).cond.field,
   fun i hi => Instr.undefSpace.elim i hi fun _ _ _ => reads rfl
    (pattern 0x0E000010).cond.field.field,
   fun i hi => Instr.undefImm.elim i hi fun _ _ _ => reads rfl
    (pattern 0x0FB00000).cond.flag.field⟩

theorem unconditionalRows1_spell : unconditionalRows1.Forall fun r => r.spells noCond .arm :=
  ⟨fun i hi => Instr.pldImm.elim i hi fun _ _ _ => readsAlways (noCond_iff rfl rfl) rfl
    (pattern 0xFF70F000).flag.field.field,
   fun i hi => Instr.pldReg.elim i hi fun _ _ _ _ _ => readsAlways (noCond_iff rfl rfl) rfl
    (pattern 0xFF70F010).flag.field.field.shift.field,
   fun i hi => Instr.blxImm.elim i hi fun _ _ => readsAlways (noCond_iff rfl rfl) rfl
    (pattern 0xFE000000).flag.field,
   fun i hi => Instr.cdp2.elim i hi fun _ _ _ _ _ _ => readsAlways (noCond_iff rfl rfl) rfl
    (pattern 0xFF000010).field.field.field.field.field.field,
   fun i hi => Instr.mcr2.elim i hi fun _ _ _ _ _ _ => readsAlways (noCond_iff rfl rfl) rfl
    (pattern 0xFF100010).field.field.field.field.field.field,
   fun i hi => Instr.mrc2.elim i hi fun _ _ _ _ _ _ => readsAlways (noCond_iff rfl rfl) rfl
    (pattern 0xFF100010).field.field.field.field.field.field,
   fun i hi => Instr.ldc2.elim i hi fun _ _ _ _ _ _ _ _ => readsAlways (noCond_iff rfl rfl) rfl
    (pattern 0xFE100000).flag.flag.flag.flag.field.field.field.field fun w => by
      simp [Instr.wellFormed, Row.accepts, row, transferForm, transfer_excluded_iff]; grind,
   fun i hi => Instr.stc2.elim i hi fun _ _ _ _ _ _ _ _ => readsAlways (noCond_iff rfl rfl) rfl
    (pattern 0xFE100000).flag.flag.flag.flag.field.field.field.field fun w => by
      simp [Instr.wellFormed, Row.accepts, row, transferForm, transfer_excluded_iff]; grind⟩

theorem thumbRows1_spell : thumbRows1.Forall fun r => r.spells thumbCond .thumb :=
  ⟨fun i hi => Instr.thumbLslImm.elim i hi fun _ _ _ => reads rfl
    (pattern 0xF800).field.field.field,
   fun i hi => Instr.thumbLsrImm.elim i hi fun _ _ _ => reads rfl
    (pattern 0xF800).field.field.field,
   fun i hi => Instr.thumbAsrImm.elim i hi fun _ _ _ => reads rfl
    (pattern 0xF800).field.field.field,
   fun i hi => Instr.thumbAddReg.elim i hi fun _ _ _ => reads rfl
    (pattern 0xFE00).field.field.field,
   fun i hi => Instr.thumbSubReg.elim i hi fun _ _ _ => reads rfl
    (pattern 0xFE00).field.field.field,
   fun i hi => Instr.thumbAddImm3.elim i hi fun _ _ _ => reads rfl
    (pattern 0xFE00).field.field.field,
   fun i hi => Instr.thumbSubImm3.elim i hi fun _ _ _ => reads rfl
    (pattern 0xFE00).field.field.field,
   fun i hi => Instr.thumbMovImm.elim i hi fun _ _ => reads rfl
    (pattern 0xF800).field.field,
   fun i hi => Instr.thumbCmpImm.elim i hi fun _ _ => reads rfl
    (pattern 0xF800).field.field,
   fun i hi => Instr.thumbAddImm8.elim i hi fun _ _ => reads rfl
    (pattern 0xF800).field.field,
   fun i hi => Instr.thumbSubImm8.elim i hi fun _ _ => reads rfl
    (pattern 0xF800).field.field,
   fun i hi => Instr.thumbAnd.elim i hi fun _ _ => reads rfl
    (pattern 0xFFC0).field.field,
   fun i hi => Instr.thumbEor.elim i hi fun _ _ => reads rfl
    (pattern 0xFFC0).field.field,
   fun i hi => Instr.thumbLslReg.elim i hi fun _ _ => reads rfl
    (pattern 0xFFC0).field.field,
   fun i hi => Instr.thumbLsrReg.elim i hi fun _ _ => reads rfl
    (pattern 0xFFC0).field.field,
   fun i hi => Instr.thumbAsrReg.elim i hi fun _ _ => reads rfl
    (pattern 0xFFC0).field.field⟩

theorem thumbRows2_spell : thumbRows2.Forall fun r => r.spells thumbCond .thumb :=
  ⟨fun i hi => Instr.thumbAdc.elim i hi fun _ _ => reads rfl
    (pattern 0xFFC0).field.field,
   fun i hi => Instr.thumbSbc.elim i hi fun _ _ => reads rfl
    (pattern 0xFFC0).field.field,
   fun i hi => Instr.thumbRorReg.elim i hi fun _ _ => reads rfl
    (pattern 0xFFC0).field.field,
   fun i hi => Instr.thumbTst.elim i hi fun _ _ => reads rfl
    (pattern 0xFFC0).field.field,
   fun i hi => Instr.thumbNeg.elim i hi fun _ _ => reads rfl
    (pattern 0xFFC0).field.field,
   fun i hi => Instr.thumbCmp.elim i hi fun _ _ => reads rfl
    (pattern 0xFFC0).field.field,
   fun i hi => Instr.thumbCmn.elim i hi fun _ _ => reads rfl
    (pattern 0xFFC0).field.field,
   fun i hi => Instr.thumbOrr.elim i hi fun _ _ => reads rfl
    (pattern 0xFFC0).field.field,
   fun i hi => Instr.thumbMul.elim i hi fun _ _ => reads rfl
    (pattern 0xFFC0).field.field,
   fun i hi => Instr.thumbBic.elim i hi fun _ _ => reads rfl
    (pattern 0xFFC0).field.field,
   fun i hi => Instr.thumbMvn.elim i hi fun _ _ => reads rfl
    (pattern 0xFFC0).field.field,
   fun i hi => Instr.thumbAddHigh.elim i hi fun _ _ => reads rfl
    (pattern 0xFF00).aroundRegister fun w => by
      simp [Instr.wellFormed, Row.reads, Row.accepts, row, thumbCond, highForm, high_excluded_iff]; grind,
   fun i hi => Instr.thumbCmpHigh.elim i hi fun _ _ => reads rfl
    (pattern 0xFF00).aroundRegister fun w => by
      simp [Instr.wellFormed, Row.reads, Row.accepts, row, thumbCond, highForm, high_excluded_iff]; grind,
   fun i hi => Instr.thumbMovHigh.elim i hi fun _ _ => reads rfl
    (pattern 0xFF00).aroundRegister fun w => by
      simp [Instr.wellFormed, Row.reads, Row.accepts, row, thumbCond, highForm, high_excluded_iff]; grind,
   fun i hi => Instr.thumbBx.elim i hi fun _ => reads rfl
    (pattern 0xFF87).field,
   fun i hi => Instr.thumbBlxReg.elim i hi fun _ => reads rfl
    (pattern 0xFF87).field⟩

theorem thumbRows3_spell : thumbRows3.Forall fun r => r.spells thumbCond .thumb :=
  ⟨fun i hi => Instr.thumbLdrPc.elim i hi fun _ _ => reads rfl
    (pattern 0xF800).field.field,
   fun i hi => Instr.thumbStrReg.elim i hi fun _ _ _ => reads rfl
    (pattern 0xFE00).field.field.field,
   fun i hi => Instr.thumbStrhReg.elim i hi fun _ _ _ => reads rfl
    (pattern 0xFE00).field.field.field,
   fun i hi => Instr.thumbStrbReg.elim i hi fun _ _ _ => reads rfl
    (pattern 0xFE00).field.field.field,
   fun i hi => Instr.thumbLdrsbReg.elim i hi fun _ _ _ => reads rfl
    (pattern 0xFE00).field.field.field,
   fun i hi => Instr.thumbLdrReg.elim i hi fun _ _ _ => reads rfl
    (pattern 0xFE00).field.field.field,
   fun i hi => Instr.thumbLdrhReg.elim i hi fun _ _ _ => reads rfl
    (pattern 0xFE00).field.field.field,
   fun i hi => Instr.thumbLdrbReg.elim i hi fun _ _ _ => reads rfl
    (pattern 0xFE00).field.field.field,
   fun i hi => Instr.thumbLdrshReg.elim i hi fun _ _ _ => reads rfl
    (pattern 0xFE00).field.field.field,
   fun i hi => Instr.thumbStrImm.elim i hi fun _ _ _ => reads rfl
    (pattern 0xF800).field.field.field,
   fun i hi => Instr.thumbLdrImm.elim i hi fun _ _ _ => reads rfl
    (pattern 0xF800).field.field.field,
   fun i hi => Instr.thumbStrbImm.elim i hi fun _ _ _ => reads rfl
    (pattern 0xF800).field.field.field,
   fun i hi => Instr.thumbLdrbImm.elim i hi fun _ _ _ => reads rfl
    (pattern 0xF800).field.field.field,
   fun i hi => Instr.thumbStrhImm.elim i hi fun _ _ _ => reads rfl
    (pattern 0xF800).field.field.field,
   fun i hi => Instr.thumbLdrhImm.elim i hi fun _ _ _ => reads rfl
    (pattern 0xF800).field.field.field,
   fun i hi => Instr.thumbStrSp.elim i hi fun _ _ => reads rfl
    (pattern 0xF800).field.field⟩

theorem thumbRows4_spell : thumbRows4.Forall fun r => r.spells thumbCond .thumb :=
  ⟨fun i hi => Instr.thumbLdrSp.elim i hi fun _ _ => reads rfl
    (pattern 0xF800).field.field,
   fun i hi => Instr.thumbAddPc.elim i hi fun _ _ => reads rfl
    (pattern 0xF800).field.field,
   fun i hi => Instr.thumbAddSp.elim i hi fun _ _ => reads rfl
    (pattern 0xF800).field.field,
   fun i hi => Instr.thumbIncSp.elim i hi fun _ => reads rfl
    (pattern 0xFF80).field,
   fun i hi => Instr.thumbDecSp.elim i hi fun _ => reads rfl
    (pattern 0xFF80).field,
   fun i hi => Instr.thumbPush.elim i hi fun _ _ => reads rfl
    (pattern 0xFE00).flag.field,
   fun i hi => Instr.thumbPop.elim i hi fun _ _ => reads rfl
    (pattern 0xFE00).flag.field,
   fun i hi => Instr.thumbBkpt.elim i hi fun _ => reads rfl
    (pattern 0xFF00).field,
   fun i hi => Instr.thumbStmia.elim i hi fun _ _ => reads rfl
    (pattern 0xF800).field.field,
   fun i hi => Instr.thumbLdmia.elim i hi fun _ _ => reads rfl
    (pattern 0xF800).field.field,
   fun i hi => Instr.thumbBCond.elim i hi fun _ _ => reads rfl
    (pattern 0xF000).cond.field fun w => by
      simp [Instr.wellFormed, Row.reads, Row.accepts, row, thumbCond, branch_excluded_iff]
      have := getD_al_eq_iff (Cond.ofBits (w.extractLsb' 8 4)); grind,
   fun i hi => Instr.thumbUndefCond.elim i hi fun _ => reads rfl
    (pattern 0xFF00).field,
   fun i hi => Instr.thumbSwi.elim i hi fun _ => reads rfl
    (pattern 0xFF00).field,
   fun i hi => Instr.thumbB.elim i hi fun _ => reads rfl
    (pattern 0xF800).field,
   fun i hi => Instr.thumbBlxSuffix.elim i hi fun _ => reads rfl
    (pattern 0xF801).field,
   fun i hi => Instr.thumbUndefBlx.elim i hi fun _ => reads rfl
    (pattern 0xF801).field⟩

theorem thumbRows5_spell : thumbRows5.Forall fun r => r.spells thumbCond .thumb :=
  ⟨fun i hi => Instr.thumbBlPrefix.elim i hi fun _ => reads rfl
    (pattern 0xF800).field,
   fun i hi => Instr.thumbBlSuffix.elim i hi fun _ => reads rfl
    (pattern 0xF800).field⟩

/-! ### The tables -/

theorem armRows_spell : ∀ r ∈ armRows, r.spells armCond .arm := by
  simp only [← List.forall_iff_forall_mem, armRows, List.forall_append, armRows1_spell, armRows2_spell,
    armRows3_spell, armRows4_spell, armRows5_spell, armRows6_spell, armRows7_spell, armRows8_spell, and_self]

theorem unconditionalRows_spell : ∀ r ∈ unconditionalRows, r.spells noCond .arm :=
  List.forall_iff_forall_mem.mp unconditionalRows1_spell

theorem thumbRows_spell : ∀ r ∈ thumbRows, r.spells thumbCond .thumb := by
  simp only [← List.forall_iff_forall_mem, thumbRows, List.forall_append, thumbRows1_spell, thumbRows2_spell,
    thumbRows3_spell, thumbRows4_spell, thumbRows5_spell, and_self]

/-- The constructors of the instructions that the rows of a table make, by number. -/
def constructorsOf {n : Nat} (rows : List (Row n)) : List Nat := rows.map fun r => (r.build .al 0).ctorIdx

theorem mem_constructorsOf {n : Nat} {rows : List (Row n)} {i : Instr} :
    i.ctorIdx ∈ constructorsOf rows ↔ ∃ r ∈ rows, r.makes i := by
  simp [constructorsOf, Row.makes, eq_comm]

/-- Every instruction has a row in one of the tables. -/
theorem exists_row_makes (i : Instr) :
    ((∃ r ∈ armRows, r.makes i) ∨ ∃ r ∈ unconditionalRows, r.makes i) ∨ ∃ r ∈ thumbRows, r.makes i := by
  have hi : i.ctorIdx < 192 := by cases i <;> simp [Instr.ctorIdx]
  have hall : ∀ k < 192, (k ∈ constructorsOf armRows ∨ k ∈ constructorsOf unconditionalRows) ∨
      k ∈ constructorsOf thumbRows := by decide +kernel
  simpa only [mem_constructorsOf] using hall _ hi

/-- A row reads the instructions of the constructor it makes. -/
theorem Row.makes_of_reads {n : Nat} {rows : List (Row n)} {r : Row n} {C : BitVec n → Cond → Prop} {w : BitVec n}
    {i : Instr} (hb : ∀ c w, constructorsOf rows = rows.map fun r => (r.build c w).ctorIdx) (hr : r ∈ rows)
    (h : r.reads C w i) : r.makes i := by
  obtain ⟨-, c, -, rfl⟩ := h
  exact (List.map_inj_left.mp (hb c w) r hr).symm

/-- What a table of right rows reads from a word is the well-formed instruction that the word encodes. -/
theorem exists_reads_iff {n : Nat} {rows : List (Row n)} {C : BitVec n → Cond → Prop} {mk : BitVec n → Encoded}
    (hinj : mk.Injective) (hb : ∀ c w, constructorsOf rows = rows.map fun r => (r.build c w).ctorIdx)
    (hs : ∀ r ∈ rows, r.spells C mk) (w : BitVec n) (i : Instr) :
    (∃ r ∈ rows, r.reads C w i) ↔ (∃ r ∈ rows, r.makes i) ∧ i.wellFormed = true ∧ encode i = mk w := by
  constructor
  · rintro ⟨r, hr, h⟩
    have hm := r.makes_of_reads hb hr h
    obtain ⟨v, hv, hw⟩ := hs r hr i hm
    obtain ⟨hwf, rfl⟩ := (hw w).mpr h
    exact ⟨⟨r, hr, hm⟩, hwf, hv⟩
  · rintro ⟨⟨r, hr, hm⟩, hwf, he⟩
    obtain ⟨v, hv, hw⟩ := hs r hr i hm
    exact ⟨r, hr, (hw w).mp ⟨hwf, hinj (hv.symm.trans he)⟩⟩

/-- The row of a table without overlaps that accepts a word is the row selected. -/
theorem exists_accepts_iff {n : Nat} {rows : List (Row n)} (hd : disjointRows rows = true) (w : BitVec n)
    (P : Row n → Prop) : (∃ r ∈ rows, r.accepts w = true ∧ P r) ↔ ∃ r, selectRow rows w = some r ∧ P r := by
  constructor
  · rintro ⟨r, hr, ha, hp⟩
    exact ⟨r, selectRow_eq hd hr ha, hp⟩
  · rintro ⟨r, hs, hp⟩
    exact ⟨r, List.mem_of_find?_eq_some hs, List.find?_eq_some_iff_append.mp hs |>.1, hp⟩

theorem decodeArm_eq_instr_iff (w : Word) (i : Instr) :
    decodeArm w = .instr i ↔
      (∃ r ∈ armRows, r.reads armCond w i) ∨ ∃ r ∈ unconditionalRows, r.reads noCond w i := by
  simp only [Row.reads, exists_accepts_iff armRows_disjoint, exists_accepts_iff unconditionalRows_disjoint, decodeArm,
    armCond, noCond]
  cases Cond.ofBits (w.extractLsb' 28 4) with
  | some c => cases selectRow armRows w <;> simp
  | none => cases selectRow unconditionalRows w <;> simp

theorem decodeThumb_eq_instr_iff (w : Half) (i : Instr) :
    decodeThumb w = .instr i ↔ ∃ r ∈ thumbRows, r.reads thumbCond w i := by
  simp only [Row.reads, exists_accepts_iff thumbRows_disjoint, decodeThumb, thumbCond]
  cases selectRow thumbRows w <;> simp

theorem arm_injective : Function.Injective Encoded.arm := fun _ _ => Encoded.arm.inj

theorem thumb_injective : Function.Injective Encoded.thumb := fun _ _ => Encoded.thumb.inj

/-- The decoder reads an instruction from a word of ARM state where it is well-formed and the word encodes it. -/
theorem decodeArm_iff (w : Word) (i : Instr) : decodeArm w = .instr i ↔ i.wellFormed = true ∧ encode i = .arm w := by
  rw [decodeArm_eq_instr_iff, exists_reads_iff arm_injective (fun _ _ => rfl) armRows_spell,
    exists_reads_iff arm_injective (fun _ _ => rfl) unconditionalRows_spell, ← or_and_right]
  refine and_iff_right_of_imp fun ⟨_, he⟩ => (exists_row_makes i).resolve_right ?_
  rintro ⟨r, hr, hm⟩
  obtain ⟨v, hv, -⟩ := thumbRows_spell r hr i hm
  cases he.symm.trans hv

/-- The decoder reads an instruction from a halfword of Thumb state where it is well-formed and the halfword encodes
it. -/
theorem decodeThumb_iff (w : Half) (i : Instr) :
    decodeThumb w = .instr i ↔ i.wellFormed = true ∧ encode i = .thumb w := by
  rw [decodeThumb_eq_instr_iff, exists_reads_iff thumb_injective (fun _ _ => rfl) thumbRows_spell]
  refine and_iff_right_of_imp fun ⟨_, he⟩ => (exists_row_makes i).resolve_left ?_
  rintro (⟨r, hr, hm⟩ | ⟨r, hr, hm⟩)
  · obtain ⟨v, hv, -⟩ := armRows_spell r hr i hm
    cases he.symm.trans hv
  · obtain ⟨v, hv, -⟩ := unconditionalRows_spell r hr i hm
    cases he.symm.trans hv

/-- Settles O2: the row of the instruction's constructor reads it from its encoding. -/
theorem armRoundTrip : Obligations.ArmRoundTrip := fun i w hwf he => (decodeArm_iff w i).mpr ⟨hwf, he⟩

/-- Settles O3: the row of the instruction's constructor reads it from its encoding. -/
theorem thumbRoundTrip : Obligations.ThumbRoundTrip := fun i w hwf he => (decodeThumb_iff w i).mpr ⟨hwf, he⟩

/-- Settles O4: a row that accepts a word makes an instruction of it whose encoding spells all bits of the word. -/
theorem decodeInverse : Obligations.DecodeInverse :=
  ⟨fun w i => (decodeArm_iff w i).mp, fun w i => (decodeThumb_iff w i).mp⟩

/-- Settles O1: the words are the encodings of the instructions. -/
theorem decodeSpecWords : Obligations.DecodeSpecWords := by
  simp only [Obligations.DecodeSpecWords, decode, decodeArm_iff, decodeThumb_iff]
  decide

end Sys2Proof
end

section
/-!
PROOFS. Data processing to a register and to r15 (O13, O14), the multiplies (O20, O21), the Thumb shifts (O46), the trap
instructions (O11) and PLD (O39).
-/
namespace Sys2Proof.Machine
open Sys2Proof

/-! ### The logical group (O14) -/

/-- AND, EOR, ORR, BIC, MOV and MVN with a register shifted by a register, none of them r15, end with their value. -/
theorem exec_logicalRegShift {s : State} {c : Cond} {sb : Bool} {rn rd rs rm : Reg} {sh : Shift} {i : Instr} {v : Word}
    (hc : condPassed c s.cpsr = true) (h15 : 15#4 ∉ [rd, rn, rs, rm])
    (h : (i, v) ∈ (logicalRegShift c sb rn rd rs sh rm).zip
      (logicalValues (s.reg rn) (s.regShiftOperand rm rs sh).value)) :
    exec i s = logicalTo sb rd v (s.regShiftOperand rm rs sh) s := by
  have h15' : 15#4 ∉ [rd, rs, rm] := fun hm => h15 (by simp_all)
  simp only [logicalRegShift, logicalValues, List.zip_cons_cons, List.zip_nil_right, List.mem_cons, List.not_mem_nil,
    or_false, Prod.mk.injEq] at h
  rcases h with ⟨rfl, rfl⟩ | ⟨rfl, rfl⟩ | ⟨rfl, rfl⟩ | ⟨rfl, rfl⟩ | ⟨rfl, rfl⟩ | ⟨rfl, rfl⟩
  case inr.inr.inr.inr.inl | inr.inr.inr.inr.inr =>
    exact (whenPassed_of_passed _ hc).trans (noPc_of_not_mem _ h15')
  all_goals exact (whenPassed_of_passed _ hc).trans (noPc_of_not_mem _ h15)

/-- One register and bits of the CPSR written, other than the mode and T, and on to the next instruction. -/
theorem State.setReg_setCpsr_spec (s : State) {rd : Reg} (v : Word) {p : Word} {bits : List Nat} (hd : rd ≠ 15#4)
    (hM : psrM p = psrM s.cpsr) (hb : ∀ i, i ∉ bits → p.getLsbD i = s.cpsr.getLsbD i) (h5 : 5 ∉ bits) :
    ((s.setReg rd v).setCpsr p).advance.reg rd = v ∧
      s.onlyWrites ((s.setReg rd v).setCpsr p).advance [rd] bits :=
  ⟨State.reg_setReg_setCpsr s v hM hd, State.onlyWrites_reg_cpsr s rd v p hb h5⟩

/-- The logical group with a destination other than r15 (R140). -/
theorem logicalTo_spec (sb : Bool) {rd : Reg} (v : Word) (o : Shifted) (s : State) (hd : rd ≠ 15#4) :
    ∃ t, logicalTo sb rd v o s = .next t ∧ t.reg rd = v ∧ s.onlyWrites t [rd] (if sb then [31, 30, 29] else []) ∧
      (sb = true → flagsNZ t.cpsr v ∧ psrC t.cpsr = o.carry) := by
  cases sb with
  | false =>
    obtain ⟨hv, hw⟩ := s.setReg_setCpsr_spec v (bits := []) hd rfl (fun _ _ => rfl) (by simp)
    exact ⟨_, dataResult_of_reg s hd, hv, hw, fun h => nomatch h⟩
  | true =>
    obtain ⟨hv, hw⟩ := s.setReg_setCpsr_spec v hd (psrM_withLogic s.cpsr v o.carry)
      (fun _ => onlyBits_withLogic s.cpsr v o.carry) (by simp)
    exact ⟨_, dataResult_of_reg s hd, hv, hw, fun _ => flags_withLogic s.cpsr v o.carry⟩

/-- Settles O14: in each of the three formats the instruction ends with its value, and `logicalTo_spec` says what that
writes. -/
theorem logicalToRegister : Obligations.LogicalToRegister := by
  intro s c sb rn rd rs rm rot imm8 n sh i o v hc hd h
  have hx : exec i s = logicalTo sb rd v o s := by
    rcases h with ⟨rfl, h⟩ | ⟨rfl, h⟩ | ⟨rfl, hn, hs, hm, h⟩
    · exact exec_logicalImm hc h
    · exact exec_logicalShift hc h
    · exact exec_logicalRegShift hc (by simp [hd.symm, hn.symm, hs.symm, hm.symm]) h
  rw [hx]
  exact logicalTo_spec sb v o s hd

/-! ### r15 as the destination with S = 0 (O13) -/

/-- With S = 0 and Rd = 15 the result is branched to (R140). -/
theorem dataResult_branches (psr v : Word) (s : State) : dataResult false 15#4 psr v s =
    if v.extractLsb' 0 2 = 0#2 then .next (s.setPc v) else .refused .misalignedPcWrite :=
  (if_pos rfl).trans (if_neg nofun)

/-- The frame of a branch that writes nothing but the PC. -/
theorem State.onlyJumps_setPc (s : State) (v : Word) : s.onlyJumps (s.setPc v) v [] [] :=
  ⟨rfl, State.onlyRegs_of_eq _ rfl, State.onlyBits_of_eq _ rfl, State.systemKept_refl s, ⟨rfl, rfl, rfl⟩,
    State.memoryKept_of_eq rfl rfl⟩

/-- Settles O13: the instruction is a branch to its result. -/
theorem branchByDataProcessing : Obligations.BranchByDataProcessing := by
  intro s c rn rm rot imm8 n sh i v hc h
  have hx : exec i s =
      if v.extractLsb' 0 2 = 0#2 then .next (s.setPc v) else .refused .misalignedPcWrite := by
    rcases h with h | h | ⟨r, rfl, h | h⟩
    · exact (exec_logicalImm hc h).trans (dataResult_branches _ _ s)
    · exact (exec_logicalShift hc h).trans (dataResult_branches _ _ s)
    · exact (exec_arithImm hc h).trans (dataResult_branches _ _ s)
    · exact (exec_arithShift hc h).trans (dataResult_branches _ _ s)
  rw [hx]
  exact ⟨fun hv => ⟨_, if_pos ((extract_two_zero v).mpr hv), s.onlyJumps_setPc v⟩,
    fun hv => if_neg (mt (extract_two_zero v).mp hv)⟩

/-! ### The multiplies (O20, O21) -/

/-- The end of a 32-bit multiply: N and Z with S = 1 (R156). -/
theorem multiplyTo_spec (sb : Bool) {rd : Reg} (v : Word) (s : State) (hd : rd ≠ 15#4) :
    ∃ t, multiplyTo sb rd v s = .next t ∧ t.reg rd = v ∧ s.onlyWrites t [rd] (if sb then [31, 30] else []) ∧
      (sb = true → flagsNZ t.cpsr v) := by
  cases sb with
  | false =>
    obtain ⟨hv, hw⟩ := s.setReg_setCpsr_spec v (bits := []) hd rfl (fun _ _ => rfl) (by simp)
    exact ⟨_, rfl, hv, hw, fun h => nomatch h⟩
  | true =>
    obtain ⟨hv, hw⟩ := s.setReg_setCpsr_spec v hd (psrM_withNZ s.cpsr v) (fun _ => onlyBits_withNZ s.cpsr v) (by simp)
    exact ⟨_, rfl, hv, hw, fun _ => flags_withNZ s.cpsr v⟩

/-- Settles O20: no register is r15 and Rd is not Rm, so the instruction ends with its product. -/
theorem multiplies : Obligations.Multiplies := by
  intro s c sb rd rn rs rm i v hc h15 hne h
  have hd : ∀ e ∈ [(rd, rm)], e.1 ≠ e.2 := by simpa using hne
  have hx : exec i s = multiplyTo sb rd v s := by
    simp only [List.mem_cons, List.not_mem_nil, or_false, Prod.mk.injEq] at h
    rcases h with ⟨rfl, rfl⟩ | ⟨rfl, rfl⟩
    · exact (whenPassed_of_passed _ hc).trans ((noPc_of_not_mem _ (by simp_all)).trans (distinct_of_ne _ hd))
    · exact (whenPassed_of_passed _ hc).trans ((noPc_of_not_mem _ h15).trans (distinct_of_ne _ hd))
  rw [hx]
  exact multiplyTo_spec sb v s fun h => h15 (by simp [h])

/-- The long multiplies are executed where no register is r15 and RdHi, RdLo and Rm differ (R158). -/
theorem longAllowed_of_ne {hi lo rs rm : Reg} (k : Result) (h15 : 15#4 ∉ [hi, lo, rs, rm]) (hl : hi ≠ lo)
    (hm : hi ≠ rm) (lm : lo ≠ rm) : longAllowed hi lo rs rm k = k :=
  (noPc_of_not_mem _ h15).trans (distinct_of_ne _ (by simp [hl, hm, lm]))

/-- The flags of a 64-bit result (R158). -/
theorem flags_withLongNZ (p : Word) (v : BitVec 64) :
    psrN (withLongNZ p v) = v.msb ∧ psrZ (withLongNZ p v) = (v == 0#64) := by
  refine ⟨?_, ?_⟩
  · rw [psrN, getLsbD_withLongNZ, BitVec.msb_eq_getLsbD_last]; rfl
  · rw [psrZ, getLsbD_withLongNZ]; rfl

/-- A register pair as a number of 64 bits. -/
theorem State.toNat_regPair (s : State) (hi lo : Reg) :
    (s.regPair hi lo).toNat = (s.reg hi).toNat * 2 ^ 32 + (s.reg lo).toNat := by
  rw [State.regPair, BitVec.toNat_append, ← Nat.shiftLeft_add_eq_or_of_lt (s.reg lo).isLt, Nat.shiftLeft_eq]

/-- Settles O21: each of the four ends with its 64-bit result, `longTo_spec`. -/
theorem longMultiplies : Obligations.LongMultiplies := by
  intro s c sb hi lo rs rm i p hc h15 hl hm lm h
  have hx : exec i s = longTo sb hi lo p s := by
    rcases h with ⟨rfl, hp⟩ | ⟨rfl, hp⟩ | ⟨rfl, hp⟩ | ⟨rfl, hp⟩
    all_goals refine (whenPassed_of_passed _ hc).trans ((longAllowed_of_ne _ h15 hl hm lm).trans ?_)
    · rw [← hp, BitVec.ofNat_toNat, BitVec.setWidth_eq]
    · have hv : BitVec.ofNat 64 ((s.reg rm).toNat * (s.reg rs).toNat + (s.regPair hi lo).toNat) = p :=
        BitVec.eq_of_toNat_eq (by rw [BitVec.toNat_ofNat, State.toNat_regPair, hp])
      rw [hv]
    · rw [← hp, BitVec.ofInt_toInt]
    · rw [State.toInt_regPair, ← Int.add_assoc, ← hp]
  obtain ⟨t, ht, hh, hlo, hw, hp⟩ :=
    longTo_spec sb p s (fun h => h15 (by simp [h])) (fun h => h15 (by simp [h])) hl
  refine ⟨t, hx.trans ht, hh, hlo, hw, ?_⟩
  rintro rfl
  rw [hp]
  exact flags_withLongNZ s.cpsr p

/-! ### The Thumb shifts (O46) -/

/-- The end of a Thumb shift: the word, N, Z and the carry (R260). -/
theorem thumbShift_spec (rd : LowReg) (o : Shifted) (s : State) :
    ∃ t, thumbShift rd o s = .next t ∧ t.reg (lowReg rd) = o.value ∧ s.onlyWrites t [lowReg rd] [31, 30, 29] ∧
      flagsNZ t.cpsr o.value ∧ psrC t.cpsr = o.carry := by
  obtain ⟨hv, hw⟩ := s.setReg_setCpsr_spec o.value (lowReg_ne_pc rd) (psrM_withLogic s.cpsr o.value o.carry)
    (fun _ => onlyBits_withLogic s.cpsr o.value o.carry) (by simp)
  exact ⟨_, rfl, hv, hw, flags_withLogic s.cpsr o.value o.carry⟩

/-- Settles O46: each of the seven ends with its shifted word. -/
theorem thumbShifts : Obligations.ThumbShifts := by
  intro s imm5 rm rd i o h
  have hx : exec i s = thumbShift rd o s := by
    simp only [List.mem_cons, List.not_mem_nil, or_false, Prod.mk.injEq] at h
    rcases h with ⟨rfl, rfl⟩ | ⟨rfl, rfl⟩ | ⟨rfl, rfl⟩ | ⟨rfl, rfl⟩ | ⟨rfl, rfl⟩ | ⟨rfl, rfl⟩ | ⟨rfl, rfl⟩ <;> rfl
  rw [hx]
  exact thumbShift_spec rd o s

/-! ### The trap instructions (O11) and PLD (O39) -/

/-- The address of the next instruction, with its length by state (R8, R26). -/
theorem State.nextPc_eq (s : State) : s.nextPc = s.pc + (if psrT s.cpsr then 2 else 4) := by
  rw [State.nextPc, State.size]
  split <;> rfl

/-- Settles O11: each of them ends with its exception, `takeException_tookException`. -/
theorem trapInstructions : Obligations.TrapInstructions := by
  intro s c imm24 p20 p4 b22 imm16 imm8 imm10 i e link hc h
  have hx : exec i s = .next (takeException e link s) := by
    simp only [List.mem_cons, List.not_mem_nil, or_false, Prod.mk.injEq] at h
    rcases h with ⟨rfl, rfl, rfl⟩ | ⟨rfl, rfl, rfl⟩ | ⟨rfl, rfl, rfl⟩ | ⟨rfl, rfl, rfl⟩ | ⟨rfl, rfl, rfl⟩ |
      ⟨rfl, rfl, rfl⟩ | ⟨rfl, rfl, rfl⟩ | ⟨rfl, rfl, rfl⟩
    case inl | inr.inr.inl | inr.inr.inr.inl => exact whenPassed_of_passed _ hc
    all_goals rfl
  exact ⟨s.nextPc_eq, _, hx, takeException_tookException e link s⟩

/-- Settles O39: PLD goes on to the next instruction. -/
theorem preloadNoEffect : Obligations.PreloadNoEffect := by
  intro s u rn rm off12 n sh
  refine ⟨⟨_, rfl, s.onlyWrites_advance_only⟩, fun hm => ?_, fun hm => noPc_of_mem _ (by simp [hm])⟩
  exact ⟨_, noPc_single _ hm, s.onlyWrites_advance_only⟩

end Sys2Proof.Machine
end

section
/-!
PROOFS. The branches of ARM and of Thumb state (O27, O28, O49).
-/
namespace Sys2Proof.Machine
open Sys2Proof

/-! ### Targets -/

/-- A signed offset in units of a power of two. -/
theorem signExtend_shiftLeft {n : Nat} (imm : BitVec n) (k : Nat) :
    imm.signExtend 32 <<< k = BitVec.ofInt 32 (2 ^ k * imm.toInt) := by
  have hk : BitVec.ofInt 32 (2 ^ k) = BitVec.twoPow 32 k := by
    rw [show (2 : Int) ^ k = ((2 ^ k : Nat) : Int) from (Nat.cast_pow 2 k).symm, BitVec.ofInt_natCast]
    exact BitVec.eq_of_toNat_eq (by rw [BitVec.toNat_ofNat, BitVec.toNat_twoPow])
  rw [BitVec.shiftLeft_eq_mul_twoPow, BitVec.ofInt_mul, hk, BitVec.mul_comm]
  rfl

/-- An address and a number added to it, as words. -/
theorem ofInt_toNat_add (a : Word) (i : Int) : BitVec.ofInt 32 (a.toNat + i) = a + BitVec.ofInt 32 i := by
  rw [BitVec.ofInt_add, BitVec.ofInt_natCast, BitVec.ofNat_toNat, BitVec.setWidth_eq]

theorem State.armTarget_eq (s : State) (imm24 : BitVec 24) :
    s.armTarget imm24 = BitVec.ofInt 32 (s.pc.toNat + 8 + 4 * imm24.toInt) := by
  rw [State.armTarget, signExtend_shiftLeft, Int.add_assoc, ofInt_toNat_add, BitVec.ofInt_add, BitVec.add_assoc]
  rfl

theorem State.thumbTarget_eq {n : Nat} (s : State) (imm : BitVec n) :
    s.thumbTarget imm = BitVec.ofInt 32 (s.pc.toNat + 4 + 2 * imm.toInt) := by
  rw [State.thumbTarget, signExtend_shiftLeft, Int.add_assoc, ofInt_toNat_add, BitVec.ofInt_add, BitVec.add_assoc]
  rfl

/-- The target of BLX with an offset: H counts for two bytes (R193). -/
theorem State.blxTarget_eq (s : State) (h : Bool) (imm24 : BitVec 24) :
    s.armTarget imm24 + (if h then 2 else 0) =
      BitVec.ofInt 32 (s.pc.toNat + 8 + 4 * imm24.toInt + 2 * (h.toNat : Int)) := by
  rw [State.armTarget_eq, BitVec.ofInt_add _ (2 * _)]
  cases h <;> rfl

/-! ### Frames -/

/-- A branch after writing registers. -/
theorem RegOnly.jumps {s u : State} {rs : List Reg} (h : RegOnly s u rs) (v : Word) :
    s.onlyJumps (u.setPc v) v rs [] :=
  ⟨rfl, h.regs, State.onlyBits_of_eq _ h.cpsr, h.sys, h.cp, State.memoryKept_of_eq h.mem h.stored⟩

/-- A branch to a state of the processor, after writing registers. -/
theorem RegOnly.jumpsTo {s u : State} {rs : List Reg} (h : RegOnly s u rs) (b : Bool) (v : Word) :
    s.onlyJumps ((u.setCpsr (setBit s.cpsr 5 b)).setPc v) v rs [5] := by
  refine ⟨rfl, h.regs, fun i hi => ?_, h.sys, h.cp, State.memoryKept_of_eq h.mem h.stored⟩
  have hi5 : i ≠ 5 := by simpa using hi
  simp [getLsbD_setBit, hi5]

/-- Bit 5 is T. -/
theorem psrT_setBit (p : Word) (b : Bool) : psrT (setBit p 5 b) = b := by
  rw [psrT, getLsbD_setBit, if_pos ⟨rfl, by decide⟩]

/-- Writing the link register is writing r14 only. -/
theorem RegOnly.link (s : State) (v : Word) : RegOnly s (s.setReg 14#4 v) [14#4] :=
  (RegOnly.refl s _).set v (List.mem_singleton_self _)

/-- A branch and exchange to a target it allows: nothing but T and the PC is written. -/
theorem branchExchange_spec (s : State) {v : Word} (hv : v.toNat % 4 ≠ 2) :
    ∃ t, branchExchange v s = .next t ∧ psrT t.cpsr = v.getLsbD 0 ∧ s.onlyJumps t (v - v % 2) [] [5] := by
  obtain ⟨t, ht, hT, -, -, hj⟩ := branchExchange_jumps s s v [] hv (State.onlyRegs_of_eq _ rfl) rfl
    (State.systemKept_refl s) ⟨rfl, rfl, rfl⟩ (State.memoryKept_of_eq rfl rfl)
  exact ⟨t, ht, hT, hj⟩

/-- A branch and exchange to a target it allows, after writing the link register. -/
theorem branchExchange_link_spec (s : State) {v link : Word} (hv : v.toNat % 4 ≠ 2) :
    ∃ t, branchExchange v (s.setReg 14#4 link) = .next t ∧ t.reg 14#4 = link ∧ psrT t.cpsr = v.getLsbD 0 ∧
      s.onlyJumps t (v - v % 2) [14#4] [5] := by
  have hl := RegOnly.link s link
  obtain ⟨t, ht, hT, hr, hm, hj⟩ := branchExchange_jumps s _ v [14#4] hv hl.regs hl.cpsr hl.sys hl.cp
    (State.memoryKept_of_eq hl.mem hl.stored)
  refine ⟨t, ht, ?_, hT, hj⟩
  rw [State.reg_congr_mode hr hm (by decide), State.reg_setReg_same _ _ _ (by decide)]

/-! ### ARM state (O27, O28) -/

/-- Settles O27: B sets the PC, BL also r14. -/
theorem armBranches : Obligations.ArmBranches := by
  intro s c imm24 target hc ht
  rw [← s.armTarget_eq] at ht
  subst ht
  exact ⟨⟨_, whenPassed_of_passed _ hc, s.onlyJumps_setPc _⟩, _, whenPassed_of_passed _ hc,
    State.reg_of_regs (s := s) (by simp) rfl (by decide), (RegOnly.link s _).jumps _⟩

/-- Settles O28: BX and BLX with a register are `branchExchange`, BLX with an offset is a branch to Thumb state. -/
theorem ArmBranches.branchExchange : Obligations.BranchExchange := by
  intro s c rm h imm24 v hv
  subst hv
  refine ⟨fun hc hv => ⟨?_, fun hm => ?_⟩, fun hc hv => ⟨?_, fun hm => ?_⟩, fun hc hm => ?_, ?_⟩
  · obtain ⟨t, ht, hT, hj⟩ := branchExchange_spec s hv
    exact ⟨t, (whenPassed_of_passed _ hc).trans ht, hT, hj⟩
  · obtain ⟨t, ht, hl, hT, hj⟩ := branchExchange_link_spec s (link := s.pc + 4) hv
    exact ⟨t, (whenPassed_of_passed _ hc).trans ((noPc_single _ hm).trans ht), hl, hT, hj⟩
  · exact (whenPassed_of_passed _ hc).trans (branchExchange_of_two s hv)
  · exact (whenPassed_of_passed _ hc).trans ((noPc_single _ hm).trans (branchExchange_of_two _ hv))
  · exact (whenPassed_of_passed _ hc).trans (noPc_of_mem _ (by simp [hm]))
  · rw [← s.blxTarget_eq]
    exact ⟨_, rfl, State.reg_of_regs (s := s) (psrM_setBit _ _ _ (by decide)) rfl (by decide), psrT_setBit _ _,
      (RegOnly.link s _).jumpsTo true _⟩

/-! ### Thumb state (O49) -/

/-- Settles O49: B sets the PC, the first half of BL writes r14, the second halves branch and leave the link, BX and BLX
with a register are `branchExchange`. -/
theorem thumbBranches : Obligations.ThumbBranches := by
  intro s c imm8 imm11 imm10 rm v hv
  subst hv
  refine ⟨fun hc => ?_, fun hc => ?_, ?_, ?_, ?_, ?_, fun hv => ⟨?_, fun hm => ?_⟩, fun hv => ⟨?_, fun hm => ?_⟩,
    fun hm => ?_⟩
  · rw [← s.thumbTarget_eq]
    exact ⟨_, whenPassed_of_passed _ hc, s.onlyJumps_setPc _⟩
  · exact ⟨_, whenPassed_of_failed _ hc, s.onlyWrites_advance_only⟩
  · rw [← s.thumbTarget_eq]
    exact ⟨_, rfl, s.onlyJumps_setPc _⟩
  · obtain ⟨hr, hw⟩ := s.setReg_advance_spec (rd := 14#4) (s.pc + 4 + (imm11.signExtend 32 <<< 12)) (by decide)
    refine ⟨_, rfl, hw, hr.trans ?_⟩
    rw [signExtend_shiftLeft, Int.add_assoc, ofInt_toNat_add, BitVec.ofInt_add, BitVec.add_assoc]
    rfl
  · refine ⟨_, _, rfl, rfl, ?_, State.reg_of_regs (s := s) (by simp) rfl (by decide)⟩
    rw [scaled2_eq, clear_low_bit]
    exact (RegOnly.link s _).jumps _
  · refine ⟨_, _, rfl, rfl, ?_, psrT_setBit _ _,
      State.reg_of_regs (s := s) (psrM_setBit _ _ _ (by decide)) rfl (by decide)⟩
    rw [scaled4_eq, wordAlign_eq]
    exact (RegOnly.link s _).jumpsTo false _
  · exact branchExchange_spec s hv
  · obtain ⟨t, ht, hl, hT, hj⟩ := branchExchange_link_spec s (link := s.thumbLink) hv
    exact ⟨t, (noPc_single _ hm).trans ht, hT, hj, hl⟩
  · exact branchExchange_of_two s hv
  · exact (noPc_single _ hm).trans (branchExchange_of_two _ hv)
  · exact noPc_of_mem _ (by simp [hm])

end Sys2Proof.Machine
end

section
/-!
PROOFS. The shifter operand, amount by amount (O18).
-/
namespace Sys2Proof.Machine
open Sys2Proof

/-! ### The shifts by amount -/

section
variable {v : Word} {n : Nat} {c : Bool}

theorem shiftLsl_of_le (h1 : 1 ≤ n) (h32 : n ≤ 32) : shiftLsl v n c = ⟨v <<< n, v.getLsbD (32 - n)⟩ :=
  (if_neg (by omega)).trans (if_pos h32)

theorem shiftLsr_of_le (h1 : 1 ≤ n) (h32 : n ≤ 32) : shiftLsr v n c = ⟨v >>> n, v.getLsbD (n - 1)⟩ :=
  (if_neg (by omega)).trans (if_pos h32)

theorem shiftLsl_of_gt (h : 33 ≤ n) : shiftLsl v n c = ⟨0#32, false⟩ := (if_neg (by omega)).trans (if_neg (by omega))

theorem shiftLsr_of_gt (h : 33 ≤ n) : shiftLsr v n c = ⟨0#32, false⟩ := (if_neg (by omega)).trans (if_neg (by omega))

theorem shiftAsr_of_lt (h1 : 1 ≤ n) (h32 : n < 32) : shiftAsr v n c = ⟨v.sshiftRight n, v.getLsbD (n - 1)⟩ :=
  (if_neg (by omega)).trans (if_pos h32)

/-- LSL by 32 leaves no bit, and the last one out is bit 0. -/
theorem shiftLsl_32 : shiftLsl v 32 c = ⟨0#32, v.getLsbD 0⟩ := by
  rw [shiftLsl_of_le (by decide) (by decide), BitVec.shiftLeft_eq_zero (by decide)]

/-- LSR by 32 leaves no bit, and the last one out is bit 31. -/
theorem shiftLsr_32 : shiftLsr v 32 c = ⟨0#32, v.getLsbD 31⟩ := by
  rw [shiftLsr_of_le (by decide) (by decide), BitVec.ushiftRight_eq_zero (by decide)]

/-- ASR by 32 or more fills the word, and the carry, with bit 31. -/
theorem shiftAsr_of_ge (h : 32 ≤ n) : shiftAsr v n c = ⟨if v.msb then 0xFFFFFFFF#32 else 0#32, v.msb⟩ := by
  have hv : v.sshiftRight 32 = if v.msb then 0xFFFFFFFF#32 else 0#32 := by
    ext i hi
    rw [BitVec.getElem_sshiftRight, dif_neg (by omega)]
    cases v.msb
    · simp
    · exact (BitVec.getElem_allOnes i hi).symm
  rw [← hv]
  exact (if_neg (by omega)).trans (if_neg (by omega))

/-- ROR by a multiple of 32 other than 0 moves nothing, and the carry is bit 31. -/
theorem shiftRor_of_mod_eq (h0 : n ≠ 0) (h : n % 32 = 0) : shiftRor v n c = ⟨v, v.msb⟩ :=
  (if_neg h0).trans (if_pos h)

theorem shiftRor_of_mod_ne (h : n % 32 ≠ 0) : shiftRor v n c = ⟨v.rotateRight (n % 32), v.getLsbD (n % 32 - 1)⟩ :=
  (if_neg (by omega)).trans (if_neg h)

end

/-! ### The operands -/

/-- The amount of a shift by a register is its low byte (R107). -/
theorem extract_byte_toNat (v : Word) : (v.extractLsb' 0 8).toNat = v.toNat % 256 := by
  simp [BitVec.extractLsb'_toNat]

/-- A register shifted by another is the shift by its low byte. -/
theorem State.regShiftOperand_eq (s : State) (rm rs : Reg) {n : Nat} (hn : n = (s.reg rs).toNat % 256) :
    s.regShiftOperand rm rs .lsl = shiftLsl (s.reg rm) n (psrC s.cpsr) ∧
    s.regShiftOperand rm rs .lsr = shiftLsr (s.reg rm) n (psrC s.cpsr) ∧
    s.regShiftOperand rm rs .asr = shiftAsr (s.reg rm) n (psrC s.cpsr) ∧
    s.regShiftOperand rm rs .ror = shiftRor (s.reg rm) n (psrC s.cpsr) := by
  rw [← extract_byte_toNat] at hn
  subst hn
  exact ⟨rfl, rfl, rfl, rfl⟩

/-- Immediate amounts of 1 to 31 (R106). -/
theorem State.shiftOperand_of_ne (s : State) (rm : Reg) {n : BitVec 5} (hn : n ≠ 0#5) :
    s.shiftOperand rm .lsl n = ⟨s.reg rm <<< n.toNat, (s.reg rm).getLsbD (32 - n.toNat)⟩ ∧
    s.shiftOperand rm .lsr n = ⟨s.reg rm >>> n.toNat, (s.reg rm).getLsbD (n.toNat - 1)⟩ ∧
    s.shiftOperand rm .asr n = ⟨(s.reg rm).sshiftRight n.toNat, (s.reg rm).getLsbD (n.toNat - 1)⟩ ∧
    s.shiftOperand rm .ror n = ⟨(s.reg rm).rotateRight n.toNat, (s.reg rm).getLsbD (n.toNat - 1)⟩ := by
  have h1 : 1 ≤ n.toNat := Nat.one_le_iff_ne_zero.mpr fun h => hn (BitVec.eq_of_toNat_eq h)
  have h32 : n.toNat < 32 := n.isLt
  have hm : n.toNat % 32 = n.toNat := Nat.mod_eq_of_lt h32
  have hr := shiftRor_of_mod_ne (v := s.reg rm) (c := psrC s.cpsr) (n := n.toNat) (by omega)
  rw [hm] at hr
  simp only [State.shiftOperand, shiftByImm, if_neg hn]
  exact ⟨shiftLsl_of_le h1 h32.le, shiftLsr_of_le h1 h32.le, shiftAsr_of_lt h1 h32, hr⟩

/-- Settles O18: each format is one of the shifts by an amount, and each clause one range of its amounts. -/
theorem shifterOperands : Obligations.ShifterOperands := by
  refine ⟨fun s rot imm8 => ⟨rfl, fun h => if_pos h, fun h => if_neg h⟩, fun s hT => ?_, fun s rm n v hv => ?_,
    fun s rm rs v n hv hn => ?_⟩
  · simp [State.reg, bank, State.pcRead, hT]
  · subst hv
    exact ⟨rfl, shiftLsr_32 (c := psrC s.cpsr), shiftAsr_of_ge (n := 32) (c := psrC s.cpsr) le_rfl,
      congrArg (Shifted.mk · _) (setBit_shiftRight_one (s.reg rm) (psrC s.cpsr)), s.shiftOperand_of_ne rm⟩
  · subst hv
    obtain ⟨hl, hr, ha, ho⟩ := s.regShiftOperand_eq rm rs hn
    rw [hl, hr, ha, ho]
    refine ⟨fun h0 sh => ?_, fun h => ?_, fun h => ?_, fun h => ⟨shiftLsl_of_gt h, shiftLsr_of_gt h⟩, shiftAsr_of_ge,
      shiftRor_of_mod_eq, shiftRor_of_mod_ne⟩
    · subst h0
      cases sh
      · exact hl
      · exact hr
      · exact ha
      · exact ho
    · exact ⟨shiftLsl_of_le h.1 (by omega), shiftLsr_of_le h.1 (by omega), shiftAsr_of_lt h.1 (by omega)⟩
    · subst h
      exact ⟨shiftLsl_32, shiftLsr_32⟩

end Sys2Proof.Machine
end

section
/-!
PROOFS. PUSH, POP, STMIA and LDMIA (O52).
-/
namespace Sys2Proof.Machine
open Sys2Proof

/-! ### The lists of the Thumb transfers -/

/-- The list names low registers, and r14 or r15 where the instruction adds it (R323, R331 to R333). -/
theorem mem_thumbListed {list : BitVec 8} {extra : Bool} {q r : Reg} :
    r ∈ thumbListed list extra q ↔ list.getLsbD r.toNat = true ∨ extra = true ∧ r = q := by
  have hlow : r ∈ listed (list.setWidth 16) ↔ list.getLsbD r.toNat = true := by
    simp [mem_listed, r.isLt]
  cases extra <;> simp [thumbListed, hlow]

/-- A register from r8 on is in the list only if the instruction adds it. -/
theorem not_mem_thumbListed {list : BitVec 8} {extra : Bool} {q r : Reg} (h8 : 8 ≤ r.toNat)
    (hq : extra = true → r ≠ q) : r ∉ thumbListed list extra q := by
  rw [mem_thumbListed, BitVec.getLsbD_of_ge _ _ h8]
  simpa using hq

theorem thumbListed_nodup (list : BitVec 8) {extra : Bool} {q : Reg} (hq : extra = true → 8 ≤ q.toNat) :
    (thumbListed list extra q).Nodup := by
  have hn := listed_nodup (list.setWidth 16)
  cases extra with
  | false => simpa [thumbListed] using hn
  | true =>
    have hnot : q ∉ thumbListed list false q := not_mem_thumbListed (hq rfl) nofun
    rw [thumbListed, if_neg nofun, List.append_nil] at hnot
    exact hn.append (List.nodup_singleton q) (by simpa using hnot)

/-- A list without repetition names at most the sixteen registers. -/
theorem length_le_of_nodup {regs : List Reg} (h : regs.Nodup) : regs.length ≤ 16 := by
  have hall : ∀ r : Reg, r ∈ allRegs := by decide
  exact (h.subperm fun r _ => hall r).length_le

/-! ### PUSH and STMIA -/

section
variable {s : State} {list : BitVec 8} {regs : List Reg}

/-- PUSH stores its list below the stack pointer, which it lowers to the first word (R332). -/
theorem thumbPush_spec {r : Bool} {start : Word} (hne : regs ≠ []) (hregs : regs = thumbListed list r 14#4)
    (hstart : start = s.reg 13#4 - BitVec.ofNat 32 (4 * regs.length))
    (hs : ∀ k < regs.length, s.storesWord s.privileged (wordPlace start k)) :
    ∃ t, exec (.thumbPush r list) s = .next t ∧ t.reg 13#4 = start ∧
      (∀ (k : Nat) (q : Reg), regs[k]? = some q → t.wordAt (wordAlign (wordPlace start k)) = some (s.reg q)) ∧
      s.onlyStores t [13#4] (wordAlign start) (4 * regs.length) := by
  have hlen : regs.length ≤ 16 := length_le_of_nodup (hregs ▸ thumbListed_nodup list fun _ => by decide)
  obtain ⟨t, ht, hw, hb, ho⟩ := storeList_spec s.reg true (rn := 13#4) start (by decide) hlen hs
  refine ⟨t, ?_, hb rfl, hw, ho⟩
  subst hregs hstart
  exact (multipleAllowed_of_ne (rn := 13#4) _ (by decide) hne).trans ht

variable {rb : LowReg} (hne : regs ≠ []) (hregs : regs = thumbListed list false 0#4)
include hne hregs

/-- STMIA refuses a listed base that is not the lowest register (R331). -/
theorem thumbStmia_refuses (h : ¬lowestIfListed (lowReg rb) regs) :
    exec (.thumbStmia rb list) s = .refused .baseInList := by
  simp only [lowestIfListed, not_forall, Nat.not_le] at h
  obtain ⟨hm, r, hr, hlt⟩ := h
  subst hregs
  exact (multipleAllowed_of_ne _ (lowReg_ne_pc rb) hne).trans (baseLowest_of_lt _ hm hr hlt)

/-- STMIA stores its list from the base on, and raises the base (R331). -/
theorem thumbStmia_spec (h : lowestIfListed (lowReg rb) regs)
    (hs : ∀ k < regs.length, s.storesWord s.privileged (wordPlace (s.reg (lowReg rb)) k)) :
    ∃ t, exec (.thumbStmia rb list) s = .next t ∧
      t.reg (lowReg rb) = s.reg (lowReg rb) + BitVec.ofNat 32 (4 * regs.length) ∧
      (∀ (k : Nat) (q : Reg), regs[k]? = some q →
        t.wordAt (wordAlign (wordPlace (s.reg (lowReg rb)) k)) = some (s.reg q)) ∧
      s.onlyStores t [lowReg rb] (wordAlign (s.reg (lowReg rb))) (4 * regs.length) := by
  have hlen : regs.length ≤ 16 := length_le_of_nodup (hregs ▸ thumbListed_nodup list nofun)
  obtain ⟨t, ht, hw, hb, ho⟩ := storeList_spec s.reg true (rn := lowReg rb)
    (s.reg (lowReg rb) + BitVec.ofNat 32 (4 * regs.length)) (lowReg_ne_pc rb) hlen hs
  refine ⟨t, ?_, hb rfl, hw, ho⟩
  subst hregs
  exact (multipleAllowed_of_ne _ (lowReg_ne_pc rb) hne).trans ((baseLowest_of_le _ fun _ => h).trans ht)

end

/-! ### POP and LDMIA -/

section
variable {s : State} {list : BitVec 8} {regs : List Reg} {words : Nat → Word}

/-- POP reads its list from the stack pointer on, raises it, and branches to the last word where r15 is listed
(R333). -/
theorem exec_thumbPop {r : Bool} (hne : regs ≠ []) (hregs : regs = thumbListed list r 15#4)
    (hr : ∀ k < regs.length, s.readsWord s.privileged (wordPlace (s.reg 13#4) k) (words k)) :
    exec (.thumbPop r list) s =
      if r then branchExchange (words (regs.length - 1))
        (s.loadedMultiple regs words true 13#4 (s.reg 13#4 + BitVec.ofNat 32 (4 * regs.length)))
      else .next (s.loadedMultiple regs words true 13#4
        (s.reg 13#4 + BitVec.ofNat 32 (4 * regs.length))).advance := by
  subst hregs
  refine (multipleAllowed_of_ne (rn := 13#4) _ (by decide) hne).trans ((loadRegs_of_reads _ _ hr).trans ?_)
  rw [getLastD_range_map _ _ fun h0 => hne (List.length_eq_zero_iff.mp h0)]
  rfl

/-- The end of a POP whose target, if it has one, is allowed. -/
theorem thumbPop_spec {r : Bool} {last : Word} (hne : regs ≠ []) (hregs : regs = thumbListed list r 15#4)
    (hlast : last = words (regs.length - 1))
    (hr : ∀ k < regs.length, s.readsWord s.privileged (wordPlace (s.reg 13#4) k) (words k))
    (h2 : r = true → last.toNat % 4 ≠ 2) :
    ∃ t, exec (.thumbPop r list) s = .next t ∧ t.reg 13#4 = s.reg 13#4 + BitVec.ofNat 32 (4 * regs.length) ∧
      (∀ (k : Nat) (q : Reg), regs[k]? = some q → q ≠ 15#4 → t.reg q = words k) ∧
      (r = false → s.onlyWrites t (13#4 :: regs) []) ∧
      (r = true → psrT t.cpsr = last.getLsbD 0 ∧ s.onlyJumps t (last - last % 2) (13#4 :: regs) [5]) := by
  have hn : regs.Nodup := hregs ▸ thumbListed_nodup list fun _ => by decide
  have h13 : 13#4 ∉ regs := hregs ▸ not_mem_thumbListed (by decide) fun _ => by decide
  rw [exec_thumbPop hne hregs hr, ← hlast]
  generalize s.reg 13#4 + BitVec.ofNat 32 (4 * regs.length) = base
  have hword := fun k q => State.reg_loadedMultiple (s := s) words base hn (wb := true) (fun _ => h13) (k := k) (r := q)
  have hbase := State.base_loadedMultiple (s := s) (regs := regs) words base (wb := true) (rn := 13#4) rfl (by decide)
  have hframe := RegOnly.loadedMultiple (s := s) (regs := regs) (wb := true) (rn := 13#4) words base
  cases r with
  | false =>
    refine ⟨_, rfl, ?_, fun k q hk h15 => ?_, fun _ => hframe.advance, nofun⟩
    · rw [State.reg_advance _ (by decide), hbase]
    · rw [State.reg_advance _ h15, hword k q hk h15]
  | true =>
    obtain ⟨-, hcpsr, hsys, hcp, hmem, hstored, honly⟩ := hframe
    obtain ⟨t, ht, hT, htr, htm, hj⟩ := branchExchange_jumps s _ _ _ (h2 rfl) honly hcpsr hsys hcp
      (State.memoryKept_of_eq hmem hstored)
    refine ⟨t, ht, ?_, fun k q hk h15 => ?_, nofun, fun _ => ⟨hT, hj⟩⟩
    · rw [State.reg_congr_mode htr htm (by decide), hbase]
    · rw [State.reg_congr_mode htr htm h15, hword k q hk h15]

/-- LDMIA reads its list from the base on, and raises a base that is not listed (R323). -/
theorem thumbLdmia_spec {rb : LowReg} (hne : regs ≠ []) (hregs : regs = thumbListed list false 0#4)
    (hr : ∀ k < regs.length, s.readsWord s.privileged (wordPlace (s.reg (lowReg rb)) k) (words k)) :
    ∃ t, exec (.thumbLdmia rb list) s = .next t ∧
      (∀ (k : Nat) (q : Reg), regs[k]? = some q → t.reg q = words k) ∧
      (lowReg rb ∉ regs → t.reg (lowReg rb) = s.reg (lowReg rb) + BitVec.ofNat 32 (4 * regs.length)) ∧
      s.onlyWrites t (lowReg rb :: regs) [] := by
  have hn : regs.Nodup := hregs ▸ thumbListed_nodup list nofun
  have h15 : 15#4 ∉ regs := hregs ▸ not_mem_thumbListed (by decide) nofun
  have hend : exec (.thumbLdmia rb list) s = .next (s.loadedMultiple regs words (!regs.contains (lowReg rb)) (lowReg rb)
      (s.reg (lowReg rb) + BitVec.ofNat 32 (4 * regs.length))).advance := by
    subst hregs
    refine (multipleAllowed_of_ne _ (lowReg_ne_pc rb) hne).trans ((loadRegs_of_reads _ _ hr).trans ?_)
    unfold State.loadedMultiple
    cases (thumbListed list false 0#4).contains (lowReg rb) <;> rfl
  generalize hwb : (!regs.contains (lowReg rb)) = wb at hend
  have hmem : wb = true → lowReg rb ∉ regs := by
    rintro rfl
    simpa using hwb
  refine ⟨_, hend, fun k q hk => ?_, fun hnot => ?_, ?_⟩
  · have hq : q ≠ 15#4 := fun h => h15 (h ▸ List.mem_of_getElem? hk)
    rw [State.reg_advance _ hq, State.reg_loadedMultiple words _ hn hmem hk hq]
  · have hw : wb = true := by simpa [hnot] using hwb.symm
    rw [State.reg_advance _ (lowReg_ne_pc rb), State.base_loadedMultiple words _ hw (lowReg_ne_pc rb)]
  · refine ((RegOnly.loadedMultiple words _).mono fun q hq => ?_).advance
    cases wb
    · exact List.mem_cons_of_mem _ hq
    · exact hq

end

/-- Settles O52: each clause by the lemma about its instruction above. -/
theorem thumbStack : Obligations.ThumbStack := by
  refine ⟨fun list r q => rfl, fun s rb i hi => ?_, ?_⟩
  · simp only [List.mem_cons, List.not_mem_nil, or_false] at hi
    rcases hi with rfl | rfl | rfl | rfl
    iterate 2 rfl
    iterate 2 exact multipleAllowed_of_nil _ (lowReg_ne_pc rb)
  · rintro s r rb list regs start last words n hne rfl rfl
    refine ⟨fun hregs hstart hs => thumbPush_spec hne hregs hstart hs, fun hregs hstart hr h2 => ?_,
      fun hregs hstart hr h2 => ?_, fun hregs h => thumbStmia_refuses hne hregs h, fun hregs h hstart hs => ?_,
      fun hregs hstart hr => ?_⟩
    · subst hstart
      exact thumbPop_spec hne hregs rfl hr h2
    · subst hstart
      rw [exec_thumbPop hne hregs hr]
      exact branchExchange_of_two _ h2
    · subst hstart
      exact thumbStmia_spec hne hregs h hs
    · subst hstart
      exact thumbLdmia_spec hne hregs hr

end Sys2Proof.Machine
end

section
/-!
PROOFS. LDC and STC of an attached coprocessor that accepts them (O44).
-/
namespace Sys2Proof.Machine
open Sys2Proof

/-- The state in which an accepted coprocessor instruction runs (R240, R256). -/
def State.committed (s : State) (answers : List CpAnswer) (free : Nat) : State :=
  { s with cpAnswers := answers, freeCount := free, cpWaiting := false }

/-- An instruction that the coprocessors accept goes on with what they supply. -/
theorem offer_of_accept {i : Instr} {s v : State} {first second : Word} {more : List Word}
    (h : s.coprocessor i = (.accept first second more, v)) :
    ∃ n, ∀ k, offer i s k = k first second more (s.committed v.cpAnswers n) := by
  obtain ⟨as, n, hv⟩ := s.coprocessor_state i
  rw [h] at hv
  obtain rfl : v = _ := hv
  refine ⟨n, fun k => ?_⟩
  rw [offer, h]
  rfl

theorem cpBaseAllowed_of_ne {wb : Bool} {rn : Reg} (k : Result) (h : wb = true → rn ≠ 15#4) :
    cpBaseAllowed wb rn k = k := by
  cases wb with
  | false => rfl
  | true => exact noPc_single k (h rfl)

theorem cpBaseAllowed_of_pc (k : Result) : cpBaseAllowed true 15#4 k = .refused .r15Operand := rfl

/-- The target and the first address of a coprocessor transfer, which being accepted does not change (R123). -/
theorem State.committed_address (s : State) {p u : Bool} {rn : Reg} {off8 : BitVec 8} {target start : Word}
    (ht : target = if u then s.reg rn + 4 * off8.setWidth 32 else s.reg rn - 4 * off8.setWidth 32)
    (hs : start = if p then target else s.reg rn) (answers : List CpAnswer) (free : Nat) :
    (s.committed answers free).cpAddress p u rn off8 = start ∧
      (s.committed answers free).cpTarget u rn off8 = target := by
  have htarget : (s.committed answers free).cpTarget u rn off8 = target := by
    rw [State.cpTarget, scaled4_eq, ht]
    rfl
  refine ⟨?_, htarget⟩
  rw [State.cpAddress, htarget, hs]
  rfl

/-- Nothing stored is no byte changed. -/
theorem MemOnly.refl (s : State) (a : Word) : MemOnly s s a 0 :=
  ⟨rfl, rfl, State.systemKept_refl s, ⟨rfl, rfl, rfl⟩, rfl, fun _ _ => rfl⟩

/-- The end of a coprocessor transfer: the base with W = 1, and the record of what was handed over (R246, R247). -/
theorem State.sent_spec {s m : State} {answers : List CpAnswer} {free : Nat} {a : Word} {n : Nat}
    (h : MemOnly (s.committed answers free) m a n) {wb : Bool} {rn : Reg} (target : Word) (hb : wb = true → rn ≠ 15#4)
    (i : Instr) (data : List Word) :
    ∃ t, ((if wb then m.setReg rn target else m).send i data true).advance = t ∧ t.mem = m.mem ∧
      t.config = m.config ∧ t.stored = m.stored ∧ t.pc = s.nextPc ∧ s.onlyRegs t (if wb then [rn] else []) ∧
      t.cpsr = s.cpsr ∧ (wb = true → t.reg rn = target) ∧ s.systemKept t ∧ s.memoryKeptOutside t a n ∧
      t.cpAnswers = answers ∧ t.cpSent = s.cpSent ++ [⟨i, s.privileged, data, true⟩] := by
  obtain ⟨t, ht, hmem, hcfg, hreg, hpc, hregs, hcpsr, hsys, ⟨hans, hsent, -⟩, hout⟩ :=
    finishStore_spec h ⟨0, wb, target⟩ rn hb
  cases ht
  refine ⟨_, rfl, hmem, hcfg, ?_, hpc, hregs, hcpsr, hreg, hsys, hout, hans, ?_⟩
  · cases wb <;> simp [State.send]
  · have hpriv : (if wb then m.setReg rn target else m).privileged = s.privileged :=
      congrArg (psrM · != 0b10000#5) hcpsr
    exact congrArg₂ (fun l p => l ++ [⟨i, p, data, true⟩]) hsent hpriv

section
variable {s v : State} {i : Instr} {p u wb : Bool} {rn : Reg} {off8 : BitVec 8} {first second : Word}
  {more : List Word} (h : s.coprocessor i = (.accept first second more, v))
include h

/-- A base of r15 that would be written back is refused once the instruction is accepted (U14). -/
theorem ldcWith_of_pc : ldcWith i p u true 15#4 off8 s = .refused .r15Operand := by
  obtain ⟨n, hk⟩ := offer_of_accept h
  exact hk _

theorem stcWith_of_pc : stcWith i p u true 15#4 off8 s = .refused .r15Operand := by
  obtain ⟨n, hk⟩ := offer_of_accept h
  exact hk _

variable {target start : Word} {words : Nat → Word} (hb : wb = true → rn ≠ 15#4)
  (ht : target = if u then s.reg rn + 4 * off8.setWidth 32 else s.reg rn - 4 * off8.setWidth 32)
  (hs : start = if p then target else s.reg rn)
include hb ht hs

/-- LDC that reads its words hands them over and writes no byte (R246). -/
theorem ldcWith_spec (hr : ∀ k ≤ more.length, s.readsWord s.privileged (wordPlace start k) (words k)) :
    ∃ t, ldcWith i p u wb rn off8 s = .next t ∧ t.pc = s.nextPc ∧ s.onlyRegs t (if wb then [rn] else []) ∧
      t.cpsr = s.cpsr ∧ (wb = true → t.reg rn = target) ∧ s.systemKept t ∧ s.memoryKept t ∧
      t.cpAnswers = v.cpAnswers ∧
      t.cpSent = s.cpSent ++ [⟨i, s.privileged, (List.range (more.length + 1)).map words, true⟩] := by
  obtain ⟨n, hk⟩ := offer_of_accept h
  obtain ⟨t, hend, hmem, -, hst, hpc, hregs, hcpsr, hreg, hsys, -, hans, hsent⟩ :=
    State.sent_spec (MemOnly.refl (s.committed v.cpAnswers n) 0) target hb i ((List.range (more.length + 1)).map words)
  refine ⟨t, ?_, hpc, hregs, hcpsr, hreg, hsys, State.memoryKept_of_eq hmem hst, hans, hsent⟩
  obtain ⟨haddr, htarget⟩ := s.committed_address ht hs v.cpAnswers n
  have hread : (s.committed v.cpAnswers n).loadWords (s.committed v.cpAnswers n).privileged (more.length + 1) start =
      _ := State.loadWords_of_reads fun k hlt => hr k (Nat.lt_succ_iff.mp hlt)
  rw [ldcWith, hk, cpBaseAllowed_of_ne _ hb, haddr, hread, htarget, ← hend]

/-- STC that stores its words changes no other byte (R247). -/
theorem stcWith_spec (hlen : more.length < 2 ^ 29)
    (hw : ∀ k ≤ more.length, s.storesWord s.privileged (wordPlace start k)) :
    ∃ t, stcWith i p u wb rn off8 s = .next t ∧ t.pc = s.nextPc ∧ s.onlyRegs t (if wb then [rn] else []) ∧
      t.cpsr = s.cpsr ∧ (wb = true → t.reg rn = target) ∧ s.systemKept t ∧
      s.memoryKeptOutside t (wordAlign start) (4 * (more.length + 1)) ∧
      (∀ k, k ≤ more.length → t.wordAt (wordAlign (wordPlace start k)) = (first :: more)[k]?) ∧
      t.cpAnswers = v.cpAnswers ∧ t.cpSent = s.cpSent ++ [⟨i, s.privileged, [], true⟩] := by
  obtain ⟨n, hk⟩ := offer_of_accept h
  obtain ⟨m, hm, honly, hwords⟩ := State.storeWords_of_stores (s := s.committed v.cpAnswers n) (priv := s.privileged)
    (a := start) (first :: more) (by rw [List.length_cons]; omega) fun k hlt => hw k (Nat.lt_succ_iff.mp hlt)
  obtain ⟨t, hend, hmem, hcfg, -, hpc, hregs, hcpsr, hreg, hsys, hout, hans, hsent⟩ :=
    State.sent_spec honly target hb i []
  refine ⟨t, ?_, hpc, hregs, hcpsr, hreg, hsys, hout, fun k hle => ?_, hans, hsent⟩
  · obtain ⟨haddr, htarget⟩ := s.committed_address ht hs v.cpAnswers n
    have hstore : (s.committed v.cpAnswers n).storeWords (s.committed v.cpAnswers n).privileged start (first :: more) =
      .done m := hm
    rw [stcWith, hk, cpBaseAllowed_of_ne _ hb, haddr, hstore, htarget, ← hend]
  · rw [State.wordAt_congr hmem hcfg, hwords k (Nat.lt_succ_of_le hle)]

end

/-- Settles O44: LDC and LDC2 are `ldcWith`, STC and STC2 `stcWith`, of an instruction that is accepted. -/
theorem coprocessorTransfers : Obligations.CoprocessorTransfers := by
  intro s c crd cp rn p u l wb off8 first second more v i target start words hc hcp h
  have hx : ∀ k, whenPassed c s (notCp14 cp k) = k := fun k => (whenPassed_of_passed _ hc).trans (if_neg hcp)
  have hx2 : ∀ k, notCp14 cp k = k := fun k => if_neg hcp
  refine ⟨fun hw hn hi => ?_, fun hb hlen ht hs => ⟨fun hi hr => ?_, fun hi hw => ?_⟩⟩
  · subst hw hn
    simp only [List.mem_cons, List.not_mem_nil, or_false] at hi
    rcases hi with rfl | rfl | rfl | rfl
    · exact (hx _).trans (ldcWith_of_pc h)
    · exact (hx _).trans (stcWith_of_pc h)
    · exact (hx2 _).trans (ldcWith_of_pc h)
    · exact (hx2 _).trans (stcWith_of_pc h)
  · have hend : exec i s = ldcWith i p u wb rn off8 s := by
      rcases hi with rfl | rfl
      · exact hx _
      · exact hx2 _
    rw [hend]
    exact ldcWith_spec h hb ht hs hr
  · have hend : exec i s = stcWith i p u wb rn off8 s := by
      rcases hi with rfl | rfl
      · exact hx _
      · exact hx2 _
    rw [hend]
    exact stcWith_spec h hb ht hs hlen hw

end Sys2Proof.Machine
end

section
/-!
PROOFS. The tests and compares of ARM state: TST, TEQ, CMP and CMN (O16).
-/
namespace Sys2Proof.Machine
open Sys2Proof

/-- The end of TST and TEQ: N, Z and the shifter's carry (R180, R181). -/
theorem logicalTest_spec (v : Word) (o : Shifted) (s : State) :
    ∃ t, logicalTest v o s = .next t ∧ s.onlyWrites t [] [31, 30, 29] ∧ flagsNZ t.cpsr v ∧ psrC t.cpsr = o.carry :=
  ⟨_, rfl, s.onlyWrites_cpsr _ (fun _ => onlyBits_withLogic s.cpsr v o.carry) (by simp),
    flags_withLogic s.cpsr v o.carry⟩

/-- The end of CMP and CMN: the four flags of the sum (R162, R163). -/
theorem arithTest_spec (r : Sum) (s : State) :
    ∃ t, arithTest r s = .next t ∧ s.onlyWrites t [] [31, 30, 29, 28] ∧ flagsNZ t.cpsr r.value ∧
      psrC t.cpsr = r.carry ∧ psrV t.cpsr = r.overflow :=
  ⟨_, rfl, s.onlyWrites_cpsr _ (fun _ => onlyBits_withArith s.cpsr r) (by simp), flags_withArith s.cpsr r⟩

/-- No operand of a test with a register-specified shift is r15, so it ends as its format says (R107). -/
theorem test_regShift_passed {s : State} {c : Cond} {rn rs rm : Reg} (k : Result) (hc : condPassed c s.cpsr = true)
    (hn : rn ≠ 15#4) (hs : rs ≠ 15#4) (hm : rm ≠ 15#4) : whenPassed c s (noPc [rn, rs, rm] k) = k :=
  (whenPassed_of_passed _ hc).trans (noPc_of_not_mem k (by simp [hn.symm, hs.symm, hm.symm]))

/-- Settles O16: in each of the three formats TST and TEQ are `logicalTest` of their value, CMP and CMN `arithTest` of
their sum. -/
theorem testsAndCompares : Obligations.TestsAndCompares := by
  intro s c rn rs rm rot imm8 n sh i o v r hc
  simp only [List.mem_cons, List.not_mem_nil, or_false, Prod.mk.injEq]
  refine ⟨fun h => ?_, fun h => ?_⟩
  · have hx : exec i s = logicalTest v o s := by
      rcases h with ⟨rfl, ⟨rfl, rfl⟩ | ⟨rfl, rfl⟩⟩ | ⟨rfl, ⟨rfl, rfl⟩ | ⟨rfl, rfl⟩⟩ |
        ⟨rfl, hn, hs, hm, ⟨rfl, rfl⟩ | ⟨rfl, rfl⟩⟩
      case inr.inr.inl | inr.inr.inr => exact test_regShift_passed _ hc hn hs hm
      all_goals exact whenPassed_of_passed _ hc
    rw [hx]
    exact logicalTest_spec v o s
  · have hx : exec i s = arithTest r s := by
      rcases h with ⟨rfl, ⟨rfl, rfl⟩ | ⟨rfl, rfl⟩⟩ | ⟨rfl, ⟨rfl, rfl⟩ | ⟨rfl, rfl⟩⟩ |
        ⟨rfl, hn, hs, hm, ⟨rfl, rfl⟩ | ⟨rfl, rfl⟩⟩
      case inr.inr.inl | inr.inr.inr => exact test_regShift_passed _ hc hn hs hm
      all_goals exact whenPassed_of_passed _ hc
    rw [hx]
    exact arithTest_spec r s

end Sys2Proof.Machine
end

section
/-!
PROOFS. CLZ (O24).
-/
namespace Sys2Proof.Machine
open Sys2Proof

/-! ### The count of leading zeros (R173) -/

theorem leadingZeros_succ_of_set {v : Word} {n : Nat} (h : v.getLsbD n = true) : leadingZeros v (n + 1) = 0 := if_pos h

theorem leadingZeros_succ_of_clear {v : Word} {n : Nat} (h : v.getLsbD n = false) :
    leadingZeros v (n + 1) = leadingZeros v n + 1 := if_neg (Bool.eq_false_iff.mp h)

theorem leadingZeros_le (v : Word) (n : Nat) : leadingZeros v n ≤ n := by
  induction n with
  | zero => exact Nat.le_refl 0
  | succ n ih =>
    cases h : v.getLsbD n with
    | true => rw [leadingZeros_succ_of_set h]; exact Nat.zero_le _
    | false => rw [leadingZeros_succ_of_clear h]; exact Nat.succ_le_succ ih

/-- The bits that are counted are clear. -/
theorem getLsbD_of_leadingZeros {v : Word} {n k : Nat} (hk : k < n) (h : n ≤ k + leadingZeros v n) :
    v.getLsbD k = false := by
  induction n with
  | zero => exact absurd hk (Nat.not_lt_zero k)
  | succ n ih =>
    cases hn : v.getLsbD n with
    | true =>
      rw [leadingZeros_succ_of_set hn] at h
      omega
    | false =>
      rw [leadingZeros_succ_of_clear hn] at h
      rcases Nat.lt_succ_iff_lt_or_eq.mp hk with hlt | rfl
      · exact ih hlt (by omega)
      · exact hn

/-- The count stops at a set bit. -/
theorem getLsbD_leadingZeros {v : Word} {n : Nat} (h : leadingZeros v n < n) :
    v.getLsbD (n - 1 - leadingZeros v n) = true := by
  induction n with
  | zero => exact absurd h (Nat.not_lt_zero _)
  | succ n ih =>
    cases hn : v.getLsbD n with
    | true => rwa [leadingZeros_succ_of_set hn]
    | false =>
      rw [leadingZeros_succ_of_clear hn] at h ⊢
      rw [show n + 1 - 1 - (leadingZeros v n + 1) = n - 1 - leadingZeros v n by omega]
      exact ih (Nat.lt_of_succ_lt_succ h)

/-- The count fits a word. -/
theorem toNat_ofNat_leadingZeros (v : Word) : (BitVec.ofNat 32 (leadingZeros v 32)).toNat = leadingZeros v 32 :=
  (BitVec.toNat_ofNat _ _).trans (Nat.mod_eq_of_lt (Nat.lt_of_le_of_lt (leadingZeros_le v 32) (by decide)))

/-! ### The instruction -/

theorem execClz_passed {s : State} {c : Cond} {rd rm : Reg} (hc : condPassed c s.cpsr = true) (hd : rd ≠ 15#4)
    (hm : rm ≠ 15#4) :
    exec (.clz c rd rm) s = .next (s.setReg rd (BitVec.ofNat 32 (leadingZeros (s.reg rm) 32))).advance :=
  (whenPassed_of_passed _ hc).trans (noPc_of_not_mem _ (by simp [hd.symm, hm.symm]))

/-- Settles O24: Rd takes the count of leading zeros; the bits it counts are clear, and the bit below them is set. -/
theorem countLeadingZeros : Obligations.CountLeadingZeros := by
  intro s c rd rm hc hd hm
  obtain ⟨hv, hw⟩ := s.setReg_advance_spec (BitVec.ofNat 32 (leadingZeros (s.reg rm) 32)) hd
  refine ⟨_, execClz_passed hc hd hm, hw, ?_⟩
  rw [hv, toNat_ofNat_leadingZeros]
  refine ⟨leadingZeros_le _ _, fun k hk => ?_, getLsbD_leadingZeros⟩
  rcases Nat.lt_or_ge k 32 with hlt | hge
  · exact getLsbD_of_leadingZeros hlt hk
  · exact BitVec.getLsbD_of_ge _ k hge

end Sys2Proof.Machine
end

section
/-!
PROOFS. BXJ (O29).
-/
namespace Sys2Proof.Machine
open Sys2Proof

/-- The entry to Jazelle state is refused, whatever Rm holds (D1). -/
theorem exec_bxj_of_passed {s : State} {c : Cond} (rm : Reg) (hc : condPassed c s.cpsr = true) :
    exec (.bxj c rm) s = .refused .jazelleEntry :=
  whenPassed_of_passed _ hc

/-- Settles O29: BXJ goes on as every instruction whose condition fails does, and is refused where it passes. -/
theorem bxjByCondition : Obligations.BxjByCondition := by
  intro s c rm
  constructor
  · intro (hc : condPassed (conditionOf (.bxj c rm)) s.cpsr = false)
    exact ⟨s.advance, exec_of_failed hc, s.onlyWrites_advance_only⟩
  · exact exec_bxj_of_passed rm

end Sys2Proof.Machine
end

section
/-!
PROOFS. LDM (2) (O35), LDM (3) (O36), and the transfers of several words that a Data Abort ends (O41).
-/
namespace Sys2Proof.Machine
open Sys2Proof

/-! ### The checks of a multiple transfer -/

section
variable {s : State} {c : Cond} {rn : Reg} {regs : List Reg} (k : Result) (hc : condPassed c s.cpsr = true)
  (h15 : rn ≠ 15#4) (hne : regs ≠ [])
include hc h15 hne

/-- A multiple transfer whose condition passes and whose base and list are allowed (R225). -/
theorem multiple_passed : whenPassed c s (multipleAllowed rn regs k) = k :=
  (whenPassed_of_passed _ hc).trans (multipleAllowed_of_ne k h15 hne)

/-- A load multiple, for which a base written back is not listed (R207). -/
theorem loadMultiple_passed {wb : Bool} (hb : wb = true → rn ∉ regs) :
    whenPassed c s (multipleAllowed rn regs (baseNotListed wb rn regs k)) = k :=
  (multiple_passed _ hc h15 hne).trans (baseNotListed_of_not_mem k hb)

end

/-! ### LDM (2) (O35) -/

/-- The list of an LDM (2) does not hold r15. -/
theorem pc_not_mem_listed_setWidth (list : BitVec 15) : 15#4 ∉ listed (list.setWidth 16) :=
  not_mem_listed (by simp)

theorem listed_setWidth_ne_nil {list : BitVec 15} (h : list ≠ 0#15) : listed (list.setWidth 16) ≠ [] := by
  refine listed_ne_nil _ fun h0 => h ?_
  simpa using congrArg (BitVec.setWidth 15) h0

section
variable {s : State} {c : Cond} {p u : Bool} {rn : Reg} {list : BitVec 15} (hc : condPassed c s.cpsr = true)
  (h15 : rn ≠ 15#4) (hne : listed (list.setWidth 16) ≠ [])
include hc h15 hne

/-- An LDM (2) in a mode without an SPSR is refused (U4). -/
theorem exec_ldmUser_of_none (hq : s.spsr.get s.mode = none) :
    exec (.ldmUser c p u rn list) s = .refused .userBankInUserMode := by
  refine (multiple_passed _ hc h15 hne).trans ?_
  rw [hq]

variable (hq : s.spsr.get s.mode ≠ none)
include hq

/-- An LDM (2) whose words are read writes them to the User bank and goes on (R208). -/
theorem exec_ldmUser_of_all {ws : List Word}
    (hl : s.loadWords s.privileged (listed (list.setWidth 16)).length
      (multipleStart p u (s.reg rn) (listed (list.setWidth 16)).length) = .all ws) :
    exec (.ldmUser c p u rn list) s =
      .next { s.setUserRegs (listed (list.setWidth 16)) ws with userLdm := true }.advance := by
  obtain ⟨q, hq⟩ := Option.ne_none_iff_exists'.mp hq
  refine (multiple_passed _ hc h15 hne).trans ?_
  rw [hq, hl]

/-- An LDM (2) that is aborted leaves the listed registers but the base with free values (R222). -/
theorem exec_ldmUser_of_abort {ws : List Word}
    (hl : s.loadWords s.privileged (listed (list.setWidth 16)).length
      (multipleStart p u (s.reg rn) (listed (list.setWidth 16)).length) = .abort ws) :
    exec (.ldmUser c p u rn list) s =
      .next (takeDataAbort (s.clobberUser ((listed (list.setWidth 16)).filter fun r => !isBase s rn r))) := by
  obtain ⟨q, hq⟩ := Option.ne_none_iff_exists'.mp hq
  refine (multiple_passed _ hc h15 hne).trans ?_
  rw [hq, hl]

end

theorem State.userReg_of_get {s : State} {r : Reg} {x : PhysReg} {v : Word} (hx : bank .usr r = some x)
    (h : s.regs.get x = v) : s.userReg r = v := by
  rwa [State.userReg, hx]

/-- Settles O35: an LDM (2) is refused without an SPSR, and otherwise writes what `State.setUserRegs_spec` says. -/
theorem loadMultipleUser : Obligations.LoadMultipleUser := by
  rintro s c p u rn list start words n hc h15 hl rfl rfl
  have hne := listed_setWidth_ne_nil hl
  refine ⟨exec_ldmUser_of_none hc h15 hne, fun hq hr => ?_⟩
  refine ⟨_, exec_ldmUser_of_all hc h15 hne hq (State.loadWords_of_reads hr), ?_⟩
  generalize hws : (List.range (listed (list.setWidth 16)).length).map words = ws
  obtain ⟨hcpsr, hpc, hspsr, hdcc, hcfg, hpins, hcp, hmem, hstored, hrest, hget⟩ :=
    s.setUserRegs_spec (listed (list.setWidth 16)) ws
  refine ⟨State.nextPc_congr hpc (congrArg psrT hcpsr), hcpsr, rfl, fun k r hk => ?_, fun q hq => ?_, hspsr, hdcc, hcfg,
    hpins, State.setUserRegs_fetched s _ ws, hcp, State.memoryKept_of_eq hmem hstored⟩
  · have hr15 : r ≠ 15#4 := fun h => pc_not_mem_listed_setWidth list (h ▸ List.mem_of_getElem? hk)
    obtain ⟨x, hx⟩ := bank_some .usr r hr15
    have hlt := (List.getElem?_eq_some_iff.mp hk).1
    exact State.userReg_of_get hx (hget (listed_nodup _) k r (words k) x hk (by simp [← hws, hlt]) hx)
  · exact hrest q fun r hr hb => hq (List.mem_filterMap.mpr ⟨r, hr, hb⟩)

/-! ### LDM (3) (O36) -/

/-- The list of an LDM (3) holds r15 (R209). -/
theorem pc_mem_listed_withPc (list : BitVec 15) : 15#4 ∈ listed (withPc list) := by
  rw [mem_listed, withPc, BitVec.getLsbD_append]
  simp

theorem listed_withPc_ne_nil (list : BitVec 15) : listed (withPc list) ≠ [] :=
  List.ne_nil_of_mem (pc_mem_listed_withPc list)

theorem not_mem_listed_withPc {list : BitVec 15} {r : Reg} (h15 : r ≠ 15#4) (h : list.getLsbD r.toNat = false) :
    r ∉ listed (withPc list) := by
  have hr : r.toNat < 15 := by bv_omega
  refine not_mem_listed ?_
  rw [withPc, BitVec.getLsbD_append, if_pos hr, h]

section
variable {s : State} {c : Cond} {p u wb : Bool} {rn : Reg} {list : BitVec 15} (hc : condPassed c s.cpsr = true)
  (h15 : rn ≠ 15#4) (hb : wb = true → list.getLsbD rn.toNat = false)
include hc h15 hb

/-- An LDM (3) in a mode without an SPSR is refused (U4). -/
theorem exec_ldmRestore_of_none (hq : s.spsr.get s.mode = none) :
    exec (.ldmRestore c p u wb rn list) s = .refused .noSpsr := by
  refine (loadMultiple_passed _ hc h15 (listed_withPc_ne_nil list) fun hw => not_mem_listed_withPc h15 (hb hw)).trans ?_
  rw [hq]

/-- In a mode with an SPSR it loads its registers, and returns from the exception to the last word (R209). -/
theorem exec_ldmRestore_of_spsr (hq : s.spsr.get s.mode ≠ none) :
    exec (.ldmRestore c p u wb rn list) s =
      loadRegs s (listed (withPc list)) (multipleStart p u (s.reg rn) (listed (withPc list)).length) rn fun ws t =>
        exceptionReturn (ws.getLastD 0)
          (if wb then t.setReg rn (multipleBase u (s.reg rn) (listed (withPc list)).length) else t) := by
  obtain ⟨q, hq⟩ := Option.ne_none_iff_exists'.mp hq
  refine (loadMultiple_passed _ hc h15 (listed_withPc_ne_nil list) fun hw => not_mem_listed_withPc h15 (hb hw)).trans ?_
  rw [hq]

/-- Where its words are read, it is the exception return from the state with the registers and the base written. -/
theorem exec_ldmRestore_of_reads {words : Nat → Word} {n : Nat} (hq : s.spsr.get s.mode ≠ none)
    (hn : n = (listed (withPc list)).length)
    (hr : ∀ k < n, s.readsWord s.privileged (wordPlace (multipleStart p u (s.reg rn) n) k) (words k)) :
    exec (.ldmRestore c p u wb rn list) s = exceptionReturn (words (n - 1))
      (s.loadedMultiple (listed (withPc list)) words wb rn (multipleBase u (s.reg rn) n)) := by
  subst hn
  rw [exec_ldmRestore_of_spsr hc h15 hb hq, loadRegs_of_reads rn _ hr,
    getLastD_range_map _ _ fun h0 => listed_withPc_ne_nil list (List.length_eq_zero_iff.mp h0)]
  rfl

end

/-- The physical register that a number names holds what the number reads as. -/
theorem State.get_of_bank {s : State} {r : Reg} {x : PhysReg} (h : bank s.mode r = some x) :
    s.regs.get x = s.reg r := by
  rw [State.reg, h]

/-- Settles O36: an LDM (3) with an SPSR is `exceptionReturn` after its loads, in each of its three cases. -/
theorem loadMultipleReturn : Obligations.LoadMultipleReturn := by
  rintro s c p u wb rn list start last words n hc h15 hb hn rfl rfl
  refine ⟨exec_ldmRestore_of_none hc h15 hb, fun q hq hr => ?_⟩
  rw [exec_ldmRestore_of_reads hc h15 hb (Option.ne_none_iff_exists'.mpr ⟨q, hq⟩) hn hr]
  generalize multipleBase u (s.reg rn) n = base
  have hword := fun k r => State.reg_loadedMultiple (s := s) words base (listed_nodup (withPc list))
    (fun hw => not_mem_listed_withPc h15 (hb hw)) (k := k) (r := r)
  have hbase := fun hw => State.base_loadedMultiple (s := s) (regs := listed (withPc list)) words base (wb := wb) hw h15
  obtain ⟨-, hcpsr, hsys, hcp, hmem, hstored, hregs⟩ :=
    RegOnly.loadedMultiple (s := s) (regs := listed (withPc list)) (wb := wb) (rn := rn) words base
  generalize s.loadedMultiple (listed (withPc list)) words wb rn base = v at *
  have hmode : v.mode = s.mode := State.mode_of_cpsr hcpsr
  have hspsr : v.spsr.get v.mode = some q := by rw [hsys.1, hmode, hq]
  refine ⟨fun hJ hT => exceptionReturn_of_jazelle hspsr (by simp [inJazelle, hJ, hT]),
    exceptionReturn_of_misaligned hspsr, fun hj ha => ?_⟩
  refine ⟨_, exceptionReturn_of_spsr hspsr hj ha, rfl, rfl, fun k r x hk hx => ?_, fun x hw hx => ?_, hregs, hsys, hcp,
    State.memoryKept_of_eq hmem hstored⟩
  · have hr15 : r ≠ 15#4 := fun h => by simp [h] at hx
    exact (State.get_of_bank (s := v) (by rw [hmode, hx])).trans (hword k r hk hr15)
  · exact (State.get_of_bank (s := v) (by rw [hmode, hx])).trans (hbase hw)

/-! ### A Data Abort after part of a transfer (O41) -/

/-- A Data Abort enters its handler as from the state before the instruction, where what came before it changed nothing
but registers, memory and the coprocessors (R348). -/
theorem takeDataAbort_entered {s u : State} (hpc : u.pc = s.pc) (hcpsr : u.cpsr = s.cpsr) (hsys : s.systemKept u) :
    s.entered (takeDataAbort u) .dataAbort (s.pc + 8) := by
  obtain ⟨hspsr, hdcc, hcfg, hpins, -, hfetched⟩ := hsys
  have h := takeException_entered .dataAbort (u.pc + 8) u
  simpa only [takeDataAbort, State.entered, State.vectorBase, hpc, hcpsr, hspsr, hdcc, hcfg, hpins, hfetched] using h

/-- A Data Abort writes no register but r14_abt. -/
theorem takeDataAbort_get (s : State) {q : PhysReg} (h : q ≠ .r14abt) :
    (takeDataAbort s).regs.get q = s.regs.get q := Regs.get_set_ne _ _ h

/-! Loads. -/

/-- `u` differs from `s` at most in the registers of `ps` and in what the coprocessors were asked and told. -/
structure BankOnly (s u : State) (ps : List PhysReg) : Prop where
  pc : u.pc = s.pc
  cpsr : u.cpsr = s.cpsr
  sys : s.systemKept u
  mem : s.memoryKept u
  regs : ∀ q, q ∉ ps → u.regs.get q = s.regs.get q

/-- Registers with free values, of the current mode. -/
theorem BankOnly.clobber (s : State) (rs : List Reg) : BankOnly s (s.clobber rs) (s.physical rs) := by
  obtain ⟨hcpsr, hpc, hspsr, hcfg, hmem, hstored, hregs⟩ := s.clobber_spec rs
  exact ⟨hpc, hcpsr, ⟨hspsr, by simp, hcfg, by simp, by simp, by simp⟩, State.memoryKept_of_eq hmem hstored,
    fun q hq => hregs q fun r hr hb => hq (List.mem_filterMap.mpr ⟨r, hr, hb⟩)⟩

theorem State.get_clobberUser_of_ne (s : State) {rs : List Reg} {q : PhysReg} (h : ∀ r ∈ rs, bank .usr r ≠ some q) :
    (s.clobberUser rs).regs.get q = s.regs.get q := by
  induction rs generalizing s with
  | nil => rfl
  | cons r rs ih =>
    rw [State.clobberUser, ih _ fun x hx => h x (List.mem_cons_of_mem _ hx), State.get_setUserReg,
      if_neg (h r List.mem_cons_self)]
    rfl

/-- Registers with free values, of the User bank. -/
theorem BankOnly.clobberUser (s : State) (rs : List Reg) :
    BankOnly s (s.clobberUser rs) (rs.filterMap (bank .usr)) :=
  ⟨by simp, by simp, ⟨by simp, by simp, by simp, by simp, by simp, by simp⟩, State.memoryKept_of_eq (by simp) (by simp),
    fun _ hq => s.get_clobberUser_of_ne fun r hr hb => hq (List.mem_filterMap.mpr ⟨r, hr, hb⟩)⟩

/-- The Data Abort of a load that has changed none but listed registers, and not its base (R222). -/
theorem BankOnly.loadAborted {s u : State} {ps regs : List PhysReg} {base : Reg} (h : BankOnly s u ps)
    (hans : u.cpAnswers = s.cpAnswers) (hsent : u.cpSent = s.cpSent) (hbase : ∀ q, bank s.mode base = some q → q ∉ ps)
    (hsub : ps ⊆ regs) : s.loadAborted (takeDataAbort u) base regs :=
  ⟨takeDataAbort_entered h.pc h.cpsr h.sys, h.mem, hans, hsent,
    fun q hq hb => (takeDataAbort_get u hq).trans (h.regs q (hbase q hb)),
    fun q hq hr => (takeDataAbort_get u hq).trans (h.regs q fun hm => hr (hsub hm))⟩

/-- An aborted load has words to read. -/
theorem State.readAborts.ne_nil {s : State} {regs : List Reg} {start : Word} {j : Nat} {words : Nat → Word}
    (h : s.readAborts start regs.length j words) : regs ≠ [] :=
  List.ne_nil_of_length_pos (Nat.zero_lt_of_lt h.1)

section
variable {s : State} {regs : List Reg} {start : Word} {j n : Nat} {words : Nat → Word}

theorem State.readAborts.loadWords (h : s.readAborts start n j words) :
    s.loadWords s.privileged n start = .abort ((List.range j).map words) := by
  obtain ⟨hj, hr, ha⟩ := h
  exact State.loadWords_of_aborts hj hr ha

/-- The load half of a multiple transfer that is aborted. -/
theorem loadRegs_of_aborts (base : Reg) (k : List Word → State → Result) (h : s.readAborts start regs.length j words) :
    ∃ t, loadRegs s regs start base k = .next t ∧ s.loadAborted t base (s.physical regs) := by
  refine ⟨_, by rw [loadRegs, h.loadWords], (BankOnly.clobber s _).loadAborted (by simp) (by simp) ?_ ?_⟩
  · intro q hq hm
    obtain ⟨r, hr, hb⟩ := List.mem_filterMap.mp hm
    obtain rfl : r = base := bank_inj _ _ _ (hb.trans hq.symm)
    simp at hr
  · exact (List.filter_sublist.filterMap _).subset

/-- LDM (2) that is aborted: the base is that of the current mode, also where it is a listed register (R222). -/
theorem exec_ldmUser_aborts {c : Cond} {p u : Bool} {rn : Reg} {list : BitVec 15} (hc : condPassed c s.cpsr = true)
    (h15 : rn ≠ 15#4) (hq : s.spsr.get s.mode ≠ none)
    (h : s.readAborts (multipleStart p u (s.reg rn) (listed (list.setWidth 16)).length)
      (listed (list.setWidth 16)).length j words) :
    ∃ t, exec (.ldmUser c p u rn list) s = .next t ∧
      s.loadAborted t rn ((listed (list.setWidth 16)).filterMap (bank .usr)) := by
  refine ⟨_, exec_ldmUser_of_abort hc h15 h.ne_nil hq h.loadWords,
    (BankOnly.clobberUser s _).loadAborted (by simp) (by simp) ?_ ?_⟩
  · intro q hq hm
    obtain ⟨r, hr, hb⟩ := List.mem_filterMap.mp hm
    have hbase : isBase s rn r = true := by simp [isBase, hq, hb]
    simp [hbase] at hr
  · exact (List.filter_sublist.filterMap _).subset

end

/-- LDRD and STRD that are not refused are their load or their store. -/
theorem exec_pairTransfer {s : State} {c : Cond} {idx : Index} {u load : Bool} {rn rd rm : Reg} {off8 : BitVec 8}
    {a : Address} {i : Instr} (hc : condPassed c s.cpsr = true)
    (h : s.pairTransfer c idx u rn rd rm off8 a i load) :
    exec i s = if load then loadRegs s [rd, rd + 1] a.address rn fun _ t => .next (t.writeBase a rn).advance
      else storeList s a.address [s.reg rd, s.reg (rd + 1)] (finishStore a rn) := by
  obtain ⟨he, h14, h8, h⟩ := h
  have hend : exec i s = if load then ldrdWith a rn rd s else strdWith a rn rd s := by
    simp only [List.mem_cons, List.not_mem_nil, or_false, not_or, ← Ne.eq_def] at h
    rcases h with ⟨rfl, rfl, hn⟩ | ⟨rfl, rfl, ⟨hm, hmd, hmd1⟩, hn⟩
    · have hbase := fun k => pairBaseAllowed_of_ne k fun hw => ⟨(hn hw).1.symm, (hn hw).2⟩
      cases load
      iterate 2 exact (whenPassed_of_passed _ hc).trans (hbase _)
    · have hbase := fun k => pairRegBaseAllowed_of_ne k ⟨hm.symm, hmd, hmd1⟩ fun hw => by
        obtain ⟨hn15, hnd, hnd1, hnm⟩ := hn hw
        exact ⟨hn15.symm, hnd, hnd1, hnm.symm⟩
      cases load
      iterate 2 exact (whenPassed_of_passed _ hc).trans (hbase _)
  rw [hend, ldrdWith, strdWith, evenPair_of_even _ he h14, evenPair_of_even _ he h14, doubleAligned_of_aligned _ h8,
    doubleAligned_of_aligned _ h8]

/-! Stores. -/

/-- The Data Abort of a store that has written nothing but bytes of its transfer (R222). -/
theorem MemOnly.storeAborted {s v : State} {start : Word} {n j : Nat} {words : Nat → Option Word}
    (h : MemOnly s v (wordAlign start) (4 * n))
    (hwords : ∀ k < j, v.wordAt (wordAlign (wordPlace start k)) = words k)
    (hbytes : ∀ k < 4, v.byteAt (wordAlign (wordPlace start j) + BitVec.ofNat 32 k) =
      s.byteAt (wordAlign (wordPlace start j) + BitVec.ofNat 32 k)) :
    s.storeAborted (takeDataAbort v) start n j words :=
  ⟨takeDataAbort_entered h.pc h.cpsr h.sys, fun q hq => by rw [takeDataAbort_get v hq, h.regs],
    fun k hk w hw => (State.wordAt_congr (s := v) rfl rfl _).trans ((hwords k hk).trans hw), hbytes, h.mem⟩

/-- An aborted store has words to write. -/
theorem State.writeAborts.ne_nil {s : State} {regs : List Reg} {start : Word} {j : Nat}
    (h : s.writeAborts start regs.length j) : regs ≠ [] :=
  List.ne_nil_of_length_pos (Nat.zero_lt_of_lt h.1)

section
variable {s : State} {ws : List Word} {start : Word} {j : Nat} (hlen : ws.length < 2 ^ 29)
  (h : s.writeAborts start ws.length j)
include hlen h

/-- Words stored to rising addresses, one of which is aborted. -/
theorem State.writeAborts.storeWords :
    ∃ v, s.storeWords s.privileged start ws = .abort v ∧ v.cpsr = s.cpsr ∧ s.coprocessorsKept v ∧
      s.storeAborted (takeDataAbort v) start ws.length j (ws[·]?) := by
  obtain ⟨hj, hs, ha⟩ := h
  obtain ⟨v, hv, hmem, hwords, hbytes⟩ := State.storeWords_of_aborts ws hlen hj hs ha
  exact ⟨v, hv, hmem.cpsr, hmem.cp, hmem.storeAborted hwords hbytes⟩

/-- The store half of a multiple transfer that is aborted. -/
theorem storeList_of_aborts (k : State → Result) :
    ∃ t, storeList s start ws k = .next t ∧ s.storeAborted t start ws.length j (ws[·]?) ∧
      t.cpAnswers = s.cpAnswers ∧ t.cpSent = s.cpSent := by
  obtain ⟨v, hv, -, ⟨hans, hsent, -⟩, hab⟩ := State.writeAborts.storeWords hlen h
  exact ⟨_, by rw [storeList, hv], hab, hans, hsent⟩

end

/-- A store multiple of a list of registers that is aborted. -/
theorem storeList_map_of_aborts {s : State} {regs : List Reg} {start : Word} {j : Nat} (f : Reg → Word)
    (k : State → Result) (hn : regs.Nodup) (h : s.writeAborts start regs.length j) :
    ∃ t, storeList s start (regs.map f) k = .next t ∧
      s.storeAborted t start regs.length j (fun k => (regs[k]?).map f) ∧
      t.cpAnswers = s.cpAnswers ∧ t.cpSent = s.cpSent := by
  have hlen : (regs.map f).length < 2 ^ 29 := by
    have := length_le_of_nodup hn
    rw [List.length_map]
    omega
  have hab := storeList_of_aborts hlen (by rwa [List.length_map]) k
  simpa only [List.length_map, List.getElem?_map] using hab

/-! Coprocessor transfers. -/

section
variable {s v : State} {i : Instr} {p u wb : Bool} {rn : Reg} {off8 : BitVec 8} {first second : Word}
  {more : List Word} {j : Nat} (h : s.coprocessor i = (.accept first second more, v)) (hb : wb = true → rn ≠ 15#4)
include h hb

/-- LDC that is aborted: the coprocessor is told the words before, and that the transfer is not complete (R246). -/
theorem ldcWith_of_aborts {words : Nat → Word}
    (ha : s.readAborts (s.cpAddress p u rn off8) (more.length + 1) j words) :
    ∃ t, ldcWith i p u wb rn off8 s = .next t ∧
      s.loadAborted { t with cpAnswers := s.cpAnswers, cpSent := s.cpSent } rn [] ∧
      t.cpAnswers = v.cpAnswers ∧ t.cpSent = s.cpSent ++ [⟨i, s.privileged, (List.range j).map words, false⟩] := by
  obtain ⟨n, hk⟩ := offer_of_accept h
  have hload : (s.committed v.cpAnswers n).loadWords (s.committed v.cpAnswers n).privileged (more.length + 1)
      ((s.committed v.cpAnswers n).cpAddress p u rn off8) = .abort ((List.range j).map words) :=
    State.readAborts.loadWords (s := s.committed v.cpAnswers n) ha
  have hbank : BankOnly s { s.committed v.cpAnswers n with cpAnswers := s.cpAnswers } [] :=
    ⟨rfl, rfl, State.systemKept_refl s, State.memoryKept_of_eq rfl rfl, fun _ _ => rfl⟩
  refine ⟨takeDataAbort ((s.committed v.cpAnswers n).send i ((List.range j).map words) false), ?_, ?_, rfl, rfl⟩
  · rw [ldcWith, hk, cpBaseAllowed_of_ne _ hb, hload]
  · exact hbank.loadAborted rfl rfl (fun _ _ => List.not_mem_nil) (List.Subset.refl _)

/-- STC that is aborted (R247). -/
theorem stcWith_of_aborts (hlen : more.length + 1 < 2 ^ 29)
    (ha : s.writeAborts (s.cpAddress p u rn off8) (more.length + 1) j) :
    ∃ t, stcWith i p u wb rn off8 s = .next t ∧
      s.storeAborted t (s.cpAddress p u rn off8) (more.length + 1) j (fun k => (first :: more)[k]?) ∧
      t.cpAnswers = v.cpAnswers ∧ t.cpSent = s.cpSent ++ [⟨i, s.privileged, [], false⟩] := by
  obtain ⟨n, hk⟩ := offer_of_accept h
  obtain ⟨m, hm, hcpsr, ⟨hans, hsent, -⟩, hab⟩ :=
    State.writeAborts.storeWords (s := s.committed v.cpAnswers n) (ws := first :: more) hlen ha
  have hstore : (s.committed v.cpAnswers n).storeWords (s.committed v.cpAnswers n).privileged
      ((s.committed v.cpAnswers n).cpAddress p u rn off8) (first :: more) = .abort m := hm
  have hpriv : m.privileged = s.privileged := congrArg (psrM · != 0b10000#5) hcpsr
  refine ⟨takeDataAbort (m.send i [] false), ?_, hab, hans, ?_⟩
  · rw [stcWith, hk, cpBaseAllowed_of_ne _ hb, hstore]
  · exact congrArg₂ (fun l p => l ++ [⟨i, p, [], false⟩]) hsent hpriv

end

/-! The instructions. -/

section
variable {s : State} {c : Cond} {p u wb : Bool} {rn : Reg} (hc : condPassed c s.cpsr = true) (h15 : rn ≠ 15#4)
include hc h15

/-- An LDM (1) whose base is allowed starts with its loads (R207). -/
theorem exec_ldm_loads {list : BitVec 16} (hne : listed list ≠ []) (hb : wb = true → list.getLsbD rn.toNat = false) :
    ∃ k, exec (.ldm c p u wb rn list) s =
      loadRegs s (listed list) (multipleStart p u (s.reg rn) (listed list).length) rn k :=
  ⟨_, loadMultiple_passed _ hc h15 hne fun hw => not_mem_listed (hb hw)⟩

/-- An STM (1) whose base is allowed starts with its stores (R216). -/
theorem exec_stm_stores {list : BitVec 16} (hne : listed list ≠ [])
    (hb : wb = true → lowestIfListed rn (listed list)) :
    ∃ k, exec (.stm c p u wb rn list) s =
      storeList s (multipleStart p u (s.reg rn) (listed list).length) ((listed list).map s.storeReg) k :=
  ⟨_, (multiple_passed _ hc h15 hne).trans (baseLowest_of_le _ hb)⟩

/-- An STM (2) in a mode with an SPSR starts with its stores (R217). -/
theorem exec_stmUser_stores {list : BitVec 16} (hne : listed list ≠ []) (hq : s.spsr.get s.mode ≠ none) :
    ∃ k, exec (.stmUser c p u rn list) s =
      storeList s (multipleStart p u (s.reg rn) (listed list).length) ((listed list).map s.storeUserReg) k := by
  obtain ⟨q, hq⟩ := Option.ne_none_iff_exists'.mp hq
  refine ⟨fun t => .next t.advance, (multiple_passed _ hc h15 hne).trans ?_⟩
  rw [hq]

end

section
variable {s : State} {r : Bool} {rb : LowReg} {list : BitVec 8}

/-- A POP with a list that is not empty starts with its loads (R333). -/
theorem exec_thumbPop_loads (hne : thumbListed list r 15#4 ≠ []) :
    ∃ k, exec (.thumbPop r list) s = loadRegs s (thumbListed list r 15#4) (s.reg 13#4) 13#4 k :=
  ⟨_, multipleAllowed_of_ne (rn := 13#4) _ (by decide) hne⟩

/-- So does an LDMIA (R323). -/
theorem exec_thumbLdmia_loads (hne : thumbListed list false 0#4 ≠ []) :
    ∃ k, exec (.thumbLdmia rb list) s =
      loadRegs s (thumbListed list false 0#4) (s.reg (lowReg rb)) (lowReg rb) k :=
  ⟨_, multipleAllowed_of_ne _ (lowReg_ne_pc rb) hne⟩

/-- A PUSH with a list that is not empty starts with its stores (R332). -/
theorem exec_thumbPush_stores (hne : thumbListed list r 14#4 ≠ []) :
    ∃ k, exec (.thumbPush r list) s = storeList s
      (s.reg 13#4 - BitVec.ofNat 32 (4 * (thumbListed list r 14#4).length)) ((thumbListed list r 14#4).map s.reg) k :=
  ⟨_, multipleAllowed_of_ne (rn := 13#4) _ (by decide) hne⟩

/-- So does an STMIA whose base is allowed (R331). -/
theorem exec_thumbStmia_stores (hb : lowestIfListed (lowReg rb) (thumbListed list false 0#4))
    (hne : thumbListed list false 0#4 ≠ []) :
    ∃ k, exec (.thumbStmia rb list) s =
      storeList s (s.reg (lowReg rb)) ((thumbListed list false 0#4).map s.reg) k :=
  ⟨_, (multipleAllowed_of_ne _ (lowReg_ne_pc rb) hne).trans (baseLowest_of_le _ fun _ => hb)⟩

end

/-- Settles O41: each load is `loadRegs` or an LDM (2), each store `storeList`, and LDC and STC are `ldcWith` and
`stcWith`; what these do where an access is aborted is said above. -/
theorem multipleTransferAborts : Obligations.MultipleTransferAborts := by
  intro s c idx p u r wb l rn rd rm rb list list15 list8 off8 crd cp a i start j n hc
  refine ⟨fun words base regs ha h => ?_, fun words ha h => ?_,
    fun first second more v words hcp hv hb hn hlen hstart => ⟨fun hi ha => ?_, fun hi ha => ?_⟩⟩
  · rcases h with ⟨h15, rfl, hb, rfl, rfl, rfl, rfl⟩ | ⟨h15, rfl, hq, rfl, rfl, rfl, rfl⟩ |
      ⟨h15, rfl, hb, hq, rfl, rfl, rfl, rfl⟩ | ⟨hp, rfl, rfl, rfl, rfl⟩ | ⟨rfl, rfl, rfl, rfl, rfl⟩ |
      ⟨rfl, rfl, rfl, rfl, rfl⟩
    · obtain ⟨k, hx⟩ := exec_ldm_loads (p := p) (u := u) hc h15 ha.ne_nil hb
      rw [hx]
      exact loadRegs_of_aborts _ _ ha
    · exact exec_ldmUser_aborts hc h15 hq ha
    · rw [exec_ldmRestore_of_spsr hc h15 hb hq]
      exact loadRegs_of_aborts _ _ ha
    · rw [exec_pairTransfer hc hp, if_pos rfl]
      exact loadRegs_of_aborts _ _ ha
    · obtain ⟨k, hx⟩ := exec_thumbPop_loads ha.ne_nil
      rw [hx]
      exact loadRegs_of_aborts _ _ ha
    · obtain ⟨k, hx⟩ := exec_thumbLdmia_loads ha.ne_nil
      rw [hx]
      exact loadRegs_of_aborts _ _ ha
  · rcases h with ⟨h15, hb, rfl, rfl, rfl, rfl⟩ | ⟨h15, hq, rfl, rfl, rfl, rfl⟩ | ⟨hp, rfl, rfl, rfl⟩ |
      ⟨rfl, rfl, rfl, rfl⟩ | ⟨hb, rfl, rfl, rfl, rfl⟩
    · obtain ⟨k, hx⟩ := exec_stm_stores (p := p) (u := u) hc h15 ha.ne_nil hb
      rw [hx]
      exact storeList_map_of_aborts _ _ (listed_nodup list) ha
    · obtain ⟨k, hx⟩ := exec_stmUser_stores (p := p) (u := u) hc h15 ha.ne_nil hq
      rw [hx]
      exact storeList_map_of_aborts _ _ (listed_nodup list) ha
    · rw [exec_pairTransfer hc hp, if_neg Bool.false_ne_true]
      exact storeList_of_aborts (ws := [s.reg rd, s.reg (rd + 1)]) (by simp) ha _
    · obtain ⟨k, hx⟩ := exec_thumbPush_stores ha.ne_nil
      rw [hx]
      exact storeList_map_of_aborts _ _ (thumbListed_nodup list8 fun _ => by decide) ha
    · obtain ⟨k, hx⟩ := exec_thumbStmia_stores hb ha.ne_nil
      rw [hx]
      exact storeList_map_of_aborts _ _ (thumbListed_nodup list8 (extra := false) nofun) ha
  · subst hn hstart
    have hx : exec i s = ldcWith i p u wb rn off8 s := by
      rcases hi with rfl | rfl
      · exact (whenPassed_of_passed _ hc).trans (if_neg hcp)
      · exact if_neg hcp
    rw [hx]
    exact ldcWith_of_aborts hv hb ha
  · subst hn hstart
    have hx : exec i s = stcWith i p u wb rn off8 s := by
      rcases hi with rfl | rfl
      · exact (whenPassed_of_passed _ hc).trans (if_neg hcp)
      · exact if_neg hcp
    rw [hx]
    exact stcWith_of_aborts hv hb hlen ha

end Sys2Proof.Machine
end

section
/-!
PROOFS. The coprocessor instructions that are accepted and access no memory (O43).
-/
namespace Sys2Proof.Machine
open Sys2Proof

/-- A register and the record of what was handed over are written independently. -/
theorem State.setReg_send (s : State) (r : Reg) (w : Word) (i : Instr) (data : List Word) (b : Bool) :
    (s.setReg r w).send i data b = (s.send i data b).setReg r w := by
  unfold State.setReg
  rw [show (s.send i data b).mode = s.mode from rfl]
  cases bank s.mode r <;> rfl

/-- An instruction that writes two different registers and goes on. -/
theorem State.setReg_setReg_advance_spec (s : State) {rd rn : Reg} (v w : Word) (hd : rd ≠ 15#4) (hn : rn ≠ 15#4)
    (hne : rd ≠ rn) :
    ((s.setReg rd v).setReg rn w).advance.reg rd = v ∧ ((s.setReg rd v).setReg rn w).advance.reg rn = w ∧
      s.onlyWrites ((s.setReg rd v).setReg rn w).advance [rd, rn] [] := by
  refine ⟨?_, ?_, (((RegOnly.refl s [rd, rn]).set v (by simp)).set w (by simp)).advance⟩
  · rw [State.reg_advance _ hd, State.reg_setReg_ne _ _ hne, State.reg_setReg_same _ _ _ hd]
  · rw [State.reg_advance _ hn, State.reg_setReg_same _ _ _ hn]

/-- The state in which an accepted instruction has handed `data` over, and has written nothing of the core. -/
def State.handedOver (s : State) (answers : List CpAnswer) (free : Nat) (i : Instr) (data : List Word) : State :=
  (s.committed answers free).send i data true

/-- What O43 says of an accepted instruction: where it ends, given the words `first` and `second` and the answers that
are left, with the words that it hands over, and the registers and the bits of the CPSR that it writes. -/
def State.acceptedEnds (s : State) (answers : List CpAnswer) (first second : Word) (rd rn : Reg) :
    Instr × List Word × List Reg × List Nat → Prop
  | (i, data, regs, bits) => ∃ t, exec i s = .next t ∧ t.pc = s.nextPc ∧ s.onlyRegs t regs ∧ s.onlyBits t bits ∧
      s.systemKept t ∧ s.memoryKept t ∧ t.cpAnswers = answers ∧ t.cpWaiting = false ∧
      t.cpSent = s.cpSent ++ [⟨i, s.privileged, data, true⟩] ∧
      (regs ≠ [] → t.reg rd = first) ∧ (regs = [rd, rn] → t.reg rn = second) ∧
      (bits ≠ [] → ∀ k, 28 ≤ k → t.cpsr.getLsbD k = first.getLsbD k)

section
variable {s v : State} {i : Instr} {first second : Word} {more : List Word} {rd rn : Reg}

/-- What an instruction leaves as it was from the hand-over on it leaves as it was from its beginning, but for the
record of the coprocessors. -/
theorem acceptedEnds_of_onlyWrites {answers : List CpAnswer} {free : Nat} {t : State} {data : List Word}
    {regs : List Reg} {bits : List Nat} (hx : exec i s = .next t)
    (hw : (s.handedOver answers free i data).onlyWrites t regs bits) (hd : regs ≠ [] → t.reg rd = first)
    (hn : regs = [rd, rn] → t.reg rn = second)
    (hb : bits ≠ [] → ∀ k, 28 ≤ k → t.cpsr.getLsbD k = first.getLsbD k) :
    s.acceptedEnds answers first second rd rn (i, data, regs, bits) := by
  obtain ⟨hpc, hregs, hbits, hsys, ⟨hans, hsent, hwait⟩, hmem⟩ := hw
  exact ⟨t, hx, hpc, hregs, hbits, hsys, hmem, hans, hwait, hsent, hd, hn, hb⟩

/-- An instruction that hands `data` over and goes on writes nothing of the core. -/
theorem acceptedEnds_of_advance {answers : List CpAnswer} {free : Nat} {data : List Word}
    (hx : exec i s = .next (s.handedOver answers free i data).advance) :
    s.acceptedEnds answers first second rd rn (i, data, [], []) :=
  acceptedEnds_of_onlyWrites hx (State.onlyWrites_advance_only _) nofun nofun nofun

variable (h : s.coprocessor i = (.accept first second more, v))
include h

/-- CDP and CDP2 change nothing of the core (R241). -/
theorem cdpWith_acceptedEnds (hx : exec i s = cdpWith i s) :
    s.acceptedEnds v.cpAnswers first second rd rn (i, [], [], []) := by
  obtain ⟨n, hk⟩ := offer_of_accept h
  exact acceptedEnds_of_advance (hx.trans (hk _))

/-- MCR and MCR2 hand their register over (R243), which is not r15 (U14). -/
theorem mcrWith_acceptedEnds (hd : rd ≠ 15#4) (hx : exec i s = mcrWith i rd s) :
    s.acceptedEnds v.cpAnswers first second rd rn (i, [s.reg rd], [], []) := by
  obtain ⟨n, hk⟩ := offer_of_accept h
  exact acceptedEnds_of_advance (hx.trans ((hk _).trans (noPc_single _ hd)))

theorem mcrWith_of_pc (h15 : 15#4 ∈ [rd]) : mcrWith i rd s = .refused .r15Operand := by
  obtain ⟨n, hk⟩ := offer_of_accept h
  exact (hk _).trans (noPc_of_mem _ h15)

/-- MRC and MRC2 give the first word to their register (R242). -/
theorem mrcWith_acceptedEnds (hd : rd ≠ 15#4) (hx : exec i s = mrcWith i rd s) :
    s.acceptedEnds v.cpAnswers first second rd rn (i, [], [rd], []) := by
  obtain ⟨n, hk⟩ := offer_of_accept h
  obtain ⟨hr, hw⟩ := (s.handedOver v.cpAnswers n i []).setReg_advance_spec first hd
  exact acceptedEnds_of_onlyWrites (hx.trans ((hk _).trans (if_neg hd))) hw (fun _ => hr) nofun nofun

/-- MRC and MRC2 to r15 give the top four bits of the first word to the flags (R242). -/
theorem mrcWith_acceptedEnds_flags (hx : exec i s = mrcWith i 15#4 s) :
    s.acceptedEnds v.cpAnswers first second 15#4 rn (i, [], [], [31, 30, 29, 28]) := by
  obtain ⟨n, hk⟩ := offer_of_accept h
  exact acceptedEnds_of_onlyWrites (hx.trans ((hk _).trans (if_pos rfl))) (State.onlyWrites_topFlags _ _) nofun nofun
    fun _ k hk => (getLsbD_withTopFlags _ _ k).trans (if_pos hk)

end

section
variable {s v : State} {c : Cond} {rn rd : Reg} {cp o1 crm : BitVec 4} {first second : Word} {more : List Word}
  (hc : condPassed c s.cpsr = true) (hcp : cp ≠ 14#4)
include hc hcp

/-- An instruction of a coprocessor other than 14, whose condition passes. -/
theorem passed_attached (a k : Result) : whenPassed c s (if cp = 14#4 then a else k) = k :=
  (whenPassed_of_passed _ hc).trans (if_neg hcp)

/-- MCRR hands Rd and then Rn over (R245); neither is r15 (U14). -/
theorem execMcrr_of_accept (h : s.coprocessor (.mcrr c rn rd cp o1 crm) = (.accept first second more, v)) :
    ∃ n, exec (.mcrr c rn rd cp o1 crm) s = noPc [rn, rd]
      (.next (s.handedOver v.cpAnswers n (.mcrr c rn rd cp o1 crm) [s.reg rd, s.reg rn]).advance) := by
  obtain ⟨n, hk⟩ := offer_of_accept h
  exact ⟨n, (passed_attached hc hcp _ _).trans (hk _)⟩

/-- MRRC gives the two words to Rd and Rn (R244); neither is r15, and they differ (U14). -/
theorem execMrrc_of_accept (h : s.coprocessor (.mrrc c rn rd cp o1 crm) = (.accept first second more, v)) :
    ∃ n, exec (.mrrc c rn rd cp o1 crm) s = noPc [rn, rd] (distinct [(rd, rn)] (.next
      (((s.handedOver v.cpAnswers n (.mrrc c rn rd cp o1 crm) []).setReg rd first).setReg rn second).advance)) := by
  obtain ⟨n, hk⟩ := offer_of_accept h
  refine ⟨n, (passed_attached hc hcp _ _).trans ((hk _).trans ?_)⟩
  rw [State.setReg_send, State.setReg_send]
  rfl

end

/-- Settles O43: the accepted instruction is the end of its form applied to the state after the hand-over, and the
frames of these ends are those of one register, of two, of the four flags, or of none. -/
theorem coprocessorAccepted : Obligations.CoprocessorAccepted := by
  refine ⟨fun s c o1 crn cp crm p1 p2 rd rn first second more v i regs hc hcp h => ⟨fun h15 hi => ?_, ?_⟩,
    fun s c o1 crn crd cp crm p1 p2 rd rn first second more v i data regs bits hc hcp h hi => ?_⟩
  · simp only [List.mem_cons, List.not_mem_nil, or_false, Prod.mk.injEq] at hi
    rcases hi with ⟨rfl, rfl⟩ | ⟨rfl, rfl⟩ | ⟨rfl, rfl⟩ | ⟨rfl, rfl⟩
    · exact (passed_attached hc hcp _ _).trans (mcrWith_of_pc h h15)
    · exact (if_neg hcp).trans (mcrWith_of_pc h h15)
    · obtain ⟨n, hn⟩ := execMcrr_of_accept hc hcp h
      exact hn.trans (noPc_of_mem _ h15)
    · obtain ⟨n, hn⟩ := execMrrc_of_accept hc hcp h
      exact hn.trans (noPc_of_mem _ h15)
  · rintro hd rfl rfl
    obtain ⟨n, hn⟩ := execMrrc_of_accept hc hcp h
    exact hn.trans ((noPc_of_not_mem _ (by simpa using hd.symm)).trans (distinct_of_eq _ (by simp)))
  · simp only [List.mem_cons, List.not_mem_nil, or_false, Prod.mk.injEq] at hi
    rcases hi with (⟨rfl, rfl, rfl, rfl⟩ | ⟨rfl, rfl, rfl, rfl⟩) |
      ⟨hd, ⟨rfl, rfl, rfl, rfl⟩ | ⟨rfl, rfl, rfl, rfl⟩ | ⟨rfl, rfl, rfl, rfl⟩ | ⟨rfl, rfl, rfl, rfl⟩⟩ |
      ⟨rfl, ⟨rfl, rfl, rfl, rfl⟩ | ⟨rfl, rfl, rfl, rfl⟩⟩ | ⟨hd, hn, rfl, rfl, rfl, rfl⟩ |
      ⟨hd, hn, hne, rfl, rfl, rfl, rfl⟩
    · exact cdpWith_acceptedEnds h (passed_attached hc hcp _ _)
    · exact cdpWith_acceptedEnds h (if_neg hcp)
    · exact mcrWith_acceptedEnds h hd (passed_attached hc hcp _ _)
    · exact mcrWith_acceptedEnds h hd (if_neg hcp)
    · exact mrcWith_acceptedEnds h hd (passed_attached hc hcp _ _)
    · exact mrcWith_acceptedEnds h hd (if_neg hcp)
    · exact mrcWith_acceptedEnds_flags h (passed_attached hc hcp _ _)
    · exact mrcWith_acceptedEnds_flags h (if_neg hcp)
    · obtain ⟨n, he⟩ := execMcrr_of_accept hc hcp h
      exact acceptedEnds_of_advance (he.trans (noPc_of_not_mem _ (by simp [hd.symm, hn.symm])))
    · obtain ⟨n, he⟩ := execMrrc_of_accept hc hcp h
      obtain ⟨hrd, hrn, hw⟩ := (s.handedOver v.cpAnswers n _ []).setReg_setReg_advance_spec first second hd hn hne
      exact acceptedEnds_of_onlyWrites (he.trans ((noPc_of_not_mem _ (by simp [hd.symm, hn.symm])).trans
        (distinct_of_ne _ (by simpa using hne)))) hw (fun _ => hrd) (fun _ => hrn) nofun

end Sys2Proof.Machine
end

section
/-!
PROOFS. The Thumb data processing on low registers (O47), and its forms that name high registers or compute addresses
(O48).
-/
namespace Sys2Proof.Machine
open Sys2Proof

/-! ### Low registers (O47) -/

theorem addWithCarry_comm (a b : Word) (cin : Bool) : addWithCarry a b cin = addWithCarry b a cin := by
  simp only [addWithCarry, Nat.add_comm a.toNat, Int.add_comm a.toInt]

/-- The end of a Thumb sum: the destination and the four flags (R260). -/
theorem thumbArith_spec (rd : LowReg) (r : Sum) (s : State) :
    ∃ t, thumbArith rd r s = .next t ∧ t.reg (lowReg rd) = r.value ∧ s.onlyWrites t [lowReg rd] [31, 30, 29, 28] ∧
      flagsNZ t.cpsr r.value ∧ psrC t.cpsr = r.carry ∧ psrV t.cpsr = r.overflow := by
  obtain ⟨hv, hw⟩ := s.setReg_setCpsr_spec r.value (lowReg_ne_pc rd) (psrM_withArith s.cpsr r)
    (fun _ => onlyBits_withArith s.cpsr r) (by simp)
  exact ⟨_, rfl, hv, hw, flags_withArith s.cpsr r⟩

/-- A Thumb compare ends as an ARM compare that has passed its condition does: the four flags, no register (R260). -/
theorem thumbCompare_spec (r : Sum) (s : State) :
    ∃ t, thumbCompare r s = .next t ∧ s.onlyWrites t [] [31, 30, 29, 28] ∧ flagsNZ t.cpsr r.value ∧
      psrC t.cpsr = r.carry ∧ psrV t.cpsr = r.overflow :=
  arithTest_spec r s

/-- The end of the Thumb logical group: the destination, N and Z (R260). -/
theorem thumbLogic_spec (rd : LowReg) (v : Word) (s : State) :
    ∃ t, thumbLogic rd v s = .next t ∧ t.reg (lowReg rd) = v ∧ s.onlyWrites t [lowReg rd] [31, 30] ∧
      flagsNZ t.cpsr v := by
  obtain ⟨hv, hw⟩ := s.setReg_setCpsr_spec v (lowReg_ne_pc rd) (psrM_withNZ s.cpsr v)
    (fun _ => onlyBits_withNZ s.cpsr v) (by simp)
  exact ⟨_, rfl, hv, hw, flags_withNZ s.cpsr v⟩

/-- NEG is the sum of zero and the complement, in either order (R275). -/
theorem exec_thumbNeg (rm rd : LowReg) (s : State) :
    exec (.thumbNeg rm rd) s = thumbArith rd (addWithCarry 0#32 (~~~s.reg (lowReg rm)) true) s :=
  congrArg (thumbArith rd · s) (addWithCarry_comm _ _ _)

/-- MUL of two different registers (R276). -/
theorem exec_thumbMul_of_ne {rm rd : LowReg} (s : State) (h : rd ≠ rm) :
    exec (.thumbMul rm rd) s = thumbLogic rd (s.reg (lowReg rd) * s.reg (lowReg rm)) s := by
  have hne : lowReg rd ≠ lowReg rm := mt (lowReg_inj rd rm) h
  rw [BitVec.mul_comm]
  exact distinct_of_ne _ (by simpa using hne)

/-- MUL of a register with itself is refused (U6). -/
theorem exec_thumbMul_self (rd : LowReg) (s : State) : exec (.thumbMul rd rd) s = .refused .overlappingRegisters :=
  distinct_of_eq _ (by simp)

/-- Settles O47: each instruction ends as its group does, with a sum (`thumbArith_spec`), a compare
(`thumbCompare_spec`) or a value (`thumbLogic_spec`); TST has an end of its own. -/
theorem thumbArithmetic : Obligations.ThumbArithmetic := by
  rintro s rm rn rd imm3 imm8 x y z rfl rfl rfl
  simp only [List.mem_cons, List.not_mem_nil, or_false, Prod.mk.injEq]
  refine ⟨fun i r h => ?_, fun i r h => ?_, fun i v h => ?_, ?_, exec_thumbMul_self rd s⟩
  · have hx : exec i s = thumbArith rd r s := by
      rcases h with ⟨rfl, rfl⟩ | ⟨rfl, rfl⟩ | ⟨rfl, rfl⟩ | ⟨rfl, rfl⟩ | ⟨rfl, rfl⟩ | ⟨rfl, rfl⟩ | ⟨rfl, rfl⟩ |
        ⟨rfl, rfl⟩ | ⟨rfl, rfl⟩
      case inr.inr.inr.inr.inr.inr.inr.inr => exact exec_thumbNeg rm rd s
      all_goals rfl
    rw [hx]
    exact thumbArith_spec rd r s
  · have hx : exec i s = thumbCompare r s := by
      rcases h with ⟨rfl, rfl⟩ | ⟨rfl, rfl⟩ | ⟨rfl, rfl⟩ <;> rfl
    rw [hx]
    exact thumbCompare_spec r s
  · have hx : exec i s = thumbLogic rd v s := by
      rcases h with (⟨rfl, rfl⟩ | ⟨rfl, rfl⟩ | ⟨rfl, rfl⟩ | ⟨rfl, rfl⟩ | ⟨rfl, rfl⟩ | ⟨rfl, rfl⟩) | ⟨hne, rfl, rfl⟩
      case inr => exact exec_thumbMul_of_ne s hne
      all_goals rfl
    rw [hx]
    exact thumbLogic_spec rd v s
  · exact ⟨_, rfl, s.onlyWrites_cpsr _ (fun _ => onlyBits_withNZ s.cpsr _) (by simp), flags_withNZ s.cpsr _⟩

/-! ### High registers and addresses (O48) -/

/-- A high-register form with a destination other than r15 writes it and goes on (R262, R267). -/
theorem thumbHigh_of_reg {rd : Reg} (v : Word) (s : State) (hd : rd ≠ 15#4) :
    ∃ t, thumbHigh rd v s = .next t ∧ t.reg rd = v ∧ s.onlyWrites t [rd] [] :=
  ⟨_, if_neg hd, s.setReg_advance_spec v hd⟩

/-- With r15 as the destination it branches in Thumb state, to the value with bit 0 cleared (R262, R267). -/
theorem thumbHigh_of_pc (v : Word) (s : State) :
    ∃ t, thumbHigh 15#4 v s = .next t ∧ s.onlyJumps t (v - v % 2) [] [] := by
  rw [← clear_low_bit]
  exact ⟨_, if_pos rfl, s.onlyJumps_setPc _⟩

/-- Settles O48: ADD and MOV end as `thumbHigh`, CMP as the compare of a difference, and the address forms write one
register and go on. -/
theorem thumbHighAndAddress : Obligations.ThumbHighAndAddress := by
  intro s rm rd r imm7 imm8
  simp only [List.mem_cons, List.not_mem_nil, or_false, Prod.mk.injEq]
  refine ⟨fun i v h => ?_, fun hd => ?_, fun hd => noPc_of_mem _ (by simp [hd]), fun i d v h => ?_⟩
  · have hx : exec i s = thumbHigh rd v s := by
      rcases h with ⟨rfl, rfl⟩ | ⟨rfl, rfl⟩ <;> rfl
    rw [hx]
    refine ⟨thumbHigh_of_reg v s, ?_⟩
    rintro rfl
    exact thumbHigh_of_pc v s
  · obtain ⟨hv, hb⟩ := subtract_spec (s.reg rd) (s.reg rm)
    obtain ⟨t, ht, hw, hnz, hc, ho⟩ := thumbCompare_spec (subtract (s.reg rd) (s.reg rm)) s
    exact ⟨t, (noPc_single _ hd).trans ht, hw, hv ▸ hnz, hc ▸ hb, ho⟩
  · have hx : exec i s = .next (s.setReg d v).advance ∧ d ≠ 15#4 := by
      simp only [← scaled4_eq, ← wordAlign_eq] at h
      rcases h with ⟨rfl, rfl, rfl⟩ | ⟨rfl, rfl, rfl⟩ | ⟨rfl, rfl, rfl⟩ | ⟨rfl, rfl, rfl⟩
      · exact ⟨rfl, lowReg_ne_pc r⟩
      · exact ⟨rfl, lowReg_ne_pc r⟩
      · exact ⟨rfl, by decide⟩
      · exact ⟨rfl, by decide⟩
    obtain ⟨hexec, hd⟩ := hx
    exact ⟨_, hexec, s.setReg_advance_spec v hd⟩

end Sys2Proof.Machine
end
